-- ==== Sys2Proof/Word.lean ====
section
/-! DEFINITION. The word types of the descriptor ring manager: what the spec treats as bits. -/

namespace Sys2Proof

/-- One byte of DMA-visible memory (20_memory.md R80). -/
abbrev Byte := BitVec 8

/-- A CSR, an epoch, a counter, a word of `imem` (10_state.md R47, R41, R36, R68). -/
abbrev Word := BitVec 32

/-- A physical address; also the handle of a receive buffer (10_state.md R28). -/
abbrev Addr := BitVec 64

/-- A packet handle, any 32-bit value (10_state.md R25). -/
abbrev Handle := BitVec 32

end Sys2Proof
end

