-- ==== Sys2Proof/Syntax.lean ====
section
/-! DEFINITION. The 25 operations of 30_encoding.md R112 as one inductive, with the operands of their formats (R113). -/

namespace Sys2Proof

/-- A segment record, 80 bits: `addr = seg[79:16]`, `len = seg[15:0]` (30_encoding.md R114). -/
structure Seg where
  addr : Addr
  len  : BitVec 16
deriving DecidableEq, Repr

/-- One constructor per row of the opcode map, 30_encoding.md R112. In format P the field `nseg` is the length of the list. -/
inductive Instr where
  | rdreg     (off : BitVec 16)
  | wrreg     (off : BitVec 16) (val : Word)
  | rdind     (addr : Word)
  | wrind     (addr val : Word)
  | doorbell  (off : BitVec 16) (val : Word)
  | setbit    (off : BitVec 16) (mask : Word)
  | clrbit    (off : BitVec 16) (mask : Word)
  | txpost    (csum : Bool) (h : Handle) (segs : List Seg)
  | txreclaim (idx : BitVec 16)
  | rxpost    (slot : BitVec 16) (buf : Addr)
  | rrdrain   (idx : BitVec 16)
  | rxrefill  (slot : BitVec 16)
  | onint
  | wdtick
  | submit    (csum : Bool) (h : Handle) (segs : List Seg)
  | lnkauto   (adv : BitVec 2) (caps : BitVec 6)
  | lnkforce  (duplex : Bool) (speed : BitVec 2)
  | resdone   (e : Word)
  | start
  | stop
  | adpreset
  | devtx     (k : BitVec 8)
  | devrx     (flags err : BitVec 2) (len : BitVec 16)
  | devsb
  | physet    (status : BitVec 8)
deriving DecidableEq, Repr

/-- Who presents a word: the host on the command port, or an environment agent taking a step of its own
(30_encoding.md R110, R116; 00_scope.md R14). -/
inductive Port where
  | host
  | device
  | phy
deriving DecidableEq, Repr

/-- The agent an operation belongs to: opcodes 0x60 to 0x62 are steps of the device, 0x63 of the PHY, all others are host
requests (30_encoding.md R116). -/
def Instr.port : Instr → Port
  | .rdreg _ => .host
  | .wrreg _ _ => .host
  | .rdind _ => .host
  | .wrind _ _ => .host
  | .doorbell _ _ => .host
  | .setbit _ _ => .host
  | .clrbit _ _ => .host
  | .txpost _ _ _ => .host
  | .txreclaim _ => .host
  | .rxpost _ _ => .host
  | .rrdrain _ => .host
  | .rxrefill _ => .host
  | .onint => .host
  | .wdtick => .host
  | .submit _ _ _ => .host
  | .lnkauto _ _ => .host
  | .lnkforce _ _ => .host
  | .resdone _ => .host
  | .start => .host
  | .stop => .host
  | .adpreset => .host
  | .devtx _ => .device
  | .devrx _ _ _ => .device
  | .devsb => .device
  | .physet _ => .phy

/-- One message on a port: the command word `cmd`, the data operand `d` and the segment records (30_encoding.md R110). -/
structure Request where
  port : Port
  cmd  : BitVec 32
  d    : BitVec 64
  seg  : List (BitVec 80)
deriving DecidableEq, Repr

end Sys2Proof
end

