-- ==== Sys2Proof/WellFormed.lean ====
section
/-! DEFINITION. Which instruction terms an encoding exists for (30_encoding.md R113): the segment count fits the 8-bit field
`a`, and `PHYSET` has `status[5] = 0`. Every other operand field is as wide as its type. -/

namespace Sys2Proof

/-- `nseg = cmd[23:16]` is 8 bits wide. -/
def segCountOk (segs : List Seg) : Bool := decide (segs.length ≤ 255)

/-- `PHYSET`: `b[7:0] = status` with `b[5] = 0`. -/
def phyStatusOk (status : BitVec 8) : Bool := !status.getLsbD 5

/-- The checks as one Bool, one arm per constructor. -/
def Instr.wellFormed : Instr → Bool
  | .rdreg _ => true
  | .wrreg _ _ => true
  | .rdind _ => true
  | .wrind _ _ => true
  | .doorbell _ _ => true
  | .setbit _ _ => true
  | .clrbit _ _ => true
  | .txpost _ _ segs => segCountOk segs
  | .txreclaim _ => true
  | .rxpost _ _ => true
  | .rrdrain _ => true
  | .rxrefill _ => true
  | .onint => true
  | .wdtick => true
  | .submit _ _ segs => segCountOk segs
  | .lnkauto _ _ => true
  | .lnkforce _ _ => true
  | .resdone _ => true
  | .start => true
  | .stop => true
  | .adpreset => true
  | .devtx _ => true
  | .devrx _ _ _ => true
  | .devsb => true
  | .physet status => phyStatusOk status

/-- An instruction some command word and operands stand for. -/
abbrev Instr.WellFormed (i : Instr) : Prop := i.wellFormed = true

end Sys2Proof
end

