-- ==== Sys2Proof/Decode.lean ====
section
/-! DEFINITION. Decoding a request and encoding an instruction (30_encoding.md R110 to R116), from the same opcode map. -/

namespace Sys2Proof

/-- A row of the opcode map R112: opcode number, mnemonic, and the `match`/`mask` pair over the command word. -/
structure OpRow where
  opcode   : BitVec 8
  mnemonic : String
  value    : BitVec 32
  mask     : BitVec 32
deriving DecidableEq, Repr

/-- The opcode map, 30_encoding.md R112, row by row in the table's order. -/
def opcodeMap : List OpRow :=
  [ ⟨0x01, "RDREG",     0x01000000, 0xFFFF0000⟩,
    ⟨0x02, "WRREG",     0x02000000, 0xFFFF0000⟩,
    ⟨0x03, "RDIND",     0x03000000, 0xFFFFFFFF⟩,
    ⟨0x04, "WRIND",     0x04000000, 0xFFFFFFFF⟩,
    ⟨0x05, "DOORBELL",  0x05000000, 0xFFFF0000⟩,
    ⟨0x06, "SETBIT",    0x06000000, 0xFFFF0000⟩,
    ⟨0x07, "CLRBIT",    0x07000000, 0xFFFF0000⟩,
    ⟨0x10, "TXPOST",    0x10000000, 0xFF00FFFE⟩,
    ⟨0x11, "TXRECLAIM", 0x11000000, 0xFFFF0000⟩,
    ⟨0x12, "RXPOST",    0x12000000, 0xFFFF0000⟩,
    ⟨0x13, "RRDRAIN",   0x13000000, 0xFFFF0000⟩,
    ⟨0x14, "RXREFILL",  0x14000000, 0xFFFF0000⟩,
    ⟨0x20, "ONINT",     0x20000000, 0xFFFFFFFF⟩,
    ⟨0x21, "WDTICK",    0x21000000, 0xFFFFFFFF⟩,
    ⟨0x30, "SUBMIT",    0x30000000, 0xFF00FFFE⟩,
    ⟨0x40, "LNKAUTO",   0x40000000, 0xFFFFFF00⟩,
    ⟨0x41, "LNKFORCE",  0x41000000, 0xFFFFFFF8⟩,
    ⟨0x42, "RESDONE",   0x42000000, 0xFFFFFFFF⟩,
    ⟨0x50, "START",     0x50000000, 0xFFFFFFFF⟩,
    ⟨0x51, "STOP",      0x51000000, 0xFFFFFFFF⟩,
    ⟨0x52, "ADPRESET",  0x52000000, 0xFFFFFFFF⟩,
    ⟨0x60, "DEVTX",     0x60000000, 0xFF00FFFF⟩,
    ⟨0x61, "DEVRX",     0x61000000, 0xFFF00000⟩,
    ⟨0x62, "DEVSB",     0x62000000, 0xFFFFFFFF⟩,
    ⟨0x63, "PHYSET",    0x63000000, 0xFFFFFF20⟩ ]

/-- `w & mask = match` (R112). -/
def OpRow.hits (r : OpRow) (w : BitVec 32) : Bool := w &&& r.mask == r.value

/-- The fields of the command word: `cmd[31:24] = op`, `cmd[23:16] = a`, `cmd[15:0] = b` (R111). -/
def cmdOp (cmd : BitVec 32) : BitVec 8 := cmd.extractLsb' 24 8

def cmdA (cmd : BitVec 32) : BitVec 8 := cmd.extractLsb' 16 8

def cmdB (cmd : BitVec 32) : BitVec 16 := cmd.extractLsb' 0 16

/-- The command word with the given fields. -/
def mkCmd (op a : BitVec 8) (b : BitVec 16) : BitVec 32 := op ++ a ++ b

/-- `seg[k][79:16] = addr`, `seg[k][15:0] = len` (R114). -/
def segOfRecord (r : BitVec 80) : Seg := ⟨r.extractLsb' 16 64, r.extractLsb' 0 16⟩

def recordOfSeg (g : Seg) : BitVec 80 := g.addr ++ g.len

/-- The segments `seg[0 .. nseg-1]` of a request; an entry the port does not carry reads as zero (log 9). -/
def takeSegs (nseg : Nat) (seg : List (BitVec 80)) : List Seg :=
  (List.range nseg).map fun k => segOfRecord (seg.getD k 0)

/-- Decoding by fields. A word of a listed opcode with a non-zero bit in a field its format requires to be zero is illegal
(R113, R116); bits of `d` and entries of `seg` the format does not name are ignored. -/
def decodeFields (op a : BitVec 8) (b : BitVec 16) (d : BitVec 64) (seg : List (BitVec 80)) : Option Instr :=
  let dlo : Word := d.extractLsb' 0 32
  let dhi : Word := d.extractLsb' 32 32
  match op.toNat with
  | 0x01 => if a = 0 then some (.rdreg b) else none
  | 0x02 => if a = 0 then some (.wrreg b dlo) else none
  | 0x03 => if a = 0 ∧ b = 0 then some (.rdind dlo) else none
  | 0x04 => if a = 0 ∧ b = 0 then some (.wrind dlo dhi) else none
  | 0x05 => if a = 0 then some (.doorbell b dlo) else none
  | 0x06 => if a = 0 then some (.setbit b dlo) else none
  | 0x07 => if a = 0 then some (.clrbit b dlo) else none
  | 0x10 => if b.extractLsb' 1 15 = 0 then some (.txpost (b.getLsbD 0) dlo (takeSegs a.toNat seg)) else none
  | 0x11 => if a = 0 then some (.txreclaim b) else none
  | 0x12 => if a = 0 then some (.rxpost b d) else none
  | 0x13 => if a = 0 then some (.rrdrain b) else none
  | 0x14 => if a = 0 then some (.rxrefill b) else none
  | 0x20 => if a = 0 ∧ b = 0 then some .onint else none
  | 0x21 => if a = 0 ∧ b = 0 then some .wdtick else none
  | 0x30 => if b.extractLsb' 1 15 = 0 then some (.submit (b.getLsbD 0) dlo (takeSegs a.toNat seg)) else none
  | 0x40 => if a = 0 ∧ b.extractLsb' 8 8 = 0 then some (.lnkauto (b.extractLsb' 6 2) (b.extractLsb' 0 6)) else none
  | 0x41 => if a = 0 ∧ b.extractLsb' 3 13 = 0 then some (.lnkforce (b.getLsbD 2) (b.extractLsb' 0 2)) else none
  | 0x42 => if a = 0 ∧ b = 0 then some (.resdone dlo) else none
  | 0x50 => if a = 0 ∧ b = 0 then some .start else none
  | 0x51 => if a = 0 ∧ b = 0 then some .stop else none
  | 0x52 => if a = 0 ∧ b = 0 then some .adpreset else none
  | 0x60 => if b = 0 then some (.devtx a) else none
  | 0x61 => if a.extractLsb' 4 4 = 0 then some (.devrx (a.extractLsb' 2 2) (a.extractLsb' 0 2) b) else none
  | 0x62 => if a = 0 ∧ b = 0 then some .devsb else none
  | 0x63 => if a = 0 ∧ b.extractLsb' 8 8 = 0 ∧ b.getLsbD 5 = false then some (.physet (b.extractLsb' 0 8)) else none
  | _ => none

/-- What the words of a request say, whoever presents them. -/
def decodeWords (cmd : BitVec 32) (d : BitVec 64) (seg : List (BitVec 80)) : Option Instr :=
  decodeFields (cmdOp cmd) (cmdA cmd) (cmdB cmd) d seg

/-- Total decoding of a request: an operation is legal only from the agent it belongs to (R116). -/
def decode (r : Request) : Option Instr :=
  (decodeWords r.cmd r.d r.seg).filter fun i => i.port == r.port

/-- `d` with the two halves given. -/
def mkD (hi lo : Word) : BitVec 64 := hi ++ lo

/-- A request without data or segments. -/
def bareRequest (port : Port) (op a : BitVec 8) (b : BitVec 16) : Request := ⟨port, mkCmd op a b, 0, []⟩

/-- A host request with `d[31:0]` given. -/
def loRequest (op : BitVec 8) (b : BitVec 16) (lo : Word) : Request := ⟨.host, mkCmd op 0 b, mkD 0 lo, []⟩

/-- A packet request, format P. -/
def packetRequest (op : BitVec 8) (csum : Bool) (h : Handle) (segs : List Seg) : Request :=
  ⟨.host, mkCmd op (BitVec.ofNat 8 segs.length) ((0 : BitVec 15) ++ BitVec.ofBool csum), mkD 0 h, segs.map recordOfSeg⟩

/-- The request a well-formed instruction is written as (R112, R113, R114); fields the format does not name are zero. -/
def encode : Instr → Request
  | .rdreg off => bareRequest .host 0x01 0 off
  | .wrreg off val => loRequest 0x02 off val
  | .rdind addr => loRequest 0x03 0 addr
  | .wrind addr val => ⟨.host, mkCmd 0x04 0 0, mkD val addr, []⟩
  | .doorbell off val => loRequest 0x05 off val
  | .setbit off mask => loRequest 0x06 off mask
  | .clrbit off mask => loRequest 0x07 off mask
  | .txpost csum h segs => packetRequest 0x10 csum h segs
  | .txreclaim idx => bareRequest .host 0x11 0 idx
  | .rxpost slot buf => ⟨.host, mkCmd 0x12 0 slot, buf, []⟩
  | .rrdrain idx => bareRequest .host 0x13 0 idx
  | .rxrefill slot => bareRequest .host 0x14 0 slot
  | .onint => bareRequest .host 0x20 0 0
  | .wdtick => bareRequest .host 0x21 0 0
  | .submit csum h segs => packetRequest 0x30 csum h segs
  | .lnkauto adv caps => bareRequest .host 0x40 0 ((0 : BitVec 8) ++ adv ++ caps)
  | .lnkforce duplex speed => bareRequest .host 0x41 0 ((0 : BitVec 13) ++ BitVec.ofBool duplex ++ speed)
  | .resdone e => loRequest 0x42 0 e
  | .start => bareRequest .host 0x50 0 0
  | .stop => bareRequest .host 0x51 0 0
  | .adpreset => bareRequest .host 0x52 0 0
  | .devtx k => bareRequest .device 0x60 k 0
  | .devrx flags err len => bareRequest .device 0x61 ((0 : BitVec 4) ++ flags ++ err) len
  | .devsb => bareRequest .device 0x62 0 0
  | .physet status => bareRequest .phy 0x63 0 ((0 : BitVec 8) ++ status)

/-- The port on which an opcode is a legal word (R116). -/
def portOfOpcode (op : BitVec 8) : Port :=
  if op = 0x60 ∨ op = 0x61 ∨ op = 0x62 then .device else if op = 0x63 then .phy else .host

/-- The request whose bits are `w`: the command word is bits 31:0, `d` bits 95:32, `seg[k]` bits `80k+175 : 80k+96`; bits
from `nbits` up are 0. It stands on the port of the agent its opcode belongs to. -/
def requestOfWord (nbits w : Nat) : Request :=
  let v := w % 2 ^ nbits
  let cmd : BitVec 32 := BitVec.ofNat 32 v
  ⟨portOfOpcode (cmdOp cmd), cmd, BitVec.ofNat 64 (v >>> 32),
    (List.range (cmdA cmd).toNat).map fun k => BitVec.ofNat 80 (v >>> (96 + 80 * k))⟩

/-- The instruction the decoder reads from a table word. -/
def decodeTableWord (nbits w : Nat) : Option Instr := decode (requestOfWord nbits w)

end Sys2Proof
end

