-- ==== Sys2Proof/Config.lean ====
section
/-! DEFINITION. The implementation parameters (00_scope.md R7) and the values the spec leaves free.

The parameters are OPEN in the spec ("the model takes the named parameter as an argument and every proof must hold for all its
legal values"). They are a record `Params` that the state carries (log 2), so that a statement about every state is a statement
about every parameter value. The free values are constants without a body: nothing can be proved of what they are. -/

namespace Sys2Proof

/-- `NEG_FALLBACK` (44_link_fsm.md R202): what follows exhausted negotiation retries. -/
inductive Fallback where
  | fbLinkDown
  | fbForced (speed : BitVec 2) (duplex : Bool)
deriving DecidableEq, Repr

/-- The parameters of 00_scope.md R7; `logn` stands for `N = 2^LOGN`. -/
structure Params where
  logn        : Nat
  maxseg      : Nat
  maxpkt      : Nat
  bufcap      : Nat
  wdTimeout   : Nat
  negTimeout  : Nat
  negRetryMax : Nat
  negFallback : Fallback
  renegOnLoss : Bool
  txBase      : Nat
  rxBase      : Nat
  rrBase      : Nat
  sbBase      : Nat
  csrBase     : Nat
  imemWords   : Nat
deriving DecidableEq, Repr

/-- `N`, the slot count of each of the three rings. -/
def Params.n (p : Params) : Nat := 2 ^ p.logn

/-- The half-open address ranges `[a, a+la)` and `[b, b+lb)` share no byte. -/
abbrev disjointRanges (a la b lb : Nat) : Prop := a + la ≤ b ∨ b + lb ≤ a

/-- The four fixed regions as (base, size): 20_memory.md R82. -/
def Params.regions (p : Params) : List (Nat × Nat) :=
  [(p.txBase, 16 * p.n), (p.rxBase, 16 * p.n), (p.rrBase, 8 * p.n), (p.sbBase, 8)]

/-- The legal parameter values: the constraints of 00_scope.md R7 (decision D4) and the placement of the regions,
20_memory.md R82 (aligned, inside the 64-bit address space, pairwise disjoint). -/
structure Params.Legal (p : Params) : Prop where
  logn_pos      : 1 ≤ p.logn
  logn_le       : p.logn ≤ 15
  maxseg_pos    : 1 ≤ p.maxseg
  maxseg_lt     : p.maxseg ≤ p.n - 1
  maxseg_le     : p.maxseg ≤ 255
  maxpkt_pos    : 1 ≤ p.maxpkt
  maxpkt_le     : p.maxpkt ≤ p.bufcap
  bufcap_le     : p.bufcap ≤ 65535
  wd_pos        : 1 ≤ p.wdTimeout
  wd_le         : p.wdTimeout ≤ 65535
  neg_pos       : 1 ≤ p.negTimeout
  neg_le        : p.negTimeout ≤ 65535
  retry_le      : p.negRetryMax ≤ 255
  fallback_ok   : ∀ d, p.negFallback ≠ .fbForced 3#2 d
  tx_aligned    : p.txBase % 16 = 0
  rx_aligned    : p.rxBase % 16 = 0
  rr_aligned    : p.rrBase % 8 = 0
  sb_aligned    : p.sbBase % 8 = 0
  tx_inside     : p.txBase + 16 * p.n ≤ 2 ^ 64
  rx_inside     : p.rxBase + 16 * p.n ≤ 2 ^ 64
  rr_inside     : p.rrBase + 8 * p.n ≤ 2 ^ 64
  sb_inside     : p.sbBase + 8 ≤ 2 ^ 64
  regions_apart : p.regions.Pairwise fun a b => disjointRanges a.1 a.2 b.1 b.2
  imem_pos      : 1 ≤ p.imemWords

namespace Config

/-- The parameter values at `State.reset`: the configuration of 95_test_vectors.md section 2, which is not normative.
DESIGN CHOICE (log 2): the spec gives none; no statement rests on it, since each is for every state and so every value. -/
def resetParams : Params where
  logn        := 3
  maxseg      := 4
  maxpkt      := 1518
  bufcap      := 2048
  wdTimeout   := 3
  negTimeout  := 2
  negRetryMax := 1
  negFallback := .fbLinkDown
  renegOnLoss := false
  txBase      := 0x10000
  rxBase      := 0x10100
  rrBase      := 0x10200
  sbBase      := 0x10300
  csrBase     := 0
  imemWords   := 64

/-- What the byte of DMA-visible memory at an address that nothing has written reads as: any value, fixed for the run
(93 U1, U10; log 4). -/
opaque unwrittenByte : Nat → Byte

/-- What the word of `imem` with an index that nothing has written reads as: "`any value`, fixed per word until it is
written" (93 U8, 10_state.md R68; log 5). -/
opaque unwrittenImem : Nat → Word

/-- The allocator's answer to its `k`-th call, where the state lists none for it: the environment's choice (93 U19,
46_environment_agents.md R246; log 3). -/
opaque allocAnswer : Nat → Option Addr

/-- The handle "the b with S.rx_slot[i] = Some b" of a slot that holds none: the spec has no such buffer, and no run reaches
the case (invariant I5; log 11). -/
opaque missingBuffer : Nat → Addr

end Config

end Sys2Proof
end

