-- ==== Sys2Proof/Machine/State.lean ====
section
/-! DEFINITION. The machine state as plain data: every element 10_state.md gives the machine (R20), grouped by owner, with the
memories, the device, the environment and the ports; the stop reasons; and the state after hardware reset (R76, R300). -/

namespace Sys2Proof.Machine

/-- The result codes, 60_exceptions.md R260. -/
inductive ResCode where
  | ok
  | outOfDescriptors
  | outOfBuffers
  | hardwareTimeout
  | negotiationTimeout
  | checksumOrLengthError
  | zeroLength
  | tooManySegments
  | notEnabled
  | gateClosed
  | badState
  | badOperand
  | slotBusy
  | indexFault
  | illegalCommand
  | staleEpoch
deriving DecidableEq, Repr

/-- What the result port carries: `res_code` and `res_val` (30_encoding.md R110, R117). -/
structure Result where
  code : ResCode
  val  : BitVec 64
deriving DecidableEq, Repr

/-- The event records of 30_encoding.md R118. -/
inductive Event where
  | txDone (h : Handle)
  | txFailed (h : Handle)
  | deliver (buf : Addr) (len : BitVec 16) (ipCsumOk l4CsumOk : Bool)
  | bufFree (buf : Addr)
  | resume
  | linkUp (e : Word) (speed : BitVec 2) (duplex fcRx fcTx : Bool)
  | linkDown (e : Word)
  | hwTimeout
  | negTimeout
  | schedResolve (e : Word)
  | rxFilled (buf : Addr) (len flags : BitVec 16)
  | rxDropped (slot err : BitVec 16)
  | rxNoBuf (slot : BitVec 16)
deriving DecidableEq, Repr

/-- What the environment may present next: a request or agent step in words, or a write by a device that breaks the protocol,
"write any 8 bytes to `SB` or to any `RrDesc[j]`" (46_environment_agents.md R242; log 16). -/
inductive Stimulus where
  | command (r : Request)
  | rogueSb (v : BitVec 64)
  | rogueRr (j : Nat) (v : BitVec 64)
deriving DecidableEq, Repr

/-- One element of the list `rr_drain` returns (41_ring_manager.md R150). -/
inductive Drained where
  | filled (buf : Addr) (len flags : BitVec 16)
  | dropped (slot err : BitVec 16)
  | noBuf (slot : BitVec 16)
deriving DecidableEq, Repr

/-- The four states of the link FSM, 10_state.md R39. -/
inductive LinkState where
  | down
  | negotiating
  | resolving
  | up
deriving DecidableEq, Repr

/-- The requested way of bringing the link up, 10_state.md R42. -/
inductive LinkMode where
  | auto
  | forced (speed : BitVec 2) (duplex : Bool)
deriving DecidableEq, Repr

/-- The registers that `RegRead` and `RegWrite` reach, 10_state.md R48. -/
inductive Csr where
  | drmStatus
  | txIndex
  | txFree
  | rxIndex
  | snapshot
  | snapTag
  | linkEpoch
  | cntRxDrop
  | cntRxNobuf
  | wdState
  | negState
  | fault
  | devCtrl
  | linkCfg
  | linkRes
  | phyAdv
  | phyCtrl
  | phyStatus
  | macMode
  | winBase
  | winData
  | mbTxProd
  | mbRxProd
  | mbRrCons
deriving DecidableEq, Repr

/-- The TX ring's host-side state, 10_state.md R22 to R25; `N` slots. -/
structure TxRing where
  prod : Nat
  free : Nat
  cons : Nat
  slot : List (Option Handle)
deriving DecidableEq, Repr

/-- The host-side state of the RX-post and RX-return rings, 10_state.md R27, R28, R30; `N` slots. -/
structure RxRing where
  prod   : Nat
  slot   : List (Option Addr)
  rrCons : Nat
deriving DecidableEq, Repr

/-- The status block poller and the watchdog, 10_state.md R32 to R34. -/
structure Poller where
  snapTxCons   : Nat
  snapRrProd   : Nat
  snapTag      : Word
  irqRing      : Bool
  irqLink      : Bool
  wdStallTicks : BitVec 16
  wdProgress   : Bool
deriving DecidableEq, Repr

/-- Packet I/O and lifecycle: 10_state.md R35 to R38. -/
structure Control where
  txStalled  : Bool
  cntRxDrop  : Word
  cntRxNobuf : Word
  faultTxIdx : Bool
  faultRrIdx : Bool
  enabled    : Bool
deriving DecidableEq, Repr

/-- The link FSM, 10_state.md R39 to R46. -/
structure Link where
  state      : LinkState
  up         : Bool
  epoch      : Word
  mode       : LinkMode
  advCaps    : BitVec 6
  advLocal   : BitVec 2
  resSpeed   : BitVec 2
  resDuplex  : Bool
  advPartner : BitVec 2
  curSpeed   : BitVec 2
  curDuplex  : Bool
  fcRx       : Bool
  fcTx       : Bool
  negTicks   : BitVec 16
  negRetries : BitVec 8
deriving DecidableEq, Repr

/-- The CSRs that store something of their own, 10_state.md R59, R62 to R67. -/
structure Csrs where
  devCtrlEn : Bool
  phyAdv    : Word
  phyCtrl   : Word
  phyStatus : Word
  macMode   : Word
  winBase   : Word
  mbTxProd  : Word
  mbRxProd  : Word
  mbRrCons  : Word
deriving DecidableEq, Repr

/-- The device's own state, 10_state.md R70. -/
structure Device where
  active    : Bool
  txCons    : Nat
  txSeen    : Nat
  txPending : Nat
  rxCons    : Nat
  rxSeen    : Nat
  rxAvail   : Nat
  rrProd    : Nat
  rrSeen    : Nat
  tag       : Word
deriving DecidableEq, Repr

/-- The allocator and the callbacks in flight: `live` (R72, sorted, no repeats) and `resolve_pending` (R73, sorted), and the
model's own input to the allocator oracle: the answers still to come and how many calls have been made (log 3, log 14). -/
structure Environment where
  live           : List Addr
  resolvePending : List Word
  allocIn        : List (Option Addr)
  allocCalls     : Nat
deriving DecidableEq, Repr

/-- The ports: what the environment presents, oldest first; the last result; the events, oldest first (30_encoding.md R110,
10_state.md R69; log 1, log 8). -/
structure Ports where
  pending : List Stimulus
  result  : Option Result
  events  : List Event
deriving DecidableEq, Repr

/-- The whole machine, 10_state.md R20. `mem` is DMA-visible host memory and `imem` the memory behind the indirect window,
both in the canonical form of Machine/Memory.lean; `par` holds the parameters of 00_scope.md R7, which no step changes (R8). -/
structure State where
  par  : Params
  tx   : TxRing
  rx   : RxRing
  poll : Poller
  ctl  : Control
  link : Link
  csr  : Csrs
  imem : List (Nat × Word)
  mem  : List Host.Cell
  dev  : Device
  env  : Environment
  port : Ports
deriving DecidableEq, Repr

/-- Why the machine has no successor state. Both are safe: the model stops where the spec says that no step exists. -/
inductive Fault where
  /-- An agent presented a word that is no step of its own, or a step whose enabling condition does not hold: "the step does
  not exist (the agent cannot take it)" (46_environment_agents.md R235, 30_encoding.md R116). Raised by `step` on the device
  and PHY ports and by DEVTX, DEVRX, DEVSB, PHYSET. Safe. -/
  | noSuchStep
  /-- An operation would increment `epoch` at 0xFFFFFFFF: "`stuck`" (93 U11, 70_reset_and_hazards.md R316). Raised by every
  operation that can increment the epoch (44_link_fsm.md R192). Safe. -/
  | epochOverflow
deriving DecidableEq, Repr

/-- Why an instruction has no meaning in this model. -/
inductive Refusal where
  /-- An arm of `exec` that has not been given its meaning yet; no arm is left so. Safe. -/
  | notModelled (mnemonic : String)
deriving DecidableEq, Repr

/-- The hardware-reset state (10_state.md R76, 70_reset_and_hazards.md R300) with given parameters: every element at the value
the table gives; memory and `imem` with nothing listed. The result port, the stimuli and the allocator input are the model's
own and empty (log 1, log 3, log 8). -/
def State.resetOf (p : Params) : State where
  par  := p
  tx   := { prod := 0, free := p.n, cons := 0, slot := List.replicate p.n none }
  rx   := { prod := 0, slot := List.replicate p.n none, rrCons := 0 }
  poll := { snapTxCons := 0, snapRrProd := 0, snapTag := 0, irqRing := false, irqLink := false, wdStallTicks := 0,
            wdProgress := false }
  ctl  := { txStalled := false, cntRxDrop := 0, cntRxNobuf := 0, faultTxIdx := false, faultRrIdx := false, enabled := false }
  link := { state := .down, up := false, epoch := 0, mode := .auto, advCaps := 0x3F, advLocal := 0b11, resSpeed := 0,
            resDuplex := false, advPartner := 0, curSpeed := 0, curDuplex := false, fcRx := false, fcTx := false,
            negTicks := 0, negRetries := 0 }
  csr  := { devCtrlEn := false, phyAdv := 0, phyCtrl := 0, phyStatus := 0, macMode := 0, winBase := 0, mbTxProd := 0,
            mbRxProd := 0, mbRrCons := 0 }
  imem := []
  mem  := []
  dev  := { active := false, txCons := 0, txSeen := 0, txPending := 0, rxCons := 0, rxSeen := 0, rxAvail := 0, rrProd := 0,
            rrSeen := 0, tag := 0 }
  env  := { live := [], resolvePending := [], allocIn := [], allocCalls := 0 }
  port := { pending := [], result := none, events := [] }

/-- The machine right after hardware reset, at the parameter values of log 2. -/
def State.reset : State := State.resetOf Config.resetParams

end Sys2Proof.Machine
end

