-- ==== Sys2Proof/Machine/Memory.lean ====
section
/-! DEFINITION. Sparse memories in one canonical form, and multi-byte little-endian access to DMA-visible memory
(20_memory.md R81, R84). "DMA-visible host memory is a partial map from 64-bit byte addresses to bytes": an address that is
not listed holds no value of its own, so no entry ever equals what an unlisted address holds, and the form is: keys strictly
rising. Reading an unlisted cell gives a free value (log 4, log 5). -/

namespace Sys2Proof.Machine

/-- The value listed at a key. -/
def cellGet {α : Type} : List (Nat × α) → Nat → Option α
  | [], _ => none
  | (k, v) :: rest, a => if a = k then some v else cellGet rest a

/-- The map with the value at a key replaced or inserted in its place. -/
def cellSet {α : Type} : List (Nat × α) → Nat → α → List (Nat × α)
  | [], a, v => [(a, v)]
  | (k, w) :: rest, a, v =>
    if a < k then (a, v) :: (k, w) :: rest
    else if a = k then (a, v) :: rest
    else (k, w) :: cellSet rest a v

/-- The canonical form: keys strictly rising. -/
def canonical {α : Type} : List (Nat × α) → Bool
  | [] => true
  | [_] => true
  | (k, _) :: (k', v) :: rest => decide (k < k') && canonical ((k', v) :: rest)

/-- The canonical form of DMA-visible memory. -/
abbrev Memory.wf (m : List Host.Cell) : Prop := canonical m = true

/-- One byte of DMA-visible memory; what nothing has written reads as a free value. -/
def Memory.byteAt (m : List Host.Cell) (a : Nat) : Byte := (cellGet m a).getD (Config.unwrittenByte a)

/-- `MemRead(a, n)`: the `n` bytes at `a`, little-endian (R84). -/
def Memory.readLE (m : List Host.Cell) (a : Nat) : Nat → Nat
  | 0 => 0
  | n + 1 => (Memory.byteAt m a).toNat + 256 * Memory.readLE m (a + 1) n

/-- `MemWrite(a, n, v)`: the low `n` bytes of `v` at `a`, little-endian (R84). -/
def Memory.writeLE (m : List Host.Cell) (a : Nat) : Nat → Nat → List Host.Cell
  | 0, _ => m
  | n + 1, v => Memory.writeLE (cellSet m a (BitVec.ofNat 8 v)) (a + 1) n (v / 256)

/-- `MemRead` on the machine. -/
def State.memRead (s : State) (a n : Nat) : Nat := Memory.readLE s.mem a n

/-- `MemWrite` on the machine. -/
def State.memWrite (s : State) (a n v : Nat) : State := { s with mem := Memory.writeLE s.mem a n v }

/-- A word of `imem`; what nothing has written reads as a free value (93 U8). -/
def State.imemRead (s : State) (j : Nat) : Word := (cellGet s.imem j).getD (Config.unwrittenImem j)

/-- A store to `imem`. -/
def State.imemWrite (s : State) (j : Nat) (v : Word) : State := { s with imem := cellSet s.imem j v }

end Sys2Proof.Machine
end

