-- ==== Sys2Proof/Machine/Operands.lean ====
section
/-! DEFINITION. Operand forms: ring index arithmetic (00_scope.md R10), slot addresses (20_memory.md R83), descriptor and
status-block views (R85 to R88), operand checks, the CSR offset map (10_state.md R48), and the codes of results and events. -/

namespace Sys2Proof.Machine

/-! ## Ring indices -/

/-- `i & MASK`, the remainder by `N = MASK + 1` (log 13). -/
def wrap (p : Params) (i : Nat) : Nat := i % p.n

/-- `inc(i) = (i + 1) & MASK`. -/
def ringInc (p : Params) (i : Nat) : Nat := wrap p (i + 1)

/-- `add(i, k) = (i + k) & MASK`. -/
def ringAdd (p : Params) (i k : Nat) : Nat := wrap p (i + k)

/-- `dist(a, b) = (a - b) & MASK`: the forward steps from `b` to `a`. -/
def ringDist (p : Params) (a b : Nat) : Nat := wrap p (a + (p.n - wrap p b))

/-! ## Slots -/

/-- The TX slots in flight, `N - tx_free`. -/
def State.inFlight (s : State) : Nat := s.par.n - s.tx.free

/-- The handle in TX slot `i`. -/
def State.txSlot (s : State) (i : Nat) : Option Handle := s.tx.slot.getD i none

/-- The buffer in RX slot `i`. -/
def State.rxSlot (s : State) (i : Nat) : Option Addr := s.rx.slot.getD i none

/-- "the b with S.rx_slot[i] = Some b"; a free value where the slot holds none, which no run reaches (log 11). -/
def State.bufferOf (s : State) (i : Nat) : Addr := (s.rxSlot i).getD (Config.missingBuffer i)

/-! ## Addresses and typed views of DMA memory -/

def txDescAddr (p : Params) (i : Nat) : Nat := p.txBase + 16 * i

def rxDescAddr (p : Params) (i : Nat) : Nat := p.rxBase + 16 * i

def rrDescAddr (p : Params) (j : Nat) : Nat := p.rrBase + 8 * j

/-- `TxDesc[i].flags[0]`, the EOP bit (R85). -/
def State.txEop (s : State) (i : Nat) : Bool := (s.memRead (txDescAddr s.par i + 10) 2).testBit 0

/-- `RxDesc[i].cap` (R86). -/
def State.rxCap (s : State) (i : Nat) : Nat := s.memRead (rxDescAddr s.par i + 8) 2

/-- The fields of `RrDesc[j]` (R87). -/
def State.rrSlot (s : State) (j : Nat) : Nat := s.memRead (rrDescAddr s.par j) 2

def State.rrLen (s : State) (j : Nat) : BitVec 16 := BitVec.ofNat 16 (s.memRead (rrDescAddr s.par j + 2) 2)

def State.rrFlags (s : State) (j : Nat) : BitVec 16 := BitVec.ofNat 16 (s.memRead (rrDescAddr s.par j + 4) 2)

def State.rrErr (s : State) (j : Nat) : BitVec 16 := BitVec.ofNat 16 (s.memRead (rrDescAddr s.par j + 6) 2)

/-- The flags word of a TX descriptor: bit 1 `CSUM`, bit 0 `EOP` (R85). -/
def txFlags (csum eop : Bool) : Nat := 2 * csum.toNat + eop.toNat

/-- `TxDesc[i]` written field by field (41_ring_manager.md R141). -/
def State.writeTxDesc (s : State) (i : Nat) (g : Seg) (csum eop : Bool) : State :=
  (((s.memWrite (txDescAddr s.par i) 8 g.addr.toNat).memWrite (txDescAddr s.par i + 8) 2 g.len.toNat).memWrite
    (txDescAddr s.par i + 10) 2 (txFlags csum eop)).memWrite (txDescAddr s.par i + 12) 4 0

/-- `RxDesc[i].addr <- b`, `RxDesc[i].cap <- BUFCAP` (R153). -/
def State.writeRxDesc (s : State) (i : Nat) (b : Addr) : State :=
  (s.memWrite (rxDescAddr s.par i) 8 b.toNat).memWrite (rxDescAddr s.par i + 8) 2 s.par.bufcap

/-- The reserved field of `RxDesc[i]` written 0 (R147). -/
def State.clearRxDescRest (s : State) (i : Nat) : State :=
  (s.memWrite (rxDescAddr s.par i + 10) 2 0).memWrite (rxDescAddr s.par i + 12) 4 0

/-- `RrDesc[j]` written field by field by the device (46_environment_agents.md R241). -/
def State.writeRrDesc (s : State) (j slot len flags err : Nat) : State :=
  (((s.memWrite (rrDescAddr s.par j) 2 slot).memWrite (rrDescAddr s.par j + 2) 2 len).memWrite
    (rrDescAddr s.par j + 4) 2 flags).memWrite (rrDescAddr s.par j + 6) 2 err

/-! ## Operand checks -/

/-- A legal CSR offset: a multiple of 4 below 0x100 (40_register_access.md R130). -/
def csrOffsetOk (off : BitVec 16) : Bool := off.toNat % 4 == 0 && decide (off.toNat < 0x100)

/-- A legal `imem` byte address: a multiple of 4 with `addr/4 < IMEM_WORDS` (40_register_access.md R133, 10_state.md R66). -/
def imemAddrOk (p : Params) (addr : Word) : Bool := addr.toNat % 4 == 0 && decide (addr.toNat / 4 < p.imemWords)

/-- A legal buffer handle operand of `RXPOST`: not 0 and a multiple of 8 (41_ring_manager.md R148). -/
def bufferOperandOk (b : Addr) : Bool := b != 0 && b.toNat % 8 == 0

/-! ## The CSR map -/

/-- The offsets of 10_state.md R48. -/
def csrOffsets : List (Nat × Csr) :=
  [ (0x00, .drmStatus), (0x04, .txIndex), (0x08, .txFree), (0x0C, .rxIndex), (0x10, .snapshot), (0x14, .snapTag),
    (0x18, .linkEpoch), (0x1C, .cntRxDrop), (0x20, .cntRxNobuf), (0x24, .wdState), (0x28, .negState), (0x2C, .fault),
    (0x30, .devCtrl), (0x34, .linkCfg), (0x38, .linkRes), (0x40, .phyAdv), (0x44, .phyCtrl), (0x48, .phyStatus),
    (0x4C, .macMode), (0x60, .winBase), (0x64, .winData), (0x80, .mbTxProd), (0x84, .mbRxProd), (0x88, .mbRrCons) ]

/-- The register at an offset; none where the map lists none (unmapped). -/
def csrAt (off : BitVec 16) : Option Csr := cellGet csrOffsets off.toNat

/-- The three mailboxes, 10_state.md R67. -/
def Csr.isMailbox : Csr → Bool
  | .mbTxProd => true
  | .mbRxProd => true
  | .mbRrCons => true
  | _ => false

/-! ## Codes -/

/-- `res_code`, 60_exceptions.md R260. -/
def ResCode.number : ResCode → BitVec 8
  | .ok => 0x00
  | .outOfDescriptors => 0x01
  | .outOfBuffers => 0x02
  | .hardwareTimeout => 0x03
  | .negotiationTimeout => 0x04
  | .checksumOrLengthError => 0x05
  | .zeroLength => 0x10
  | .tooManySegments => 0x11
  | .notEnabled => 0x12
  | .gateClosed => 0x13
  | .badState => 0x14
  | .badOperand => 0x15
  | .slotBusy => 0x16
  | .indexFault => 0x17
  | .illegalCommand => 0x18
  | .staleEpoch => 0x19

/-- `Ok(v)`. -/
def Result.okVal (v : BitVec 64) : Result := ⟨.ok, v⟩

/-- `Err(code)`, with `res_val = 0` (R117). -/
def Result.err (c : ResCode) : Result := ⟨c, 0⟩

/-- The 104-bit event record `{code, p0, p1}`, 30_encoding.md R118. -/
def Event.record : Event → BitVec 104
  | .txDone h => 0x80#8 ++ 0#64 ++ h
  | .txFailed h => 0x81#8 ++ 0#64 ++ h
  | .deliver buf len ip l4 => 0x82#8 ++ buf ++ (0#14 ++ BitVec.ofBool l4 ++ BitVec.ofBool ip ++ len)
  | .bufFree buf => 0x83#8 ++ buf ++ 0#32
  | .resume => 0x84#8 ++ 0#64 ++ 0#32
  | .linkUp e sp dp rx tx =>
    0x85#8 ++ (0#32 ++ e) ++ (0#27 ++ BitVec.ofBool tx ++ BitVec.ofBool rx ++ BitVec.ofBool dp ++ sp)
  | .linkDown e => 0x86#8 ++ (0#32 ++ e) ++ 0#32
  | .hwTimeout => 0x87#8 ++ 0#64 ++ 0#32
  | .negTimeout => 0x88#8 ++ 0#64 ++ 0#32
  | .schedResolve e => 0x89#8 ++ (0#32 ++ e) ++ 0#32
  | .rxFilled buf len flags => 0x8A#8 ++ buf ++ (flags ++ len)
  | .rxDropped slot err => 0x8B#8 ++ 0#64 ++ (err ++ slot)
  | .rxNoBuf slot => 0x8C#8 ++ 0#64 ++ (0#16 ++ slot)

end Sys2Proof.Machine
end

