-- ==== Sys2Proof/Machine/Flags.lean ====
section
/-! DEFINITION. Status computations: the bit layouts of the status views (10_state.md R49 to R61), of the PHY and MAC register
values the FSM writes (44_link_fsm.md R194), and the flow-control resolution (R198). -/

namespace Sys2Proof.Machine

/-- The encoding of the FSM's states, 10_state.md R39. -/
def LinkState.code : LinkState → BitVec 2
  | .down => 0
  | .negotiating => 1
  | .resolving => 2
  | .up => 3

/-- One flag as a bit. -/
abbrev flagBit (b : Bool) : BitVec 1 := BitVec.ofBool b

/-- `zext_16` of an index or count (10_state.md R50 to R53). -/
def idx16 (i : Nat) : BitVec 16 := BitVec.ofNat 16 i

/-- `DRM_STATUS`, R49. -/
def drmStatusView (s : State) : Word :=
  0#25 ++ flagBit s.poll.irqLink ++ flagBit s.poll.irqRing ++ flagBit s.ctl.txStalled ++ s.link.state.code ++ flagBit s.link.up ++
    flagBit s.ctl.enabled

/-- `TX_INDEX`, R50. -/
def txIndexView (s : State) : Word := idx16 s.tx.cons ++ idx16 s.tx.prod

/-- `TX_FREE`, R51. -/
def txFreeView (s : State) : Word := 0#16 ++ idx16 s.tx.free

/-- `RX_INDEX`, R52. -/
def rxIndexView (s : State) : Word := idx16 s.rx.rrCons ++ idx16 s.rx.prod

/-- `SNAPSHOT`, R53. -/
def snapshotView (s : State) : Word := idx16 s.poll.snapRrProd ++ idx16 s.poll.snapTxCons

/-- `WD_STATE`, R56. -/
def wdStateView (s : State) : Word := 0#15 ++ flagBit s.poll.wdProgress ++ s.poll.wdStallTicks

/-- `NEG_STATE`, R57. -/
def negStateView (s : State) : Word := 0#8 ++ s.link.negRetries ++ s.link.negTicks

/-- `FAULT`, R58. -/
def faultView (s : State) : Word := 0#30 ++ flagBit s.ctl.faultRrIdx ++ flagBit s.ctl.faultTxIdx

/-- The mode part of `LINK_CFG`, bits 3:0 (R60). -/
def linkModeBits : LinkMode → BitVec 4
  | .auto => 0
  | .forced sp dp => flagBit dp ++ sp ++ 1#1

/-- `LINK_CFG`, R60. -/
def linkCfgView (s : State) : Word := 0#20 ++ s.link.advLocal ++ s.link.advCaps ++ linkModeBits s.link.mode

/-- `LINK_RES`, R61. -/
def linkResView (s : State) : Word := 0#27 ++ s.link.advPartner ++ flagBit s.link.resDuplex ++ s.link.resSpeed

/-- `DEV_CTRL` as it reads: the RESET bit reads 0 (R59). -/
def devCtrlView (s : State) : Word := 0#31 ++ flagBit s.csr.devCtrlEn

/-- The `MAC_MODE` value `{fc_tx, fc_rx, duplex, speed}` (R65). -/
def macModeWord (fcTx fcRx dp : Bool) (sp : BitVec 2) : Word := 0#27 ++ flagBit fcTx ++ flagBit fcRx ++ flagBit dp ++ sp

/-- The `PHY_ADV` value `{adv_local, adv_caps}` (44_link_fsm.md R194). -/
def phyAdvWord (adv : BitVec 2) (caps : BitVec 6) : Word := 0#24 ++ adv ++ caps

/-- The `PHY_CTRL` value that forces a speed and duplex: AN_ENABLE = 0, no restart (44_link_fsm.md R201). -/
def phyForceWord (sp : BitVec 2) (dp : Bool) : Word := 0#27 ++ flagBit dp ++ sp ++ 0#2

/-- The fields of `PHY_STATUS`, R64. -/
def phyLinkOk (st : Word) : Bool := st.getLsbD 0

def phyAnComplete (st : Word) : Bool := st.getLsbD 1

def phySpeed (st : Word) : BitVec 2 := st.extractLsb' 2 2

def phyDuplex (st : Word) : Bool := st.getLsbD 4

def phyPartner (st : Word) : BitVec 2 := st.extractLsb' 6 2

/-- `resolve_fc(L, P)` = `(fc_rx, fc_tx)`; an advertisement is `{pause, asym}` (44_link_fsm.md R198). -/
def resolveFc (l p : BitVec 2) : Bool × Bool :=
  if l.getLsbD 1 && p.getLsbD 1 then (true, true)
  else if l.getLsbD 0 && p.getLsbD 0 then
    if l.getLsbD 1 then (true, false) else if p.getLsbD 1 then (false, true) else (false, false)
  else (false, false)

end Sys2Proof.Machine
end

