-- ==== Sys2Proof/Machine/Ops.lean ====
section
/-! DEFINITION. The shared primitives (00_scope.md R12): events, the allocator, the device's and the PHY's reactions, the
Register Access Layer, and the end of an operation. This machine takes no trap: "every operation ends with a result code (the
synchronous exception of this machine)", 60_exceptions.md; `answer` is that end, and IllegalCommand has `answerIllegal`. -/

namespace Sys2Proof.Machine

/-! ## Events and results -/

/-- `emit E(args)`: append to the event stream (10_state.md R69). -/
def State.emit (s : State) (e : Event) : State := { s with port := { s.port with events := s.port.events ++ [e] } }

/-- The result of a request stands on the result port (30_encoding.md R110). -/
def State.setResult (s : State) (r : Result) : State := { s with port := { s.port with result := some r } }

/-- The epoch moved although it stood at its last value: the increment the spec leaves without an outcome (93 U11). Each
operation increments the epoch at most once (44_link_fsm.md R192), so this is exactly an increment at 0xFFFFFFFF. -/
def epochOverflowed (before after : State) : Bool := before.link.epoch == 0xFFFFFFFF#32 && after.link.epoch != 0xFFFFFFFF#32

/-- The end of every host operation: its result code and value on the result port (30_encoding.md R117, 60_exceptions.md R260,
R261); stuck where the epoch would have gone past its last value (log 6). -/
def answer (before : State) (done : State × Result) : Host.Outcome State Fault Refusal :=
  bif epochOverflowed before done.1 then .fault .epochOverflow else .next (done.1.setResult done.2)

/-- A word on the host port that matches no row: IllegalCommand, `res_val = 0`, no event, no other change
(30_encoding.md R116). -/
def answerIllegal (s : State) : Host.Outcome State Fault Refusal := .next (s.setResult (Result.err .illegalCommand))

/-- A step of an environment agent: it exists only where its enabling condition holds, and gives no result
(46_environment_agents.md R235; log 7, log 8). -/
def agentStep (enabled : Bool) (after : State) : Host.Outcome State Fault Refusal :=
  bif enabled then .next after else .fault .noSuchStep

/-! ## The allocator (46_environment_agents.md R246) -/

/-- Insert a handle into the sorted set `live`. -/
def liveInsert (b : Addr) : List Addr → List Addr
  | [] => [b]
  | x :: rest => if b.toNat < x.toNat then b :: x :: rest else if b = x then x :: rest else x :: liveInsert b rest

/-- Insert an epoch into the sorted multiset `resolve_pending`. -/
def epochInsert (e : Word) : List Word → List Word
  | [] => [e]
  | x :: rest => if e.toNat ≤ x.toNat then e :: x :: rest else x :: epochInsert e rest

/-- The condition under which the allocator may hand out `b`: non-zero, 8-byte aligned, inside the address space, disjoint
from the four regions and from every live buffer. -/
def freshBuffer (p : Params) (live : List Addr) (b : Addr) : Bool :=
  b != 0 && b.toNat % 8 == 0 && decide (b.toNat + p.bufcap ≤ 2 ^ 64) &&
    p.regions.all (fun r => decide (disjointRanges b.toNat p.bufcap r.1 r.2)) &&
    live.all fun x => decide (disjointRanges b.toNat p.bufcap x.toNat p.bufcap)

/-- The oracle's next raw answer: the next listed one, else a free value numbered by the call (log 3). -/
def State.oracle (s : State) : Option Addr :=
  match s.env.allocIn with
  | a :: _ => a
  | [] => Config.allocAnswer s.env.allocCalls

/-- The allocator has been called once more. -/
def State.countCall (s : State) : State :=
  { s with env := { s.env with allocIn := s.env.allocIn.tail, allocCalls := s.env.allocCalls + 1 } }

/-- `live <- live + {b}`. -/
def State.addLive (s : State) (b : Addr) : State := { s with env := { s.env with live := liveInsert b s.env.live } }

/-- `live <- live - {b}`. -/
def State.dropLive (s : State) (b : Addr) : State := { s with env := { s.env with live := s.env.live.filter (· != b) } }

/-- `Alloc()`: the answer is the environment's choice among the legal ones; a raw answer that no allocator may give counts as
`None` (log 3). -/
def alloc (s : State) : State × Option Addr :=
  match s.oracle with
  | some b => if freshBuffer s.par s.env.live b then (s.countCall.addLive b, some b) else (s.countCall, none)
  | none => (s.countCall, none)

/-- `Free(b)`: leaves `live` and emits `BufFree(b)`. -/
def freeBuffer (s : State) (b : Addr) : State := (s.dropLive b).emit (.bufFree b)

/-- `Free` of each buffer of a list, in order. -/
def freeAll (s : State) (bufs : List Addr) : State := bufs.foldl freeBuffer s

/-- An event or result that passes a buffer out of the block without a `Free`: `Deliver`, `RxFilled`. -/
def passOut (s : State) (b : Addr) (e : Event) : State := (s.dropLive b).emit e

/-- `emit SchedResolve(e)`: the platform now owes one `RESDONE(e)` (46_environment_agents.md R248). -/
def schedResolve (s : State) (e : Word) : State :=
  State.emit { s with env := { s.env with resolvePending := epochInsert e s.env.resolvePending } } (.schedResolve e)

/-! ## The device's and the PHY's reactions to register writes -/

/-- `dev_reset()`, 46_environment_agents.md R236. -/
def devReset (s : State) : State :=
  State.memWrite
    { s with
      dev := { s.dev with txCons := 0, txSeen := 0, txPending := 0, rxCons := 0, rxSeen := 0, rxAvail := 0, rrProd := 0,
                          rrSeen := 0, tag := 0 }
      csr := { s.csr with mbTxProd := 0, mbRxProd := 0, mbRrCons := 0 } }
    s.par.sbBase 8 0

/-- `dev_doorbell(off, v)`, 46_environment_agents.md R237; `v` already reduced `& MASK`. -/
def devDoorbell (s : State) (c : Csr) (v : Nat) : State :=
  if s.dev.active then
    match c with
    | .mbTxProd =>
      { s with dev := { s.dev with txPending := min s.par.n (s.dev.txPending + ringDist s.par v s.dev.txSeen), txSeen := v } }
    | .mbRxProd =>
      { s with dev := { s.dev with rxAvail := min s.par.n (s.dev.rxAvail + ringDist s.par v s.dev.rxSeen), rxSeen := v } }
    | .mbRrCons => { s with dev := { s.dev with rrSeen := v } }
    | _ => s
  else s

/-- PHY_STATUS takes a new value; a change raises the link interrupt (46_environment_agents.md R244, R245). -/
def setPhyStatus (s : State) (v : Word) : State :=
  { s with
    csr := { s.csr with phyStatus := v }
    poll := { s.poll with irqLink := s.poll.irqLink || v != s.csr.phyStatus } }

/-- `phy_restart()`: AN_COMPLETE is cleared (46_environment_agents.md R245). -/
def phyRestart (s : State) : State := setPhyStatus s (s.csr.phyStatus &&& ~~~(2#32))

/-! ## The Register Access Layer (40_register_access.md) -/

/-- The index into `imem` behind the window, where `WIN_BASE` is aligned and in range (10_state.md R66). -/
def State.window (s : State) : Option Nat :=
  if imemAddrOk s.par s.csr.winBase then some (s.csr.winBase.toNat / 4) else none

/-- `RegRead`, R131. -/
def regRead (s : State) : Csr → Word
  | .drmStatus => drmStatusView s
  | .txIndex => txIndexView s
  | .txFree => txFreeView s
  | .rxIndex => rxIndexView s
  | .snapshot => snapshotView s
  | .snapTag => s.poll.snapTag
  | .linkEpoch => s.link.epoch
  | .cntRxDrop => s.ctl.cntRxDrop
  | .cntRxNobuf => s.ctl.cntRxNobuf
  | .wdState => wdStateView s
  | .negState => negStateView s
  | .fault => faultView s
  | .devCtrl => devCtrlView s
  | .linkCfg => linkCfgView s
  | .linkRes => linkResView s
  | .phyAdv => s.csr.phyAdv
  | .phyCtrl => s.csr.phyCtrl &&& ~~~(2#32)
  | .phyStatus => s.csr.phyStatus
  | .macMode => s.csr.macMode
  | .winBase => s.csr.winBase
  | .winData => match s.window with
    | some j => s.imemRead j
    | none => 0
  | .mbTxProd => (s.csr.mbTxProd.setWidth 16).setWidth 32
  | .mbRxProd => (s.csr.mbRxProd.setWidth 16).setWidth 32
  | .mbRrCons => (s.csr.mbRrCons.setWidth 16).setWidth 32

/-- The mailbox stores bits 15:0 of the value (R135). -/
def storeMailbox (s : State) (c : Csr) (v : Word) : State :=
  let w : Word := (v.setWidth 16).setWidth 32
  match c with
  | .mbTxProd => { s with csr := { s.csr with mbTxProd := w } }
  | .mbRxProd => { s with csr := { s.csr with mbRxProd := w } }
  | .mbRrCons => { s with csr := { s.csr with mbRrCons := w } }
  | _ => s

/-- `Doorbell(off, v)`, R135: store, then notify the device with `v[15:0] & MASK`. -/
def ringDoorbell (s : State) (c : Csr) (v : Word) : State :=
  devDoorbell (storeMailbox s c v) c (wrap s.par (v.setWidth 16).toNat)

/-- `RegWrite(0x30, v)`: EN stored first, then the reset if asked (R132). -/
def writeDevCtrl (s : State) (v : Word) : State :=
  let s1 : State := { s with
    csr := { s.csr with devCtrlEn := v.getLsbD 0 }
    dev := { s.dev with active := v.getLsbD 0 } }
  if v.getLsbD 1 then devReset s1 else s1

/-- `RegWrite(0x44, v)`: bit 1 is not stored; writing it restarts the PHY (R132). -/
def writePhyCtrl (s : State) (v : Word) : State :=
  let s1 : State := { s with csr := { s.csr with phyCtrl := v &&& 0b11101#32 } }
  if v.getLsbD 1 then phyRestart s1 else s1

/-- `RegWrite`, R132. Read-only registers ignore writes. -/
def regWrite (s : State) (c : Csr) (v : Word) : State :=
  match c with
  | .devCtrl => writeDevCtrl s v
  | .phyAdv => { s with csr := { s.csr with phyAdv := v &&& 0xFF#32 } }
  | .phyCtrl => writePhyCtrl s v
  | .macMode => { s with csr := { s.csr with macMode := v &&& 0x1F#32 } }
  | .winBase => { s with csr := { s.csr with winBase := v } }
  | .winData => match s.window with
    | some j => s.imemWrite j v
    | none => s
  | .mbTxProd => ringDoorbell s .mbTxProd v
  | .mbRxProd => ringDoorbell s .mbRxProd v
  | .mbRrCons => ringDoorbell s .mbRrCons v
  | .drmStatus => s
  | .txIndex => s
  | .txFree => s
  | .rxIndex => s
  | .snapshot => s
  | .snapTag => s
  | .linkEpoch => s
  | .cntRxDrop => s
  | .cntRxNobuf => s
  | .wdState => s
  | .negState => s
  | .fault => s
  | .linkCfg => s
  | .linkRes => s
  | .phyStatus => s

/-- A read at a legal offset: unmapped offsets read 0 (10_state.md R48). -/
def readAt (s : State) (off : BitVec 16) : Word :=
  match csrAt off with
  | some c => regRead s c
  | none => 0

/-- A write at a legal offset: unmapped offsets ignore it (10_state.md R48). -/
def writeAt (s : State) (off : BitVec 16) (v : Word) : State :=
  match csrAt off with
  | some c => regWrite s c v
  | none => s

/-- `IndRead(addr)`, R133. -/
def indRead (s : State) (addr : Word) : State × Word :=
  let s1 := regWrite s .winBase addr
  (s1, regRead s1 .winData)

/-- `IndWrite(addr, v)`, R134. -/
def indWrite (s : State) (addr v : Word) : State := regWrite (regWrite s .winBase addr) .winData v

end Sys2Proof.Machine
end

