-- ==== Sys2Proof/Machine/EnvironmentAgents.lean ====
section
/-! DEFINITION. The steps of the device and the PHY (46_environment_agents.md R239 to R244), each under its enabling condition
(R250), and the protocol-breaking writes of R242. -/

namespace Sys2Proof.Machine

/-- `DEVTX k` exists: `dev_active = 1` and `1 <= k <= dev_tx_pending` (R239). -/
def devtxEnabled (s : State) (k : Nat) : Bool := s.dev.active && decide (1 ≤ k) && decide (k ≤ s.dev.txPending)

/-- `DEVTX k`, R239: the device consumes the next `k` TX descriptors. -/
def execDevtx (k : BitVec 8) (s : State) : Host.Outcome State Fault Refusal :=
  agentStep (devtxEnabled s k.toNat)
    { s with dev := { s.dev with txCons := ringAdd s.par s.dev.txCons k.toNat, txPending := s.dev.txPending - k.toNat } }

/-- `DEVRX` exists: active, a credit, at most `N - 2` undrained returns, and the frame fits the buffer (R241). -/
def devrxEnabled (s : State) (len : Nat) : Bool :=
  s.dev.active && decide (1 ≤ s.dev.rxAvail) && decide (ringDist s.par s.dev.rrProd s.dev.rrSeen + 2 ≤ s.par.n) &&
    decide (len ≤ s.rxCap s.dev.rxCons)

/-- `DEVRX len, flags, err`, R241; the frame's bytes are not modelled (20_memory.md R93; log 10). -/
def execDevrx (flags err : BitVec 2) (len : BitVec 16) (s : State) : Host.Outcome State Fault Refusal :=
  let s1 := s.writeRrDesc s.dev.rrProd s.dev.rxCons len.toNat flags.toNat err.toNat
  agentStep (devrxEnabled s len.toNat)
    { s1 with dev := { s1.dev with rrProd := ringInc s.par s.dev.rrProd, rxCons := ringInc s.par s.dev.rxCons,
                                   rxAvail := s.dev.rxAvail - 1 } }

/-- The status block the device publishes: `{dev_tag, zext_16(dev_rr_prod), zext_16(dev_tx_cons)}` (R243). -/
def publishedBlock (d : Device) : BitVec 64 := d.tag ++ idx16 d.rrProd ++ idx16 d.txCons

/-- `DEVSB`, R243. -/
def execDevsb (s : State) : Host.Outcome State Fault Refusal :=
  let s1 : State := { s with dev := { s.dev with tag := s.dev.tag + 1 }, poll := { s.poll with irqRing := true } }
  agentStep s.dev.active (s1.memWrite s.par.sbBase 8 (publishedBlock s1.dev).toNat)

/-- `PHYSET status`, R244: the reserved speed code is never reported. -/
def execPhyset (status : BitVec 8) (s : State) : Host.Outcome State Fault Refusal :=
  agentStep (status.extractLsb' 2 2 != 3) (setPhyStatus s (status.setWidth 32))

/-- A protocol-breaking device writes the status block (R242; log 16). -/
def rogueWriteSb (s : State) (v : BitVec 64) : Host.Outcome State Fault Refusal :=
  agentStep true (s.memWrite s.par.sbBase 8 v.toNat)

/-- A protocol-breaking device writes `RrDesc[j]`, `j` a slot of the ring (R242; log 16). -/
def rogueWriteRr (s : State) (j : Nat) (v : BitVec 64) : Host.Outcome State Fault Refusal :=
  agentStep (decide (j < s.par.n)) (s.memWrite (rrDescAddr s.par j) 8 v.toNat)

/-- A word that says nothing on its port: IllegalCommand on the host port, no step on an agent's (30_encoding.md R116). -/
def runUndecodable (r : Request) (s : State) : Host.Outcome State Fault Refusal :=
  match r.port with
  | .host => answerIllegal s
  | .device => .fault .noSuchStep
  | .phy => .fault .noSuchStep

/-- The machine with the oldest stimulus taken off its list. -/
def State.withPending (s : State) (rest : List Stimulus) : State := { s with port := { s.port with pending := rest } }

/-- With nothing presented the block does nothing: "it only ever acts when an agent issues an operation"
(60_exceptions.md R276; log 1). -/
def idle (s : State) : Host.Outcome State Fault Refusal := .next s

end Sys2Proof.Machine
end

