-- ==== Sys2Proof/Machine/LinkOps.lean ====
section
/-! DEFINITION. The procedures of the link negotiation state machine (44_link_fsm.md). -/

namespace Sys2Proof.Machine

/-- `S.epoch <- S.epoch + 1` (R192); the increment at 0xFFFFFFFF is caught by `answer` (log 6). -/
def bumpEpoch (s : State) : State := { s with link := { s.link with epoch := s.link.epoch + 1 } }

/-- `link_down_now()`, R204. -/
def linkDownNow (s : State) : State :=
  let s1 : State := if s.link.up then State.emit { s with link := { s.link with up := false } } (.linkDown s.link.epoch) else s
  regWrite
    { s1 with link := { s1.link with state := .down, curSpeed := 0, curDuplex := false, fcRx := false, fcTx := false } }
    .macMode 0

/-- `begin_negotiation()`, R195. -/
def beginNegotiation (s : State) : State :=
  let s1 := bumpEpoch s
  let s2 : State := { s1 with link := { s1.link with negTicks := 0 } }
  let s3 := regWrite s2 .phyAdv (phyAdvWord s2.link.advLocal s2.link.advCaps)
  let s4 := regWrite s3 .phyCtrl 0x00000003
  { s4 with link := { s4.link with state := .negotiating } }

/-- A new request for negotiation: the retries start over (R195). -/
def requestNegotiation (s : State) : State := beginNegotiation { s with link := { s.link with negRetries := 0 } }

/-- `neg_complete(st)`, R197. -/
def negComplete (s : State) (st : Word) : State :=
  let s1 : State := { s with link := { s.link with resSpeed := phySpeed st, resDuplex := phyDuplex st,
                                                   advPartner := phyPartner st, state := .resolving } }
  schedResolve s1 s1.link.epoch

/-- `resolve_done()`, R199. -/
def resolveDone (s : State) : State :=
  let fc := resolveFc s.link.advLocal s.link.advPartner
  let s1 : State := { s with link := { s.link with curSpeed := s.link.resSpeed, curDuplex := s.link.resDuplex,
                                                   fcRx := fc.1, fcTx := fc.2 } }
  let s2 := regWrite s1 .macMode (macModeWord fc.2 fc.1 s1.link.curDuplex s1.link.curSpeed)
  let s3 : State := { s2 with link := { s2.link with state := .up, up := true } }
  s3.emit (.linkUp s3.link.epoch s3.link.curSpeed s3.link.curDuplex fc.1 fc.2)

/-- `link_loss()`, R200. -/
def linkLoss (s : State) : State :=
  let s1 := linkDownNow s
  if s.link.mode = .auto ∧ s.par.renegOnLoss = true then requestNegotiation s1 else s1

/-- `enter_forced(sp, dp)`, R201. -/
def enterForced (s : State) (sp : BitVec 2) (dp : Bool) : State :=
  let s1 := bumpEpoch (linkDownNow s)
  let s2 := regWrite s1 .phyCtrl (phyForceWord sp dp)
  let s3 : State := { s2 with link := { s2.link with curSpeed := sp, curDuplex := dp, fcRx := false, fcTx := false } }
  let s4 := regWrite s3 .macMode (macModeWord false false dp sp)
  let s5 : State := { s4 with link := { s4.link with state := .up, up := true } }
  s5.emit (.linkUp s5.link.epoch sp dp false false)

/-- `link_service()`, R191. -/
def linkService (s : State) : State :=
  let st := regRead s .phyStatus
  match s.link.state with
  | .negotiating => if phyAnComplete st && phyLinkOk st then negComplete s st else s
  | .up => if phyLinkOk st then s else linkLoss s
  | .down => s
  | .resolving => s

/-- `link_start()`, 45_lifecycle.md R222. -/
def linkStart (s : State) : State :=
  match s.link.mode with
  | .auto => requestNegotiation s
  | .forced sp dp => enterForced s sp dp

/-- The fallback once the retries are exhausted, R202. -/
def negFallback (s : State) : State :=
  let s1 := s.emit .negTimeout
  match s.par.negFallback with
  | .fbForced sp dp => enterForced s1 sp dp
  | .fbLinkDown => State.emit { s1 with link := { s1.link with state := .down } } (.linkDown s1.link.epoch)

/-- `neg_tick()`, R203. -/
def negTick (s : State) : State × Result :=
  if s.link.state = .negotiating then
    let s1 : State := { s with link := { s.link with negTicks := s.link.negTicks + 1 } }
    if s1.link.negTicks.toNat < s.par.negTimeout then (s1, Result.okVal 0)
    else if s1.link.negRetries.toNat < s.par.negRetryMax then
      (beginNegotiation { s1 with link := { s1.link with negRetries := s1.link.negRetries + 1 } }, Result.okVal 1)
    else (negFallback s1, Result.err .negotiationTimeout)
  else (s, Result.okVal 0)

end Sys2Proof.Machine
end

