-- ==== Sys2Proof/Machine/RingOps.lean ====
section
/-! DEFINITION. The procedures of the Descriptor Ring Manager and of receive delivery (41_ring_manager.md, 43_packet_io.md). -/

namespace Sys2Proof.Machine

/-! ## Transmit -/

/-- `S.tx_slot[i] <- h`. -/
def State.setTxSlot (s : State) (i : Nat) (h : Option Handle) : State := { s with tx := { s.tx with slot := s.tx.slot.set i h } }

/-- The loop of `tx_post` (41_ring_manager.md R141) from slot `i` on: each segment's descriptor, `EOP` on the last, and the
handle in every slot. -/
def fillTx (h : Handle) (csum : Bool) : List Seg → Nat → State → State
  | [], _, s => s
  | g :: rest, i, s =>
    fillTx h csum rest (ringInc s.par i) ((s.writeTxDesc i g csum rest.isEmpty).setTxSlot i (some h))

/-- `tx_post(h, csum, segs, k)`, R141, with `k` the length of the list; the result's value is the packet's first slot. -/
def txPost (s : State) (h : Handle) (csum : Bool) (segs : List Seg) : State × Result :=
  if segs.length = 0 then (s, Result.err .zeroLength)
  else if s.par.maxseg < segs.length then (s, Result.err .tooManySegments)
  else if segs.any (fun g => g.len == 0) then (s, Result.err .zeroLength)
  else if s.tx.free < segs.length then (s, Result.err .outOfDescriptors)
  else
    let s1 := fillTx h csum segs (wrap s.par s.tx.prod) s
    let s2 : State := { s1 with tx := { s1.tx with prod := ringAdd s.par s.tx.prod segs.length
                                                   free := s.tx.free - segs.length } }
    (ringDoorbell s2 .mbTxProd (BitVec.ofNat 32 s2.tx.prod), Result.okVal (BitVec.ofNat 64 s.tx.prod))

/-- One slot of a walk over the TX ring: at an `EOP` descriptor the packet's handle goes out in an event; the slot is freed.
The number is how many packets ended here; an `EOP` slot without a handle, which no run reaches, counts for none (log 24). -/
def freeTxSlot (ev : Handle → Event) (s : State) : State × Nat :=
  let i := s.tx.cons
  let out : State × Nat :=
    if s.txEop i then
      match s.txSlot i with
      | some h => (s.emit (ev h), 1)
      | none => (s, 0)
    else (s, 0)
  let s1 := out.1.setTxSlot i none
  ({ s1 with tx := { s1.tx with cons := ringInc s.par i, free := s1.tx.free + 1 } }, out.2)

/-- The walk over `c` slots, with the number of packets it completed. -/
def walkTx (ev : Handle → Event) : Nat → State → State × Nat
  | 0, s => (s, 0)
  | c + 1, s =>
    let one := freeTxSlot ev s
    let rest := walkTx ev c one.1
    (rest.1, one.2 + rest.2)

/-- The end of a reclamation that freed a slot: progress, and `Resume` if the queue was stalled (R144). -/
def noteReclaim (s : State) : State :=
  let s1 : State := { s with poll := { s.poll with wdProgress := true } }
  if s1.ctl.txStalled then State.emit { s1 with ctl := { s1.ctl with txStalled := false } } .resume else s1

/-- `tx_reclaim(idx)`, R144; the value is packets in bits 31:16 and slots in bits 15:0. -/
def txReclaim (s : State) (idx : Nat) : State × Result :=
  let c := ringDist s.par (wrap s.par idx) s.tx.cons
  if s.inFlight < c then
    ({ s with ctl := { s.ctl with faultTxIdx := true } }, Result.err .indexFault)
  else
    let w := walkTx .txDone c s
    let s1 := if 0 < c then noteReclaim w.1 else w.1
    (s1, Result.okVal (0#32 ++ BitVec.ofNat 16 w.2 ++ BitVec.ofNat 16 c))

/-- `tx_fail_all()`, 45_lifecycle.md R223. -/
def txFailAll (s : State) : State := (walkTx .txFailed s.inFlight s).1

/-! ## Receive -/

/-- `S.rx_slot[i] <- b`. -/
def State.setRxSlot (s : State) (i : Nat) (b : Option Addr) : State := { s with rx := { s.rx with slot := s.rx.slot.set i b } }

/-- `S.rx_prod <- inc(S.rx_prod)` and its doorbell; by itself `rx_repost(i)`, 41_ring_manager.md R149. -/
def rxRepost (s : State) : State :=
  let s1 : State := { s with rx := { s.rx with prod := ringInc s.par s.rx.prod } }
  ringDoorbell s1 .mbRxProd (BitVec.ofNat 32 s1.rx.prod)

/-- `rx_post(i, b)`, R147. -/
def rxPost (s : State) (i : Nat) (b : Addr) : State :=
  rxRepost (((s.writeRxDesc i b).clearRxDescRest i).setRxSlot i (some b))

/-- `rx_refill(i)`, R153: allocate first, then swap; the answer is the detached buffer. -/
def rxRefill (s : State) (i : Nat) : State × Option Addr :=
  match alloc s with
  | (s1, some nb) => (rxRepost ((s1.writeRxDesc i nb).setRxSlot i (some nb)), some (s1.bufferOf i))
  | (s1, none) =>
    (rxRepost { s1 with ctl := { s1.ctl with cntRxNobuf := s1.ctl.cntRxNobuf + 1 } }, none)

/-- The slots the next `c` return descriptors name. -/
def returnedSlots (s : State) (c : Nat) : List Nat := (List.range c).map fun n => s.rrSlot (ringAdd s.par s.rx.rrCons n)

/-- `prescan(c)` passes: every slot below `N`, none named twice (R152). -/
def prescanOk (s : State) (c : Nat) : Bool :=
  (returnedSlots s c).all (fun i => decide (i < s.par.n)) && decide (returnedSlots s c).Nodup

/-- One return descriptor handled completely (R150). -/
def drainOne (s : State) : State × Drained :=
  let j := s.rx.rrCons
  let slot := s.rrSlot j
  let len := s.rrLen j
  let flags := s.rrFlags j
  let err := s.rrErr j
  let out : State × Drained :=
    if err != 0 then
      (rxRepost { s with ctl := { s.ctl with cntRxDrop := s.ctl.cntRxDrop + 1 } }, .dropped (BitVec.ofNat 16 slot) err)
    else
      match rxRefill s slot with
      | (s1, some old) => (s1, .filled old len flags)
      | (s1, none) => (s1, .noBuf (BitVec.ofNat 16 slot))
  ({ out.1 with rx := { out.1.rx with rrCons := ringInc s.par j } }, out.2)

/-- The walk over `c` return descriptors. -/
def drainLoop : Nat → State → State × List Drained
  | 0, s => (s, [])
  | c + 1, s =>
    let one := drainOne s
    let rest := drainLoop c one.1
    (rest.1, one.2 :: rest.2)

/-- `rr_drain(idx)`, R150; `none` is the index fault of R152, which changes nothing but `fault[1]`. -/
def rrDrain (s : State) (idx : Nat) : State × Option (List Drained) :=
  let c := ringDist s.par (wrap s.par idx) s.rx.rrCons
  if prescanOk s c then
    let w := drainLoop c s
    let s1 := if 0 < c then ringDoorbell w.1 .mbRrCons (BitVec.ofNat 32 w.1.rx.rrCons) else w.1
    (s1, some w.2)
  else ({ s with ctl := { s.ctl with faultRrIdx := true } }, none)

/-- What a direct `RRDRAIN` emits for one entry (R151). -/
def reportDrained (s : State) : Drained → State
  | .filled buf len flags => passOut s buf (.rxFilled buf len flags)
  | .dropped slot err => s.emit (.rxDropped slot err)
  | .noBuf slot => s.emit (.rxNoBuf slot)

/-- The length validation of 43_packet_io.md R180. -/
def lengthOk (p : Params) (len : BitVec 16) : Bool := decide (1 ≤ len.toNat) && decide (len.toNat ≤ p.maxpkt)

/-- What a servicing pass does with one entry (43_packet_io.md R180 to R183), and whether it delivered. -/
def deliverOne (s : State) : Drained → State × Nat
  | .filled buf len flags =>
    if lengthOk s.par len then (passOut s buf (.deliver buf len (flags.getLsbD 0) (flags.getLsbD 1)), 1)
    else (freeBuffer { s with ctl := { s.ctl with cntRxDrop := s.ctl.cntRxDrop + 1 } } buf, 0)
  | .dropped _ _ => (s, 0)
  | .noBuf _ => (s, 0)

/-- `rx_deliver(out)`, 43_packet_io.md R183; the number is the pass's `rxDelivered`. -/
def rxDeliver : List Drained → State → State × Nat
  | [], s => (s, 0)
  | e :: rest, s =>
    let one := deliverOne s e
    let more := rxDeliver rest one.1
    (more.1, one.2 + more.2)

end Sys2Proof.Machine
end

