-- ==== Sys2Proof/Machine/LifecycleOps.lean ====
section
/-! DEFINITION. The procedures of the lifecycle operations (45_lifecycle.md). -/

namespace Sys2Proof.Machine

/-- The descriptors of slot `i` of the three rings zeroed (45_lifecycle.md R221). -/
def zeroSlot (s : State) (i : Nat) : State :=
  ((((s.memWrite (txDescAddr s.par i) 8 0).memWrite (txDescAddr s.par i + 8) 8 0).memWrite (rxDescAddr s.par i) 8 0).memWrite
    (rxDescAddr s.par i + 8) 8 0).memWrite (rrDescAddr s.par i) 8 0

/-- The descriptor arrays of the three rings zeroed. -/
def zeroRings (s : State) : State := (List.range s.par.n).foldl zeroSlot s

/-- `ring_init()`, R221. -/
def ringInit (s : State) : State :=
  let s1 := zeroRings s
  { s1 with
    tx := { prod := 0, free := s1.par.n, cons := 0, slot := List.replicate s1.par.n none }
    rx := { s1.rx with prod := 0, rrCons := 0 }
    poll := { snapTxCons := 0, snapRrProd := 0, snapTag := 0, irqRing := false, irqLink := false, wdStallTicks := 0,
              wdProgress := false }
    ctl := { s1.ctl with txStalled := false } }

/-- Up to `k` buffers from the allocator, in order, stopping at the first failure; whether all `k` came (R220 step 1). -/
def allocMany : Nat → State → State × List Addr × Bool
  | 0, s => (s, [], true)
  | k + 1, s =>
    match alloc s with
    | (s1, some b) =>
      let rest := allocMany k s1
      (rest.1, b :: rest.2.1, rest.2.2)
    | (s1, none) => (s1, [], false)

/-- `for i in ..: rx_post(i, bufs[i])` from slot `i` on (R220 step 5). -/
def postBuffers : List Addr → Nat → State → State
  | [], _, s => s
  | b :: rest, i, s => postBuffers rest (i + 1) (rxPost s i b)

/-- `rx_release_all()` for one slot, R224. -/
def releaseSlot (s : State) (i : Nat) : State :=
  match s.rxSlot i with
  | some b => (freeBuffer s b).setRxSlot i none
  | none => s

/-- `rx_release_all()`, R224. -/
def rxReleaseAll (s : State) : State := (List.range s.par.n).foldl releaseSlot s

/-- The buffers the RX slots hold, in slot order. -/
def heldBuffers (s : State) : List Addr := (List.range s.par.n).map s.bufferOf

/-- `adapter_reset()`, R226. -/
def adapterReset (s : State) : State :=
  let s1 := regWrite (linkDownNow s) .devCtrl 0x00000002
  let s2 := regWrite (ringInit (txFailAll s1)) .devCtrl 0x00000001
  linkStart (postBuffers (heldBuffers s2) 0 s2)

/-- Steps (2) to (7) of `START`, with the `N` buffers had (R220). -/
def bringUp (s : State) (bufs : List Addr) : State :=
  let s1 := regWrite (ringInit (regWrite s .devCtrl 0x00000002)) .devCtrl 0x00000001
  let s2 := postBuffers bufs 0 s1
  linkStart { s2 with ctl := { s2.ctl with enabled := true } }

/-- The two index fields and the tag of the status block, read as one 8-byte access (42_status_block_poller.md R162). -/
def statusBlock (s : State) : BitVec 64 := BitVec.ofNat 64 (s.memRead s.par.sbBase 8)

/-- `sb[15:0] & MASK`. -/
def sbTxCons (p : Params) (sb : BitVec 64) : Nat := wrap p (sb.extractLsb' 0 16).toNat

/-- `sb[31:16] & MASK`. -/
def sbRrProd (p : Params) (sb : BitVec 64) : Nat := wrap p (sb.extractLsb' 16 16).toNat

/-- `sb[63:32]`. -/
def sbTag (sb : BitVec 64) : Word := sb.extractLsb' 32 32

/-- Step (4) of `STOP`: what the device did finish is completed; an over-claim is ignored (R225). -/
def finalReclaim (s : State) : State :=
  let t := sbTxCons s.par (statusBlock s)
  if ringDist s.par t s.tx.cons ≤ s.inFlight then (txReclaim s t).1 else s

/-- Steps (1) to (8) of `STOP` (R225). -/
def shutDown (s : State) : State :=
  let s1 := regWrite (linkDownNow (bumpEpoch s)) .devCtrl 0x00000000
  let s2 := ringInit (rxReleaseAll (txFailAll (finalReclaim s1)))
  { s2 with ctl := { s2.ctl with enabled := false } }

end Sys2Proof.Machine
end

