-- ==== Sys2Proof/Machine/Lifecycle.lean ====
section
/-! DEFINITION. The lifecycle operations START, STOP and ADPRESET (45_lifecycle.md R220, R225, R226). -/

namespace Sys2Proof.Machine

/-- `START` once the allocator has answered: all `N` buffers, or those taken are given back (R220 step 1). -/
def startWith (got : State × List Addr × Bool) : State × Result :=
  if got.2.2 then (bringUp got.1 got.2.1, Result.okVal 0) else (freeAll got.1 got.2.1, Result.err .outOfBuffers)

/-- `START`, R220. -/
def execStart (s : State) : Host.Outcome State Fault Refusal :=
  answer s (if s.ctl.enabled then (s, Result.err .badState) else startWith (allocMany s.par.n s))

/-- `STOP`, R225. -/
def execStop (s : State) : Host.Outcome State Fault Refusal :=
  answer s (if s.ctl.enabled then (shutDown s, Result.okVal 0) else (s, Result.err .badState))

/-- `ADPRESET`, R226. -/
def execAdpreset (s : State) : Host.Outcome State Fault Refusal :=
  answer s (if s.ctl.enabled then (adapterReset s, Result.okVal 0) else (s, Result.err .badState))

end Sys2Proof.Machine
end

