-- ==== Sys2Proof/Machine/LinkFsm.lean ====
section
/-! DEFINITION. The commands of the link negotiation state machine (44_link_fsm.md R206 to R208). -/

namespace Sys2Proof.Machine

/-- `LNKAUTO caps, adv`, R206: stored always; when enabled, the link goes down and negotiation begins. -/
def execLnkauto (adv : BitVec 2) (caps : BitVec 6) (s : State) : Host.Outcome State Fault Refusal :=
  answer s (
    if caps = 0 then (s, Result.err .badOperand)
    else
      let s1 : State := { s with link := { s.link with mode := .auto, advCaps := caps, advLocal := adv } }
      (if s.ctl.enabled then requestNegotiation (linkDownNow s1) else s1, Result.okVal 0))

/-- `LNKFORCE speed, duplex`, R207. -/
def execLnkforce (duplex : Bool) (speed : BitVec 2) (s : State) : Host.Outcome State Fault Refusal :=
  answer s (
    if speed = 3 then (s, Result.err .badOperand)
    else
      let s1 : State := { s with link := { s.link with mode := .forced speed duplex } }
      (if s.ctl.enabled then enterForced s1 speed duplex else s1, Result.okVal 0))

/-- The platform's delivery of one callback takes one occurrence out of `resolve_pending` (46_environment_agents.md R248). -/
def takeCallback (s : State) (e : Word) : State :=
  { s with env := { s.env with resolvePending := s.env.resolvePending.erase e } }

/-- `RESDONE e`, R208; an epoch that was never scheduled is let through to the block's own check (93 U21; log 15). -/
def execResdone (e : Word) (s : State) : Host.Outcome State Fault Refusal :=
  let s1 := takeCallback s e
  answer s (
    if e ≠ s.link.epoch then (s1, Result.err .staleEpoch)
    else if s.link.state ≠ .resolving then (s1, Result.err .badState)
    else (resolveDone s1, Result.okVal 0))

end Sys2Proof.Machine
end

