-- ==== Sys2Proof/Machine/PacketIo.lean ====
section
/-! DEFINITION. Transmit submission of the packet I/O arbiter (43_packet_io.md R175 to R179). -/

namespace Sys2Proof.Machine

/-- A submission with the gate open: the queue stalls on `OutOfDescriptors` only (R175, R176). -/
def submitPacket (s : State) (done : State × Result) : State × Result :=
  if done.2.code = .outOfDescriptors then ({ s with ctl := { s.ctl with txStalled := true } }, done.2) else done

/-- `SUBMIT h, csum, segs`, R175: the enable gate, then the link gate, then the ring manager. -/
def execSubmit (csum : Bool) (h : Handle) (segs : List Seg) (s : State) : Host.Outcome State Fault Refusal :=
  answer s (
    if s.ctl.enabled then
      if s.link.up then submitPacket s (txPost s h csum segs) else (s, Result.err .gateClosed)
    else (s, Result.err .notEnabled))

end Sys2Proof.Machine
end

