-- ==== Sys2Proof/Machine/Poller.lean ====
section
/-! DEFINITION. The status block poller: the servicing pass and the watchdog tick (42_status_block_poller.md). -/

namespace Sys2Proof.Machine

/-- The work summary, 42_status_block_poller.md R165: bit 0 `txReclaimed`, bit 1 `linkChanged`, bits 31:16 `rxDelivered`. -/
def workSummary (nd : Nat) (lc txr : Bool) : BitVec 64 :=
  0#32 ++ BitVec.ofNat 16 nd ++ 0#14 ++ flagBit lc ++ flagBit txr

/-- Step (2) of the pass: the link is serviced only when its interrupt is pending (R161). -/
def serviceLink (s : State) : State :=
  if s.poll.irqLink then linkService { s with poll := { s.poll with irqLink := false } } else s

/-- Step (8): the snapshot of the pass is stored. -/
def storeSnapshot (s : State) (t r : Nat) (g : Word) : State :=
  { s with poll := { s.poll with snapTxCons := t, snapRrProd := r, snapTag := g } }

/-- Steps (6) to (8): TX, then RX, whatever faults, with the summary (R161, R164). -/
def dispatchPass (s : State) (t r : Nat) (g : Word) (lc : Bool) : State × Result :=
  let tx := txReclaim s t
  let txr : Bool := tx.2.code == .ok && tx.2.val.extractLsb' 0 16 != 0
  let rx : State × Nat := match rrDrain tx.1 r with
    | (s1, some out) => rxDeliver out s1
    | (s1, none) => (s1, 0)
  (storeSnapshot rx.1 t r g, Result.okVal (workSummary rx.2 lc txr))

/-- Steps (4) to (8): the one read of the status block decides all that follows (R162, R163). -/
def servicePass (s : State) (lc : Bool) : State × Result :=
  let sb := statusBlock s
  let s1 : State := { s with poll := { s.poll with irqRing := false } }
  let t := sbTxCons s.par sb
  let r := sbRrProd s.par sb
  if t = s.poll.snapTxCons ∧ r = s.poll.snapRrProd then
    ({ s1 with poll := { s1.poll with snapTag := sbTag sb } }, Result.okVal (workSummary 0 lc false))
  else dispatchPass s1 t r (sbTag sb) lc

/-- The servicing pass, R161. -/
def onInterrupt (s : State) : State × Result :=
  if s.ctl.enabled then
    let s1 := serviceLink s
    let lc : Bool := s1.link.state != s.link.state
    if s1.link.up then servicePass s1 lc else (s1, Result.okVal (workSummary 0 lc false))
  else (s, Result.okVal 0)

/-- `ONINT` (alias `POLL`), R161. -/
def execOnint (s : State) : Host.Outcome State Fault Refusal := answer s (onInterrupt s)

/-- `wd_check()`, R168. -/
def wdCheck (s : State) : State :=
  { s with poll := { s.poll with
      wdStallTicks :=
        if s.link.up && decide (s.tx.free < s.par.n) then
          (if s.poll.wdProgress then 0 else s.poll.wdStallTicks + 1)
        else 0
      wdProgress := false } }

/-- The tick, R167: the watchdog first; if it fires, no negotiation tick (R170). -/
def tick (s : State) : State × Result :=
  if s.ctl.enabled then
    let s1 := wdCheck s
    if s1.par.wdTimeout ≤ s1.poll.wdStallTicks.toNat then
      (adapterReset (s1.emit .hwTimeout), Result.err .hardwareTimeout)
    else negTick s1
  else (s, Result.okVal 0)

/-- `WDTICK`, R167. -/
def execWdtick (s : State) : Host.Outcome State Fault Refusal := answer s (tick s)

end Sys2Proof.Machine
end

