-- ==== Sys2Proof/Machine/RegisterAccess.lean ====
section
/-! DEFINITION. The seven operations of the Register Access Layer (40_register_access.md R130 to R138). They are available
whether or not the adapter is enabled. -/

namespace Sys2Proof.Machine

/-- `RDREG off`, R131. -/
def execRdreg (off : BitVec 16) (s : State) : Host.Outcome State Fault Refusal :=
  answer s (if csrOffsetOk off then (s, Result.okVal ((readAt s off).setWidth 64)) else (s, Result.err .badOperand))

/-- `WRREG off, val`, R132. -/
def execWrreg (off : BitVec 16) (val : Word) (s : State) : Host.Outcome State Fault Refusal :=
  answer s (if csrOffsetOk off then (writeAt s off val, Result.okVal 0) else (s, Result.err .badOperand))

/-- `RDIND addr`, R133. -/
def execRdind (addr : Word) (s : State) : Host.Outcome State Fault Refusal :=
  answer s (if imemAddrOk s.par addr then ((indRead s addr).1, Result.okVal ((indRead s addr).2.setWidth 64))
    else (s, Result.err .badOperand))

/-- `WRIND addr, val`, R134. -/
def execWrind (addr val : Word) (s : State) : Host.Outcome State Fault Refusal :=
  answer s (if imemAddrOk s.par addr then (indWrite s addr val, Result.okVal 0) else (s, Result.err .badOperand))

/-- `DOORBELL off, val`, R135: `BadOperand` unless the offset is a mailbox's. -/
def execDoorbell (off : BitVec 16) (val : Word) (s : State) : Host.Outcome State Fault Refusal :=
  answer s (match csrAt off with
    | some c => if c.isMailbox then (ringDoorbell s c val, Result.okVal 0) else (s, Result.err .badOperand)
    | none => (s, Result.err .badOperand))

/-- `SETBIT off, mask`, R136: the value written is computed from what the register reads as. -/
def execSetbit (off : BitVec 16) (mask : Word) (s : State) : Host.Outcome State Fault Refusal :=
  answer s (if csrOffsetOk off then
      (writeAt s off (readAt s off ||| mask), Result.okVal ((readAt s off ||| mask).setWidth 64))
    else (s, Result.err .badOperand))

/-- `CLRBIT off, mask`, R137. -/
def execClrbit (off : BitVec 16) (mask : Word) (s : State) : Host.Outcome State Fault Refusal :=
  answer s (if csrOffsetOk off then
      (writeAt s off (readAt s off &&& ~~~mask), Result.okVal ((readAt s off &&& ~~~mask).setWidth 64))
    else (s, Result.err .badOperand))

end Sys2Proof.Machine
end

