-- ==== Sys2Proof/Machine/RingManager.lean ====
section
/-! DEFINITION. The five commands of the Descriptor Ring Manager (41_ring_manager.md R140 to R156). Each first requires
`enabled`; none tests the link. -/

namespace Sys2Proof.Machine

/-- The enable gate of R140 (a). -/
def whenEnabled (s : State) (done : State × Result) : State × Result :=
  if s.ctl.enabled then done else (s, Result.err .notEnabled)

/-- `TXPOST h, csum, segs`, R142. -/
def execTxpost (csum : Bool) (h : Handle) (segs : List Seg) (s : State) : Host.Outcome State Fault Refusal :=
  answer s (whenEnabled s (txPost s h csum segs))

/-- `TXRECLAIM idx`, R145. -/
def execTxreclaim (idx : BitVec 16) (s : State) : Host.Outcome State Fault Refusal :=
  answer s (whenEnabled s (txReclaim s idx.toNat))

/-- `RXPOST slot, buf`, R148. -/
def execRxpost (slot : BitVec 16) (buf : Addr) (s : State) : Host.Outcome State Fault Refusal :=
  answer s (whenEnabled s (
    if s.par.n ≤ slot.toNat then (s, Result.err .badOperand)
    else if !bufferOperandOk buf then (s, Result.err .badOperand)
    else if (s.rxSlot slot.toNat).isSome then (s, Result.err .slotBusy)
    else (rxPost s slot.toNat buf, Result.okVal 0)))

/-- The outcome of a drain as the direct command reports it (R151). -/
def reportDrain (done : State × Option (List Drained)) : State × Result :=
  match done with
  | (s1, some out) => (out.foldl reportDrained s1, Result.okVal (BitVec.ofNat 64 out.length))
  | (s1, none) => (s1, Result.err .indexFault)

/-- `RRDRAIN idx`, R151. -/
def execRrdrain (idx : BitVec 16) (s : State) : Host.Outcome State Fault Refusal :=
  answer s (whenEnabled s (reportDrain (rrDrain s idx.toNat)))

/-- The outcome of a refill as the direct command reports it: the detached buffer passes to the issuer (R154). -/
def reportRefill (done : State × Option Addr) : State × Result :=
  match done with
  | (s1, some old) => (s1.dropLive old, Result.okVal old)
  | (s1, none) => (s1, Result.err .outOfBuffers)

/-- `RXREFILL slot`, R154. -/
def execRxrefill (slot : BitVec 16) (s : State) : Host.Outcome State Fault Refusal :=
  answer s (whenEnabled s (
    if s.par.n ≤ slot.toNat then (s, Result.err .badOperand) else reportRefill (rxRefill s slot.toNat)))

end Sys2Proof.Machine
end

