-- ==== Sys2Proof/Machine/Dispatch.lean ====
section
/-! DEFINITION. One arm per operation. -/

namespace Sys2Proof.Machine

def exec (i : Instr) (s : State) : Host.Outcome State Fault Refusal :=
  match i with
  | .rdreg off => Sys2Proof.Machine.execRdreg off s
  | .wrreg off val => Sys2Proof.Machine.execWrreg off val s
  | .rdind addr => Sys2Proof.Machine.execRdind addr s
  | .wrind addr val => Sys2Proof.Machine.execWrind addr val s
  | .doorbell off val => Sys2Proof.Machine.execDoorbell off val s
  | .setbit off mask => Sys2Proof.Machine.execSetbit off mask s
  | .clrbit off mask => Sys2Proof.Machine.execClrbit off mask s
  | .txpost csum h segs => Sys2Proof.Machine.execTxpost csum h segs s
  | .txreclaim idx => Sys2Proof.Machine.execTxreclaim idx s
  | .rxpost slot buf => Sys2Proof.Machine.execRxpost slot buf s
  | .rrdrain idx => Sys2Proof.Machine.execRrdrain idx s
  | .rxrefill slot => Sys2Proof.Machine.execRxrefill slot s
  | .onint => Sys2Proof.Machine.execOnint s
  | .wdtick => Sys2Proof.Machine.execWdtick s
  | .submit csum h segs => Sys2Proof.Machine.execSubmit csum h segs s
  | .lnkauto adv caps => Sys2Proof.Machine.execLnkauto adv caps s
  | .lnkforce duplex speed => Sys2Proof.Machine.execLnkforce duplex speed s
  | .resdone e => Sys2Proof.Machine.execResdone e s
  | .start => Sys2Proof.Machine.execStart s
  | .stop => Sys2Proof.Machine.execStop s
  | .adpreset => Sys2Proof.Machine.execAdpreset s
  | .devtx k => Sys2Proof.Machine.execDevtx k s
  | .devrx flags err len => Sys2Proof.Machine.execDevrx flags err len s
  | .devsb => Sys2Proof.Machine.execDevsb s
  | .physet status => Sys2Proof.Machine.execPhyset status s

end Sys2Proof.Machine
end

