-- ==== Sys2Proof/Machine/Fetch.lean ====
section
/-! DEFINITION. Taking what the environment presents: a request is decoded and run to completion, or answered as undecodable. -/

namespace Sys2Proof.Machine

/-- A request or agent step: decoded and run, or answered as undecodable (30_encoding.md R112, R116). -/
def runRequest (r : Request) (s : State) : Host.Outcome State Fault Refusal :=
  match decode r with
  | some i => exec i s
  | none => runUndecodable r s

/-- One stimulus, on the machine from whose list it has been taken (log 1, log 16). -/
def runStimulus (x : Stimulus) (s : State) : Host.Outcome State Fault Refusal :=
  match x with
  | .command r => runRequest r s
  | .rogueSb v => rogueWriteSb s v
  | .rogueRr j v => rogueWriteRr s j v

/-- The stimuli with the request of a table word put in front (log 1, log 22). -/
def presentWord (nbits w : Nat) (pending : List Stimulus) : List Stimulus := .command (requestOfWord nbits w) :: pending

end Sys2Proof.Machine
end

