-- ==== Sys2Proof/Machine/Step.lean ====
section
/-! DEFINITION. One step of the machine: the oldest stimulus is taken and runs to completion as one atomic step
(20_memory.md R96, R97). -/

namespace Sys2Proof.Machine

/-- One step (log 1). -/
def step (s : State) : Host.Outcome State Fault Refusal :=
  match s.port.pending with
  | [] => idle s
  | x :: rest => runStimulus x (s.withPending rest)

/-- The request of a table word presented as the next stimulus (log 1, log 22). -/
def State.withFetchWord (s : State) (nbits w : Nat) : State := s.withPending (presentWord nbits w s.port.pending)

end Sys2Proof.Machine
end

