-- ==== Sys2Proof/Safety.lean ====
section
/-! DEFINITION. The terms in which claims about the machine are stated: memory ranges, the values CSRs show, the events a walk
owes, the invariants of 10_state.md R22 to R46 and R70, the buffers' ownership, and the host discipline of 41_ring_manager.md R156. -/

namespace Sys2Proof

/-- The mnemonic of an instruction's row in 30_encoding.md R112. -/
def Instr.mnemonic : Instr → String
  | .rdreg _ => "RDREG"
  | .wrreg _ _ => "WRREG"
  | .rdind _ => "RDIND"
  | .wrind _ _ => "WRIND"
  | .doorbell _ _ => "DOORBELL"
  | .setbit _ _ => "SETBIT"
  | .clrbit _ _ => "CLRBIT"
  | .txpost _ _ _ => "TXPOST"
  | .txreclaim _ => "TXRECLAIM"
  | .rxpost _ _ => "RXPOST"
  | .rrdrain _ => "RRDRAIN"
  | .rxrefill _ => "RXREFILL"
  | .onint => "ONINT"
  | .wdtick => "WDTICK"
  | .submit _ _ _ => "SUBMIT"
  | .lnkauto _ _ => "LNKAUTO"
  | .lnkforce _ _ => "LNKFORCE"
  | .resdone _ => "RESDONE"
  | .start => "START"
  | .stop => "STOP"
  | .adpreset => "ADPRESET"
  | .devtx _ => "DEVTX"
  | .devrx _ _ _ => "DEVRX"
  | .devsb => "DEVSB"
  | .physet _ => "PHYSET"

/-- The host programs for which the cross-agent properties are claimed: 41_ring_manager.md R156, 93 U7. -/
def Instr.disciplined : Instr → Bool
  | .start => true
  | .stop => true
  | .adpreset => true
  | .submit _ _ _ => true
  | .onint => true
  | .wdtick => true
  | .lnkauto _ _ => true
  | .lnkforce _ _ => true
  | .resdone _ => true
  | .rdreg _ => true
  | .wrreg _ _ => false
  | .rdind _ => false
  | .wrind _ _ => false
  | .doorbell _ _ => false
  | .setbit _ _ => false
  | .clrbit _ _ => false
  | .txpost _ _ _ => false
  | .txreclaim _ => false
  | .rxpost _ _ => false
  | .rrdrain _ => false
  | .rxrefill _ => false
  | .devtx _ => true
  | .devrx _ _ _ => true
  | .devsb => true
  | .physet _ => true

namespace Machine

/-! ## Memory ranges -/

/-- The address `a` lies outside the `len` bytes at `base`. -/
abbrev outside (a base len : Nat) : Prop := a < base ∨ base + len ≤ a

/-- Every byte outside the `len` bytes at `base` reads in `m'` as it does in `m`. -/
def sameOutside (m m' : List Host.Cell) (base len : Nat) : Prop :=
  ∀ a, outside a base len → Memory.byteAt m' a = Memory.byteAt m a

/-! ## The values the CSRs show, as sums of fields (10_state.md R48 to R67) -/

/-- The state code of 10_state.md R39 as a number. -/
def LinkState.value : LinkState → Nat
  | .down => 0
  | .negotiating => 1
  | .resolving => 2
  | .up => 3

/-- Bits 3:0 of `LINK_CFG` as a number (R60). -/
def LinkMode.value : LinkMode → Nat
  | .auto => 0
  | .forced sp dp => 1 + 2 * sp.toNat + 8 * dp.toNat

/-- What `RDREG` returns at a legal offset (R131), field by field with the weight of its lowest bit. -/
def csrValue (s : State) : Nat → Nat
  | 0x00 => s.ctl.enabled.toNat + 2 * s.link.up.toNat + 4 * s.link.state.value + 16 * s.ctl.txStalled.toNat +
      32 * s.poll.irqRing.toNat + 64 * s.poll.irqLink.toNat
  | 0x04 => s.tx.prod + 65536 * s.tx.cons
  | 0x08 => s.tx.free
  | 0x0C => s.rx.prod + 65536 * s.rx.rrCons
  | 0x10 => s.poll.snapTxCons + 65536 * s.poll.snapRrProd
  | 0x14 => s.poll.snapTag.toNat
  | 0x18 => s.link.epoch.toNat
  | 0x1C => s.ctl.cntRxDrop.toNat
  | 0x20 => s.ctl.cntRxNobuf.toNat
  | 0x24 => s.poll.wdStallTicks.toNat + 65536 * s.poll.wdProgress.toNat
  | 0x28 => s.link.negTicks.toNat + 65536 * s.link.negRetries.toNat
  | 0x2C => s.ctl.faultTxIdx.toNat + 2 * s.ctl.faultRrIdx.toNat
  | 0x30 => s.csr.devCtrlEn.toNat
  | 0x34 => s.link.mode.value + 16 * s.link.advCaps.toNat + 1024 * s.link.advLocal.toNat
  | 0x38 => s.link.resSpeed.toNat + 4 * s.link.resDuplex.toNat + 8 * s.link.advPartner.toNat
  | 0x40 => s.csr.phyAdv.toNat
  | 0x44 => s.csr.phyCtrl.toNat
  | 0x48 => s.csr.phyStatus.toNat
  | 0x4C => s.csr.macMode.toNat
  | 0x60 => s.csr.winBase.toNat
  | 0x64 => if s.csr.winBase.toNat % 4 = 0 ∧ s.csr.winBase.toNat / 4 < s.par.imemWords then
      (s.imemRead (s.csr.winBase.toNat / 4)).toNat else 0
  | 0x80 => s.csr.mbTxProd.toNat
  | 0x84 => s.csr.mbRxProd.toNat
  | 0x88 => s.csr.mbRrCons.toNat
  | _ => 0

/-! ## Walks -/

/-- The events that freeing the `c` TX slots from slot `i` on owes: one per slot with `EOP`, for the handle in it, in slot order
(41_ring_manager.md R144, 45_lifecycle.md R223). -/
def owedEvents (s : State) (ev : Handle → Event) (i c : Nat) : List Event :=
  (List.range c).filterMap fun j =>
    if s.txEop ((i + j) % s.par.n) then (s.txSlot ((i + j) % s.par.n)).map ev else none

/-- The slot that the `j`-th undrained return descriptor names, and its other fields (20_memory.md R87). -/
def batchSlot (s : State) (j : Nat) : Nat := s.rrSlot ((s.rx.rrCons + j) % s.par.n)

def batchLen (s : State) (j : Nat) : BitVec 16 := s.rrLen ((s.rx.rrCons + j) % s.par.n)

def batchFlags (s : State) (j : Nat) : BitVec 16 := s.rrFlags ((s.rx.rrCons + j) % s.par.n)

def batchErr (s : State) (j : Nat) : BitVec 16 := s.rrErr ((s.rx.rrCons + j) % s.par.n)

/-- What the prescan of 41_ring_manager.md R152 accepts: `c` descriptors that name `c` different slots of the ring. -/
def goodBatch (s : State) (c : Nat) : Prop :=
  (∀ j, j < c → batchSlot s j < s.par.n) ∧ ∀ j k, j < k → k < c → batchSlot s j ≠ batchSlot s k

/-- What the prescan refuses: a slot number that names no slot, or one slot named twice (41_ring_manager.md R152). -/
def refusedBatch (s : State) (c : Nat) : Prop :=
  (∃ j, j < c ∧ s.par.n ≤ batchSlot s j) ∨ ∃ j k, j < k ∧ k < c ∧ batchSlot s j = batchSlot s k

/-- The machine after the allocator has been called `k` times. -/
def afterAllocs : Nat → State → State
  | 0, s => s
  | k + 1, s => afterAllocs k (alloc s).1

/-- How many of the first `c` return descriptors ask for a refill: those without an error flag (41_ring_manager.md R150). -/
def batchCalls (s : State) (c : Nat) : Nat := (List.range c).countP fun j => batchErr s j == 0

/-- The fresh buffer the `j`-th entry's refill got; none for an errored entry and for a refill that failed. -/
def batchFresh (s : State) (j : Nat) : Option Addr :=
  if batchErr s j = 0 then (alloc (afterAllocs (batchCalls s j) s)).2 else none

/-- The buffer in the slot that the `j`-th entry names. -/
def batchOld (s : State) (j : Nat) : Addr := s.bufferOf (batchSlot s j)

/-- How many of the first `c` entries are dropped for an error flag, and how many find no fresh buffer. -/
def batchDrops (s : State) (c : Nat) : Nat := (List.range c).countP fun j => batchErr s j != 0

def batchMisses (s : State) (c : Nat) : Nat := (List.range c).countP fun j => batchErr s j == 0 && (batchFresh s j).isNone

/-- What a direct `RRDRAIN` reports of the `j`-th entry (41_ring_manager.md R151). -/
def batchEvent (s : State) (j : Nat) : Event :=
  if batchErr s j = 0 then
    match batchFresh s j with
    | some _ => .rxFilled (batchOld s j) (batchLen s j) (batchFlags s j)
    | none => .rxNoBuf (BitVec.ofNat 16 (batchSlot s j))
  else .rxDropped (BitVec.ofNat 16 (batchSlot s j)) (batchErr s j)

/-- The `j`-th entry's length is one that is delivered (43_packet_io.md R180). -/
def batchFits (s : State) (j : Nat) : Bool := decide (1 ≤ (batchLen s j).toNat) && decide ((batchLen s j).toNat ≤ s.par.maxpkt)

/-- What a servicing pass reports of the `j`-th entry: only a refilled one, delivered or freed (43_packet_io.md R180 to R183). -/
def batchHandover (s : State) (j : Nat) : Option Event :=
  (batchFresh s j).map fun _ =>
    if batchFits s j then .deliver (batchOld s j) (batchLen s j) ((batchFlags s j).getLsbD 0) ((batchFlags s j).getLsbD 1)
    else .bufFree (batchOld s j)

/-- How many of the first `c` entries a servicing pass delivers, and how many it frees for their length. -/
def batchDelivered (s : State) (c : Nat) : Nat := (List.range c).countP fun j => (batchFresh s j).isSome && batchFits s j

def batchMisfits (s : State) (c : Nat) : Nat := (List.range c).countP fun j => (batchFresh s j).isSome && !batchFits s j

/-- The slots, the memory and the live buffers after a batch of `c` entries: a refilled entry's slot and descriptor hold the fresh
buffer, any other entry's slot and descriptor what they held; the fresh buffers are live and the replaced ones are not; nothing
else changes (41_ring_manager.md R150, R153; 46_environment_agents.md R246). -/
structure BatchPlaced (s : State) (c : Nat) (sl : List (Option Addr)) (m : List Host.Cell) (lv : List Addr) : Prop where
  len    : sl.length = s.par.n
  named  : ∀ j, j < c → sl[batchSlot s j]? = some (match batchFresh s j with
             | some b => some b
             | none => s.rxSlot (batchSlot s j))
  others : ∀ i, (∀ j, j < c → i ≠ batchSlot s j) → sl[i]? = s.rx.slot[i]?
  addr   : ∀ j b, j < c → batchFresh s j = some b → Memory.readLE m (rxDescAddr s.par (batchSlot s j)) 8 = b.toNat
  cap    : ∀ j, j < c → batchFresh s j ≠ none → Memory.readLE m (rxDescAddr s.par (batchSlot s j) + 8) 2 = s.par.bufcap
  bytes  : ∀ a, (∀ j, j < c → batchFresh s j ≠ none → outside a (rxDescAddr s.par (batchSlot s j)) 10) →
             Memory.byteAt m a = Memory.byteAt s.mem a
  live   : ∀ b, b ∈ lv ↔ (b ∈ s.env.live ∨ ∃ j, j < c ∧ batchFresh s j = some b) ∧
             ∀ j, j < c → batchFresh s j ≠ none → b ≠ batchOld s j

/-- The mailboxes after a batch of `c` entries: the posts and the consumer index are rung, if there was an entry. -/
def batchCsrs (s : State) (c : Nat) : Csrs :=
  if 0 < c then { s.csr with mbRxProd := BitVec.ofNat 32 ((s.rx.prod + c) % s.par.n),
                             mbRrCons := BitVec.ofNat 32 ((s.rx.rrCons + c) % s.par.n) }
  else s.csr

/-- The device after a batch of `c` entries: it takes the first post's distance and one more credit for each further one, at most
`N` in all, and sees the new indices; an inactive device takes nothing (46_environment_agents.md R237). -/
def batchDevice (s : State) (c : Nat) : Device :=
  if s.dev.active = true ∧ 0 < c then
    { s.dev with
      rxAvail := min s.par.n (s.dev.rxAvail + ((s.rx.prod + 1) % s.par.n + s.par.n - s.dev.rxSeen) % s.par.n + (c - 1))
      rxSeen := (s.rx.prod + c) % s.par.n
      rrSeen := (s.rx.rrCons + c) % s.par.n }
  else s.dev

/-- The TX slots after the first `c` in flight have been freed. -/
structure SlotsFreed (s : State) (c : Nat) (sl : List (Option Handle)) : Prop where
  len    : sl.length = s.par.n
  freed  : ∀ j, j < c → sl[(s.tx.cons + j) % s.par.n]? = some none
  others : ∀ i, (∀ j, j < c → i ≠ (s.tx.cons + j) % s.par.n) → sl[i]? = s.tx.slot[i]?

/-- How many slots a claim of `c` completions frees: all of them, or none if it claims more than are in flight
(41_ring_manager.md R144). -/
def reclaimed (s : State) (c : Nat) : Nat := if c ≤ s.par.n - s.tx.free then c else 0

/-- What a reclamation of `c` slots reports (41_ring_manager.md R144). -/
def reclaimEvents (s : State) (c : Nat) : List Event :=
  owedEvents s .txDone s.tx.cons c ++ (if 0 < c ∧ s.ctl.txStalled = true then [.resume] else [])

/-- A pass keeps the gate open: no link interrupt is pending, or the link is up and the PHY reports it ok
(44_link_fsm.md R191, R205 (d)). -/
def GateStaysOpen (s : State) : Prop :=
  s.poll.irqLink = true → s.link.state = .up ∧ s.csr.phyStatus.getLsbD 0 = true

/-- Buffers the allocator may hand out one after the other (46_environment_agents.md R246). -/
def allFresh (p : Params) : List Addr → List Addr → Prop
  | _, [] => True
  | live, b :: rest => freshBuffer p live b = true ∧ allFresh p (b :: live) rest

/-- The buffers the RX slots hold, in slot order. -/
def slotBuffers (s : State) : List Addr := s.rx.slot.filterMap id

/-! ## The device's credit after a doorbell (46_environment_agents.md R237) -/

/-- The device after `MB_TX_PROD` has been rung with the index `v`. -/
def txRung (p : Params) (d : Device) (v : Nat) : Device :=
  if d.active then { d with txPending := min p.n (d.txPending + (v + p.n - d.txSeen) % p.n), txSeen := v } else d

/-- The device after `MB_RX_PROD` has been rung with the index `v`. -/
def rxRung (p : Params) (d : Device) (v : Nat) : Device :=
  if d.active then { d with rxAvail := min p.n (d.rxAvail + (v + p.n - d.rxSeen) % p.n), rxSeen := v } else d

/-- The device after `MB_RR_CONS` has been rung with the index `v`. -/
def rrRung (d : Device) (v : Nat) : Device := if d.active then { d with rrSeen := v } else d

/-! ## The link after `link_start` (45_lifecycle.md R222, 44_link_fsm.md R195, R201) -/

/-- The link registers, from a link that is `Down`. -/
def startedLink (l : Link) : Link :=
  match l.mode with
  | .auto => { l with state := .negotiating, up := false, epoch := l.epoch + 1, negTicks := 0, negRetries := 0, curSpeed := 0,
                      curDuplex := false, fcRx := false, fcTx := false }
  | .forced sp dp => { l with state := .up, up := true, epoch := l.epoch + 1, curSpeed := sp, curDuplex := dp, fcRx := false,
                              fcTx := false }

/-- The PHY and MAC registers, from their values before. -/
def startedCsrs (l : Link) (c : Csrs) : Csrs :=
  match l.mode with
  | .auto => { c with phyAdv := BitVec.ofNat 32 (64 * l.advLocal.toNat + l.advCaps.toNat), phyCtrl := 1,
                      phyStatus := c.phyStatus &&& 0xFFFFFFFD#32 }
  | .forced sp dp => { c with phyCtrl := BitVec.ofNat 32 (16 * dp.toNat + 4 * sp.toNat),
                              macMode := BitVec.ofNat 32 (4 * dp.toNat + sp.toNat) }

/-- Whether the restart of the PHY raised the link interrupt. -/
def startRaisesLink (l : Link) (c : Csrs) : Bool :=
  match l.mode with
  | .auto => c.phyStatus.getLsbD 1
  | .forced _ _ => false

/-- What is reported: a forced link is up at once. -/
def startEvents (l : Link) : List Event :=
  match l.mode with
  | .auto => []
  | .forced sp dp => [.linkUp (l.epoch + 1) sp dp false false]

/-- `LinkDown` is owed only by a link that had been reported up (44_link_fsm.md R204). -/
def downEvents (l : Link) (e : Word) : List Event := if l.up then [.linkDown e] else []

/-- The link registers after `link_down_now` (44_link_fsm.md R204). -/
def downedLink (l : Link) : Link :=
  { l with state := .down, up := false, curSpeed := 0, curDuplex := false, fcRx := false, fcTx := false }

/-! ## The rings after `ring_init`, and with the buffers posted (45_lifecycle.md R221, R220) -/

/-- The TX ring as `ring_init` leaves it. -/
def emptyTx (p : Params) : TxRing := { prod := 0, free := p.n, cons := 0, slot := List.replicate p.n none }

/-- The poller as `ring_init` leaves it, with the link interrupt given. -/
def emptyPoller (irq : Bool) : Poller :=
  { snapTxCons := 0, snapRrProd := 0, snapTag := 0, irqRing := false, irqLink := irq, wdStallTicks := 0, wdProgress := false }

/-- The device after its reset, active, with `N` receive credits. -/
def armedDevice (p : Params) : Device :=
  { active := true, txCons := 0, txSeen := 0, txPending := 0, rxCons := 0, rxSeen := 0, rxAvail := p.n, rrProd := 0, rrSeen := 0,
    tag := 0 }

/-- The three rings in memory after `ring_init` and the posting of `bufs`: TX and RX-return descriptors zero, each RX
descriptor naming its buffer with capacity `BUFCAP`. -/
structure RingsPosted (p : Params) (bufs : List Addr) (m : List Host.Cell) : Prop where
  tx_zero  : ∀ i, i < p.n → Memory.readLE m (txDescAddr p i) 16 = 0
  rr_zero  : ∀ i, i < p.n → Memory.readLE m (rrDescAddr p i) 8 = 0
  rx_addr  : ∀ i b, bufs[i]? = some b → Memory.readLE m (rxDescAddr p i) 8 = b.toNat
  rx_cap   : ∀ i, i < p.n → Memory.readLE m (rxDescAddr p i + 8) 2 = p.bufcap
  rx_rest  : ∀ i, i < p.n → Memory.readLE m (rxDescAddr p i + 10) 6 = 0
  sb_zero  : Memory.readLE m p.sbBase 8 = 0

/-! ## Invariants -/

/-- What every step keeps: the parameters are legal and the memories canonical (20_memory.md R81); every index and count is in
its range and the two slot arrays have `N` elements (10_state.md R22 to R32, R70); I1, I2, I3 of R26; the presence half of I5 and
the last sentence of R29; I7 of R40 and P24 of 44_link_fsm.md R210; the ranges of R34, R45, R46; the reserved bits of the CSRs
(R48); `dev_active` equal to `DEV_CTRL.EN` (R70); the canonical forms of the environment's lists (log 14). -/
structure Inv (s : State) : Prop where
  legal        : s.par.Legal
  mem_wf       : Memory.wf s.mem
  imem_wf      : canonical s.imem = true
  tx_len       : s.tx.slot.length = s.par.n
  rx_len       : s.rx.slot.length = s.par.n
  tx_prod_lt   : s.tx.prod < s.par.n
  tx_cons_lt   : s.tx.cons < s.par.n
  tx_free_le   : s.tx.free ≤ s.par.n
  tx_dist      : s.tx.prod = (s.tx.cons + (s.par.n - s.tx.free)) % s.par.n
  tx_slots     : ∀ k, k < s.par.n →
                   ((s.txSlot ((s.tx.cons + k) % s.par.n)).isSome = true ↔ k < s.par.n - s.tx.free)
  rx_prod_lt   : s.rx.prod < s.par.n
  rr_cons_lt   : s.rx.rrCons < s.par.n
  rx_on        : s.ctl.enabled = true → ∀ i, i < s.par.n → (s.rxSlot i).isSome = true
  rx_off       : s.ctl.enabled = false → ∀ i, i < s.par.n → s.rxSlot i = none
  snap_tx_lt   : s.poll.snapTxCons < s.par.n
  snap_rr_lt   : s.poll.snapRrProd < s.par.n
  stall_lt     : s.poll.wdStallTicks.toNat < s.par.wdTimeout
  up_iff       : s.link.up = true ↔ s.link.state = .up
  off_down     : s.ctl.enabled = false → s.link.state = .down
  down_clear   : s.link.up = false → s.link.curSpeed = 0 ∧ s.link.curDuplex = false ∧ s.link.fcRx = false ∧ s.link.fcTx = false
  ticks_le     : s.link.negTicks.toNat ≤ s.par.negTimeout
  ticks_lt     : s.link.state = .negotiating → s.link.negTicks.toNat < s.par.negTimeout
  retries_le   : s.link.negRetries.toNat ≤ s.par.negRetryMax
  mode_speed   : ∀ sp dp, s.link.mode = .forced sp dp → sp ≠ 3
  res_speed    : s.link.resSpeed ≠ 3
  cur_speed    : s.link.curSpeed ≠ 3
  phy_speed    : phySpeed s.csr.phyStatus ≠ 3
  phy_adv      : s.csr.phyAdv.toNat < 256
  phy_ctrl     : s.csr.phyCtrl &&& 0b11101#32 = s.csr.phyCtrl
  phy_status   : s.csr.phyStatus.toNat < 256
  mac_mode     : s.csr.macMode.toNat < 32
  mb_tx        : s.csr.mbTxProd.toNat < 65536
  mb_rx        : s.csr.mbRxProd.toNat < 65536
  mb_rr        : s.csr.mbRrCons.toNat < 65536
  dev_active   : s.dev.active = s.csr.devCtrlEn
  dev_tx_cons  : s.dev.txCons < s.par.n
  dev_tx_seen  : s.dev.txSeen < s.par.n
  dev_pending  : s.dev.txPending ≤ s.par.n
  dev_rx_cons  : s.dev.rxCons < s.par.n
  dev_rx_seen  : s.dev.rxSeen < s.par.n
  dev_avail    : s.dev.rxAvail ≤ s.par.n
  dev_rr_prod  : s.dev.rrProd < s.par.n
  dev_rr_seen  : s.dev.rrSeen < s.par.n
  live_sorted  : s.env.live.Pairwise fun a b => a.toNat < b.toNat
  owed_sorted  : s.env.resolvePending.Pairwise fun a b => a.toNat ≤ b.toNat

/-- I4 of 10_state.md R26: within the slots in flight, a slot whose descriptor has no `EOP` is followed by another slot of the same
handle, so that each packet's slots are consecutive, hold one handle and have `EOP` on exactly the last; the last slot in flight
has `EOP`. -/
structure TxFramed (s : State) : Prop where
  same_packet : ∀ k, k + 1 < s.par.n - s.tx.free → s.txEop ((s.tx.cons + k) % s.par.n) = false →
                  s.txSlot ((s.tx.cons + k + 1) % s.par.n) = s.txSlot ((s.tx.cons + k) % s.par.n)
  ends_packet : ∀ k, k + 1 = s.par.n - s.tx.free → s.txEop ((s.tx.cons + k) % s.par.n) = true

/-- The rest of I5 and I6 of 10_state.md R29: each posted slot's descriptor names its buffer with its capacity; the buffers are
live and pairwise distinct. -/
structure RxBacked (s : State) : Prop where
  desc_addr : ∀ i b, i < s.par.n → s.rxSlot i = some b → s.memRead (rxDescAddr s.par i) 8 = b.toNat
  desc_cap  : ∀ i b, i < s.par.n → s.rxSlot i = some b → s.rxCap i = s.par.bufcap
  live      : ∀ i b, i < s.par.n → s.rxSlot i = some b → b ∈ s.env.live
  distinct  : ∀ i j b, i < s.par.n → j < s.par.n → s.rxSlot i = some b → s.rxSlot j = some b → i = j

/-- A run is safe at a state when the next step has a successor: no stuck epoch and no step that no agent could take. -/
def SafeStep (s : State) : Prop := ∃ t, step s = .next t

end Machine

end Sys2Proof
end

