-- ==== Sys2Proof/Certificates/Slice0/Obligations.lean ====
section
/-! DEFINITION. The statements for the provers. A next state is written as the state before with every changed field named, so
that everything else is unchanged; memory is described through reads. Where a statement is about every state, the invariant
`Inv` (itself a statement, `InvKept`) rules out the states no run reaches. -/

open Sys2Proof Sys2Proof.Machine

/-! ## Encoding -/

/-- Decoding the request an instruction is written as gives the instruction back, with every operand (30_encoding.md R111 to
R114). -/
def Obligations.DecodeEncode : Prop := ∀ i : Instr, i.WellFormed → decode (encode i) = some i

/-- Whatever decodes is well formed, stands on its own agent's port, and has the command word its encoding has: each word has
one meaning (30_encoding.md R113, R116). -/
def Obligations.DecodeDeterminesWord : Prop :=
  ∀ (r : Request) (i : Instr), decode r = some i → i.WellFormed ∧ i.port = r.port ∧ (encode i).cmd = r.cmd

/-- A word decodes to the row of the opcode map whose mask and value it matches; the rows are pairwise disjoint; a word that
matches none decodes to nothing (30_encoding.md R112). -/
def Obligations.OpcodeMapDecides : Prop :=
  opcodeMap.length = 25 ∧
  opcodeMap.Pairwise (fun p q => ∀ w, ¬ (p.hits w = true ∧ q.hits w = true)) ∧
  ∀ (cmd : BitVec 32) (d : BitVec 64) (seg : List (BitVec 80)),
    ((∀ row ∈ opcodeMap, row.hits cmd = false) → decodeWords cmd d seg = none) ∧
    ∀ row ∈ opcodeMap, row.hits cmd = true → ∃ i, decodeWords cmd d seg = some i ∧ i.mnemonic = row.mnemonic

/-- Command words the spec writes out in the examples of its rules R131, R134, R142, R148, R161, R206, R207, R225, R241 and R244
decode to the operations they stand for. How a command word, its data operand and its segment records stand in one number, in
the words of 96 and 176 bits, is the model's choice (log 22). -/
def Obligations.SpecWordsDecode : Prop :=
  decodeTableWord 32 0x01000008 = some (.rdreg 8) ∧
  decodeTableWord 96 0x000012340000001004000000 = some (.wrind 0x10 0x1234) ∧
  decodeTableWord 176 0x0000000000030000004000000000000000A010010000 = some (.txpost false 0xA0 [⟨0x30000, 64⟩]) ∧
  decodeTableWord 96 0x000000000004000012000002 = some (.rxpost 2 0x40000) ∧
  decodeTableWord 32 0x20000000 = some .onint ∧
  decodeTableWord 32 0x400000FF = some (.lnkauto 3 0x3F) ∧
  decodeTableWord 32 0x41000006 = some (.lnkforce true 2) ∧
  decodeTableWord 32 0x51000000 = some .stop ∧
  decodeTableWord 32 0x610C0064 = some (.devrx 3 0 100) ∧
  decodeTableWord 32 0x630000DB = some (.physet 0xDB)

/-- An illegal word on the command port answers IllegalCommand with value 0 and changes nothing else; the agents' opcodes are
illegal there too; every other word of the map runs as the operation of its row and as no other (30_encoding.md R116). -/
def Obligations.IllegalCommandAnswered : Prop :=
  ResCode.illegalCommand.number = 0x18 ∧
  ∀ (s : State) (r : Request) (rest : List Stimulus), s.port.pending = .command r :: rest → r.port = .host →
    (((∀ row ∈ opcodeMap, row.hits r.cmd = false) ∨ (0x60 ≤ (cmdOp r.cmd).toNat ∧ (cmdOp r.cmd).toNat ≤ 0x63)) →
      step s = .next { s with port := { pending := rest, result := some ⟨.illegalCommand, 0⟩, events := s.port.events } }) ∧
    ∀ row ∈ opcodeMap, row.hits r.cmd = true → ¬ (0x60 ≤ (cmdOp r.cmd).toNat ∧ (cmdOp r.cmd).toNat ≤ 0x63) →
      ∃ i, i.mnemonic = row.mnemonic ∧ step s = exec i { s with port := { s.port with pending := rest } }

/-! ## The step -/

/-- A step takes the oldest stimulus off the list and runs the instruction its request decodes to; a table word presented to the
machine is run by the very next step (20_memory.md R96, R97; log 1). -/
def Obligations.StepRunsDecoded : Prop :=
  (∀ (s : State) (r : Request) (rest : List Stimulus) (i : Instr), s.port.pending = .command r :: rest → decode r = some i →
    step s = exec i { s with port := { s.port with pending := rest } }) ∧
  ∀ (s : State) (nbits w : Nat) (i : Instr), decodeTableWord nbits w = some i → step (s.withFetchWord nbits w) = exec i s

/-- With nothing presented the machine does nothing; a word that is no step of the agent that presents it is no step at all. The
model's choices of log 1 and log 7, after 60_exceptions.md R276 and 46_environment_agents.md R235. -/
def Obligations.StepIdlesOrHasNoStep : Prop :=
  (∀ s : State, s.port.pending = [] → step s = .next s) ∧
  ∀ (s : State) (r : Request) (rest : List Stimulus), s.port.pending = .command r :: rest → r.port ≠ .host → decode r = none →
    step s = .fault .noSuchStep

/-- The writes of a device that breaks the protocol: any 8 bytes to the status block or to any return descriptor, and nothing
else (46_environment_agents.md R242; log 16). -/
def Obligations.RogueWritesEightBytes : Prop :=
  (∀ (s : State) (v : BitVec 64) (rest : List Stimulus), s.port.pending = .rogueSb v :: rest →
    ∃ m, step s = .next { s with mem := m, port := { s.port with pending := rest } } ∧
      Memory.readLE m s.par.sbBase 8 = v.toNat ∧ sameOutside s.mem m s.par.sbBase 8) ∧
  ∀ (s : State) (j : Nat) (v : BitVec 64) (rest : List Stimulus), s.port.pending = .rogueRr j v :: rest → j < s.par.n →
    ∃ m, step s = .next { s with mem := m, port := { s.port with pending := rest } } ∧
      Memory.readLE m (rrDescAddr s.par j) 8 = v.toNat ∧ sameOutside s.mem m (rrDescAddr s.par j) 8

/-! ## Register access -/

/-- `RDREG`: the value of every register as the sum of its fields, 0 at an unmapped offset, `BadOperand` at an illegal one; no
read changes anything (40_register_access.md R131, 10_state.md R48 to R67). -/
def Obligations.RdregReadsFields : Prop :=
  ∀ (s : State) (off : BitVec 16), Inv s →
    (off.toNat % 4 = 0 ∧ off.toNat < 0x100 →
      exec (.rdreg off) s =
        .next { s with port := { s.port with result := some ⟨.ok, BitVec.ofNat 64 (csrValue s off.toNat)⟩ } }) ∧
    (¬ (off.toNat % 4 = 0 ∧ off.toNat < 0x100) →
      exec (.rdreg off) s = .next { s with port := { s.port with result := some ⟨.badOperand, 0⟩ } })

/-- `WRREG` to the registers of plain storage keeps the bits the register has; a write to `WIN_DATA` stores the word the window
is at, if it is at one; a write to a read-only or unmapped register is ignored and answers `OK` (40_register_access.md R132,
10_state.md R48, R62, R65, R66). -/
def Obligations.WrregStoresOrIgnores : Prop :=
  ∀ (s : State) (v : Word),
    exec (.wrreg 0x40 v) s =
      .next { s with csr := { s.csr with phyAdv := BitVec.ofNat 32 (v.toNat % 256) },
                     port := { s.port with result := some ⟨.ok, 0⟩ } } ∧
    exec (.wrreg 0x4C v) s =
      .next { s with csr := { s.csr with macMode := BitVec.ofNat 32 (v.toNat % 32) },
                     port := { s.port with result := some ⟨.ok, 0⟩ } } ∧
    exec (.wrreg 0x60 v) s =
      .next { s with csr := { s.csr with winBase := v }, port := { s.port with result := some ⟨.ok, 0⟩ } } ∧
    (∀ off : BitVec 16, off.toNat % 4 = 0 → off.toNat < 0x100 →
      off.toNat ∉ [0x30, 0x40, 0x44, 0x4C, 0x60, 0x64, 0x80, 0x84, 0x88] →
      exec (.wrreg off v) s = .next { s with port := { s.port with result := some ⟨.ok, 0⟩ } }) ∧
    (s.csr.winBase.toNat % 4 = 0 ∧ s.csr.winBase.toNat / 4 < s.par.imemWords →
      ∃ im, exec (.wrreg 0x64 v) s = .next { s with imem := im, port := { s.port with result := some ⟨.ok, 0⟩ } } ∧
        cellGet im (s.csr.winBase.toNat / 4) = some v ∧
        ∀ j, j ≠ s.csr.winBase.toNat / 4 → cellGet im j = cellGet s.imem j) ∧
    (¬ (s.csr.winBase.toNat % 4 = 0 ∧ s.csr.winBase.toNat / 4 < s.par.imemWords) →
      exec (.wrreg 0x64 v) s = .next { s with port := { s.port with result := some ⟨.ok, 0⟩ } })

/-- `WRREG` to `DEV_CTRL`: bit 0 makes the device active or not; bit 1 resets it, which zeroes its cursors, credits and tag, the
three mailboxes and the status block, and reads back 0 (40_register_access.md R132, 46_environment_agents.md R236). -/
def Obligations.WrregDevCtrlResets : Prop :=
  ∀ (s : State) (v : Word),
    (v.getLsbD 1 = false →
      exec (.wrreg 0x30 v) s =
        .next { s with csr := { s.csr with devCtrlEn := v.getLsbD 0 }, dev := { s.dev with active := v.getLsbD 0 },
                       port := { s.port with result := some ⟨.ok, 0⟩ } }) ∧
    (v.getLsbD 1 = true →
      ∃ m, exec (.wrreg 0x30 v) s =
        .next { s with csr := { s.csr with devCtrlEn := v.getLsbD 0, mbTxProd := 0, mbRxProd := 0, mbRrCons := 0 },
                       dev := { active := v.getLsbD 0, txCons := 0, txSeen := 0, txPending := 0, rxCons := 0, rxSeen := 0,
                                rxAvail := 0, rrProd := 0, rrSeen := 0, tag := 0 },
                       mem := m, port := { s.port with result := some ⟨.ok, 0⟩ } } ∧
        Memory.readLE m s.par.sbBase 8 = 0 ∧ sameOutside s.mem m s.par.sbBase 8)

/-- `WRREG` to `PHY_CTRL`: bits 0, 2, 3 and 4 are stored; bit 1 restarts the PHY, which clears `AN_COMPLETE` of `PHY_STATUS` and
raises the link interrupt exactly if that changed it (40_register_access.md R132, 46_environment_agents.md R245). -/
def Obligations.WrregPhyCtrlRestarts : Prop :=
  ∀ (s : State) (v : Word),
    exec (.wrreg 0x44 v) s =
      .next { s with
        csr := { s.csr with phyCtrl := v &&& 0x1D#32,
                            phyStatus := if v.getLsbD 1 then s.csr.phyStatus &&& 0xFFFFFFFD#32 else s.csr.phyStatus }
        poll := { s.poll with irqLink := s.poll.irqLink || (v.getLsbD 1 && s.csr.phyStatus.getLsbD 1) }
        port := { s.port with result := some ⟨.ok, 0⟩ } }

/-- `WRIND` stores a word of `imem` and leaves the window at its address; `RDIND` right after reads it back; other words keep
their values (40_register_access.md R133, R134). -/
def Obligations.IndirectRoundTrip : Prop :=
  ∀ (s : State) (addr v : Word), addr.toNat % 4 = 0 → addr.toNat / 4 < s.par.imemWords →
    ∃ im, exec (.wrind addr v) s =
        .next { s with csr := { s.csr with winBase := addr }, imem := im, port := { s.port with result := some ⟨.ok, 0⟩ } } ∧
      (∀ j, j ≠ addr.toNat / 4 → cellGet im j = cellGet s.imem j) ∧
      exec (.rdind addr) { s with imem := im } =
        .next { s with csr := { s.csr with winBase := addr }, imem := im,
                       port := { s.port with result := some ⟨.ok, v.setWidth 64⟩ } } ∧
      exec (.rdind addr) s =
        .next { s with csr := { s.csr with winBase := addr },
                       port := { s.port with result := some ⟨.ok, (s.imemRead (addr.toNat / 4)).setWidth 64⟩ } }

/-- `DOORBELL` and `WRREG` at a mailbox: the low 16 bits are stored and an active device takes the difference of the masked
index to the last one as new entries, at most `N`; an inactive device takes nothing (40_register_access.md R135,
46_environment_agents.md R237). -/
def Obligations.DoorbellNotifiesDevice : Prop :=
  ∀ (s : State) (v : Word), Inv s →
    (∀ i ∈ [Instr.doorbell 0x80 v, Instr.wrreg 0x80 v],
      exec i s = .next { s with csr := { s.csr with mbTxProd := BitVec.ofNat 32 (v.toNat % 65536) },
                                dev := txRung s.par s.dev (v.toNat % 65536 % s.par.n),
                                port := { s.port with result := some ⟨.ok, 0⟩ } }) ∧
    (∀ i ∈ [Instr.doorbell 0x84 v, Instr.wrreg 0x84 v],
      exec i s = .next { s with csr := { s.csr with mbRxProd := BitVec.ofNat 32 (v.toNat % 65536) },
                                dev := rxRung s.par s.dev (v.toNat % 65536 % s.par.n),
                                port := { s.port with result := some ⟨.ok, 0⟩ } }) ∧
    (∀ i ∈ [Instr.doorbell 0x88 v, Instr.wrreg 0x88 v],
      exec i s = .next { s with csr := { s.csr with mbRrCons := BitVec.ofNat 32 (v.toNat % 65536) },
                                dev := rrRung s.dev (v.toNat % 65536 % s.par.n),
                                port := { s.port with result := some ⟨.ok, 0⟩ } }) ∧
    ∀ off : BitVec 16, off.toNat ∉ [0x80, 0x84, 0x88] →
      exec (.doorbell off v) s = .next { s with port := { s.port with result := some ⟨.badOperand, 0⟩ } }

/-- `SETBIT` and `CLRBIT` are one atomic read-modify-write: whatever value `x` `RDREG` reads, the state left is the one `WRREG` of
`x | mask`, respectively `x & ~mask`, leaves, with that value as the result; an illegal offset is refused (40_register_access.md
R136, R137). -/
def Obligations.BitHelpersReadModifyWrite : Prop :=
  ∀ (s : State) (off : BitVec 16) (mask : Word),
    (off.toNat % 4 = 0 ∧ off.toNat < 0x100 →
      ∃ (x : Word) (t u : State),
        exec (.rdreg off) s = .next { s with port := { s.port with result := some ⟨.ok, x.setWidth 64⟩ } } ∧
        exec (.wrreg off (x ||| mask)) s = .next t ∧
        exec (.setbit off mask) s =
          .next { t with port := { t.port with result := some ⟨.ok, (x ||| mask).setWidth 64⟩ } } ∧
        exec (.wrreg off (x &&& ~~~mask)) s = .next u ∧
        exec (.clrbit off mask) s =
          .next { u with port := { u.port with result := some ⟨.ok, (x &&& ~~~mask).setWidth 64⟩ } }) ∧
    (¬ (off.toNat % 4 = 0 ∧ off.toNat < 0x100) →
      exec (.setbit off mask) s = .next { s with port := { s.port with result := some ⟨.badOperand, 0⟩ } } ∧
      exec (.clrbit off mask) s = .next { s with port := { s.port with result := some ⟨.badOperand, 0⟩ } })

/-- An operand outside its legal set is refused with `BadOperand` and nothing changes (60_exceptions.md R260, R262). -/
def Obligations.BadOperandsRefused : Prop :=
  ∀ (s t : State), t = { s with port := { s.port with result := some ⟨.badOperand, 0⟩ } } →
    (∀ (off : BitVec 16) (v : Word), ¬ (off.toNat % 4 = 0 ∧ off.toNat < 0x100) → exec (.wrreg off v) s = .next t) ∧
    (∀ addr v : Word, ¬ (addr.toNat % 4 = 0 ∧ addr.toNat / 4 < s.par.imemWords) →
      exec (.rdind addr) s = .next t ∧ exec (.wrind addr v) s = .next t) ∧
    (∀ (slot : BitVec 16) (buf : Addr), s.ctl.enabled = true → s.par.n ≤ slot.toNat →
      exec (.rxpost slot buf) s = .next t ∧ exec (.rxrefill slot) s = .next t) ∧
    (∀ (slot : BitVec 16) (buf : Addr), s.ctl.enabled = true → buf = 0 ∨ buf.toNat % 8 ≠ 0 →
      exec (.rxpost slot buf) s = .next t) ∧
    (∀ adv : BitVec 2, exec (.lnkauto adv 0) s = .next t) ∧
    ∀ duplex : Bool, exec (.lnkforce duplex 3) s = .next t

/-! ## Transmit -/

/-- An accepted packet, by `TXPOST` or by `SUBMIT` with the link up: its descriptors stand in the next free slots, the handle in
every one of them, `EOP` on the last only; the producer index and the free count move by its segments; the new index is rung;
no other byte and no other state changes (41_ring_manager.md R141, R142, 43_packet_io.md R175, R177). -/
def Obligations.PacketAccepted : Prop :=
  ∀ (s : State) (csum : Bool) (h : Handle) (segs : List Seg), Inv s → s.ctl.enabled = true → segs ≠ [] →
    segs.length ≤ s.par.maxseg → (∀ g ∈ segs, g.len ≠ 0) → segs.length ≤ s.tx.free →
    ∃ (t : State) (m : List Host.Cell) (sl : List (Option Handle)),
      t = { s with
        tx := { s.tx with prod := (s.tx.prod + segs.length) % s.par.n, free := s.tx.free - segs.length, slot := sl }
        csr := { s.csr with mbTxProd := BitVec.ofNat 32 ((s.tx.prod + segs.length) % s.par.n) }
        dev := txRung s.par s.dev ((s.tx.prod + segs.length) % s.par.n)
        mem := m
        port := { s.port with result := some ⟨.ok, BitVec.ofNat 64 s.tx.prod⟩ } } ∧
      exec (.txpost csum h segs) s = .next t ∧
      (s.link.up = true → exec (.submit csum h segs) s = .next t) ∧
      sl.length = s.par.n ∧
      (∀ j, j < segs.length → sl[(s.tx.prod + j) % s.par.n]? = some (some h)) ∧
      (∀ i, (∀ j, j < segs.length → i ≠ (s.tx.prod + j) % s.par.n) → sl[i]? = s.tx.slot[i]?) ∧
      (∀ j g, segs[j]? = some g →
        Memory.readLE m (txDescAddr s.par ((s.tx.prod + j) % s.par.n)) 8 = g.addr.toNat ∧
        Memory.readLE m (txDescAddr s.par ((s.tx.prod + j) % s.par.n) + 8) 2 = g.len.toNat ∧
        Memory.readLE m (txDescAddr s.par ((s.tx.prod + j) % s.par.n) + 10) 2 =
          2 * csum.toNat + (if j + 1 = segs.length then 1 else 0) ∧
        Memory.readLE m (txDescAddr s.par ((s.tx.prod + j) % s.par.n) + 12) 4 = 0) ∧
      ∀ a, (∀ j, j < segs.length → outside a (txDescAddr s.par ((s.tx.prod + j) % s.par.n)) 16) →
        Memory.byteAt m a = Memory.byteAt s.mem a

/-- A rejected packet: the first failing check in the order of the rule decides the code; `TXPOST` changes nothing, and
`SUBMIT` changes only `tx_stalled`, and only for `OutOfDescriptors` (41_ring_manager.md R142, 43_packet_io.md R175, R176). -/
def Obligations.PacketRejected : Prop :=
  ∀ (s : State) (csum : Bool) (h : Handle) (segs : List Seg) (code : ResCode), s.ctl.enabled = true →
    (segs = [] ∧ code = .zeroLength ∨
     s.par.maxseg < segs.length ∧ segs ≠ [] ∧ code = .tooManySegments ∨
     segs ≠ [] ∧ segs.length ≤ s.par.maxseg ∧ (∃ g ∈ segs, g.len = 0) ∧ code = .zeroLength ∨
     segs ≠ [] ∧ segs.length ≤ s.par.maxseg ∧ (∀ g ∈ segs, g.len ≠ 0) ∧ s.tx.free < segs.length ∧ code = .outOfDescriptors) →
    exec (.txpost csum h segs) s = .next { s with port := { s.port with result := some ⟨code, 0⟩ } } ∧
    (s.link.up = true →
      exec (.submit csum h segs) s =
        .next { s with ctl := { s.ctl with txStalled := s.ctl.txStalled || decide (code = .outOfDescriptors) },
                       port := { s.port with result := some ⟨code, 0⟩ } })

/-- The gates: while the adapter is disabled every ring operation answers `NotEnabled` and the pass and the tick do nothing;
while it is enabled and the link is down `SUBMIT` answers `GateClosed`; a lifecycle operation in the wrong state of the adapter
answers `BadState`; nothing else changes (41_ring_manager.md R140, 43_packet_io.md R178, 42_status_block_poller.md R161, R167,
45_lifecycle.md R228). -/
def Obligations.GatesRefuse : Prop :=
  ∀ s : State,
    (s.ctl.enabled = false →
      (∀ (csum : Bool) (h : Handle) (segs : List Seg) (idx slot : BitVec 16) (buf : Addr),
        ∀ i ∈ [Instr.txpost csum h segs, Instr.txreclaim idx, Instr.rxpost slot buf, Instr.rrdrain idx, Instr.rxrefill slot,
               Instr.submit csum h segs],
          exec i s = .next { s with port := { s.port with result := some ⟨.notEnabled, 0⟩ } }) ∧
      (∀ i ∈ [Instr.onint, Instr.wdtick], exec i s = .next { s with port := { s.port with result := some ⟨.ok, 0⟩ } }) ∧
      ∀ i ∈ [Instr.stop, Instr.adpreset],
        exec i s = .next { s with port := { s.port with result := some ⟨.badState, 0⟩ } }) ∧
    (s.ctl.enabled = true → exec .start s = .next { s with port := { s.port with result := some ⟨.badState, 0⟩ } }) ∧
    (s.ctl.enabled = true → s.link.up = false → ∀ (csum : Bool) (h : Handle) (segs : List Seg),
      exec (.submit csum h segs) s = .next { s with port := { s.port with result := some ⟨.gateClosed, 0⟩ } })

/-- `TXRECLAIM`: the walk from `tx_cons` to the masked index frees exactly those slots, emits one `TxDone` per `EOP` slot in slot
order and then `Resume` if the queue was stalled, and reports packets and slots (41_ring_manager.md R144, R145). -/
def Obligations.ReclaimWalks : Prop :=
  ∀ (s : State) (idx : BitVec 16) (c : Nat), Inv s → s.ctl.enabled = true →
    c = (idx.toNat % s.par.n + s.par.n - s.tx.cons) % s.par.n → c ≤ s.par.n - s.tx.free →
    ∃ sl : List (Option Handle),
      exec (.txreclaim idx) s = .next { s with
        tx := { s.tx with cons := (s.tx.cons + c) % s.par.n, free := s.tx.free + c, slot := sl }
        poll := { s.poll with wdProgress := s.poll.wdProgress || decide (0 < c) }
        ctl := { s.ctl with txStalled := s.ctl.txStalled && decide (c = 0) }
        port := { s.port with
          result := some ⟨.ok, BitVec.ofNat 64 (65536 * (owedEvents s .txDone s.tx.cons c).length + c)⟩
          events := s.port.events ++ owedEvents s .txDone s.tx.cons c ++
            (if 0 < c ∧ s.ctl.txStalled = true then [.resume] else []) } } ∧
      sl.length = s.par.n ∧
      (∀ j, j < c → sl[(s.tx.cons + j) % s.par.n]? = some none) ∧
      ∀ i, (∀ j, j < c → i ≠ (s.tx.cons + j) % s.par.n) → sl[i]? = s.tx.slot[i]?

/-- Round trip: a packet posted on an empty ring and reclaimed up to the producer index comes back with exactly its handle,
exactly once, however many descriptors it had, and the ring is empty again (41_ring_manager.md R146 P2). -/
def Obligations.PostReclaimRoundTrip : Prop :=
  ∀ (s : State) (csum : Bool) (h : Handle) (segs : List Seg), Inv s → s.ctl.enabled = true → s.tx.free = s.par.n → segs ≠ [] →
    segs.length ≤ s.par.maxseg → (∀ g ∈ segs, g.len ≠ 0) →
    ∃ t u : State,
      exec (.txpost csum h segs) s = .next t ∧ exec (.txreclaim (BitVec.ofNat 16 t.tx.prod)) t = .next u ∧
      u.port.events = s.port.events ++ [.txDone h] ++ (if s.ctl.txStalled = true then [.resume] else []) ∧
      u.port.result = some ⟨.ok, BitVec.ofNat 64 (65536 + segs.length)⟩ ∧
      u.tx.free = u.par.n ∧ u.tx.cons = u.tx.prod ∧ (∀ i, u.txSlot i = none) ∧ u.ctl.txStalled = false

/-! ## Receive -/

/-- `RXPOST` on an empty slot of an enabled adapter attaches the buffer, writes the descriptor and rings the new index; on a
slot that holds a buffer it answers `SlotBusy` and changes nothing (41_ring_manager.md R147, R148). No run reaches the first
case (R148), so the statement does not assume the invariant. -/
def Obligations.RxpostPostsOrIsBusy : Prop :=
  ∀ (s : State) (slot : BitVec 16) (buf : Addr), s.ctl.enabled = true → slot.toNat < s.par.n → buf ≠ 0 → buf.toNat % 8 = 0 →
    s.par.bufcap < 65536 → s.dev.rxSeen < s.par.n → s.par.n ≤ 32768 →
    (s.rxSlot slot.toNat = none →
      ∃ m : List Host.Cell,
        exec (.rxpost slot buf) s = .next { s with
          rx := { s.rx with prod := (s.rx.prod + 1) % s.par.n, slot := s.rx.slot.set slot.toNat (some buf) }
          csr := { s.csr with mbRxProd := BitVec.ofNat 32 ((s.rx.prod + 1) % s.par.n) }
          dev := rxRung s.par s.dev ((s.rx.prod + 1) % s.par.n)
          mem := m
          port := { s.port with result := some ⟨.ok, 0⟩ } } ∧
        Memory.readLE m (rxDescAddr s.par slot.toNat) 8 = buf.toNat ∧
        Memory.readLE m (rxDescAddr s.par slot.toNat + 8) 2 = s.par.bufcap ∧
        Memory.readLE m (rxDescAddr s.par slot.toNat + 10) 6 = 0 ∧
        sameOutside s.mem m (rxDescAddr s.par slot.toNat) 16) ∧
    ((s.rxSlot slot.toNat).isSome = true →
      exec (.rxpost slot buf) s = .next { s with port := { s.port with result := some ⟨.slotBusy, 0⟩ } })

/-- `RXREFILL`: with a fresh buffer the slot and its descriptor take it and the old one leaves the block as the result; without
one only the failure is counted; in both cases the slot is posted again (41_ring_manager.md R153, R154; the list of the allocator's
answers is log 3). -/
def Obligations.RefillSwapsOrCounts : Prop :=
  ∀ (s : State) (slot : BitVec 16) (old : Addr), Inv s → s.ctl.enabled = true → slot.toNat < s.par.n →
    s.rxSlot slot.toNat = some old →
    (∀ (nb : Addr) (rest : List (Option Addr)), s.env.allocIn = some nb :: rest →
      freshBuffer s.par s.env.live nb = true →
      ∃ (m : List Host.Cell) (lv : List Addr),
        exec (.rxrefill slot) s = .next { s with
          rx := { s.rx with prod := (s.rx.prod + 1) % s.par.n, slot := s.rx.slot.set slot.toNat (some nb) }
          csr := { s.csr with mbRxProd := BitVec.ofNat 32 ((s.rx.prod + 1) % s.par.n) }
          dev := rxRung s.par s.dev ((s.rx.prod + 1) % s.par.n)
          mem := m
          env := { s.env with live := lv, allocIn := rest, allocCalls := s.env.allocCalls + 1 }
          port := { s.port with result := some ⟨.ok, old⟩ } } ∧
        (∀ b, b ∈ lv ↔ (b = nb ∨ b ∈ s.env.live) ∧ b ≠ old) ∧
        Memory.readLE m (rxDescAddr s.par slot.toNat) 8 = nb.toNat ∧
        Memory.readLE m (rxDescAddr s.par slot.toNat + 8) 2 = s.par.bufcap ∧
        sameOutside s.mem m (rxDescAddr s.par slot.toNat) 10) ∧
    ∀ rest : List (Option Addr), s.env.allocIn = none :: rest →
      exec (.rxrefill slot) s = .next { s with
        rx := { s.rx with prod := (s.rx.prod + 1) % s.par.n }
        ctl := { s.ctl with cntRxNobuf := s.ctl.cntRxNobuf + 1 }
        csr := { s.csr with mbRxProd := BitVec.ofNat 32 ((s.rx.prod + 1) % s.par.n) }
        dev := rxRung s.par s.dev ((s.rx.prod + 1) % s.par.n)
        env := { s.env with allocIn := rest, allocCalls := s.env.allocCalls + 1 }
        port := { s.port with result := some ⟨.outOfBuffers, 0⟩ } }

/-- `RRDRAIN` of a good batch of `c` descriptors, for every behaviour of the allocator: one event per entry in descriptor order
(dropped where an error flag stands, else the slot's buffer with length and flags, or no buffer); a refilled entry's slot and
descriptor hold the fresh buffer, every other's what they held; the drops and the failures counted; one post and one credit per
entry; the cursor moved by `c` and rung; the fresh buffers live, the buffers handed out no more (41_ring_manager.md R150, R151,
R153, R155 P7; the list of the allocator's answers is log 3). -/
def Obligations.DrainHandlesBatch : Prop :=
  ∀ (s : State) (idx : BitVec 16) (c : Nat), Inv s → s.ctl.enabled = true →
    c = (idx.toNat % s.par.n + s.par.n - s.rx.rrCons) % s.par.n → goodBatch s c →
    ∃ (sl : List (Option Addr)) (m : List Host.Cell) (lv : List Addr),
      exec (.rrdrain idx) s = .next { s with
        rx := { prod := (s.rx.prod + c) % s.par.n, slot := sl, rrCons := (s.rx.rrCons + c) % s.par.n }
        ctl := { s.ctl with cntRxDrop := s.ctl.cntRxDrop + BitVec.ofNat 32 (batchDrops s c),
                            cntRxNobuf := s.ctl.cntRxNobuf + BitVec.ofNat 32 (batchMisses s c) }
        csr := batchCsrs s c
        dev := batchDevice s c
        env := { s.env with live := lv, allocIn := s.env.allocIn.drop (batchCalls s c),
                            allocCalls := s.env.allocCalls + batchCalls s c }
        mem := m
        port := { s.port with result := some ⟨.ok, BitVec.ofNat 64 c⟩,
                              events := s.port.events ++ (List.range c).map (batchEvent s) } } ∧
      BatchPlaced s c sl m lv

/-- Index faults. A consumer index that claims more completions than there are slots in flight sets the sticky `fault[0]`; a
batch with a slot number `N` or more, or one slot twice, is refused whole and sets `fault[1]`; both answer `IndexFault` and
nothing else changes (41_ring_manager.md R144, R152). -/
def Obligations.IndexFaultsRefused : Prop :=
  ∀ (s : State) (idx : BitVec 16), Inv s → s.ctl.enabled = true →
    (s.par.n - s.tx.free < (idx.toNat % s.par.n + s.par.n - s.tx.cons) % s.par.n →
      exec (.txreclaim idx) s =
        .next { s with ctl := { s.ctl with faultTxIdx := true }, port := { s.port with result := some ⟨.indexFault, 0⟩ } }) ∧
    ∀ c : Nat, c = (idx.toNat % s.par.n + s.par.n - s.rx.rrCons) % s.par.n →
      (∃ j, j < c ∧ s.par.n ≤ batchSlot s j) ∨ (∃ j k, j < k ∧ k < c ∧ batchSlot s j = batchSlot s k) →
      exec (.rrdrain idx) s =
        .next { s with ctl := { s.ctl with faultRrIdx := true }, port := { s.port with result := some ⟨.indexFault, 0⟩ } }

/-! ## The servicing pass and the tick -/

/-- Whatever the device has written and the allocator answers, a pass completes, and its result code is `OK`
(42_status_block_poller.md R161, R164). -/
def Obligations.PassAlwaysOk : Prop :=
  ∀ s : State, s.link.epoch ≠ 0xFFFFFFFF → ∃ (t : State) (v : BitVec 64), exec .onint s = .next t ∧ t.port.result = some ⟨.ok, v⟩

/-- Passes without work. With the gate open and no index changed against the stored snapshot a pass only clears `irq_ring` and
takes the new tag into `snap_tag` (42_status_block_poller.md R163), and clears a link interrupt that finds the link ok
(44_link_fsm.md R205 (d)); with the link down and no link interrupt pending it leaves everything, `irq_ring` too, as it is
(R166 P12). -/
def Obligations.PassWithoutWork : Prop :=
  ∀ s : State, s.ctl.enabled = true →
    (s.link.up = true → GateStaysOpen s → s.memRead s.par.sbBase 2 % s.par.n = s.poll.snapTxCons →
      s.memRead (s.par.sbBase + 2) 2 % s.par.n = s.poll.snapRrProd →
      exec .onint s = .next { s with
        poll := { s.poll with irqRing := false, irqLink := false,
                              snapTag := BitVec.ofNat 32 (s.memRead (s.par.sbBase + 4) 4) }
        port := { s.port with result := some ⟨.ok, 0⟩ } }) ∧
    (s.link.up = false → s.poll.irqLink = false →
      exec .onint s = .next { s with port := { s.port with result := some ⟨.ok, 0⟩ } })

/-- Calling the interrupt handler twice with an unchanged status block does no work the second time, unless the first pass itself
restarted the PHY and so left a link interrupt pending (42_status_block_poller.md R166 P10; NOTES.md, differences). -/
def Obligations.PassIsIdempotent : Prop :=
  ∀ s t : State, Inv s → exec .onint s = .next t → t.poll.irqLink = false →
    exec .onint t = .next { t with port := { t.port with result := some ⟨.ok, 0⟩ } }

/-- A pass whose return batch is empty or refused, with any transmit work, a pending link interrupt that finds the link ok
included: the completed slots are reclaimed and reported by bit 0; an index that over-claims sets `fault[0]`, a refused return
batch sets `fault[1]`, and neither stops the other walk; the snapshot is stored all the same, and the code is `OK`
(42_status_block_poller.md R161, R164, R165; 41_ring_manager.md R144, R152). -/
def Obligations.PassReclaims : Prop :=
  ∀ (s : State) (g r c d w : Nat), Inv s → s.ctl.enabled = true → s.link.up = true → GateStaysOpen s →
    g = s.memRead s.par.sbBase 2 % s.par.n → r = s.memRead (s.par.sbBase + 2) 2 % s.par.n →
    g ≠ s.poll.snapTxCons ∨ r ≠ s.poll.snapRrProd →
    c = (g + s.par.n - s.tx.cons) % s.par.n → w = reclaimed s c →
    d = (r + s.par.n - s.rx.rrCons) % s.par.n → d = 0 ∨ refusedBatch s d →
    ∃ sl : List (Option Handle),
      exec .onint s = .next { s with
        tx := { s.tx with cons := (s.tx.cons + w) % s.par.n, free := s.tx.free + w, slot := sl }
        poll := { s.poll with irqRing := false, irqLink := false, snapTxCons := g, snapRrProd := r,
                              snapTag := BitVec.ofNat 32 (s.memRead (s.par.sbBase + 4) 4),
                              wdProgress := s.poll.wdProgress || decide (0 < w) }
        ctl := { s.ctl with txStalled := s.ctl.txStalled && decide (w = 0),
                            faultTxIdx := s.ctl.faultTxIdx || decide (s.par.n - s.tx.free < c),
                            faultRrIdx := s.ctl.faultRrIdx || decide (0 < d) }
        port := { s.port with result := some ⟨.ok, if w = 0 then 0 else 1⟩,
                              events := s.port.events ++ reclaimEvents s w } } ∧
      SlotsFreed s w sl

/-- A pass that finds a good return batch of `d` entries, with any transmit work beside it, for every behaviour of the allocator:
the transmit walk first, or `fault[0]` where its index over-claims; then one `Deliver` for each refilled entry of a deliverable
length and one `BufFree` for each other refilled entry, in descriptor order, nothing for an errored entry or a failed refill;
the drops, the bad lengths and the failures counted; slots, descriptors, live buffers, posts, credit and cursor as for a direct
drain; the snapshot stored; the deliveries in bits 31:16 of the result (42_status_block_poller.md R161, R164, R165,
43_packet_io.md R180 to R183; log 3). -/
def Obligations.PassDeliversFrame : Prop :=
  ∀ (s : State) (g r c d w : Nat), Inv s → s.ctl.enabled = true → s.link.up = true → GateStaysOpen s →
    g = s.memRead s.par.sbBase 2 % s.par.n → r = s.memRead (s.par.sbBase + 2) 2 % s.par.n →
    g ≠ s.poll.snapTxCons ∨ r ≠ s.poll.snapRrProd →
    c = (g + s.par.n - s.tx.cons) % s.par.n → w = reclaimed s c →
    d = (r + s.par.n - s.rx.rrCons) % s.par.n → goodBatch s d →
    ∃ (tsl : List (Option Handle)) (sl : List (Option Addr)) (m : List Host.Cell) (lv : List Addr),
      exec .onint s = .next { s with
        tx := { s.tx with cons := (s.tx.cons + w) % s.par.n, free := s.tx.free + w, slot := tsl }
        rx := { prod := (s.rx.prod + d) % s.par.n, slot := sl, rrCons := (s.rx.rrCons + d) % s.par.n }
        poll := { s.poll with irqRing := false, irqLink := false, snapTxCons := g, snapRrProd := r,
                              snapTag := BitVec.ofNat 32 (s.memRead (s.par.sbBase + 4) 4),
                              wdProgress := s.poll.wdProgress || decide (0 < w) }
        ctl := { s.ctl with txStalled := s.ctl.txStalled && decide (w = 0),
                            cntRxDrop := s.ctl.cntRxDrop + BitVec.ofNat 32 (batchDrops s d + batchMisfits s d),
                            cntRxNobuf := s.ctl.cntRxNobuf + BitVec.ofNat 32 (batchMisses s d),
                            faultTxIdx := s.ctl.faultTxIdx || decide (s.par.n - s.tx.free < c) }
        csr := batchCsrs s d
        dev := batchDevice s d
        env := { s.env with live := lv, allocIn := s.env.allocIn.drop (batchCalls s d),
                            allocCalls := s.env.allocCalls + batchCalls s d }
        mem := m
        port := { s.port with
          result := some ⟨.ok, BitVec.ofNat 64 (65536 * batchDelivered s d + if w = 0 then 0 else 1)⟩
          events := s.port.events ++ reclaimEvents s w ++ (List.range d).filterMap (batchHandover s) } } ∧
      SlotsFreed s w tsl ∧
      BatchPlaced s d sl m lv

/-- A tick that fires neither timeout: the stall count grows when work is pending with the link up and no progress was made
since the last tick, else it is 0; the progress flag is cleared; nothing else changes (42_status_block_poller.md R167, R168). -/
def Obligations.TickCountsStall : Prop :=
  ∀ s : State, Inv s → s.ctl.enabled = true → s.link.state ≠ .negotiating →
    ¬ (s.link.up = true ∧ s.tx.free < s.par.n ∧ s.poll.wdProgress = false ∧
       s.par.wdTimeout = s.poll.wdStallTicks.toNat + 1) →
    exec .wdtick s = .next { s with
      poll := { s.poll with
        wdStallTicks := if s.link.up = true ∧ s.tx.free < s.par.n ∧ s.poll.wdProgress = false then s.poll.wdStallTicks + 1 else 0
        wdProgress := false }
      port := { s.port with result := some ⟨.ok, 0⟩ } }

/-- The tick of a negotiation in progress: it counts; at the timeout it starts the next attempt with a new epoch while retries
are left, else it gives up, reports it and takes the fallback (44_link_fsm.md R195, R196, R202, R203). -/
def Obligations.TickTimesNegotiation : Prop :=
  ∀ (s : State) (p' : Poller), Inv s → s.ctl.enabled = true → s.link.state = .negotiating →
    p' = { s.poll with wdStallTicks := 0, wdProgress := false } →
    (s.link.negTicks.toNat + 1 < s.par.negTimeout →
      exec .wdtick s = .next { s with
        poll := p', link := { s.link with negTicks := s.link.negTicks + 1 }
        port := { s.port with result := some ⟨.ok, 0⟩ } }) ∧
    (s.link.negTicks.toNat + 1 = s.par.negTimeout → s.link.negRetries.toNat < s.par.negRetryMax → s.link.epoch ≠ 0xFFFFFFFF →
      exec .wdtick s = .next { s with
        poll := { p' with irqLink := s.poll.irqLink || s.csr.phyStatus.getLsbD 1 }
        link := { s.link with epoch := s.link.epoch + 1, negTicks := 0, negRetries := s.link.negRetries + 1 }
        csr := { s.csr with phyAdv := BitVec.ofNat 32 (64 * s.link.advLocal.toNat + s.link.advCaps.toNat), phyCtrl := 1,
                            phyStatus := s.csr.phyStatus &&& 0xFFFFFFFD#32 }
        port := { s.port with result := some ⟨.ok, 1⟩ } }) ∧
    (s.link.negTicks.toNat + 1 = s.par.negTimeout → s.link.negRetries.toNat = s.par.negRetryMax →
      s.par.negFallback = .fbLinkDown →
      exec .wdtick s = .next { s with
        poll := p', link := { s.link with state := .down, negTicks := s.link.negTicks + 1 }
        port := { s.port with result := some ⟨.negotiationTimeout, 0⟩,
                              events := s.port.events ++ [.negTimeout, .linkDown s.link.epoch] } }) ∧
    ∀ (sp : BitVec 2) (dp : Bool), s.link.negTicks.toNat + 1 = s.par.negTimeout →
      s.link.negRetries.toNat = s.par.negRetryMax → s.par.negFallback = .fbForced sp dp → s.link.epoch ≠ 0xFFFFFFFF →
      exec .wdtick s = .next { s with
        poll := p'
        link := { s.link with state := .up, up := true, epoch := s.link.epoch + 1, curSpeed := sp, curDuplex := dp, fcRx := false,
                              fcTx := false, negTicks := s.link.negTicks + 1 }
        csr := { s.csr with phyCtrl := BitVec.ofNat 32 (16 * dp.toNat + 4 * sp.toNat),
                            macMode := BitVec.ofNat 32 (4 * dp.toNat + sp.toNat) }
        port := { s.port with result := some ⟨.negotiationTimeout, 0⟩,
                              events := s.port.events ++ [.negTimeout, .linkUp (s.link.epoch + 1) sp dp false false] } }

/-- The tick on which the watchdog fires: `HwTimeout`, then the whole adapter reset in the same step, and the answer
`HardwareTimeout`; the adapter stays enabled with the same buffers posted (42_status_block_poller.md R167, R169,
45_lifecycle.md R226). -/
def Obligations.WatchdogResetsAdapter : Prop :=
  ∀ s : State, Inv s → s.ctl.enabled = true → s.link.up = true → s.tx.free < s.par.n → s.poll.wdProgress = false →
    s.par.wdTimeout = s.poll.wdStallTicks.toNat + 1 → s.link.epoch ≠ 0xFFFFFFFF →
    ∃ m : List Host.Cell,
      exec .wdtick s = .next { s with
        tx := emptyTx s.par
        rx := { s.rx with prod := 0, rrCons := 0 }
        poll := emptyPoller (startRaisesLink s.link s.csr)
        ctl := { s.ctl with txStalled := false }
        link := startedLink (downedLink s.link)
        csr := { startedCsrs s.link { s.csr with macMode := 0 } with devCtrlEn := true, mbTxProd := 0, mbRxProd := 0, mbRrCons := 0 }
        dev := armedDevice s.par
        mem := m
        port := { s.port with
          result := some ⟨.hardwareTimeout, 0⟩
          events := s.port.events ++ [.hwTimeout, .linkDown s.link.epoch] ++
            owedEvents s .txFailed s.tx.cons (s.par.n - s.tx.free) ++ startEvents s.link } } ∧
      RingsPosted s.par (slotBuffers s) m ∧
      ∀ a, (∀ r ∈ s.par.regions, outside a r.1 r.2) → Memory.byteAt m a = Memory.byteAt s.mem a

/-! ## The link -/

/-- The flow-control table, all 16 rows: local advertisement, partner advertisement (`{pause, asym}`), `fc_rx`, `fc_tx`
(44_link_fsm.md R209). -/
def Obligations.FlowControlTable : Prop :=
  ∀ row ∈ ([(0b00, 0b00, false, false), (0b00, 0b01, false, false), (0b00, 0b10, false, false), (0b00, 0b11, false, false),
            (0b01, 0b00, false, false), (0b01, 0b01, false, false), (0b01, 0b10, false, false), (0b01, 0b11, false, true),
            (0b10, 0b00, false, false), (0b10, 0b01, false, false), (0b10, 0b10, true, true), (0b10, 0b11, true, true),
            (0b11, 0b00, false, false), (0b11, 0b01, true, false), (0b11, 0b10, true, true), (0b11, 0b11, true, true)] :
           List (BitVec 2 × BitVec 2 × Bool × Bool)),
    resolveFc row.1 row.2.1 = row.2.2

/-- `RESDONE`: stale unless it carries the current epoch, refused outside `Resolving`; else the link comes up with the resolved
speed and duplex and the flow control that both advertisements agree on, the MAC is set to it and `LinkUp` reports it
(44_link_fsm.md R199, R208). The callback is taken out of the platform's list in every case (10_state.md R73; log 15). -/
def Obligations.ResdoneResolves : Prop :=
  ∀ (s : State) (e : Word) (rx tx : Bool) (env' : Environment),
    env' = { s.env with resolvePending := s.env.resolvePending.erase e } →
    (rx, tx) = resolveFc s.link.advLocal s.link.advPartner →
    (e ≠ s.link.epoch →
      exec (.resdone e) s = .next { s with env := env', port := { s.port with result := some ⟨.staleEpoch, 0⟩ } }) ∧
    (e = s.link.epoch → s.link.state ≠ .resolving →
      exec (.resdone e) s = .next { s with env := env', port := { s.port with result := some ⟨.badState, 0⟩ } }) ∧
    (e = s.link.epoch → s.link.state = .resolving →
      exec (.resdone e) s = .next { s with
        env := env'
        link := { s.link with state := .up, up := true, curSpeed := s.link.resSpeed, curDuplex := s.link.resDuplex, fcRx := rx,
                              fcTx := tx }
        csr := { s.csr with
          macMode := BitVec.ofNat 32 (16 * tx.toNat + 8 * rx.toNat + 4 * s.link.resDuplex.toNat + s.link.resSpeed.toNat) }
        port := { s.port with result := some ⟨.ok, 0⟩,
                              events := s.port.events ++ [.linkUp e s.link.resSpeed s.link.resDuplex rx tx] } })

/-- `LNKAUTO`: the request is stored; when enabled the link goes down and a new negotiation begins with a new epoch and the new
advertisement (44_link_fsm.md R195, R204, R206). -/
def Obligations.LnkautoNegotiates : Prop :=
  ∀ (s : State) (adv : BitVec 2) (caps : BitVec 6) (l : Link), caps ≠ 0 →
    l = { s.link with mode := .auto, advCaps := caps, advLocal := adv } →
    (s.ctl.enabled = false →
      exec (.lnkauto adv caps) s = .next { s with link := l, port := { s.port with result := some ⟨.ok, 0⟩ } }) ∧
    (s.ctl.enabled = true → s.link.epoch ≠ 0xFFFFFFFF →
      exec (.lnkauto adv caps) s = .next { s with
        link := startedLink (downedLink l)
        csr := startedCsrs l { s.csr with macMode := 0 }
        poll := { s.poll with irqLink := s.poll.irqLink || s.csr.phyStatus.getLsbD 1 }
        port := { s.port with result := some ⟨.ok, 0⟩, events := s.port.events ++ downEvents s.link s.link.epoch } })

/-- `LNKFORCE`: the request is stored; when enabled the link goes straight up with the requested speed and duplex, pause off, a
new epoch, and the PHY forced (44_link_fsm.md R201, R207). -/
def Obligations.LnkforceForcesUp : Prop :=
  ∀ (s : State) (duplex : Bool) (speed : BitVec 2) (l : Link), speed ≠ 3 → l = { s.link with mode := .forced speed duplex } →
    (s.ctl.enabled = false →
      exec (.lnkforce duplex speed) s = .next { s with link := l, port := { s.port with result := some ⟨.ok, 0⟩ } }) ∧
    (s.ctl.enabled = true → s.link.epoch ≠ 0xFFFFFFFF →
      exec (.lnkforce duplex speed) s = .next { s with
        link := startedLink (downedLink l)
        csr := startedCsrs l s.csr
        port := { s.port with
          result := some ⟨.ok, 0⟩
          events := s.port.events ++ downEvents s.link s.link.epoch ++ [.linkUp (s.link.epoch + 1) speed duplex false false] } })

/-- The link service of a pass: a completed negotiation is resolved and its callback asked for; a lost link goes down, and
negotiates again only in auto mode under `RENEG_ON_LOSS`; a link that is up and ok keeps its state, and the pass goes on as one
without a link interrupt; any other status that calls for nothing only clears the interrupt (44_link_fsm.md R191, R197, R200,
R205). -/
def Obligations.PassServicesLink : Prop :=
  ∀ (s : State) (st : Word), Inv s → s.ctl.enabled = true → s.poll.irqLink = true → st = s.csr.phyStatus →
    (s.link.state = .negotiating → st.getLsbD 0 = true → st.getLsbD 1 = true →
      ∃ owed : List Word, owed.Perm (s.link.epoch :: s.env.resolvePending) ∧
        exec .onint s = .next { s with
          poll := { s.poll with irqLink := false }
          link := { s.link with state := .resolving, resSpeed := st.extractLsb' 2 2, resDuplex := st.getLsbD 4,
                                advPartner := st.extractLsb' 6 2 }
          env := { s.env with resolvePending := owed }
          port := { s.port with result := some ⟨.ok, 2⟩, events := s.port.events ++ [.schedResolve s.link.epoch] } }) ∧
    (s.link.state = .up → st.getLsbD 0 = false → ¬ (s.link.mode = .auto ∧ s.par.renegOnLoss = true) →
      exec .onint s = .next { s with
        poll := { s.poll with irqLink := false }
        link := downedLink s.link
        csr := { s.csr with macMode := 0 }
        port := { s.port with result := some ⟨.ok, 2⟩, events := s.port.events ++ [.linkDown s.link.epoch] } }) ∧
    (s.link.state = .up → st.getLsbD 0 = false → s.link.mode = .auto → s.par.renegOnLoss = true → s.link.epoch ≠ 0xFFFFFFFF →
      exec .onint s = .next { s with
        poll := { s.poll with irqLink := st.getLsbD 1 }
        link := startedLink (downedLink s.link)
        csr := startedCsrs s.link { s.csr with macMode := 0 }
        port := { s.port with result := some ⟨.ok, 2⟩, events := s.port.events ++ [.linkDown s.link.epoch] } }) ∧
    (s.link.state = .down ∨ s.link.state = .resolving ∨
        s.link.state = .negotiating ∧ (st.getLsbD 0 = false ∨ st.getLsbD 1 = false) →
      exec .onint s = .next { s with
        poll := { s.poll with irqLink := false }, port := { s.port with result := some ⟨.ok, 0⟩ } }) ∧
    (s.link.state = .up → st.getLsbD 0 = true →
      exec .onint s = exec .onint { s with poll := { s.poll with irqLink := false } })

/-- A negotiation in `Resolving` that a forced request (the document's scenario), a request to negotiate, an adapter reset or a
stop supersedes: the old callback then arrives, is stale, and changes nothing of the block but the answer on the result port
(44_link_fsm.md R192, R208). It is taken out of the platform's own list of callbacks owed all the same (10_state.md R73,
46_environment_agents.md R248; that this happens whatever the answer is the model's choice, log 15). -/
def Obligations.StaleCallbackDiscarded : Prop :=
  ∀ (s : State) (duplex : Bool) (speed adv : BitVec 2) (caps : BitVec 6), s.ctl.enabled = true → s.link.state = .resolving →
    speed ≠ 3 → caps ≠ 0 → s.link.epoch ≠ 0xFFFFFFFF →
    ∀ i ∈ [Instr.lnkforce duplex speed, Instr.lnkauto adv caps, Instr.adpreset, Instr.stop], ∃ t u : State,
      exec i s = .next t ∧ exec (.resdone s.link.epoch) t = .next u ∧
      t.link.state = (match i with
        | .lnkforce _ _ => LinkState.up
        | .lnkauto _ _ => .negotiating
        | .stop => .down
        | _ => if s.link.mode = .auto then .negotiating else .up) ∧
      t.link.epoch = s.link.epoch + 1 ∧
      u = { t with env := { t.env with resolvePending := t.env.resolvePending.erase s.link.epoch },
                   port := { t.port with result := some ⟨.staleEpoch, 0⟩ } }

/-- The transitions of the link machine, over every step: with the epoch unchanged the state stays or takes T3, T4, T5 or T7;
else the epoch is one more, and the new state is not `Resolving` (44_link_fsm.md R190, R192, R210 P20). That it never wraps rests on
the model's stop at 0xFFFFFFFF (log 6): 70_reset_and_hazards.md R316 leaves that increment undefined and makes it a premise that
none has come so far. -/
def Obligations.LinkTransitions : Prop :=
  ∀ s t : State, step s = .next t →
    t.link.epoch = s.link.epoch ∧
      (t.link.state = s.link.state ∨
       (s.link.state, t.link.state) ∈
         [(LinkState.negotiating, LinkState.resolving), (.resolving, .up), (.up, .down), (.negotiating, .down)]) ∨
    t.link.epoch.toNat = s.link.epoch.toNat + 1 ∧ t.link.state ≠ .resolving

/-- A link command never touches the rings, the poller's snapshot and watchdog, the counters, the memories or the device
(44_link_fsm.md R193). -/
def Obligations.LinkCommandsLeaveRings : Prop :=
  ∀ (s t : State) (i : Instr),
    (∃ adv caps, i = .lnkauto adv caps) ∨ (∃ dp sp, i = .lnkforce dp sp) ∨ (∃ e, i = .resdone e) → exec i s = .next t →
    t = { s with
      link := t.link
      port := t.port
      poll := { s.poll with irqLink := t.poll.irqLink }
      csr := { s.csr with phyAdv := t.csr.phyAdv, phyCtrl := t.csr.phyCtrl, phyStatus := t.csr.phyStatus,
                          macMode := t.csr.macMode }
      env := { s.env with resolvePending := t.env.resolvePending } }

/-- At the last epoch every operation that would increment it is stuck: the link commands, `ADPRESET` and `STOP` while enabled;
`START` with `N` buffers to be had; the tick that retries a negotiation, falls back to a forced link or fires the watchdog; the
pass that loses the link and negotiates anew (44_link_fsm.md R192; the model's rendering of 93 U11, log 6; log 3 for the
allocator's answers). -/
def Obligations.LastEpochIsStuck : Prop :=
  ∀ s : State, s.link.epoch = 0xFFFFFFFF →
    (s.ctl.enabled = true →
      (∀ (adv : BitVec 2) (caps : BitVec 6), caps ≠ 0 → exec (.lnkauto adv caps) s = .fault .epochOverflow) ∧
      (∀ (dp : Bool) (sp : BitVec 2), sp ≠ 3 → exec (.lnkforce dp sp) s = .fault .epochOverflow) ∧
      exec .adpreset s = .fault .epochOverflow ∧
      exec .stop s = .fault .epochOverflow) ∧
    (∀ (bufs : List Addr) (rest : List (Option Addr)), s.ctl.enabled = false → bufs.length = s.par.n →
      s.env.allocIn = bufs.map some ++ rest → allFresh s.par s.env.live bufs → exec .start s = .fault .epochOverflow) ∧
    (Inv s → s.ctl.enabled = true → s.link.state = .negotiating → s.link.negTicks.toNat + 1 = s.par.negTimeout →
      (s.link.negRetries.toNat < s.par.negRetryMax ∨ ∃ sp dp, s.par.negFallback = .fbForced sp dp) →
      exec .wdtick s = .fault .epochOverflow) ∧
    (Inv s → s.ctl.enabled = true → s.link.up = true → s.tx.free < s.par.n → s.poll.wdProgress = false →
      s.par.wdTimeout = s.poll.wdStallTicks.toNat + 1 → exec .wdtick s = .fault .epochOverflow) ∧
    (s.ctl.enabled = true → s.poll.irqLink = true → s.link.state = .up → s.csr.phyStatus.getLsbD 0 = false →
      s.link.mode = .auto → s.par.renegOnLoss = true → exec .onint s = .fault .epochOverflow)

/-! ## Lifecycle -/

/-- `START` with `N` buffers to be had: the device reset and armed with `N` credits, the rings empty, each RX slot posted with
its buffer, the adapter enabled, the link started; counters and faults kept (45_lifecycle.md R220, R221, R222; the list of the
allocator's answers is log 3). -/
def Obligations.StartBringsUp : Prop :=
  ∀ (s : State) (bufs : List Addr) (rest : List (Option Addr)), Inv s → s.ctl.enabled = false → s.link.epoch ≠ 0xFFFFFFFF →
    bufs.length = s.par.n → s.env.allocIn = bufs.map some ++ rest → allFresh s.par s.env.live bufs →
    ∃ (m : List Host.Cell) (lv : List Addr),
      exec .start s = .next { s with
        tx := emptyTx s.par
        rx := { prod := 0, slot := bufs.map some, rrCons := 0 }
        poll := emptyPoller (startRaisesLink s.link s.csr)
        ctl := { s.ctl with txStalled := false, enabled := true }
        link := startedLink s.link
        csr := { startedCsrs s.link s.csr with devCtrlEn := true, mbTxProd := 0, mbRxProd := 0, mbRrCons := 0 }
        dev := armedDevice s.par
        env := { s.env with live := lv, allocIn := rest, allocCalls := s.env.allocCalls + s.par.n }
        mem := m
        port := { s.port with result := some ⟨.ok, 0⟩, events := s.port.events ++ startEvents s.link } } ∧
      (∀ b, b ∈ lv ↔ b ∈ bufs ∨ b ∈ s.env.live) ∧
      RingsPosted s.par bufs m ∧
      ∀ a, (∀ r ∈ s.par.regions, outside a r.1 r.2) → Memory.byteAt m a = Memory.byteAt s.mem a

/-- `START` when the allocator fails before all buffers are had: those taken are given back in order, `OutOfBuffers` is
answered, and the block state is exactly as before (45_lifecycle.md R220; log 3). -/
def Obligations.StartFailsClean : Prop :=
  ∀ (s : State) (bufs : List Addr) (rest : List (Option Addr)), s.ctl.enabled = false → bufs.length < s.par.n →
    1 ≤ s.par.bufcap → s.env.allocIn = bufs.map some ++ none :: rest → allFresh s.par s.env.live bufs →
    exec .start s = .next { s with
      env := { s.env with allocIn := rest, allocCalls := s.env.allocCalls + bufs.length + 1 }
      port := { s.port with result := some ⟨.outOfBuffers, 0⟩, events := s.port.events ++ bufs.map .bufFree } }

/-- `STOP`: new epoch, link down, device inactive; what the status block reports done is completed, the rest failed, every
receive buffer freed, the rings zeroed, the adapter disabled. The status block keeps its bytes (45_lifecycle.md R225, R227). -/
def Obligations.StopQuiesces : Prop :=
  ∀ (s : State) (c : Nat), Inv s → s.ctl.enabled = true → s.link.epoch ≠ 0xFFFFFFFF →
    c = (if (s.memRead s.par.sbBase 2 % s.par.n + s.par.n - s.tx.cons) % s.par.n ≤ s.par.n - s.tx.free
         then (s.memRead s.par.sbBase 2 % s.par.n + s.par.n - s.tx.cons) % s.par.n else 0) →
    ∃ (m : List Host.Cell) (lv : List Addr),
      exec .stop s = .next { s with
        tx := emptyTx s.par
        rx := { prod := 0, slot := List.replicate s.par.n none, rrCons := 0 }
        poll := emptyPoller false
        ctl := { s.ctl with txStalled := false, enabled := false }
        link := { downedLink s.link with epoch := s.link.epoch + 1 }
        csr := { s.csr with devCtrlEn := false, macMode := 0 }
        dev := { s.dev with active := false }
        env := { s.env with live := lv }
        mem := m
        port := { s.port with
          result := some ⟨.ok, 0⟩
          events := s.port.events ++ downEvents s.link (s.link.epoch + 1) ++ owedEvents s .txDone s.tx.cons c ++
            (if 0 < c ∧ s.ctl.txStalled = true then [.resume] else []) ++
            owedEvents s .txFailed (s.tx.cons + c) (s.par.n - s.tx.free - c) ++ (slotBuffers s).map .bufFree } } ∧
      (∀ b, b ∈ lv ↔ b ∈ s.env.live ∧ b ∉ slotBuffers s) ∧
      (∀ i, i < s.par.n → Memory.readLE m (txDescAddr s.par i) 16 = 0 ∧ Memory.readLE m (rxDescAddr s.par i) 16 = 0 ∧
        Memory.readLE m (rrDescAddr s.par i) 8 = 0) ∧
      ∀ a, outside a s.par.txBase (16 * s.par.n) → outside a s.par.rxBase (16 * s.par.n) →
        outside a s.par.rrBase (8 * s.par.n) → Memory.byteAt m a = Memory.byteAt s.mem a

/-- `ADPRESET`: every packet in flight failed, the device reset and armed again, the rings empty, the same buffers posted again,
the link restarted; the buffers, the counters and `enabled` are kept (45_lifecycle.md R226, R229 P27). -/
def Obligations.AdapterResetRestarts : Prop :=
  ∀ s : State, Inv s → s.ctl.enabled = true → s.link.epoch ≠ 0xFFFFFFFF →
    ∃ m : List Host.Cell,
      exec .adpreset s = .next { s with
        tx := emptyTx s.par
        rx := { s.rx with prod := 0, rrCons := 0 }
        poll := emptyPoller (startRaisesLink s.link s.csr)
        ctl := { s.ctl with txStalled := false }
        link := startedLink (downedLink s.link)
        csr := { startedCsrs s.link { s.csr with macMode := 0 } with devCtrlEn := true, mbTxProd := 0, mbRxProd := 0, mbRrCons := 0 }
        dev := armedDevice s.par
        mem := m
        port := { s.port with
          result := some ⟨.ok, 0⟩
          events := s.port.events ++ downEvents s.link s.link.epoch ++
            owedEvents s .txFailed s.tx.cons (s.par.n - s.tx.free) ++ startEvents s.link } } ∧
      RingsPosted s.par (slotBuffers s) m ∧
      ∀ a, (∀ r ∈ s.par.regions, outside a r.1 r.2) → Memory.byteAt m a = Memory.byteAt s.mem a

/-! ## The environment's steps -/

/-- `DEVTX k` exists exactly when the device is active and `1 <= k <= dev_tx_pending`, and then only moves the device's cursor
and count (46_environment_agents.md R239). That a step which does not exist (R235) is the fault `noSuchStep` is the model's choice,
log 7. -/
def Obligations.DevtxConsumes : Prop :=
  ∀ (s : State) (k : BitVec 8),
    (s.dev.active = true ∧ 1 ≤ k.toNat ∧ k.toNat ≤ s.dev.txPending →
      exec (.devtx k) s = .next { s with
        dev := { s.dev with txCons := (s.dev.txCons + k.toNat) % s.par.n, txPending := s.dev.txPending - k.toNat } }) ∧
    (¬ (s.dev.active = true ∧ 1 ≤ k.toNat ∧ k.toNat ≤ s.dev.txPending) → exec (.devtx k) s = .fault .noSuchStep)

/-- `DEVRX` exists exactly under its enabling condition, and then writes the return descriptor and moves the cursors
(46_environment_agents.md R241); the frame's bytes are not part of the model (20_memory.md R93; log 10). That a step which does not exist
(R235) is the fault `noSuchStep` is the model's choice, log 7. -/
def Obligations.DevrxReturnsFrame : Prop :=
  ∀ (s : State) (flags err : BitVec 2) (len : BitVec 16), Inv s →
    (s.dev.active = true ∧ 1 ≤ s.dev.rxAvail ∧ (s.dev.rrProd + s.par.n - s.dev.rrSeen) % s.par.n ≤ s.par.n - 2 ∧
        len.toNat ≤ s.memRead (rxDescAddr s.par s.dev.rxCons + 8) 2 →
      ∃ m : List Host.Cell,
        exec (.devrx flags err len) s = .next { s with
          dev := { s.dev with rrProd := (s.dev.rrProd + 1) % s.par.n, rxCons := (s.dev.rxCons + 1) % s.par.n,
                              rxAvail := s.dev.rxAvail - 1 }
          mem := m } ∧
        Memory.readLE m (rrDescAddr s.par s.dev.rrProd) 2 = s.dev.rxCons ∧
        Memory.readLE m (rrDescAddr s.par s.dev.rrProd + 2) 2 = len.toNat ∧
        Memory.readLE m (rrDescAddr s.par s.dev.rrProd + 4) 2 = flags.toNat ∧
        Memory.readLE m (rrDescAddr s.par s.dev.rrProd + 6) 2 = err.toNat ∧
        sameOutside s.mem m (rrDescAddr s.par s.dev.rrProd) 8) ∧
    (¬ (s.dev.active = true ∧ 1 ≤ s.dev.rxAvail ∧ (s.dev.rrProd + s.par.n - s.dev.rrSeen) % s.par.n ≤ s.par.n - 2 ∧
        len.toNat ≤ s.memRead (rxDescAddr s.par s.dev.rxCons + 8) 2) →
      exec (.devrx flags err len) s = .fault .noSuchStep)

/-- `DEVSB` exists exactly while the device is active, and then writes the status block with a new tag and the two indices and
raises the ring interrupt (46_environment_agents.md R243). That a step which does not exist (R235) is the fault `noSuchStep` is the
model's choice, log 7. -/
def Obligations.DevsbPublishes : Prop :=
  ∀ s : State, Inv s →
    (s.dev.active = true →
      ∃ m : List Host.Cell,
        exec .devsb s = .next { s with
          dev := { s.dev with tag := s.dev.tag + 1 }, poll := { s.poll with irqRing := true }, mem := m } ∧
        Memory.readLE m s.par.sbBase 2 = s.dev.txCons ∧
        Memory.readLE m (s.par.sbBase + 2) 2 = s.dev.rrProd ∧
        Memory.readLE m (s.par.sbBase + 4) 4 = (s.dev.tag + 1).toNat ∧
        sameOutside s.mem m s.par.sbBase 8) ∧
    (s.dev.active = false → exec .devsb s = .fault .noSuchStep)

/-- `PHYSET` exists unless the speed code is 3, and then sets `PHY_STATUS` and raises the link interrupt exactly on a change
(46_environment_agents.md R244). That a step which does not exist (R235) is the fault `noSuchStep` is the model's choice, log 7. -/
def Obligations.PhysetReports : Prop :=
  ∀ (s : State) (status : BitVec 8),
    (status.extractLsb' 2 2 ≠ 3 →
      exec (.physet status) s = .next { s with
        csr := { s.csr with phyStatus := status.setWidth 32 }
        poll := { s.poll with irqLink := s.poll.irqLink || decide (s.csr.phyStatus ≠ status.setWidth 32) } }) ∧
    (status.extractLsb' 2 2 = 3 → exec (.physet status) s = .fault .noSuchStep)

/-! ## The ports -/

/-- The numbers of the result codes (60_exceptions.md R260) and the 104-bit event records: the code in bits 103:96, `p0` in bits
95:32, `p1` in bits 31:0, unused bits 0 (30_encoding.md R118). -/
def Obligations.PortEncodings : Prop :=
  (∀ row ∈ ([(.ok, 0x00), (.outOfDescriptors, 0x01), (.outOfBuffers, 0x02), (.hardwareTimeout, 0x03),
             (.negotiationTimeout, 0x04), (.checksumOrLengthError, 0x05), (.zeroLength, 0x10), (.tooManySegments, 0x11),
             (.notEnabled, 0x12), (.gateClosed, 0x13), (.badState, 0x14), (.badOperand, 0x15), (.slotBusy, 0x16),
             (.indexFault, 0x17), (.illegalCommand, 0x18), (.staleEpoch, 0x19)] : List (ResCode × Nat)),
    row.1.number.toNat = row.2) ∧
  ∀ (h e : Word) (buf : Addr) (len flags slot err : BitVec 16) (sp : BitVec 2) (ip l4 dp rx tx : Bool),
    (Event.txDone h).record.toNat = 0x80 * 2 ^ 96 + h.toNat ∧
    (Event.txFailed h).record.toNat = 0x81 * 2 ^ 96 + h.toNat ∧
    (Event.deliver buf len ip l4).record.toNat =
      0x82 * 2 ^ 96 + buf.toNat * 2 ^ 32 + (len.toNat + 2 ^ 16 * ip.toNat + 2 ^ 17 * l4.toNat) ∧
    (Event.bufFree buf).record.toNat = 0x83 * 2 ^ 96 + buf.toNat * 2 ^ 32 ∧
    (Event.resume).record.toNat = 0x84 * 2 ^ 96 ∧
    (Event.linkUp e sp dp rx tx).record.toNat =
      0x85 * 2 ^ 96 + e.toNat * 2 ^ 32 + (sp.toNat + 4 * dp.toNat + 8 * rx.toNat + 16 * tx.toNat) ∧
    (Event.linkDown e).record.toNat = 0x86 * 2 ^ 96 + e.toNat * 2 ^ 32 ∧
    (Event.hwTimeout).record.toNat = 0x87 * 2 ^ 96 ∧
    (Event.negTimeout).record.toNat = 0x88 * 2 ^ 96 ∧
    (Event.schedResolve e).record.toNat = 0x89 * 2 ^ 96 + e.toNat * 2 ^ 32 ∧
    (Event.rxFilled buf len flags).record.toNat = 0x8A * 2 ^ 96 + buf.toNat * 2 ^ 32 + (len.toNat + 2 ^ 16 * flags.toNat) ∧
    (Event.rxDropped slot err).record.toNat = 0x8B * 2 ^ 96 + (slot.toNat + 2 ^ 16 * err.toNat) ∧
    (Event.rxNoBuf slot).record.toNat = 0x8C * 2 ^ 96 + slot.toNat

/-! ## Reset and invariants -/

/-- The state after hardware reset, element by element, for every value of the parameters (10_state.md R76). -/
def Obligations.ResetValues : Prop :=
  ∀ (p : Params) (s : State), s = State.resetOf p →
    (s.tx.prod = 0 ∧ s.tx.cons = 0 ∧ s.rx.prod = 0 ∧ s.rx.rrCons = 0 ∧ s.tx.free = p.n) ∧
    (∀ i, s.txSlot i = none ∧ s.rxSlot i = none) ∧
    (s.poll.snapTxCons = 0 ∧ s.poll.snapRrProd = 0 ∧ s.poll.snapTag = 0 ∧ s.poll.irqRing = false ∧ s.poll.irqLink = false ∧
      s.poll.wdProgress = false ∧ s.ctl.txStalled = false ∧ s.poll.wdStallTicks = 0 ∧ s.link.negTicks = 0 ∧
      s.link.negRetries = 0) ∧
    (s.ctl.cntRxDrop = 0 ∧ s.ctl.cntRxNobuf = 0 ∧ s.ctl.faultTxIdx = false ∧ s.ctl.faultRrIdx = false ∧
      s.ctl.enabled = false) ∧
    (s.link.state = .down ∧ s.link.up = false ∧ s.link.epoch = 0 ∧ s.link.mode = .auto ∧ s.link.advCaps = 0x3F ∧
      s.link.advLocal = 0b11 ∧ s.link.advPartner = 0 ∧ s.link.resSpeed = 0 ∧ s.link.resDuplex = false ∧ s.link.curSpeed = 0 ∧
      s.link.curDuplex = false ∧ s.link.fcRx = false ∧ s.link.fcTx = false) ∧
    s.csr = { devCtrlEn := false, phyAdv := 0, phyCtrl := 0, phyStatus := 0, macMode := 0, winBase := 0, mbTxProd := 0,
              mbRxProd := 0, mbRrCons := 0 } ∧
    s.dev = { active := false, txCons := 0, txSeen := 0, txPending := 0, rxCons := 0, rxSeen := 0, rxAvail := 0, rrProd := 0,
              rrSeen := 0, tag := 0 } ∧
    (s.env.live = [] ∧ s.env.resolvePending = [] ∧ s.port.events = [])

/-- What `RDREG` returns at every legal offset right after hardware reset (10_state.md R48): `WIN_DATA` shows word 0 of `imem`,
whose value is free (R68; log 5). -/
def Obligations.ResetCsrs : Prop :=
  ∀ (p : Params) (off : BitVec 16), p.Legal → off.toNat % 4 = 0 → off.toNat < 0x100 →
    ∃ t, exec (.rdreg off) (State.resetOf p) = .next t ∧
      t.port.result =
        some ⟨.ok, if off.toNat = 0x08 then BitVec.ofNat 64 p.n else if off.toNat = 0x34 then 0xFF0
                   else if off.toNat = 0x64 then ((State.resetOf p).imemRead 0).setWidth 64 else 0⟩

/-- The invariants hold in the hardware-reset state of every legal choice of the parameters (70_reset_and_hazards.md R300). -/
def Obligations.InvAtReset : Prop :=
  ∀ p : Params, p.Legal → Inv (State.resetOf p) ∧ TxFramed (State.resetOf p) ∧ RxBacked (State.resetOf p)

/-- Every step keeps the invariants, from every state that has them, whichever agent acts and whatever it presents; so does I4,
the framing of packets in the transmit ring (10_state.md R26, R29, R40; 60_exceptions.md R262). -/
def Obligations.InvKept : Prop :=
  ∀ s t : State, Inv s → step s = .next t → Inv t ∧ (TxFramed s → TxFramed t)

/-- Every step keeps each posted receive slot backed: its descriptor names a live buffer of its own with capacity `BUFCAP`
(10_state.md R29 I5, I6). -/
def Obligations.RxBackedKept : Prop := ∀ s t : State, Inv s → RxBacked s → step s = .next t → RxBacked t

/-- No step changes a parameter (00_scope.md R8). -/
def Obligations.ParametersFixed : Prop := ∀ s t : State, step s = .next t → t.par = s.par

/-- No step clears a fault flag (10_state.md R37), and the event stream only grows at its end (10_state.md R69). -/
def Obligations.FaultsStickyEventsAppended : Prop :=
  ∀ s t : State, step s = .next t →
    (s.ctl.faultTxIdx = true → t.ctl.faultTxIdx = true) ∧ (s.ctl.faultRrIdx = true → t.ctl.faultRrIdx = true) ∧
    ∃ evs, t.port.events = s.port.events ++ evs

/-- Of descriptors and status block, no step writes a byte outside the four regions (20_memory.md R81, R82, R83). The device's
writes into posted receive buffers, which R81 allows and `DEVRX` makes (46_environment_agents.md R241), are not in the model's
memory: buffer contents are left out (20_memory.md R93; log 10), so this says nothing of them. -/
def Obligations.MemoryConfined : Prop :=
  ∀ s t : State, Inv s → step s = .next t → ∀ a, (∀ r ∈ s.par.regions, outside a r.1 r.2) →
    Memory.byteAt t.mem a = Memory.byteAt s.mem a

/-- Who writes which array (20_memory.md R89): an agent's step writes nothing but return descriptors and the status block, the bytes
`DEVRX` puts into a receive buffer being left out of the model (20_memory.md R93; log 10); a host operation other than `START`,
`STOP`, `ADPRESET` and `WDTICK` writes no return descriptor; one other than `START`, `ADPRESET`, `WDTICK`, `WRREG` and `SETBIT`
writes no byte of the status block. Of the operations named as exceptions it says nothing: what they write stands in their own
statements. -/
def Obligations.MemoryOwnership : Prop :=
  ∀ (s t : State) (i : Instr), Inv s → exec i s = .next t →
    (i.port ≠ .host → ∀ a, outside a s.par.rrBase (8 * s.par.n) → outside a s.par.sbBase 8 →
      Memory.byteAt t.mem a = Memory.byteAt s.mem a) ∧
    (i.port = .host → i.mnemonic ∉ ["START", "STOP", "ADPRESET", "WDTICK"] → ∀ a,
      ¬ outside a s.par.rrBase (8 * s.par.n) → Memory.byteAt t.mem a = Memory.byteAt s.mem a) ∧
    (i.port = .host → i.mnemonic ∉ ["START", "ADPRESET", "WDTICK", "WRREG", "SETBIT"] → ∀ a,
      ¬ outside a s.par.sbBase 8 → Memory.byteAt t.mem a = Memory.byteAt s.mem a)
end

