-- ==== Sys2Proof/Laws/State.lean ====
section
/-! SUPPORT. One lemma per field per named update of the state, so that no later proof unfolds a record update. -/

namespace Sys2Proof.Machine

/-! `emit` -/

@[simp] theorem emit_par (s : State) (e : Event) : (s.emit e).par = s.par := rfl
@[simp] theorem emit_tx (s : State) (e : Event) : (s.emit e).tx = s.tx := rfl
@[simp] theorem emit_rx (s : State) (e : Event) : (s.emit e).rx = s.rx := rfl
@[simp] theorem emit_poll (s : State) (e : Event) : (s.emit e).poll = s.poll := rfl
@[simp] theorem emit_ctl (s : State) (e : Event) : (s.emit e).ctl = s.ctl := rfl
@[simp] theorem emit_link (s : State) (e : Event) : (s.emit e).link = s.link := rfl
@[simp] theorem emit_csr (s : State) (e : Event) : (s.emit e).csr = s.csr := rfl
@[simp] theorem emit_imem (s : State) (e : Event) : (s.emit e).imem = s.imem := rfl
@[simp] theorem emit_mem (s : State) (e : Event) : (s.emit e).mem = s.mem := rfl
@[simp] theorem emit_dev (s : State) (e : Event) : (s.emit e).dev = s.dev := rfl
@[simp] theorem emit_env (s : State) (e : Event) : (s.emit e).env = s.env := rfl
@[simp] theorem emit_port (s : State) (e : Event) : (s.emit e).port = { s.port with events := s.port.events ++ [e] } := rfl

/-! `setResult` -/

@[simp] theorem setResult_par (s : State) (r : Result) : (s.setResult r).par = s.par := rfl
@[simp] theorem setResult_tx (s : State) (r : Result) : (s.setResult r).tx = s.tx := rfl
@[simp] theorem setResult_rx (s : State) (r : Result) : (s.setResult r).rx = s.rx := rfl
@[simp] theorem setResult_poll (s : State) (r : Result) : (s.setResult r).poll = s.poll := rfl
@[simp] theorem setResult_ctl (s : State) (r : Result) : (s.setResult r).ctl = s.ctl := rfl
@[simp] theorem setResult_link (s : State) (r : Result) : (s.setResult r).link = s.link := rfl
@[simp] theorem setResult_csr (s : State) (r : Result) : (s.setResult r).csr = s.csr := rfl
@[simp] theorem setResult_imem (s : State) (r : Result) : (s.setResult r).imem = s.imem := rfl
@[simp] theorem setResult_mem (s : State) (r : Result) : (s.setResult r).mem = s.mem := rfl
@[simp] theorem setResult_dev (s : State) (r : Result) : (s.setResult r).dev = s.dev := rfl
@[simp] theorem setResult_env (s : State) (r : Result) : (s.setResult r).env = s.env := rfl
@[simp] theorem setResult_port (s : State) (r : Result) : (s.setResult r).port = { s.port with result := some r } := rfl

/-! `withPending` -/

@[simp] theorem withPending_par (s : State) (q : List Stimulus) : (s.withPending q).par = s.par := rfl
@[simp] theorem withPending_tx (s : State) (q : List Stimulus) : (s.withPending q).tx = s.tx := rfl
@[simp] theorem withPending_rx (s : State) (q : List Stimulus) : (s.withPending q).rx = s.rx := rfl
@[simp] theorem withPending_poll (s : State) (q : List Stimulus) : (s.withPending q).poll = s.poll := rfl
@[simp] theorem withPending_ctl (s : State) (q : List Stimulus) : (s.withPending q).ctl = s.ctl := rfl
@[simp] theorem withPending_link (s : State) (q : List Stimulus) : (s.withPending q).link = s.link := rfl
@[simp] theorem withPending_csr (s : State) (q : List Stimulus) : (s.withPending q).csr = s.csr := rfl
@[simp] theorem withPending_imem (s : State) (q : List Stimulus) : (s.withPending q).imem = s.imem := rfl
@[simp] theorem withPending_mem (s : State) (q : List Stimulus) : (s.withPending q).mem = s.mem := rfl
@[simp] theorem withPending_dev (s : State) (q : List Stimulus) : (s.withPending q).dev = s.dev := rfl
@[simp] theorem withPending_env (s : State) (q : List Stimulus) : (s.withPending q).env = s.env := rfl
@[simp] theorem withPending_port (s : State) (q : List Stimulus) : (s.withPending q).port = { s.port with pending := q } := rfl

/-! `countCall` -/

@[simp] theorem countCall_par (s : State) : (s.countCall).par = s.par := rfl
@[simp] theorem countCall_tx (s : State) : (s.countCall).tx = s.tx := rfl
@[simp] theorem countCall_rx (s : State) : (s.countCall).rx = s.rx := rfl
@[simp] theorem countCall_poll (s : State) : (s.countCall).poll = s.poll := rfl
@[simp] theorem countCall_ctl (s : State) : (s.countCall).ctl = s.ctl := rfl
@[simp] theorem countCall_link (s : State) : (s.countCall).link = s.link := rfl
@[simp] theorem countCall_csr (s : State) : (s.countCall).csr = s.csr := rfl
@[simp] theorem countCall_imem (s : State) : (s.countCall).imem = s.imem := rfl
@[simp] theorem countCall_mem (s : State) : (s.countCall).mem = s.mem := rfl
@[simp] theorem countCall_dev (s : State) : (s.countCall).dev = s.dev := rfl
@[simp] theorem countCall_env (s : State) :
    (s.countCall).env = { s.env with allocIn := s.env.allocIn.tail, allocCalls := s.env.allocCalls + 1 } := rfl
@[simp] theorem countCall_port (s : State) : (s.countCall).port = s.port := rfl

/-! `addLive` -/

@[simp] theorem addLive_par (s : State) (b : Addr) : (s.addLive b).par = s.par := rfl
@[simp] theorem addLive_tx (s : State) (b : Addr) : (s.addLive b).tx = s.tx := rfl
@[simp] theorem addLive_rx (s : State) (b : Addr) : (s.addLive b).rx = s.rx := rfl
@[simp] theorem addLive_poll (s : State) (b : Addr) : (s.addLive b).poll = s.poll := rfl
@[simp] theorem addLive_ctl (s : State) (b : Addr) : (s.addLive b).ctl = s.ctl := rfl
@[simp] theorem addLive_link (s : State) (b : Addr) : (s.addLive b).link = s.link := rfl
@[simp] theorem addLive_csr (s : State) (b : Addr) : (s.addLive b).csr = s.csr := rfl
@[simp] theorem addLive_imem (s : State) (b : Addr) : (s.addLive b).imem = s.imem := rfl
@[simp] theorem addLive_mem (s : State) (b : Addr) : (s.addLive b).mem = s.mem := rfl
@[simp] theorem addLive_dev (s : State) (b : Addr) : (s.addLive b).dev = s.dev := rfl
@[simp] theorem addLive_env (s : State) (b : Addr) : (s.addLive b).env = { s.env with live := liveInsert b s.env.live } := rfl
@[simp] theorem addLive_port (s : State) (b : Addr) : (s.addLive b).port = s.port := rfl

/-! `dropLive` -/

@[simp] theorem dropLive_par (s : State) (b : Addr) : (s.dropLive b).par = s.par := rfl
@[simp] theorem dropLive_tx (s : State) (b : Addr) : (s.dropLive b).tx = s.tx := rfl
@[simp] theorem dropLive_rx (s : State) (b : Addr) : (s.dropLive b).rx = s.rx := rfl
@[simp] theorem dropLive_poll (s : State) (b : Addr) : (s.dropLive b).poll = s.poll := rfl
@[simp] theorem dropLive_ctl (s : State) (b : Addr) : (s.dropLive b).ctl = s.ctl := rfl
@[simp] theorem dropLive_link (s : State) (b : Addr) : (s.dropLive b).link = s.link := rfl
@[simp] theorem dropLive_csr (s : State) (b : Addr) : (s.dropLive b).csr = s.csr := rfl
@[simp] theorem dropLive_imem (s : State) (b : Addr) : (s.dropLive b).imem = s.imem := rfl
@[simp] theorem dropLive_mem (s : State) (b : Addr) : (s.dropLive b).mem = s.mem := rfl
@[simp] theorem dropLive_dev (s : State) (b : Addr) : (s.dropLive b).dev = s.dev := rfl
@[simp] theorem dropLive_env (s : State) (b : Addr) :
    (s.dropLive b).env = { s.env with live := s.env.live.filter (· != b) } := rfl
@[simp] theorem dropLive_port (s : State) (b : Addr) : (s.dropLive b).port = s.port := rfl

/-! `setTxSlot` -/

@[simp] theorem setTxSlot_par (s : State) (i : Nat) (h : Option Handle) : (s.setTxSlot i h).par = s.par := rfl
@[simp] theorem setTxSlot_tx (s : State) (i : Nat) (h : Option Handle) :
    (s.setTxSlot i h).tx = { s.tx with slot := s.tx.slot.set i h } := rfl
@[simp] theorem setTxSlot_rx (s : State) (i : Nat) (h : Option Handle) : (s.setTxSlot i h).rx = s.rx := rfl
@[simp] theorem setTxSlot_poll (s : State) (i : Nat) (h : Option Handle) : (s.setTxSlot i h).poll = s.poll := rfl
@[simp] theorem setTxSlot_ctl (s : State) (i : Nat) (h : Option Handle) : (s.setTxSlot i h).ctl = s.ctl := rfl
@[simp] theorem setTxSlot_link (s : State) (i : Nat) (h : Option Handle) : (s.setTxSlot i h).link = s.link := rfl
@[simp] theorem setTxSlot_csr (s : State) (i : Nat) (h : Option Handle) : (s.setTxSlot i h).csr = s.csr := rfl
@[simp] theorem setTxSlot_imem (s : State) (i : Nat) (h : Option Handle) : (s.setTxSlot i h).imem = s.imem := rfl
@[simp] theorem setTxSlot_mem (s : State) (i : Nat) (h : Option Handle) : (s.setTxSlot i h).mem = s.mem := rfl
@[simp] theorem setTxSlot_dev (s : State) (i : Nat) (h : Option Handle) : (s.setTxSlot i h).dev = s.dev := rfl
@[simp] theorem setTxSlot_env (s : State) (i : Nat) (h : Option Handle) : (s.setTxSlot i h).env = s.env := rfl
@[simp] theorem setTxSlot_port (s : State) (i : Nat) (h : Option Handle) : (s.setTxSlot i h).port = s.port := rfl

/-! `setRxSlot` -/

@[simp] theorem setRxSlot_par (s : State) (i : Nat) (b : Option Addr) : (s.setRxSlot i b).par = s.par := rfl
@[simp] theorem setRxSlot_tx (s : State) (i : Nat) (b : Option Addr) : (s.setRxSlot i b).tx = s.tx := rfl
@[simp] theorem setRxSlot_rx (s : State) (i : Nat) (b : Option Addr) :
    (s.setRxSlot i b).rx = { s.rx with slot := s.rx.slot.set i b } := rfl
@[simp] theorem setRxSlot_poll (s : State) (i : Nat) (b : Option Addr) : (s.setRxSlot i b).poll = s.poll := rfl
@[simp] theorem setRxSlot_ctl (s : State) (i : Nat) (b : Option Addr) : (s.setRxSlot i b).ctl = s.ctl := rfl
@[simp] theorem setRxSlot_link (s : State) (i : Nat) (b : Option Addr) : (s.setRxSlot i b).link = s.link := rfl
@[simp] theorem setRxSlot_csr (s : State) (i : Nat) (b : Option Addr) : (s.setRxSlot i b).csr = s.csr := rfl
@[simp] theorem setRxSlot_imem (s : State) (i : Nat) (b : Option Addr) : (s.setRxSlot i b).imem = s.imem := rfl
@[simp] theorem setRxSlot_mem (s : State) (i : Nat) (b : Option Addr) : (s.setRxSlot i b).mem = s.mem := rfl
@[simp] theorem setRxSlot_dev (s : State) (i : Nat) (b : Option Addr) : (s.setRxSlot i b).dev = s.dev := rfl
@[simp] theorem setRxSlot_env (s : State) (i : Nat) (b : Option Addr) : (s.setRxSlot i b).env = s.env := rfl
@[simp] theorem setRxSlot_port (s : State) (i : Nat) (b : Option Addr) : (s.setRxSlot i b).port = s.port := rfl

/-! `memWrite` -/

@[simp] theorem memWrite_par (s : State) (a n v : Nat) : (s.memWrite a n v).par = s.par := rfl
@[simp] theorem memWrite_tx (s : State) (a n v : Nat) : (s.memWrite a n v).tx = s.tx := rfl
@[simp] theorem memWrite_rx (s : State) (a n v : Nat) : (s.memWrite a n v).rx = s.rx := rfl
@[simp] theorem memWrite_poll (s : State) (a n v : Nat) : (s.memWrite a n v).poll = s.poll := rfl
@[simp] theorem memWrite_ctl (s : State) (a n v : Nat) : (s.memWrite a n v).ctl = s.ctl := rfl
@[simp] theorem memWrite_link (s : State) (a n v : Nat) : (s.memWrite a n v).link = s.link := rfl
@[simp] theorem memWrite_csr (s : State) (a n v : Nat) : (s.memWrite a n v).csr = s.csr := rfl
@[simp] theorem memWrite_imem (s : State) (a n v : Nat) : (s.memWrite a n v).imem = s.imem := rfl
@[simp] theorem memWrite_mem (s : State) (a n v : Nat) : (s.memWrite a n v).mem = Memory.writeLE s.mem a n v := rfl
@[simp] theorem memWrite_dev (s : State) (a n v : Nat) : (s.memWrite a n v).dev = s.dev := rfl
@[simp] theorem memWrite_env (s : State) (a n v : Nat) : (s.memWrite a n v).env = s.env := rfl
@[simp] theorem memWrite_port (s : State) (a n v : Nat) : (s.memWrite a n v).port = s.port := rfl

/-! `imemWrite` -/

@[simp] theorem imemWrite_par (s : State) (j : Nat) (v : Word) : (s.imemWrite j v).par = s.par := rfl
@[simp] theorem imemWrite_tx (s : State) (j : Nat) (v : Word) : (s.imemWrite j v).tx = s.tx := rfl
@[simp] theorem imemWrite_rx (s : State) (j : Nat) (v : Word) : (s.imemWrite j v).rx = s.rx := rfl
@[simp] theorem imemWrite_poll (s : State) (j : Nat) (v : Word) : (s.imemWrite j v).poll = s.poll := rfl
@[simp] theorem imemWrite_ctl (s : State) (j : Nat) (v : Word) : (s.imemWrite j v).ctl = s.ctl := rfl
@[simp] theorem imemWrite_link (s : State) (j : Nat) (v : Word) : (s.imemWrite j v).link = s.link := rfl
@[simp] theorem imemWrite_csr (s : State) (j : Nat) (v : Word) : (s.imemWrite j v).csr = s.csr := rfl
@[simp] theorem imemWrite_imem (s : State) (j : Nat) (v : Word) : (s.imemWrite j v).imem = cellSet s.imem j v := rfl
@[simp] theorem imemWrite_mem (s : State) (j : Nat) (v : Word) : (s.imemWrite j v).mem = s.mem := rfl
@[simp] theorem imemWrite_dev (s : State) (j : Nat) (v : Word) : (s.imemWrite j v).dev = s.dev := rfl
@[simp] theorem imemWrite_env (s : State) (j : Nat) (v : Word) : (s.imemWrite j v).env = s.env := rfl
@[simp] theorem imemWrite_port (s : State) (j : Nat) (v : Word) : (s.imemWrite j v).port = s.port := rfl

/-! `writeTxDesc` writes memory only -/

@[simp] theorem writeTxDesc_par (s : State) (i : Nat) (g : Seg) (c e : Bool) : (s.writeTxDesc i g c e).par = s.par := by simp [State.writeTxDesc]
@[simp] theorem writeTxDesc_tx (s : State) (i : Nat) (g : Seg) (c e : Bool) : (s.writeTxDesc i g c e).tx = s.tx := by simp [State.writeTxDesc]
@[simp] theorem writeTxDesc_rx (s : State) (i : Nat) (g : Seg) (c e : Bool) : (s.writeTxDesc i g c e).rx = s.rx := by simp [State.writeTxDesc]
@[simp] theorem writeTxDesc_poll (s : State) (i : Nat) (g : Seg) (c e : Bool) : (s.writeTxDesc i g c e).poll = s.poll := by simp [State.writeTxDesc]
@[simp] theorem writeTxDesc_ctl (s : State) (i : Nat) (g : Seg) (c e : Bool) : (s.writeTxDesc i g c e).ctl = s.ctl := by simp [State.writeTxDesc]
@[simp] theorem writeTxDesc_link (s : State) (i : Nat) (g : Seg) (c e : Bool) : (s.writeTxDesc i g c e).link = s.link := by simp [State.writeTxDesc]
@[simp] theorem writeTxDesc_csr (s : State) (i : Nat) (g : Seg) (c e : Bool) : (s.writeTxDesc i g c e).csr = s.csr := by simp [State.writeTxDesc]
@[simp] theorem writeTxDesc_imem (s : State) (i : Nat) (g : Seg) (c e : Bool) : (s.writeTxDesc i g c e).imem = s.imem := by simp [State.writeTxDesc]
@[simp] theorem writeTxDesc_dev (s : State) (i : Nat) (g : Seg) (c e : Bool) : (s.writeTxDesc i g c e).dev = s.dev := by simp [State.writeTxDesc]
@[simp] theorem writeTxDesc_env (s : State) (i : Nat) (g : Seg) (c e : Bool) : (s.writeTxDesc i g c e).env = s.env := by simp [State.writeTxDesc]
@[simp] theorem writeTxDesc_port (s : State) (i : Nat) (g : Seg) (c e : Bool) : (s.writeTxDesc i g c e).port = s.port := by simp [State.writeTxDesc]

/-! `writeRxDesc` writes memory only -/

@[simp] theorem writeRxDesc_par (s : State) (i : Nat) (b : Addr) : (s.writeRxDesc i b).par = s.par := by simp [State.writeRxDesc]
@[simp] theorem writeRxDesc_tx (s : State) (i : Nat) (b : Addr) : (s.writeRxDesc i b).tx = s.tx := by simp [State.writeRxDesc]
@[simp] theorem writeRxDesc_rx (s : State) (i : Nat) (b : Addr) : (s.writeRxDesc i b).rx = s.rx := by simp [State.writeRxDesc]
@[simp] theorem writeRxDesc_poll (s : State) (i : Nat) (b : Addr) : (s.writeRxDesc i b).poll = s.poll := by simp [State.writeRxDesc]
@[simp] theorem writeRxDesc_ctl (s : State) (i : Nat) (b : Addr) : (s.writeRxDesc i b).ctl = s.ctl := by simp [State.writeRxDesc]
@[simp] theorem writeRxDesc_link (s : State) (i : Nat) (b : Addr) : (s.writeRxDesc i b).link = s.link := by simp [State.writeRxDesc]
@[simp] theorem writeRxDesc_csr (s : State) (i : Nat) (b : Addr) : (s.writeRxDesc i b).csr = s.csr := by simp [State.writeRxDesc]
@[simp] theorem writeRxDesc_imem (s : State) (i : Nat) (b : Addr) : (s.writeRxDesc i b).imem = s.imem := by simp [State.writeRxDesc]
@[simp] theorem writeRxDesc_dev (s : State) (i : Nat) (b : Addr) : (s.writeRxDesc i b).dev = s.dev := by simp [State.writeRxDesc]
@[simp] theorem writeRxDesc_env (s : State) (i : Nat) (b : Addr) : (s.writeRxDesc i b).env = s.env := by simp [State.writeRxDesc]
@[simp] theorem writeRxDesc_port (s : State) (i : Nat) (b : Addr) : (s.writeRxDesc i b).port = s.port := by simp [State.writeRxDesc]

/-! `clearRxDescRest` writes memory only -/

@[simp] theorem clearRxDescRest_par (s : State) (i : Nat) : (s.clearRxDescRest i).par = s.par := by simp [State.clearRxDescRest]
@[simp] theorem clearRxDescRest_tx (s : State) (i : Nat) : (s.clearRxDescRest i).tx = s.tx := by simp [State.clearRxDescRest]
@[simp] theorem clearRxDescRest_rx (s : State) (i : Nat) : (s.clearRxDescRest i).rx = s.rx := by simp [State.clearRxDescRest]
@[simp] theorem clearRxDescRest_poll (s : State) (i : Nat) : (s.clearRxDescRest i).poll = s.poll := by simp [State.clearRxDescRest]
@[simp] theorem clearRxDescRest_ctl (s : State) (i : Nat) : (s.clearRxDescRest i).ctl = s.ctl := by simp [State.clearRxDescRest]
@[simp] theorem clearRxDescRest_link (s : State) (i : Nat) : (s.clearRxDescRest i).link = s.link := by simp [State.clearRxDescRest]
@[simp] theorem clearRxDescRest_csr (s : State) (i : Nat) : (s.clearRxDescRest i).csr = s.csr := by simp [State.clearRxDescRest]
@[simp] theorem clearRxDescRest_imem (s : State) (i : Nat) : (s.clearRxDescRest i).imem = s.imem := by simp [State.clearRxDescRest]
@[simp] theorem clearRxDescRest_dev (s : State) (i : Nat) : (s.clearRxDescRest i).dev = s.dev := by simp [State.clearRxDescRest]
@[simp] theorem clearRxDescRest_env (s : State) (i : Nat) : (s.clearRxDescRest i).env = s.env := by simp [State.clearRxDescRest]
@[simp] theorem clearRxDescRest_port (s : State) (i : Nat) : (s.clearRxDescRest i).port = s.port := by simp [State.clearRxDescRest]

/-! `writeRrDesc` writes memory only -/

@[simp] theorem writeRrDesc_par (s : State) (j slot len flags err : Nat) : (s.writeRrDesc j slot len flags err).par = s.par := by simp [State.writeRrDesc]
@[simp] theorem writeRrDesc_tx (s : State) (j slot len flags err : Nat) : (s.writeRrDesc j slot len flags err).tx = s.tx := by simp [State.writeRrDesc]
@[simp] theorem writeRrDesc_rx (s : State) (j slot len flags err : Nat) : (s.writeRrDesc j slot len flags err).rx = s.rx := by simp [State.writeRrDesc]
@[simp] theorem writeRrDesc_poll (s : State) (j slot len flags err : Nat) : (s.writeRrDesc j slot len flags err).poll = s.poll := by simp [State.writeRrDesc]
@[simp] theorem writeRrDesc_ctl (s : State) (j slot len flags err : Nat) : (s.writeRrDesc j slot len flags err).ctl = s.ctl := by simp [State.writeRrDesc]
@[simp] theorem writeRrDesc_link (s : State) (j slot len flags err : Nat) : (s.writeRrDesc j slot len flags err).link = s.link := by simp [State.writeRrDesc]
@[simp] theorem writeRrDesc_csr (s : State) (j slot len flags err : Nat) : (s.writeRrDesc j slot len flags err).csr = s.csr := by simp [State.writeRrDesc]
@[simp] theorem writeRrDesc_imem (s : State) (j slot len flags err : Nat) : (s.writeRrDesc j slot len flags err).imem = s.imem := by simp [State.writeRrDesc]
@[simp] theorem writeRrDesc_dev (s : State) (j slot len flags err : Nat) : (s.writeRrDesc j slot len flags err).dev = s.dev := by simp [State.writeRrDesc]
@[simp] theorem writeRrDesc_env (s : State) (j slot len flags err : Nat) : (s.writeRrDesc j slot len flags err).env = s.env := by simp [State.writeRrDesc]
@[simp] theorem writeRrDesc_port (s : State) (j slot len flags err : Nat) : (s.writeRrDesc j slot len flags err).port = s.port := by simp [State.writeRrDesc]

end Sys2Proof.Machine
end

