-- ==== Sys2Proof/Laws/Memory.lean ====
section
/-! SUPPORT. The laws of the sparse memories: read after write, writes elsewhere, and the canonical form kept by every memory
operation (20_memory.md R81, R84). -/

namespace Sys2Proof.Machine

/-! ## One cell -/

theorem cellGet_cellSet_same {α : Type} (m : List (Nat × α)) (a : Nat) (v : α) : cellGet (cellSet m a v) a = some v := by
  induction m with
  | nil => simp [cellSet, cellGet]
  | cons e rest ih =>
    obtain ⟨k, w⟩ := e
    simp only [cellSet]
    split
    · simp [cellGet]
    · split
      · simp [cellGet]
      · rename_i h; simp [cellGet, h, ih]

theorem cellGet_cellSet_other {α : Type} (m : List (Nat × α)) (a b : Nat) (v : α) (hne : b ≠ a) :
    cellGet (cellSet m a v) b = cellGet m b := by
  induction m with
  | nil => simp [cellSet, cellGet, hne]
  | cons e rest ih =>
    obtain ⟨k, w⟩ := e
    simp only [cellSet]
    split
    · simp [cellGet, hne]
    · split
      · rename_i h; subst h; simp [cellGet, hne]
      · simp [cellGet, ih]

/-- Every key of a canonical list is at least the first. -/
theorem canonical_tail {α : Type} {e : Nat × α} {m : List (Nat × α)} (h : canonical (e :: m) = true) : canonical m = true := by
  cases m with
  | nil => rfl
  | cons f rest => simp [canonical] at h; exact h.2

theorem canonical_cons_of_lt {α : Type} {k : Nat} {v : α} {m : List (Nat × α)} (hm : canonical m = true)
    (hk : ∀ e ∈ m.head?, k < e.1) : canonical ((k, v) :: m) = true := by
  cases m with
  | nil => rfl
  | cons f rest => simp [canonical] at hm ⊢; exact ⟨hk f (by simp), hm⟩

theorem head_of_canonical {α : Type} {k : Nat} {v : α} {m : List (Nat × α)} (h : canonical ((k, v) :: m) = true) :
    ∀ e ∈ m.head?, k < e.1 := by
  cases m with
  | nil => simp
  | cons f rest => simp [canonical] at h; simpa using h.1

theorem head_cellSet {α : Type} (m : List (Nat × α)) (a : Nat) (v : α) :
    ∀ e ∈ (cellSet m a v).head?, e.1 = a ∨ ∃ f ∈ m.head?, e.1 = f.1 := by
  cases m with
  | nil => simp [cellSet]
  | cons f rest =>
    obtain ⟨k, w⟩ := f
    simp only [cellSet]
    split
    · simp
    · split <;> simp

/-- A store keeps the canonical form. -/
theorem canonical_cellSet {α : Type} (m : List (Nat × α)) (a : Nat) (v : α) (h : canonical m = true) :
    canonical (cellSet m a v) = true := by
  induction m with
  | nil => rfl
  | cons e rest ih =>
    obtain ⟨k, w⟩ := e
    simp only [cellSet]
    split
    · exact canonical_cons_of_lt h (by simpa)
    · split
      · rename_i hak; subst hak
        exact canonical_cons_of_lt (canonical_tail h) (head_of_canonical h)
      · refine canonical_cons_of_lt (ih (canonical_tail h)) fun e he => ?_
        rcases head_cellSet rest a v e he with h1 | ⟨f, hf, h1⟩
        · omega
        · exact h1 ▸ head_of_canonical h f hf

/-! ## Bytes and little-endian access -/

theorem byteAt_cellSet (m : List Host.Cell) (a b : Nat) (v : Byte) :
    Memory.byteAt (cellSet m a v) b = if b = a then v else Memory.byteAt m b := by
  unfold Memory.byteAt
  split
  · next h => subst h; simp [cellGet_cellSet_same]
  · next h => rw [cellGet_cellSet_other _ _ _ _ h]

/-- Every byte after a store: byte `k` of the value at `a + k`, all others as before. -/
theorem byteAt_writeLE (m : List Host.Cell) (a n v b : Nat) :
    Memory.byteAt (Memory.writeLE m a n v) b =
      if a ≤ b ∧ b < a + n then BitVec.ofNat 8 (v / 256 ^ (b - a)) else Memory.byteAt m b := by
  induction n generalizing m a v with
  | zero =>
    have : ¬ (a ≤ b ∧ b < a + 0) := by omega
    simp only [Memory.writeLE, if_neg this]
  | succ n ih =>
    rw [Memory.writeLE, ih, byteAt_cellSet]
    by_cases h1 : b = a
    · subst h1
      rw [if_neg (by omega), if_pos rfl, if_pos (by omega)]
      simp
    · by_cases h2 : a ≤ b ∧ b < a + (n + 1)
      · rw [if_pos (by omega), if_pos h2, Nat.div_div_eq_div_mul, ← Nat.pow_succ']
        congr 3; omega
      · rw [if_neg (by omega), if_neg h1, if_neg h2]

/-- A store leaves every byte outside it alone. -/
theorem writeLE_sameOutside (m : List Host.Cell) (a n v : Nat) : sameOutside m (Memory.writeLE m a n v) a n := by
  intro b hb
  rw [byteAt_writeLE, if_neg (by unfold outside at hb; omega)]

/-- A store keeps the canonical form of memory. -/
theorem writeLE_wf (m : List Host.Cell) (a n v : Nat) (h : Memory.wf m) : Memory.wf (Memory.writeLE m a n v) := by
  induction n generalizing m a v with
  | zero => exact h
  | succ n ih => exact ih _ _ _ (canonical_cellSet m a _ h)

/-- Reading depends on the bytes read only. -/
theorem readLE_congr {m m' : List Host.Cell} (a n : Nat)
    (h : ∀ b, a ≤ b → b < a + n → Memory.byteAt m b = Memory.byteAt m' b) : Memory.readLE m a n = Memory.readLE m' a n := by
  induction n generalizing a with
  | zero => rfl
  | succ n ih => rw [Memory.readLE, Memory.readLE, h a (by omega) (by omega), ih (a + 1) fun b h1 h2 => h b (by omega) (by omega)]

theorem readLE_lt (m : List Host.Cell) (a n : Nat) : Memory.readLE m a n < 256 ^ n := by
  induction n generalizing a with
  | zero => simp [Memory.readLE]
  | succ n ih =>
    have h1 := (Memory.byteAt m a).isLt
    have h2 := ih (a + 1)
    rw [Memory.readLE, Nat.pow_succ]
    omega

/-- A read of `k + n` bytes is the read of the low `k` and of the high `n`. -/
theorem readLE_add (m : List Host.Cell) (a k n : Nat) :
    Memory.readLE m a (k + n) = Memory.readLE m a k + 256 ^ k * Memory.readLE m (a + k) n := by
  induction k generalizing a with
  | zero => simp [Memory.readLE]
  | succ k ih =>
    rw [Nat.succ_add, Memory.readLE, ih, Memory.readLE, Nat.pow_succ, show a + 1 + k = a + (k + 1) by omega]
    ring

/-- Read after write at the same place gives the value, cut to its width. -/
theorem readLE_writeLE_same (m : List Host.Cell) (a n v : Nat) :
    Memory.readLE (Memory.writeLE m a n v) a n = v % 256 ^ n := by
  induction n generalizing m a v with
  | zero => simp [Memory.readLE, Nat.mod_one]
  | succ n ih =>
    rw [Memory.readLE, byteAt_writeLE, if_pos (by omega), Memory.writeLE, ih, Nat.pow_succ', Nat.mod_mul]
    simp

/-- Read after write at a disjoint place gives what was there. -/
theorem readLE_writeLE_apart (m : List Host.Cell) (a n v b k : Nat) (h : b + k ≤ a ∨ a + n ≤ b) :
    Memory.readLE (Memory.writeLE m a n v) b k = Memory.readLE m b k :=
  readLE_congr b k fun c h1 h2 => writeLE_sameOutside m a n v c (by unfold outside; omega)

/-- A read inside a zeroed range is 0. -/
theorem readLE_eq_zero (m : List Host.Cell) (a n : Nat) (h : ∀ b, a ≤ b → b < a + n → Memory.byteAt m b = 0) :
    Memory.readLE m a n = 0 := by
  induction n generalizing a with
  | zero => rfl
  | succ n ih => simp [Memory.readLE, h a (by omega) (by omega), ih (a + 1) fun b h1 h2 => h b (by omega) (by omega)]

theorem sameOutside_trans {m m' m'' : List Host.Cell} {a n : Nat} (h : sameOutside m m' a n) (h' : sameOutside m' m'' a n) :
    sameOutside m m'' a n := fun b hb => (h' b hb).trans (h b hb)

theorem sameOutside_mono {m m' : List Host.Cell} {a n b k : Nat} (h : sameOutside m m' a n) (hb : b ≤ a)
    (hn : a + n ≤ b + k) : sameOutside m m' b k := fun c hc => h c (by unfold outside at *; omega)

theorem readLE_sameOutside {m m' : List Host.Cell} {a n : Nat} (h : sameOutside m m' a n) (b k : Nat)
    (hd : b + k ≤ a ∨ a + n ≤ b) : Memory.readLE m' b k = Memory.readLE m b k :=
  readLE_congr b k fun c h1 h2 => h c (by unfold outside; omega)

/-! ## Canonical form of the machine's memories -/

theorem memWrite_wf (s : State) (a n v : Nat) (h : Memory.wf s.mem) : Memory.wf (s.memWrite a n v).mem := writeLE_wf _ _ _ _ h

theorem imemWrite_canonical (s : State) (j : Nat) (v : Word) (h : canonical s.imem = true) :
    canonical (s.imemWrite j v).imem = true := canonical_cellSet _ _ _ h

theorem reset_memory_wf : Memory.wf State.reset.mem ∧ canonical State.reset.imem = true := ⟨rfl, rfl⟩

end Sys2Proof.Machine
end

