-- ==== Sys2Proof/Laws/Ring.lean ====
section
/-! SUPPORT. Ring index arithmetic (00_scope.md R10), slot addresses (20_memory.md R82, R83) and what a doorbell does
(40_register_access.md R135, 46_environment_agents.md R237). -/

namespace Sys2Proof

theorem Params.n_pos (p : Params) : 0 < p.n := Nat.two_pow_pos _

theorem Params.Legal.two_le_n {p : Params} (h : p.Legal) : 2 ≤ p.n := by
  calc 2 = 2 ^ 1 := rfl
    _ ≤ 2 ^ p.logn := Nat.pow_le_pow_right (by omega) h.logn_pos

theorem Params.Legal.n_le {p : Params} (h : p.Legal) : p.n ≤ 32768 := by
  calc p.n = 2 ^ p.logn := rfl
    _ ≤ 2 ^ 15 := Nat.pow_le_pow_right (by omega) h.logn_le

namespace Machine

/-! ## Indices -/

theorem wrap_lt (p : Params) (i : Nat) : wrap p i < p.n := Nat.mod_lt _ p.n_pos

theorem wrap_of_lt {p : Params} {i : Nat} (h : i < p.n) : wrap p i = i := Nat.mod_eq_of_lt h

/-- Reduction by remainder is the masking of the spec. -/
theorem wrap_eq_and_mask (p : Params) (i : Nat) : wrap p i = i &&& (p.n - 1) := by
  simp [wrap, Params.n, Nat.and_two_pow_sub_one_eq_mod]

theorem ringInc_eq (p : Params) (i : Nat) : ringInc p i = (i + 1) % p.n := rfl

theorem ringAdd_eq (p : Params) (i k : Nat) : ringAdd p i k = (i + k) % p.n := rfl

theorem ringDist_eq {p : Params} {b : Nat} (a : Nat) (h : b < p.n) : ringDist p a b = (a + p.n - b) % p.n := by
  rw [ringDist, wrap_of_lt h, wrap]; congr 1; omega

theorem ringDist_lt (p : Params) (a b : Nat) : ringDist p a b < p.n := wrap_lt p _

theorem ringDist_self {p : Params} {a : Nat} (h : a < p.n) : ringDist p a a = 0 := by
  rw [ringDist_eq _ h]; simp

theorem ringInc_lt (p : Params) (i : Nat) : ringInc p i < p.n := wrap_lt p _

/-- Moving on by one and then by `k` is moving on by `k + 1`. -/
theorem inc_add_mod (p : Params) (i k : Nat) : (ringInc p i + k) % p.n = (i + (k + 1)) % p.n := by
  rw [ringInc_eq, Nat.mod_add_mod]; congr 1; omega

/-- Slots less than a lap apart are different. -/
theorem slot_ne_of_lt {n i j k : Nat} (hjk : j < k) (hk : k < j + n) : (i + j) % n ≠ (i + k) % n := by
  intro h
  have h2 := Nat.sub_mod_eq_zero_of_mod_eq h.symm
  rw [show i + k - (i + j) = k - j by omega, Nat.mod_eq_of_lt (by omega)] at h2
  omega

/-! ## Slot addresses -/

/-- A TX descriptor lies inside its region. -/
theorem txDesc_inside {p : Params} {i : Nat} (h : i < p.n) :
    p.txBase ≤ txDescAddr p i ∧ txDescAddr p i + 16 ≤ p.txBase + 16 * p.n := by
  simp only [txDescAddr]; omega

theorem rxDesc_inside {p : Params} {i : Nat} (h : i < p.n) :
    p.rxBase ≤ rxDescAddr p i ∧ rxDescAddr p i + 16 ≤ p.rxBase + 16 * p.n := by
  simp only [rxDescAddr]; omega

theorem rrDesc_inside {p : Params} {i : Nat} (h : i < p.n) :
    p.rrBase ≤ rrDescAddr p i ∧ rrDescAddr p i + 8 ≤ p.rrBase + 8 * p.n := by
  simp only [rrDescAddr]; omega

/-- The four regions share no byte (20_memory.md R82). -/
theorem Regions.apart {p : Params} (h : p.Legal) :
    disjointRanges p.txBase (16 * p.n) p.rxBase (16 * p.n) ∧ disjointRanges p.txBase (16 * p.n) p.rrBase (8 * p.n) ∧
    disjointRanges p.txBase (16 * p.n) p.sbBase 8 ∧ disjointRanges p.rxBase (16 * p.n) p.rrBase (8 * p.n) ∧
    disjointRanges p.rxBase (16 * p.n) p.sbBase 8 ∧ disjointRanges p.rrBase (8 * p.n) p.sbBase 8 := by
  have := h.regions_apart
  simp only [Params.regions, List.pairwise_cons, List.mem_cons, List.not_mem_nil, or_false, forall_eq_or_imp, forall_eq] at this
  exact ⟨this.1.1, this.1.2.1, this.1.2.2, this.2.1.1, this.2.1.2, this.2.2.1⟩

/-! ## Doorbells -/

theorem low16_ofNat {i : Nat} (h : i < 65536) :
    ((BitVec.ofNat 32 i).setWidth 16).setWidth 32 = BitVec.ofNat 32 i ∧ ((BitVec.ofNat 32 i).setWidth 16).toNat = i := by
  constructor
  · apply BitVec.eq_of_toNat_eq; simp; omega
  · simp; omega

/-- A doorbell with the TX producer index. -/
theorem ringDoorbell_tx (s : State) {i : Nat} (hi : i < s.par.n) (hn : s.par.n ≤ 32768) (hs : s.dev.txSeen < s.par.n) :
    ringDoorbell s .mbTxProd (BitVec.ofNat 32 i) =
      { s with csr := { s.csr with mbTxProd := BitVec.ofNat 32 i }, dev := txRung s.par s.dev i } := by
  have h := low16_ofNat (i := i) (by omega)
  simp only [ringDoorbell, storeMailbox, devDoorbell, h.1, h.2, wrap_of_lt hi, txRung, ringDist_eq _ hs]
  split <;> rfl

/-- A doorbell with the RX producer index. -/
theorem ringDoorbell_rx (s : State) {i : Nat} (hi : i < s.par.n) (hn : s.par.n ≤ 32768) (hs : s.dev.rxSeen < s.par.n) :
    ringDoorbell s .mbRxProd (BitVec.ofNat 32 i) =
      { s with csr := { s.csr with mbRxProd := BitVec.ofNat 32 i }, dev := rxRung s.par s.dev i } := by
  have h := low16_ofNat (i := i) (by omega)
  simp only [ringDoorbell, storeMailbox, devDoorbell, h.1, h.2, wrap_of_lt hi, rxRung, ringDist_eq _ hs]
  split <;> rfl

/-- A doorbell with the RX-return consumer index. -/
theorem ringDoorbell_rr (s : State) {i : Nat} (hi : i < s.par.n) (hn : s.par.n ≤ 32768) :
    ringDoorbell s .mbRrCons (BitVec.ofNat 32 i) =
      { s with csr := { s.csr with mbRrCons := BitVec.ofNat 32 i }, dev := rrRung s.dev i } := by
  have h := low16_ofNat (i := i) (by omega)
  simp only [ringDoorbell, storeMailbox, devDoorbell, h.1, h.2, wrap_of_lt hi, rrRung]
  split <;> rfl

theorem rxRung_seen_lt {p : Params} {d : Device} {v : Nat} (hv : v < p.n) (hs : d.rxSeen < p.n) : (rxRung p d v).rxSeen < p.n := by
  unfold rxRung; split <;> assumption

/-- `rx_repost` (41_ring_manager.md R149): the producer index moves on by one and is rung. -/
theorem rxRepost_eq (s : State) (hn : s.par.n ≤ 32768) (hs : s.dev.rxSeen < s.par.n) :
    rxRepost s = { s with
      rx := { s.rx with prod := (s.rx.prod + 1) % s.par.n }
      csr := { s.csr with mbRxProd := BitVec.ofNat 32 ((s.rx.prod + 1) % s.par.n) }
      dev := rxRung s.par s.dev ((s.rx.prod + 1) % s.par.n) } := by
  rw [rxRepost, ringDoorbell_rx]
  · rfl
  · exact ringInc_lt _ _
  · exact hn
  · exact hs

end Machine

end Sys2Proof
end

