-- ==== Sys2Proof/Laws/Receive.lean ====
section
/-! SUPPORT. What the allocator and the shared operations of the receive rings do, once each (46_environment_agents.md R246,
41_ring_manager.md R147 to R153). -/

namespace Sys2Proof.Machine

/-! ## The allocator -/

theorem mem_liveInsert (b : Addr) (live : List Addr) (x : Addr) : x ∈ liveInsert b live ↔ x = b ∨ x ∈ live := by
  induction live with
  | nil => simp [liveInsert]
  | cons y rest ih =>
    simp only [liveInsert]
    split
    · simp
    · split
      · next h => subst h; simp
      · simp only [List.mem_cons, ih]; tauto

theorem liveInsert_sorted (b : Addr) (live : List Addr) (h : live.Pairwise fun x y => x.toNat < y.toNat) :
    (liveInsert b live).Pairwise fun x y => x.toNat < y.toNat := by
  induction live with
  | nil => simp [liveInsert]
  | cons y rest ih =>
    rw [List.pairwise_cons] at h
    simp only [liveInsert]
    split
    · next hb =>
      rw [List.pairwise_cons]
      refine ⟨fun z hz => ?_, List.pairwise_cons.2 h⟩
      rcases List.mem_cons.1 hz with rfl | hz
      · exact hb
      · exact Nat.lt_trans hb (h.1 z hz)
    · next hb =>
      split
      · exact List.pairwise_cons.2 h
      · next hne =>
        rw [List.pairwise_cons]
        refine ⟨fun z hz => ?_, ih h.2⟩
        rcases (mem_liveInsert b rest z).1 hz with rfl | hz
        · have : z.toNat ≠ y.toNat := fun h => hne (BitVec.eq_of_toNat_eq h)
          omega
        · exact h.1 z hz

/-- Putting a buffer in and taking it out again leaves what was there. -/
theorem filter_liveInsert (b : Addr) (live : List Addr) (p : Addr → Bool) (hp : p b = false) :
    (liveInsert b live).filter p = live.filter p := by
  induction live with
  | nil => simp [liveInsert, hp]
  | cons y rest ih =>
    simp only [liveInsert]
    split
    · simp [hp]
    · split
      · rfl
      · simp [List.filter_cons, ih]

theorem epochInsert_perm (e : Word) (l : List Word) : (epochInsert e l).Perm (e :: l) := by
  induction l with
  | nil => exact List.Perm.refl _
  | cons x rest ih =>
    simp only [epochInsert]
    split
    · exact List.Perm.refl _
    · exact (ih.cons x).trans (List.Perm.swap _ _ _)

/-- Whether a buffer is fresh depends on the members of `live` only. -/
theorem freshBuffer_congr {p : Params} {live live' : List Addr} (b : Addr) (h : ∀ x, x ∈ live ↔ x ∈ live') :
    freshBuffer p live b = freshBuffer p live' b := by
  have : (live.all fun x => decide (disjointRanges b.toNat p.bufcap x.toNat p.bufcap)) =
      live'.all fun x => decide (disjointRanges b.toNat p.bufcap x.toNat p.bufcap) := by
    rw [Bool.eq_iff_iff, List.all_eq_true, List.all_eq_true]
    exact ⟨fun hl x hx => hl x ((h x).2 hx), fun hl x hx => hl x ((h x).1 hx)⟩
  simp only [freshBuffer, this]

/-- A fresh buffer is not live. -/
theorem freshBuffer_not_live {p : Params} {live : List Addr} {b : Addr} (hc : 1 ≤ p.bufcap) (h : freshBuffer p live b = true) :
    b ∉ live := by
  intro hb
  simp only [freshBuffer, Bool.and_eq_true, List.all_eq_true, decide_eq_true_eq] at h
  have := h.2 b hb
  unfold disjointRanges at this
  omega

/-- `Alloc()` answers a fresh buffer and puts it into `live`, or answers none; either way it has been called once more. -/
theorem alloc_cases (s : State) :
    (∃ b, freshBuffer s.par s.env.live b = true ∧ alloc s = (s.countCall.addLive b, some b)) ∨ alloc s = (s.countCall, none) := by
  unfold alloc
  split
  · next b _ =>
    by_cases h : freshBuffer s.par s.env.live b = true
    · exact .inl ⟨b, h, by rw [if_pos h]⟩
    · exact .inr (by rw [if_neg h])
  · exact .inr rfl

theorem alloc_some (s : State) (b : Addr) (rest : List (Option Addr)) (ha : s.env.allocIn = some b :: rest)
    (hf : freshBuffer s.par s.env.live b = true) : alloc s = (s.countCall.addLive b, some b) := by
  simp [alloc, State.oracle, ha, hf]

theorem alloc_none (s : State) (rest : List (Option Addr)) (ha : s.env.allocIn = none :: rest) : alloc s = (s.countCall, none) := by
  simp [alloc, State.oracle, ha]

/-! ## Descriptors -/

theorem writeRxDesc_mem (s : State) (i : Nat) (b : Addr) :
    (s.writeRxDesc i b).mem =
      Memory.writeLE (Memory.writeLE s.mem (rxDescAddr s.par i) 8 b.toNat) (rxDescAddr s.par i + 8) 2 s.par.bufcap := by
  simp [State.writeRxDesc]

/-- An RX descriptor that names a buffer with capacity `BUFCAP` (20_memory.md R86). -/
structure RxDescIs (p : Params) (m : List Host.Cell) (i : Nat) (b : Addr) : Prop where
  addr : Memory.readLE m (rxDescAddr p i) 8 = b.toNat
  cap  : Memory.readLE m (rxDescAddr p i + 8) 2 = p.bufcap

theorem RxDescIs.of_same {p : Params} {m m' : List Host.Cell} {i : Nat} {b : Addr} (h : RxDescIs p m i b)
    (hs : ∀ a, rxDescAddr p i ≤ a → a < rxDescAddr p i + 10 → Memory.byteAt m' a = Memory.byteAt m a) : RxDescIs p m' i b where
  addr := (readLE_congr _ _ fun a _ _ => hs a (by omega) (by omega)).trans h.addr
  cap  := (readLE_congr _ _ fun a _ _ => hs a (by omega) (by omega)).trans h.cap

theorem writeRxDesc_reads (s : State) (i : Nat) (b : Addr) (hb : s.par.bufcap < 65536) :
    RxDescIs s.par (s.writeRxDesc i b).mem i b := by
  have h := b.isLt
  constructor <;> rw [writeRxDesc_mem]
  · rw [readLE_writeLE_apart _ _ _ _ _ _ (by omega), readLE_writeLE_same]
    exact Nat.mod_eq_of_lt (by omega)
  · rw [readLE_writeLE_same]
    exact Nat.mod_eq_of_lt (by omega)

theorem writeRxDesc_sameOutside (s : State) (i : Nat) (b : Addr) :
    sameOutside s.mem (s.writeRxDesc i b).mem (rxDescAddr s.par i) 10 := by
  intro a ha
  unfold outside at ha
  rw [writeRxDesc_mem, byteAt_writeLE, if_neg (by omega), byteAt_writeLE, if_neg (by omega)]

theorem writeRxDesc_wf (s : State) (i : Nat) (b : Addr) (h : Memory.wf s.mem) : Memory.wf (s.writeRxDesc i b).mem := by
  rw [writeRxDesc_mem]; exact writeLE_wf _ _ _ _ (writeLE_wf _ _ _ _ h)

/-! ## Posting and refilling -/

/-- The rings after one more receive post, with everything else as it is. -/
def State.posted (s : State) : State :=
  { s with
    rx := { s.rx with prod := (s.rx.prod + 1) % s.par.n }
    csr := { s.csr with mbRxProd := BitVec.ofNat 32 ((s.rx.prod + 1) % s.par.n) }
    dev := rxRung s.par s.dev ((s.rx.prod + 1) % s.par.n) }

theorem rxRepost_eq_posted (s : State) (hn : s.par.n ≤ 32768) (hs : s.dev.rxSeen < s.par.n) : rxRepost s = s.posted :=
  rxRepost_eq s hn hs

/-- `rx_post(i, b)`: the descriptor, the slot, the post; nothing else. -/
theorem rxPost_spec (s : State) (i : Nat) (b : Addr) (hn : s.par.n ≤ 32768) (hs : s.dev.rxSeen < s.par.n)
    (hb : s.par.bufcap < 65536) :
    ∃ m : List Host.Cell,
      rxPost s i b = State.posted { s with rx := { s.rx with slot := s.rx.slot.set i (some b) }, mem := m } ∧
      RxDescIs s.par m i b ∧ Memory.readLE m (rxDescAddr s.par i + 10) 6 = 0 ∧ sameOutside s.mem m (rxDescAddr s.par i) 16 ∧
      (Memory.wf s.mem → Memory.wf m) := by
  obtain ⟨m, hm⟩ : ∃ m, m = ((s.writeRxDesc i b).clearRxDescRest i).mem := ⟨_, rfl⟩
  have hm' : m = Memory.writeLE (Memory.writeLE (s.writeRxDesc i b).mem (rxDescAddr s.par i + 10) 2 0) (rxDescAddr s.par i + 12)
      4 0 := by rw [hm]; simp [State.clearRxDescRest]
  have hsame : sameOutside (s.writeRxDesc i b).mem m (rxDescAddr s.par i + 10) 6 := by
    intro a ha
    unfold outside at ha
    rw [hm', byteAt_writeLE, if_neg (by omega), byteAt_writeLE, if_neg (by omega)]
  refine ⟨m, ?_, ?_, ?_, ?_, ?_⟩
  · have h : ((s.writeRxDesc i b).clearRxDescRest i).setRxSlot i (some b) =
        { s with rx := { s.rx with slot := s.rx.slot.set i (some b) }, mem := m } := by
      rw [hm]; simp [State.setRxSlot, State.clearRxDescRest, State.writeRxDesc, State.memWrite]
    rw [rxPost, h, rxRepost_eq_posted]
    · exact hn
    · exact hs
  · exact (writeRxDesc_reads s i b hb).of_same fun a h1 h2 => hsame a (by unfold outside; omega)
  · refine readLE_eq_zero _ _ _ fun a h1 h2 => ?_
    rw [hm', byteAt_writeLE]
    split
    · simp
    · rw [byteAt_writeLE, if_pos (by omega)]; simp
  · exact sameOutside_trans (sameOutside_mono (writeRxDesc_sameOutside s i b) (by omega) (by omega))
      (sameOutside_mono hsame (by omega) (by omega))
  · intro h
    rw [hm']; exact writeLE_wf _ _ _ _ (writeLE_wf _ _ _ _ (writeRxDesc_wf s i b h))

/-- `rx_refill(i)`: the slot and its descriptor take a fresh buffer and the old one comes out, or the failure is counted; either
way the allocator has been called once and the slot posted once. -/
theorem rxRefill_cases (s : State) (i : Nat) (hn : s.par.n ≤ 32768) (hs : s.dev.rxSeen < s.par.n) (hb : s.par.bufcap < 65536) :
    (∃ (nb : Addr) (m : List Host.Cell), freshBuffer s.par s.env.live nb = true ∧ alloc s = (s.countCall.addLive nb, some nb) ∧
      rxRefill s i = (State.posted { s with rx := { s.rx with slot := s.rx.slot.set i (some nb) }, mem := m,
                                            env := (s.countCall.addLive nb).env }, some (s.bufferOf i)) ∧
      RxDescIs s.par m i nb ∧ sameOutside s.mem m (rxDescAddr s.par i) 10 ∧ (Memory.wf s.mem → Memory.wf m)) ∨
    (alloc s = (s.countCall, none) ∧
      rxRefill s i = (State.posted { s with ctl := { s.ctl with cntRxNobuf := s.ctl.cntRxNobuf + 1 }, env := s.countCall.env },
        none)) := by
  rcases alloc_cases s with ⟨nb, hf, ha⟩ | ha
  · refine .inl ⟨nb, (s.writeRxDesc i nb).mem, hf, ha, ?_, writeRxDesc_reads s i nb hb, writeRxDesc_sameOutside s i nb,
      writeRxDesc_wf s i nb⟩
    have h : ((s.countCall.addLive nb).writeRxDesc i nb).setRxSlot i (some nb) =
        { s with rx := { s.rx with slot := s.rx.slot.set i (some nb) }, mem := (s.writeRxDesc i nb).mem,
                 env := (s.countCall.addLive nb).env } := by
      simp [State.setRxSlot, State.writeRxDesc, State.memWrite, State.countCall, State.addLive]
    unfold rxRefill
    rw [ha]
    dsimp only
    rw [h, rxRepost_eq_posted]
    · rfl
    · exact hn
    · exact hs
  · refine .inr ⟨ha, ?_⟩
    unfold rxRefill
    rw [ha]
    dsimp only
    rw [rxRepost_eq_posted]
    · rfl
    · exact hn
    · exact hs

/-! ## Draining -/

/-- What one return descriptor handled leaves, whatever the allocator answers: one post, the cursor on by one, the drop or the
failure counted, at most the named slot and its descriptor changed. -/
structure DrainedOne (s t : State) (e : Drained) (j : Nat) : Prop where
  frame : t = { s with
    rx := { prod := (s.rx.prod + 1) % s.par.n, slot := t.rx.slot, rrCons := (j + 1) % s.par.n }
    ctl := { s.ctl with cntRxDrop := if s.rrErr j ≠ 0 then s.ctl.cntRxDrop + 1 else s.ctl.cntRxDrop,
                        cntRxNobuf := match e with | .noBuf _ => s.ctl.cntRxNobuf + 1 | _ => s.ctl.cntRxNobuf }
    csr := { s.csr with mbRxProd := BitVec.ofNat 32 ((s.rx.prod + 1) % s.par.n) }
    dev := rxRung s.par s.dev ((s.rx.prod + 1) % s.par.n)
    env := { s.env with live := t.env.live, allocIn := t.env.allocIn, allocCalls := t.env.allocCalls }
    mem := t.mem }
  entry : if s.rrErr j ≠ 0 then e = .dropped (BitVec.ofNat 16 (s.rrSlot j)) (s.rrErr j)
          else e = .noBuf (BitVec.ofNat 16 (s.rrSlot j)) ∨ e = .filled (s.bufferOf (s.rrSlot j)) (s.rrLen j) (s.rrFlags j)
  slots : ∀ i, i ≠ s.rrSlot j → t.rx.slot[i]? = s.rx.slot[i]?
  len   : t.rx.slot.length = s.rx.slot.length
  bytes : sameOutside s.mem t.mem (rxDescAddr s.par (s.rrSlot j)) 10
  wf    : Memory.wf s.mem → Memory.wf t.mem

theorem drainOne_spec (s : State) (hn : s.par.n ≤ 32768) (hs : s.dev.rxSeen < s.par.n) (hb : s.par.bufcap < 65536) :
    DrainedOne s (drainOne s).1 (drainOne s).2 s.rx.rrCons := by
  unfold drainOne
  by_cases he : s.rrErr s.rx.rrCons = 0
  · rcases rxRefill_cases s (s.rrSlot s.rx.rrCons) hn hs hb with ⟨nb, m, hf, ha, hr, hd, hm, hw⟩ | ⟨ha, hr⟩
    · simp only [he, bne_self_eq_false, Bool.false_eq_true, if_false, hr]
      constructor
      · simp [State.posted, he, ringInc_eq, State.countCall, State.addLive]
      · simp [he]
      · intro i hi; simp [State.posted, Ne.symm hi]
      · simp [State.posted]
      · exact hm
      · exact hw
    · simp only [he, bne_self_eq_false, Bool.false_eq_true, if_false, hr]
      constructor
      · simp [State.posted, he, ringInc_eq, State.countCall]
      · simp [he]
      · intro i hi; rfl
      · rfl
      · intro a _; rfl
      · exact id
  · have hne : (s.rrErr s.rx.rrCons != 0) = true := by simpa using he
    simp only [hne, if_true]
    have hr := rxRepost_eq_posted { s with ctl := { s.ctl with cntRxDrop := s.ctl.cntRxDrop + 1 } } hn hs
    have he' : ¬ s.rrErr s.rx.rrCons = 0#16 := he
    rw [hr]
    constructor
    · simp [State.posted, he', ringInc_eq]
    · simp [he']
    · intro i hi; rfl
    · rfl
    · intro a _; rfl
    · exact id

/-- A walk over `c` descriptors is the walk over the first and then over the rest. -/
theorem drainLoop_succ (c : Nat) (s : State) :
    drainLoop (c + 1) s = ((drainLoop c (drainOne s).1).1, (drainOne s).2 :: (drainLoop c (drainOne s).1).2) := rfl

/-- One entry per descriptor. -/
theorem drainLoop_length (c : Nat) (s : State) : (drainLoop c s).2.length = c := by
  induction c generalizing s with
  | zero => rfl
  | succ c ih => rw [drainLoop_succ, List.length_cons, ih]

/-- A walk that has nothing to do does nothing. -/
theorem rrDrain_nothing (s : State) (idx : Nat) (hc : s.rx.rrCons < s.par.n) (h : wrap s.par idx = s.rx.rrCons) :
    rrDrain s idx = (s, some []) := by
  simp [rrDrain, h, ringDist_self hc, prescanOk, returnedSlots, drainLoop]

theorem returnedSlots_nodup (s : State) (c : Nat) :
    (returnedSlots s c).Nodup ↔ ∀ j k, j < k → k < c → batchSlot s j ≠ batchSlot s k := by
  rw [List.nodup_iff_pairwise_ne, returnedSlots, List.pairwise_map, List.pairwise_iff_getElem]
  constructor
  · intro h j k hjk hk
    have hj : j < (List.range c).length := by rw [List.length_range]; omega
    have hk' : k < (List.range c).length := by rw [List.length_range]; exact hk
    have := h j k hj hk' hjk
    rwa [List.getElem_range, List.getElem_range] at this
  · intro h j k hj hk hjk
    rw [List.getElem_range, List.getElem_range]
    exact h j k hjk (by simpa using hk)

/-- The prescan of the model is the prescan of the spec: every slot number below `N`, none twice (41_ring_manager.md R152). -/
theorem prescanOk_iff (s : State) (c : Nat) : prescanOk s c = true ↔ goodBatch s c := by
  rw [prescanOk, Bool.and_eq_true, decide_eq_true_iff, returnedSlots_nodup, goodBatch]
  simp [returnedSlots, batchSlot, ringAdd_eq]

end Sys2Proof.Machine
end

