-- ==== Sys2Proof/Laws/Drain.lean ====
section
/-! SUPPORT. What the walk over a batch of return descriptors leaves, in closed form, for every behaviour of the allocator
(41_ring_manager.md R150 to R153, 46_environment_agents.md R237, R246). -/

namespace Sys2Proof.Machine

/-! ## Sequences of allocator calls -/

/-- An allocator call depends on the parameters and the environment's lists only. -/
theorem alloc_congr {s t : State} (hp : t.par = s.par) (he : t.env = s.env) :
    (alloc t).2 = (alloc s).2 ∧ (alloc t).1.env = (alloc s).1.env := by
  have ho : t.oracle = s.oracle := by simp only [State.oracle, he]
  unfold alloc
  rw [ho, hp, he]
  split
  · split
    · simp [State.countCall, State.addLive, he]
    · simp [State.countCall, he]
  · simp [State.countCall, he]

@[simp] theorem alloc_par (s : State) : (alloc s).1.par = s.par := by
  rcases alloc_cases s with ⟨b, _, h⟩ | h <;> rw [h] <;> rfl

/-- So does a sequence of them. -/
theorem afterAllocs_congr (k : Nat) {s t : State} (hp : t.par = s.par) (he : t.env = s.env) :
    (afterAllocs k t).par = (afterAllocs k s).par ∧ (afterAllocs k t).env = (afterAllocs k s).env := by
  induction k generalizing s t with
  | zero => exact ⟨hp, he⟩
  | succ k ih => exact ih (by rw [alloc_par, alloc_par, hp]) (alloc_congr hp he).2

@[simp] theorem afterAllocs_par (k : Nat) (s : State) : (afterAllocs k s).par = s.par := by
  induction k generalizing s with
  | zero => rfl
  | succ k ih => rw [afterAllocs, ih, alloc_par]

/-- `k` calls take `k` answers off the list, count `k` calls, and change nothing of the environment but these and `live`. -/
theorem afterAllocs_env (k : Nat) (s : State) :
    (afterAllocs k s).env = { s.env with live := (afterAllocs k s).env.live, allocIn := s.env.allocIn.drop k,
                                         allocCalls := s.env.allocCalls + k } := by
  induction k generalizing s with
  | zero => rfl
  | succ k ih =>
    rw [afterAllocs, ih]
    rcases alloc_cases s with ⟨b, _, h⟩ | h <;> rw [h] <;>
      simp [State.countCall, State.addLive, ← List.drop_one, List.drop_drop, Nat.add_comm, Nat.add_left_comm]

/-! ## The first entry of a batch -/

/-- What the walk answers for the `j`-th entry. -/
def batchEntry (s : State) (j : Nat) : Drained :=
  if batchErr s j = 0 then
    match batchFresh s j with
    | some _ => .filled (batchOld s j) (batchLen s j) (batchFlags s j)
    | none => .noBuf (BitVec.ofNat 16 (batchSlot s j))
  else .dropped (BitVec.ofNat 16 (batchSlot s j)) (batchErr s j)

/-- One return descriptor handled, in the terms of the batch it begins. -/
structure DrainedFirst (s t : State) : Prop where
  frame : t = { s with
    rx := { prod := (s.rx.prod + 1) % s.par.n, rrCons := (s.rx.rrCons + 1) % s.par.n
            slot := match batchFresh s 0 with
              | some b => s.rx.slot.set (batchSlot s 0) (some b)
              | none => s.rx.slot }
    ctl := { s.ctl with cntRxDrop := s.ctl.cntRxDrop + BitVec.ofNat 32 (batchDrops s 1),
                        cntRxNobuf := s.ctl.cntRxNobuf + BitVec.ofNat 32 (batchMisses s 1) }
    csr := { s.csr with mbRxProd := BitVec.ofNat 32 ((s.rx.prod + 1) % s.par.n) }
    dev := rxRung s.par s.dev ((s.rx.prod + 1) % s.par.n)
    env := (afterAllocs (batchCalls s 1) s).env
    mem := t.mem }
  desc  : ∀ b, batchFresh s 0 = some b → RxDescIs s.par t.mem (batchSlot s 0) b
  bytes : sameOutside s.mem t.mem (rxDescAddr s.par (batchSlot s 0)) 10
  kept  : batchFresh s 0 = none → t.mem = s.mem

theorem batchSlot_zero {s : State} (h : s.rx.rrCons < s.par.n) : batchSlot s 0 = s.rrSlot s.rx.rrCons := by
  simp [batchSlot, Nat.mod_eq_of_lt h]

theorem batchErr_zero {s : State} (h : s.rx.rrCons < s.par.n) : batchErr s 0 = s.rrErr s.rx.rrCons := by
  simp [batchErr, Nat.mod_eq_of_lt h]

theorem drainOne_first (s : State) (hn : s.par.n ≤ 32768) (hs : s.dev.rxSeen < s.par.n) (hb : s.par.bufcap < 65536)
    (hr : s.rx.rrCons < s.par.n) : DrainedFirst s (drainOne s).1 ∧ (drainOne s).2 = batchEntry s 0 := by
  have hslot := batchSlot_zero hr
  have herr := batchErr_zero hr
  have hlen : batchLen s 0 = s.rrLen s.rx.rrCons := by simp [batchLen, Nat.mod_eq_of_lt hr]
  have hflags : batchFlags s 0 = s.rrFlags s.rx.rrCons := by simp [batchFlags, Nat.mod_eq_of_lt hr]
  by_cases he : s.rrErr s.rx.rrCons = 0
  · have hc : batchCalls s 1 = 1 := by simp [batchCalls, herr, he]
    have hd : batchDrops s 1 = 0 := by simp [batchDrops, herr, he]
    have hf : batchFresh s 0 = (alloc s).2 := by simp [batchFresh, herr, he, batchCalls, afterAllocs]
    unfold drainOne
    rcases rxRefill_cases s (s.rrSlot s.rx.rrCons) hn hs hb with ⟨nb, m, _, ha, hr', hd', hm, _⟩ | ⟨ha, hr'⟩
    · have hf' : batchFresh s 0 = some nb := by rw [hf, ha]
      have hx : batchMisses s 1 = 0 := by simp [batchMisses, herr, he, hf']
      simp only [he, bne_self_eq_false, Bool.false_eq_true, if_false, hr']
      refine ⟨⟨?_, ?_, ?_, ?_⟩, ?_⟩
      · simp [State.posted, hc, hd, hx, hf', hslot, ringInc_eq, afterAllocs, ha]
      · intro b hb'
        rw [hf', Option.some.injEq] at hb'
        subst hb'
        rw [hslot]
        exact hd'
      · rw [hslot]; exact hm
      · intro h; rw [hf'] at h; simp at h
      · simp [batchEntry, herr, he, hf', batchOld, hslot, hlen, hflags]
    · have hf' : batchFresh s 0 = none := by rw [hf, ha]
      have hx : batchMisses s 1 = 1 := by simp [batchMisses, herr, he, hf']
      simp only [he, bne_self_eq_false, Bool.false_eq_true, if_false, hr']
      refine ⟨⟨?_, ?_, ?_, ?_⟩, ?_⟩
      · simp [State.posted, hc, hd, hx, hf', ringInc_eq, afterAllocs, ha]
      · intro b hb'; rw [hf'] at hb'; simp at hb'
      · intro a _; rfl
      · intro _; rfl
      · simp [batchEntry, herr, he, hf', hslot]
  · have he' : ¬ s.rrErr s.rx.rrCons = 0#16 := he
    have hne : (s.rrErr s.rx.rrCons != 0) = true := by simpa using he
    have hc : batchCalls s 1 = 0 := by simp [batchCalls, herr, he']
    have hd : batchDrops s 1 = 1 := by simp [batchDrops, herr, he']
    have hx : batchMisses s 1 = 0 := by simp [batchMisses, herr, he']
    have hf' : batchFresh s 0 = none := by simp [batchFresh, herr, he']
    have hr' := rxRepost_eq_posted { s with ctl := { s.ctl with cntRxDrop := s.ctl.cntRxDrop + 1 } } hn hs
    unfold drainOne
    simp only [hne, if_true, hr']
    refine ⟨⟨?_, ?_, ?_, ?_⟩, ?_⟩
    · simp [State.posted, hc, hd, hx, hf', ringInc_eq, afterAllocs]
    · intro b hb'; rw [hf'] at hb'; simp at hb'
    · intro a _; rfl
    · intro _; rfl
    · simp [batchEntry, herr, he', hslot]

/-! ## The rest of a batch, seen from after its first entry -/

theorem afterAllocs_add (a b : Nat) (s : State) : afterAllocs (a + b) s = afterAllocs b (afterAllocs a s) := by
  induction a generalizing s with
  | zero => rw [Nat.zero_add]; rfl
  | succ a ih => rw [Nat.succ_add, afterAllocs, ih]; rfl

theorem countP_range_succ (p : Nat → Bool) (c : Nat) :
    (List.range (c + 1)).countP p = (List.range 1).countP p + (List.range c).countP (p ∘ Nat.succ) := by
  rw [List.range_succ_eq_map, List.countP_cons, List.countP_map]
  simp [List.range_succ, Nat.add_comm]

/-- What a walk needs of the machine it starts in; every state of `Inv` has it. -/
structure DrainReady (s : State) : Prop where
  legal : s.par.Legal
  prod  : s.rx.prod < s.par.n
  cons  : s.rx.rrCons < s.par.n
  seen  : s.dev.rxSeen < s.par.n
  avail : s.dev.rxAvail ≤ s.par.n
  len   : s.rx.slot.length = s.par.n

theorem Inv.drainReady {s : State} (h : Inv s) : DrainReady s :=
  ⟨h.legal, h.rx_prod_lt, h.rr_cons_lt, h.dev_rx_seen, h.dev_avail, h.rx_len⟩

namespace DrainedFirst

variable {s t : State} (h : DrainedFirst s t)
include h

theorem par_eq : t.par = s.par := by rw [h.frame]

theorem slots (i : Nat) (hi : i ≠ batchSlot s 0) : t.rx.slot[i]? = s.rx.slot[i]? := by
  rw [h.frame]
  cases batchFresh s 0 with
  | none => rfl
  | some b => simp [Ne.symm hi]

theorem ready (hr : DrainReady s) : DrainReady t where
  legal := by rw [h.par_eq]; exact hr.legal
  prod  := by rw [h.frame]; exact Nat.mod_lt _ s.par.n_pos
  cons  := by rw [h.frame]; exact Nat.mod_lt _ s.par.n_pos
  seen  := by
    rw [h.frame]
    exact rxRung_seen_lt (Nat.mod_lt _ s.par.n_pos) hr.seen
  avail := by
    rw [h.frame]
    dsimp only [rxRung]
    split
    · exact Nat.min_le_left _ _
    · exact hr.avail
  len   := by
    rw [h.frame]
    cases batchFresh s 0 with
    | none => exact hr.len
    | some b => simpa using hr.len

/-- The return descriptors still read as before: a slot of the receive ring shares no byte with them. -/
theorem rr_read (hr : DrainReady s) (hg : batchSlot s 0 < s.par.n) (j : Nat) (hj : j < s.par.n) (o k : Nat) (ho : o + k ≤ 8) :
    t.memRead (rrDescAddr s.par j + o) k = s.memRead (rrDescAddr s.par j + o) k := by
  refine readLE_sameOutside h.bytes _ _ ?_
  have hd := (Regions.apart hr.legal).2.2.2.1
  have h1 := rxDesc_inside hg
  have h2 := rrDesc_inside hj
  unfold disjointRanges at hd
  omega

theorem index (j : Nat) : (t.rx.rrCons + j) % t.par.n = (s.rx.rrCons + (j + 1)) % s.par.n := by
  rw [h.frame]
  exact inc_add_mod s.par s.rx.rrCons j

theorem slot_next (hr : DrainReady s) (hg : batchSlot s 0 < s.par.n) (j : Nat) : batchSlot t j = batchSlot s (j + 1) := by
  unfold batchSlot State.rrSlot
  rw [h.index, h.par_eq]
  exact h.rr_read hr hg _ (Nat.mod_lt _ s.par.n_pos) 0 2 (by omega)

theorem len_next (hr : DrainReady s) (hg : batchSlot s 0 < s.par.n) (j : Nat) : batchLen t j = batchLen s (j + 1) := by
  unfold batchLen State.rrLen
  rw [h.index, h.par_eq, h.rr_read hr hg _ (Nat.mod_lt _ s.par.n_pos) 2 2 (by omega)]

theorem flags_next (hr : DrainReady s) (hg : batchSlot s 0 < s.par.n) (j : Nat) : batchFlags t j = batchFlags s (j + 1) := by
  unfold batchFlags State.rrFlags
  rw [h.index, h.par_eq, h.rr_read hr hg _ (Nat.mod_lt _ s.par.n_pos) 4 2 (by omega)]

theorem err_next (hr : DrainReady s) (hg : batchSlot s 0 < s.par.n) (j : Nat) : batchErr t j = batchErr s (j + 1) := by
  unfold batchErr State.rrErr
  rw [h.index, h.par_eq, h.rr_read hr hg _ (Nat.mod_lt _ s.par.n_pos) 6 2 (by omega)]

theorem calls_next (hr : DrainReady s) (hg : batchSlot s 0 < s.par.n) (c : Nat) :
    batchCalls s (c + 1) = batchCalls s 1 + batchCalls t c := by
  unfold batchCalls
  rw [countP_range_succ]
  simp only [Function.comp_def, Nat.succ_eq_add_one, h.err_next hr hg]

theorem env_next (hr : DrainReady s) (hg : batchSlot s 0 < s.par.n) (c : Nat) :
    (afterAllocs (batchCalls t c) t).env = (afterAllocs (batchCalls s (c + 1)) s).env := by
  rw [h.calls_next hr hg, afterAllocs_add]
  exact (afterAllocs_congr _ (by rw [afterAllocs_par, h.par_eq]) (by rw [h.frame])).2

theorem fresh_next (hr : DrainReady s) (hg : batchSlot s 0 < s.par.n) (j : Nat) : batchFresh t j = batchFresh s (j + 1) := by
  unfold batchFresh
  rw [h.err_next hr hg, (alloc_congr (s := afterAllocs (batchCalls s (j + 1)) s) ?_ (h.env_next hr hg j)).1]
  rw [afterAllocs_par, afterAllocs_par, h.par_eq]

theorem drops_next (hr : DrainReady s) (hg : batchSlot s 0 < s.par.n) (c : Nat) :
    batchDrops s (c + 1) = batchDrops s 1 + batchDrops t c := by
  unfold batchDrops
  rw [countP_range_succ]
  simp only [Function.comp_def, Nat.succ_eq_add_one, h.err_next hr hg]

theorem misses_next (hr : DrainReady s) (hg : batchSlot s 0 < s.par.n) (c : Nat) :
    batchMisses s (c + 1) = batchMisses s 1 + batchMisses t c := by
  unfold batchMisses
  rw [countP_range_succ]
  simp only [Function.comp_def, Nat.succ_eq_add_one, h.err_next hr hg, h.fresh_next hr hg]

theorem old_next (hr : DrainReady s) (hg : batchSlot s 0 < s.par.n) (j : Nat) (hj : batchSlot s (j + 1) ≠ batchSlot s 0) :
    batchOld t j = batchOld s (j + 1) := by
  unfold batchOld State.bufferOf State.rxSlot
  rw [h.slot_next hr hg, List.getD_eq_getElem?_getD, List.getD_eq_getElem?_getD, h.slots _ hj]

theorem entry_next (hr : DrainReady s) (hg : batchSlot s 0 < s.par.n) (j : Nat) (hj : batchSlot s (j + 1) ≠ batchSlot s 0) :
    batchEntry t j = batchEntry s (j + 1) := by
  unfold batchEntry
  rw [h.err_next hr hg, h.fresh_next hr hg, h.old_next hr hg j hj, h.slot_next hr hg, h.len_next hr hg, h.flags_next hr hg]

theorem good_next (hr : DrainReady s) (c : Nat) (hg : goodBatch s (c + 1)) : goodBatch t c := by
  have h0 := hg.1 0 (by omega)
  constructor
  · intro j hj
    rw [h.slot_next hr h0, h.par_eq]
    exact hg.1 (j + 1) (by omega)
  · intro j k hjk hk
    rw [h.slot_next hr h0, h.slot_next hr h0]
    exact hg.2 (j + 1) (k + 1) (by omega) (by omega)

end DrainedFirst

/-! ## The whole walk -/

/-- The device after `c` posts: the first one's distance and one more credit for each further one, at most `N` in all. -/
def postedDevice (s : State) (c : Nat) : Device :=
  if s.dev.active = true ∧ 0 < c then
    { s.dev with
      rxAvail := min s.par.n (s.dev.rxAvail + ((s.rx.prod + 1) % s.par.n + s.par.n - s.dev.rxSeen) % s.par.n + (c - 1))
      rxSeen := (s.rx.prod + c) % s.par.n }
  else s.dev

/-- An index is one behind its successor. -/
theorem succ_dist {n x : Nat} (hn : 2 ≤ n) (hx : x < n) : ((x + 1) % n + n - x) % n = 1 := by
  by_cases h : x + 1 < n
  · rw [Nat.mod_eq_of_lt h, show x + 1 + n - x = 1 + n by omega, Nat.add_mod_right, Nat.mod_eq_of_lt (by omega)]
  · rw [show x + 1 = n by omega, Nat.mod_self, show 0 + n - x = 1 by omega, Nat.mod_eq_of_lt (by omega)]

theorem postedDevice_next {s t : State} (h : DrainedFirst s t) (hr : DrainReady s) (c : Nat) :
    postedDevice t c = postedDevice s (c + 1) := by
  have hx : (s.rx.prod + 1) % s.par.n < s.par.n := Nat.mod_lt _ s.par.n_pos
  have h1 := succ_dist hr.legal.two_le_n hx
  have h2 : ((s.rx.prod + 1) % s.par.n + c) % s.par.n = (s.rx.prod + (c + 1)) % s.par.n := inc_add_mod s.par s.rx.prod c
  rw [h.frame]
  by_cases ha : s.dev.active = true
  · cases c with
    | zero => simp [postedDevice, rxRung, ha]
    | succ c =>
      simp only [postedDevice, rxRung, ha, if_true, true_and, Nat.succ_pos, h1, h2, Device.mk.injEq, and_true]
      omega
  · simp [postedDevice, rxRung, ha]

/-- What the walk over a good batch of `c` descriptors leaves. -/
structure BatchDrained (s : State) (c : Nat) (t : State) : Prop where
  frame : t = { s with
    rx := { prod := (s.rx.prod + c) % s.par.n, slot := t.rx.slot, rrCons := (s.rx.rrCons + c) % s.par.n }
    ctl := { s.ctl with cntRxDrop := s.ctl.cntRxDrop + BitVec.ofNat 32 (batchDrops s c),
                        cntRxNobuf := s.ctl.cntRxNobuf + BitVec.ofNat 32 (batchMisses s c) }
    csr := if 0 < c then { s.csr with mbRxProd := BitVec.ofNat 32 ((s.rx.prod + c) % s.par.n) } else s.csr
    dev := postedDevice s c
    env := (afterAllocs (batchCalls s c) s).env
    mem := t.mem }
  len    : t.rx.slot.length = s.rx.slot.length
  named  : ∀ j, j < c → t.rx.slot[batchSlot s j]? = some (match batchFresh s j with
             | some b => some b
             | none => s.rxSlot (batchSlot s j))
  others : ∀ i, (∀ j, j < c → i ≠ batchSlot s j) → t.rx.slot[i]? = s.rx.slot[i]?
  desc   : ∀ j b, j < c → batchFresh s j = some b → RxDescIs s.par t.mem (batchSlot s j) b
  bytes  : ∀ a, (∀ j, j < c → batchFresh s j ≠ none → outside a (rxDescAddr s.par (batchSlot s j)) 10) →
             Memory.byteAt t.mem a = Memory.byteAt s.mem a

theorem DrainedFirst.named_first {s t : State} (h : DrainedFirst s t) (hr : DrainReady s) (hg : batchSlot s 0 < s.par.n) :
    t.rx.slot[batchSlot s 0]? = some (match batchFresh s 0 with
      | some b => some b
      | none => s.rxSlot (batchSlot s 0)) := by
  have hl : batchSlot s 0 < s.rx.slot.length := by rw [hr.len]; exact hg
  rw [h.frame]
  cases batchFresh s 0 with
  | none => simp [State.rxSlot, hl]
  | some b => simp [hl]

theorem drainLoop_batch (c : Nat) (s : State) (hr : DrainReady s) (hg : goodBatch s c) :
    BatchDrained s c (drainLoop c s).1 ∧ (drainLoop c s).2 = (List.range c).map (batchEntry s) := by
  induction c generalizing s with
  | zero =>
    refine ⟨⟨?_, rfl, ?_, ?_, ?_, ?_⟩, rfl⟩
    · simp [drainLoop, postedDevice, batchDrops, batchMisses, batchCalls, afterAllocs, Nat.mod_eq_of_lt hr.prod,
        Nat.mod_eq_of_lt hr.cons]
    · intro j hj; omega
    · intro i _; rfl
    · intro j b hj; omega
    · intro a _; rfl
  | succ c ih =>
    have h0 := hg.1 0 (by omega)
    obtain ⟨h, he⟩ := drainOne_first s hr.legal.n_le hr.seen (Nat.lt_succ_of_le hr.legal.bufcap_le) hr.cons
    generalize ht : (drainOne s).1 = t at h
    obtain ⟨hb, hl⟩ := ih t (h.ready hr) (h.good_next hr c hg)
    have hne : ∀ j, j < c → batchSlot s (j + 1) ≠ batchSlot s 0 := fun j hj => (hg.2 0 (j + 1) (by omega) (by omega)).symm
    rw [drainLoop_succ, ht, he]
    generalize hu : (drainLoop c t).1 = u at hb
    refine ⟨⟨?_, hb.len.trans ((h.ready hr).len.trans (by rw [h.par_eq, hr.len])), ?_, ?_, ?_, ?_⟩, ?_⟩
    · have hf := hb.frame
      rw [postedDevice_next h hr, h.env_next hr h0] at hf
      refine hf.trans ?_
      rw [h.drops_next hr h0 c, h.misses_next hr h0 c]
      generalize batchDrops t c = dt
      generalize batchMisses t c = mt
      generalize u.mem = mu, u.rx.slot = slu
      rw [h.frame]
      have h1 : ((s.rx.prod + 1) % s.par.n + c) % s.par.n = (s.rx.prod + (c + 1)) % s.par.n := inc_add_mod s.par s.rx.prod c
      have h2 : ((s.rx.rrCons + 1) % s.par.n + c) % s.par.n = (s.rx.rrCons + (c + 1)) % s.par.n :=
        inc_add_mod s.par s.rx.rrCons c
      simp only [h1, h2, Nat.succ_pos, if_true, BitVec.ofNat_add, BitVec.add_assoc]
      split
      · rfl
      · next hc => rw [show c = 0 by omega]
    · intro j hj
      cases j with
      | zero =>
        rw [hb.others _ fun j hj => by rw [h.slot_next hr h0]; exact (hne j hj).symm]
        exact h.named_first hr h0
      | succ j =>
        have := hb.named j (by omega)
        rw [h.slot_next hr h0, h.fresh_next hr h0] at this
        rw [this]
        cases batchFresh s (j + 1) with
        | some b => rfl
        | none =>
          simp only [State.rxSlot, List.getD_eq_getElem?_getD, h.slots _ (hne j (by omega))]
    · intro i hi
      rw [hb.others i fun j hj => by rw [h.slot_next hr h0]; exact hi (j + 1) (by omega)]
      exact h.slots i (hi 0 (by omega))
    · intro j b hj hf
      cases j with
      | zero =>
        refine (h.desc b hf).of_same fun a h1 h2 => hb.bytes a fun j hj _ => ?_
        rw [h.slot_next hr h0, h.par_eq]
        have := hne j hj
        unfold outside
        simp only [rxDescAddr] at *
        omega
      | succ j =>
        have := hb.desc j b (by omega) (by rw [h.fresh_next hr h0]; exact hf)
        rwa [h.slot_next hr h0, h.par_eq] at this
    · intro a ha
      rw [hb.bytes a fun j hj hf => by
        rw [h.slot_next hr h0, h.par_eq]
        rw [h.fresh_next hr h0] at hf
        exact ha (j + 1) (by omega) hf]
      by_cases hf : batchFresh s 0 = none
      · rw [h.kept hf]
      · exact h.bytes a (ha 0 (by omega) hf)
    · dsimp only
      rw [hl, List.range_succ_eq_map, List.map_cons, List.map_map, List.cons.injEq]
      exact ⟨rfl, List.map_congr_left fun j hj => h.entry_next hr h0 j (hne j (List.mem_range.1 hj))⟩

/-- The buffers the refills of a batch got join the live ones; none leaves before the entries are reported. -/
theorem mem_live_afterAllocs (s : State) (c : Nat) (b : Addr) :
    b ∈ (afterAllocs (batchCalls s c) s).env.live ↔ b ∈ s.env.live ∨ ∃ j, j < c ∧ batchFresh s j = some b := by
  induction c with
  | zero => simp [batchCalls, afterAllocs]
  | succ c ih =>
    have hs : (∃ j, j < c + 1 ∧ batchFresh s j = some b) ↔ (∃ j, j < c ∧ batchFresh s j = some b) ∨ batchFresh s c = some b := by
      constructor
      · rintro ⟨j, hj, h⟩
        rcases Nat.lt_succ_iff_lt_or_eq.1 hj with hj | rfl
        · exact .inl ⟨j, hj, h⟩
        · exact .inr h
      · rintro (⟨j, hj, h⟩ | h)
        · exact ⟨j, by omega, h⟩
        · exact ⟨c, by omega, h⟩
    rw [hs, ← or_assoc, ← ih]
    by_cases he : batchErr s c = 0
    · have hc : batchCalls s (c + 1) = batchCalls s c + 1 := by
        unfold batchCalls
        rw [List.range_succ, List.countP_append]
        simp [he]
      rw [hc, afterAllocs_add, batchFresh, if_pos he]
      simp only [afterAllocs]
      rcases alloc_cases (afterAllocs (batchCalls s c) s) with ⟨nb, _, ha⟩ | ha
      · rw [ha]
        simp only [State.addLive, State.countCall, mem_liveInsert, Option.some.injEq]
        rw [or_comm, eq_comm]
      · rw [ha]
        simp [State.countCall]
    · have hc : batchCalls s (c + 1) = batchCalls s c := by
        unfold batchCalls
        have he' : ¬ batchErr s c = 0#16 := he
        rw [List.range_succ, List.countP_append]
        simp [he']
      rw [hc, batchFresh, if_neg he]
      simp

/-- A batch is refused exactly where it is not good. -/
theorem refusedBatch_iff (s : State) (c : Nat) : refusedBatch s c ↔ ¬ goodBatch s c := by
  unfold refusedBatch goodBatch
  constructor
  · rintro (⟨j, hj, h⟩ | ⟨j, k, hjk, hk, h⟩) ⟨h1, h2⟩
    · exact absurd (h1 j hj) (by omega)
    · exact h2 j k hjk hk h
  · intro h
    by_contra hc
    simp only [not_or, not_exists, not_and, Nat.not_le] at hc
    exact h ⟨hc.1, hc.2⟩

/-- `rr_drain(idx)` of a refused batch sets `fault[1]` and changes nothing else (41_ring_manager.md R152). -/
theorem rrDrain_refused (s : State) (idx c : Nat) (hr : s.rx.rrCons < s.par.n)
    (hc : c = (idx % s.par.n + s.par.n - s.rx.rrCons) % s.par.n) (h : refusedBatch s c) :
    rrDrain s idx = ({ s with ctl := { s.ctl with faultRrIdx := true } }, none) := by
  have hd : ringDist s.par (wrap s.par idx) s.rx.rrCons = c := by rw [ringDist_eq _ hr, hc]; rfl
  have hp : prescanOk s c = false := by
    rw [← Bool.not_eq_true, prescanOk_iff]
    exact (refusedBatch_iff s c).1 h
  simp [rrDrain, hd, hp]

/-- The terms of a batch depend on the parameters, the receive ring, the memory and the environment only. -/
theorem batch_congr {s u : State} (hp : u.par = s.par) (hx : u.rx = s.rx) (hm : u.mem = s.mem) (he : u.env = s.env) :
    batchSlot u = batchSlot s ∧ batchLen u = batchLen s ∧ batchFlags u = batchFlags s ∧ batchErr u = batchErr s ∧
    batchOld u = batchOld s ∧ batchCalls u = batchCalls s ∧ batchFresh u = batchFresh s ∧ batchDrops u = batchDrops s ∧
    batchMisses u = batchMisses s := by
  have h1 : batchSlot u = batchSlot s := by funext j; simp [batchSlot, State.rrSlot, State.memRead, hp, hx, hm]
  have h2 : batchErr u = batchErr s := by funext j; simp [batchErr, State.rrErr, State.memRead, hp, hx, hm]
  have h3 : batchCalls u = batchCalls s := by funext c; simp [batchCalls, h2]
  have h4 : batchFresh u = batchFresh s := by
    funext j
    obtain ⟨ha, hb⟩ := afterAllocs_congr (batchCalls s j) hp he
    simp [batchFresh, h2, h3, (alloc_congr ha hb).1]
  refine ⟨h1, ?_, ?_, h2, ?_, h3, h4, ?_, ?_⟩
  · funext j; simp [batchLen, State.rrLen, State.memRead, hp, hx, hm]
  · funext j; simp [batchFlags, State.rrFlags, State.memRead, hp, hx, hm]
  · funext j; simp [batchOld, State.bufferOf, State.rxSlot, h1, hx]
  · funext c; simp [batchDrops, h2]
  · funext c; simp [batchMisses, h2, h4]

/-- So does what a batch leaves in the slots, the memory and the live buffers. -/
theorem BatchPlaced.of_same {s u : State} (hp : u.par = s.par) (hx : u.rx = s.rx) (hm : u.mem = s.mem) (he : u.env = s.env)
    {c : Nat} {sl : List (Option Addr)} {m : List Host.Cell} {lv : List Addr} (h : BatchPlaced u c sl m lv) :
    BatchPlaced s c sl m lv := by
  obtain ⟨b1, -, -, -, b5, -, b7, -, -⟩ := batch_congr hp hx hm he
  have hs : u.rxSlot = s.rxSlot := by funext i; rw [State.rxSlot, hx]; rfl
  obtain ⟨h1, h2, h3, h4, h5, h6, h7⟩ := h
  rw [b1, b7, hs] at h2
  rw [b1, hx] at h3
  rw [b1, b7, hp] at h4 h5 h6
  rw [hm] at h6
  rw [b5, b7, he] at h7
  exact ⟨hp ▸ h1, h2, h3, h4, h5, h6, h7⟩

/-! ## Reporting a batch -/

/-- The buffers of a list that the entries `js` of a batch do not hand out. -/
def batchKeeps (s : State) (js : List Nat) (live : List Addr) : List Addr :=
  live.filter fun b => !js.any fun j => (batchFresh s j).isSome && b == batchOld s j

theorem mem_batchKeeps (s : State) (c : Nat) (live : List Addr) (b : Addr) :
    b ∈ batchKeeps s (List.range c) live ↔ b ∈ live ∧ ∀ j, j < c → batchFresh s j ≠ none → b ≠ batchOld s j := by
  simp only [batchKeeps, List.mem_filter, Bool.not_eq_true', List.any_eq_false, List.mem_range, Bool.and_eq_true,
    Option.isSome_iff_ne_none, beq_iff_eq, not_and]

theorem batchKeeps_cons (s : State) (j : Nat) (js : List Nat) (live : List Addr) :
    batchKeeps s (j :: js) live = batchKeeps s js (batchKeeps s [j] live) := by
  simp only [batchKeeps, List.filter_filter, List.any_cons, List.any_nil, Bool.or_false, Bool.not_or]
  congr 1
  funext b
  exact Bool.and_comm _ _

theorem batchKeeps_none {s : State} {j : Nat} (h : batchFresh s j = none) (live : List Addr) : batchKeeps s [j] live = live := by
  simp [batchKeeps, h]

theorem batchKeeps_some {s : State} {j : Nat} {b : Addr} (h : batchFresh s j = some b) (live : List Addr) :
    batchKeeps s [j] live = live.filter (· != batchOld s j) := by
  simp only [batchKeeps, h, List.any_cons, List.any_nil, Bool.or_false, Option.isSome_some, Bool.true_and]
  rfl

/-- `rr_drain(idx)` of a good batch of `c` descriptors: the walk, and the cursor rung if there was an entry. -/
theorem rrDrain_batch (s : State) (idx c : Nat) (hr : DrainReady s) (hc : c = (idx % s.par.n + s.par.n - s.rx.rrCons) % s.par.n)
    (hg : goodBatch s c) :
    ∃ (sl : List (Option Addr)) (m : List Host.Cell),
      rrDrain s idx = ({ s with
        rx := { prod := (s.rx.prod + c) % s.par.n, slot := sl, rrCons := (s.rx.rrCons + c) % s.par.n }
        ctl := { s.ctl with cntRxDrop := s.ctl.cntRxDrop + BitVec.ofNat 32 (batchDrops s c),
                            cntRxNobuf := s.ctl.cntRxNobuf + BitVec.ofNat 32 (batchMisses s c) }
        csr := batchCsrs s c
        dev := batchDevice s c
        env := (afterAllocs (batchCalls s c) s).env
        mem := m }, some ((List.range c).map (batchEntry s))) ∧
      BatchPlaced s c sl m (batchKeeps s (List.range c) (afterAllocs (batchCalls s c) s).env.live) := by
  obtain ⟨hb, hl⟩ := drainLoop_batch c s hr hg
  have hd : ringDist s.par (wrap s.par idx) s.rx.rrCons = c := by rw [ringDist_eq _ hr.cons, hc]; rfl
  have hp := (prescanOk_iff s c).2 hg
  refine ⟨(drainLoop c s).1.rx.slot, (drainLoop c s).1.mem, ?_, hb.len.trans hr.len, hb.named, hb.others,
    fun j b hj hf => (hb.desc j b hj hf).addr, ?_, hb.bytes, fun b => ?_⟩
  · simp only [rrDrain, hd, hp, if_true, hl]
    have hf := hb.frame
    generalize drainLoop c s = w at hf
    generalize w.1.rx.slot = sl, w.1.mem = m at hf
    refine Prod.ext ?_ rfl
    dsimp only
    rw [hf]
    by_cases h0 : 0 < c
    · rw [if_pos h0, ringDoorbell_rr]
      · by_cases ha : s.dev.active = true <;> simp [h0, batchCsrs, batchDevice, postedDevice, rrRung, ha]
      · exact Nat.mod_lt _ s.par.n_pos
      · exact hr.legal.n_le
    · rw [if_neg h0]
      simp [h0, batchCsrs, batchDevice, postedDevice]
  · intro j hj hf
    obtain ⟨b, hb'⟩ := Option.ne_none_iff_exists'.1 hf
    exact (hb.desc j b hj hb').cap
  · rw [mem_batchKeeps, mem_live_afterAllocs]

/-- The direct command reports one event per entry and hands out the replaced buffers (41_ring_manager.md R151). -/
theorem report_batch (s u : State) (js : List Nat) :
    (js.map (batchEntry s)).foldl reportDrained u = { u with
      env := { u.env with live := batchKeeps s js u.env.live }
      port := { u.port with events := u.port.events ++ js.map (batchEvent s) } } := by
  induction js generalizing u with
  | nil => simp [batchKeeps]
  | cons j js ih =>
    rw [List.map_cons, List.foldl_cons, ih, batchKeeps_cons]
    by_cases he : batchErr s j = 0
    · cases hf : batchFresh s j with
      | none => simp [batchEntry, batchEvent, he, hf, reportDrained, State.emit, batchKeeps_none hf]
      | some b => simp [batchEntry, batchEvent, he, hf, reportDrained, passOut, State.dropLive, State.emit, batchKeeps_some hf]
    · have hf : batchFresh s j = none := by rw [batchFresh, if_neg he]
      have he' : ¬ batchErr s j = 0#16 := he
      simp [batchEntry, batchEvent, he', reportDrained, State.emit, batchKeeps_none hf]

/-- A servicing pass hands over the refilled entries: delivered or, for their length, freed and counted
(43_packet_io.md R180 to R183). -/
theorem rxDeliver_batch (s u : State) (js : List Nat) (hp : u.par = s.par) :
    rxDeliver (js.map (batchEntry s)) u = ({ u with
      ctl := { u.ctl with cntRxDrop := u.ctl.cntRxDrop +
                 BitVec.ofNat 32 (js.countP fun j => (batchFresh s j).isSome && !batchFits s j) }
      env := { u.env with live := batchKeeps s js u.env.live }
      port := { u.port with events := u.port.events ++ js.filterMap (batchHandover s) } },
      js.countP fun j => (batchFresh s j).isSome && batchFits s j) := by
  induction js generalizing u with
  | nil => simp [batchKeeps, rxDeliver]
  | cons j js ih =>
    rw [List.map_cons, rxDeliver, batchKeeps_cons]
    cases hf : batchFresh s j with
    | none =>
      have h1 : deliverOne u (batchEntry s j) = (u, 0) := by
        unfold batchEntry
        split
        · simp [hf, deliverOne]
        · rfl
      rw [h1, ih u hp]
      simp [hf, batchHandover, batchKeeps_none hf]
    | some b =>
      have he : batchErr s j = 0 := by
        by_cases he : batchErr s j = 0
        · exact he
        · rw [batchFresh, if_neg he] at hf; simp at hf
      have hl : lengthOk u.par (batchLen s j) = batchFits s j := by rw [hp]; rfl
      have h1 : batchEntry s j = .filled (batchOld s j) (batchLen s j) (batchFlags s j) := by simp [batchEntry, he, hf]
      rw [h1, deliverOne, hl]
      cases hx : batchFits s j with
      | true =>
        rw [if_pos rfl, ih]
        swap; exact hp
        simp [hf, hx, batchHandover, passOut, State.dropLive, State.emit, batchKeeps_some hf, Nat.add_comm]
      | false =>
        rw [if_neg (by simp), ih]
        swap; exact hp
        simp [hf, hx, batchHandover, freeBuffer, State.dropLive, State.emit, batchKeeps_some hf, Nat.add_comm,
          BitVec.ofNat_add, BitVec.add_assoc]

end Sys2Proof.Machine
end

