-- ==== Sys2Proof/Laws/Link.lean ====
section
/-! SUPPORT. What the procedures of the link machine do, once each, as record updates (44_link_fsm.md R195, R201, R204;
45_lifecycle.md R222). -/

namespace Sys2Proof.Machine

/-! ## The register values the machine writes -/

theorem phyAdvWord_eq (adv : BitVec 2) (caps : BitVec 6) :
    phyAdvWord adv caps &&& 0xFF#32 = BitVec.ofNat 32 (64 * adv.toNat + caps.toNat) := by
  revert adv caps; decide

theorem phyForceWord_eq (sp : BitVec 2) (dp : Bool) :
    phyForceWord sp dp &&& 0b11101#32 = BitVec.ofNat 32 (16 * dp.toNat + 4 * sp.toNat) ∧
      (phyForceWord sp dp).getLsbD 1 = false := by
  revert sp dp; decide

theorem macModeWord_eq (tx rx dp : Bool) (sp : BitVec 2) :
    macModeWord tx rx dp sp &&& 0x1F#32 = BitVec.ofNat 32 (16 * tx.toNat + 8 * rx.toNat + 4 * dp.toNat + sp.toNat) := by
  revert tx rx dp sp; decide

/-- Clearing `AN_COMPLETE` changes the status exactly if it was set. -/
theorem clear_an_ne (st : Word) : (st &&& ~~~(2#32) != st) = st.getLsbD 1 := by
  have hm : ∀ i, i < 32 → (~~~(2#32)).getLsbD i = decide (i ≠ 1) := by decide
  rw [Bool.eq_iff_iff, bne_iff_ne, ne_eq]
  constructor
  · intro h
    by_contra hb
    refine h (BitVec.eq_of_getLsbD_eq fun i hi => ?_)
    rw [BitVec.getLsbD_and, hm i hi]
    by_cases h1 : i = 1
    · rw [h1, Bool.eq_false_iff.2 hb]; rfl
    · rw [decide_eq_true h1, Bool.and_true]
  · intro hb h
    have h1 := congrArg (fun x : Word => x.getLsbD 1) h
    simp only [BitVec.getLsbD_and, hm 1 (by omega), hb] at h1
    exact absurd h1 (by decide)

/-! ## The procedures -/

/-- `link_down_now`: `LinkDown` if the link was up, the link registers cleared, the MAC mode 0. -/
theorem linkDownNow_eq (s : State) :
    linkDownNow s = { s with
      link := downedLink s.link
      csr := { s.csr with macMode := 0 }
      port := { s.port with events := s.port.events ++ downEvents s.link s.link.epoch } } := by
  unfold linkDownNow
  cases h : s.link.up <;> simp [regWrite, downedLink, downEvents, h, State.emit]

/-- `begin_negotiation`: a new epoch, the advertisement written, the PHY restarted. -/
theorem beginNegotiation_eq (s : State) :
    beginNegotiation s = { s with
      link := { s.link with epoch := s.link.epoch + 1, negTicks := 0, state := .negotiating }
      csr := { s.csr with phyAdv := BitVec.ofNat 32 (64 * s.link.advLocal.toNat + s.link.advCaps.toNat), phyCtrl := 1,
                          phyStatus := s.csr.phyStatus &&& 0xFFFFFFFD#32 }
      poll := { s.poll with irqLink := s.poll.irqLink || s.csr.phyStatus.getLsbD 1 } } := by
  simp only [beginNegotiation, bumpEpoch, regWrite, writePhyCtrl, phyRestart, setPhyStatus, phyAdvWord_eq, clear_an_ne]
  rfl

/-- `enter_forced`: the link down if it was up, then up with the requested speed and duplex under a new epoch. -/
theorem enterForced_eq (s : State) (sp : BitVec 2) (dp : Bool) :
    enterForced s sp dp = { s with
      link := { s.link with state := .up, up := true, epoch := s.link.epoch + 1, curSpeed := sp, curDuplex := dp, fcRx := false,
                            fcTx := false }
      csr := { s.csr with phyCtrl := BitVec.ofNat 32 (16 * dp.toNat + 4 * sp.toNat),
                          macMode := BitVec.ofNat 32 (4 * dp.toNat + sp.toNat) }
      port := { s.port with events := s.port.events ++ downEvents s.link s.link.epoch ++
        [.linkUp (s.link.epoch + 1) sp dp false false] } } := by
  have h := macModeWord_eq false false dp sp
  simp only [Bool.toNat_false, Nat.mul_zero, Nat.zero_add] at h
  simp only [enterForced, linkDownNow_eq, bumpEpoch, regWrite, writePhyCtrl, (phyForceWord_eq sp dp).1, (phyForceWord_eq sp dp).2,
    h, State.emit, downedLink, Bool.false_eq_true, if_false]

/-- `link_start` from a link that is down and clear. -/
theorem linkStart_eq (s : State) (hup : s.link.up = false)
    (hc : s.link.curSpeed = 0 ∧ s.link.curDuplex = false ∧ s.link.fcRx = false ∧ s.link.fcTx = false) :
    linkStart s = { s with
      link := startedLink s.link
      csr := startedCsrs s.link s.csr
      poll := { s.poll with irqLink := s.poll.irqLink || startRaisesLink s.link s.csr }
      port := { s.port with events := s.port.events ++ startEvents s.link } } := by
  obtain ⟨h1, h2, h3, h4⟩ := hc
  unfold linkStart
  cases hm : s.link.mode with
  | auto =>
    simp only [requestNegotiation, beginNegotiation_eq, startedLink, startedCsrs, startRaisesLink, startEvents, hm,
      List.append_nil]
    rw [h1, h2, h3, h4, hup]
  | forced sp dp =>
    simp [enterForced_eq, startedLink, startedCsrs, startRaisesLink, startEvents, hm, downEvents, hup]

/-- `neg_complete`: what the PHY reports is stored and the callback asked for. -/
theorem negComplete_eq (s : State) (st : Word) :
    negComplete s st = { s with
      link := { s.link with state := .resolving, resSpeed := st.extractLsb' 2 2, resDuplex := st.getLsbD 4,
                            advPartner := st.extractLsb' 6 2 }
      env := { s.env with resolvePending := epochInsert s.link.epoch s.env.resolvePending }
      port := { s.port with events := s.port.events ++ [.schedResolve s.link.epoch] } } := rfl

/-- `resolve_done`: the link up with the resolved parameters. -/
theorem resolveDone_eq (s : State) (rx tx : Bool) (h : resolveFc s.link.advLocal s.link.advPartner = (rx, tx)) :
    resolveDone s = { s with
      link := { s.link with state := .up, up := true, curSpeed := s.link.resSpeed, curDuplex := s.link.resDuplex, fcRx := rx,
                            fcTx := tx }
      csr := { s.csr with
        macMode := BitVec.ofNat 32 (16 * tx.toNat + 8 * rx.toNat + 4 * s.link.resDuplex.toNat + s.link.resSpeed.toNat) }
      port := { s.port with events :=
        s.port.events ++ [.linkUp s.link.epoch s.link.resSpeed s.link.resDuplex rx tx] } } := by
  simp only [resolveDone, h, regWrite, macModeWord_eq, State.emit]

end Sys2Proof.Machine
end

