-- ==== Sys2Proof/Laws/Transmit.lean ====
section
/-! SUPPORT. What the shared operations of the TX ring do, once each: writing a descriptor, filling the slots of a packet
(41_ring_manager.md R141), walking over slots (R144, 45_lifecycle.md R223). -/

namespace Sys2Proof.Machine

/-! ## Descriptors -/

theorem writeTxDesc_mem (s : State) (i : Nat) (g : Seg) (c e : Bool) :
    (s.writeTxDesc i g c e).mem =
      Memory.writeLE (Memory.writeLE (Memory.writeLE (Memory.writeLE s.mem (txDescAddr s.par i) 8 g.addr.toNat)
        (txDescAddr s.par i + 8) 2 g.len.toNat) (txDescAddr s.par i + 10) 2 (txFlags c e)) (txDescAddr s.par i + 12) 4 0 := by
  simp [State.writeTxDesc]

/-- A TX descriptor as the block writes it, read back field by field (20_memory.md R85). -/
structure TxDescIs (p : Params) (m : List Host.Cell) (i : Nat) (g : Seg) (csum eop : Bool) : Prop where
  addr  : Memory.readLE m (txDescAddr p i) 8 = g.addr.toNat
  len   : Memory.readLE m (txDescAddr p i + 8) 2 = g.len.toNat
  flags : Memory.readLE m (txDescAddr p i + 10) 2 = 2 * csum.toNat + eop.toNat
  rest  : Memory.readLE m (txDescAddr p i + 12) 4 = 0

theorem txFlags_lt (c e : Bool) : txFlags c e < 4 := by cases c <;> cases e <;> decide

theorem writeTxDesc_reads (s : State) (i : Nat) (g : Seg) (c e : Bool) :
    TxDescIs s.par (s.writeTxDesc i g c e).mem i g c e := by
  have h1 := g.addr.isLt
  have h2 := g.len.isLt
  have h3 := txFlags_lt c e
  constructor <;> rw [writeTxDesc_mem]
  · rw [readLE_writeLE_apart _ _ _ _ _ _ (by omega), readLE_writeLE_apart _ _ _ _ _ _ (by omega),
      readLE_writeLE_apart _ _ _ _ _ _ (by omega), readLE_writeLE_same]
    exact Nat.mod_eq_of_lt (by omega)
  · rw [readLE_writeLE_apart _ _ _ _ _ _ (by omega), readLE_writeLE_apart _ _ _ _ _ _ (by omega), readLE_writeLE_same]
    exact Nat.mod_eq_of_lt (by omega)
  · rw [readLE_writeLE_apart _ _ _ _ _ _ (by omega), readLE_writeLE_same]
    exact Nat.mod_eq_of_lt (by omega)
  · rw [readLE_writeLE_same]; rfl

theorem writeTxDesc_sameOutside (s : State) (i : Nat) (g : Seg) (c e : Bool) :
    sameOutside s.mem (s.writeTxDesc i g c e).mem (txDescAddr s.par i) 16 := by
  intro b hb
  unfold outside at hb
  rw [writeTxDesc_mem, byteAt_writeLE, if_neg (by omega), byteAt_writeLE, if_neg (by omega), byteAt_writeLE, if_neg (by omega),
    byteAt_writeLE, if_neg (by omega)]

theorem writeTxDesc_wf (s : State) (i : Nat) (g : Seg) (c e : Bool) (h : Memory.wf s.mem) :
    Memory.wf (s.writeTxDesc i g c e).mem := by
  rw [writeTxDesc_mem]; exact writeLE_wf _ _ _ _ (writeLE_wf _ _ _ _ (writeLE_wf _ _ _ _ (writeLE_wf _ _ _ _ h)))

/-- A descriptor is unchanged by writes outside its 16 bytes. -/
theorem TxDescIs.of_same {p : Params} {m m' : List Host.Cell} {i : Nat} {g : Seg} {c e : Bool} (h : TxDescIs p m i g c e)
    (hs : ∀ b, txDescAddr p i ≤ b → b < txDescAddr p i + 16 → Memory.byteAt m' b = Memory.byteAt m b) :
    TxDescIs p m' i g c e where
  addr  := (readLE_congr _ _ fun b _ _ => hs b (by omega) (by omega)).trans h.addr
  len   := (readLE_congr _ _ fun b _ _ => hs b (by omega) (by omega)).trans h.len
  flags := (readLE_congr _ _ fun b _ _ => hs b (by omega) (by omega)).trans h.flags
  rest  := (readLE_congr _ _ fun b _ _ => hs b (by omega) (by omega)).trans h.rest

/-! ## Filling the slots of a packet -/

/-- What `fillTx` leaves: only memory and the slot array change; each slot of the packet holds the handle, its descriptor the
segment, `EOP` on the last; other slots and bytes are as before. -/
theorem fillTx_spec (h : Handle) (csum : Bool) (segs : List Seg) (i : Nat) (s : State) (hi : i < s.par.n)
    (hk : segs.length ≤ s.par.n) (hl : s.tx.slot.length = s.par.n) :
    ∃ (m : List Host.Cell) (sl : List (Option Handle)),
      fillTx h csum segs i s = { s with tx := { s.tx with slot := sl }, mem := m } ∧
      sl.length = s.par.n ∧
      (∀ j, j < segs.length → sl[(i + j) % s.par.n]? = some (some h)) ∧
      (∀ k, (∀ j, j < segs.length → k ≠ (i + j) % s.par.n) → sl[k]? = s.tx.slot[k]?) ∧
      (∀ j g, segs[j]? = some g →
        TxDescIs s.par m ((i + j) % s.par.n) g csum (decide (j + 1 = segs.length))) ∧
      (∀ a, (∀ j, j < segs.length → outside a (txDescAddr s.par ((i + j) % s.par.n)) 16) →
        Memory.byteAt m a = Memory.byteAt s.mem a) ∧
      (Memory.wf s.mem → Memory.wf m) := by
  induction segs generalizing i s with
  | nil => exact ⟨s.mem, s.tx.slot, rfl, hl, by simp, by simp, by simp, by simp, id⟩
  | cons g rest ih =>
    simp only [List.length_cons] at hk
    obtain ⟨s1, hs1⟩ : ∃ s1, s1 = (s.writeTxDesc i g csum rest.isEmpty).setTxSlot i (some h) := ⟨_, rfl⟩
    have hpar : s1.par = s.par := by simp [hs1]
    have hslot : s1.tx.slot = s.tx.slot.set i (some h) := by simp [hs1]
    have hreads : TxDescIs s.par s1.mem i g csum rest.isEmpty := by
      rw [hs1, setTxSlot_mem]; exact writeTxDesc_reads ..
    have hsame : sameOutside s.mem s1.mem (txDescAddr s.par i) 16 := by
      rw [hs1, setTxSlot_mem]; exact writeTxDesc_sameOutside _ _ _ _ _
    have hwf1 : Memory.wf s.mem → Memory.wf s1.mem := by rw [hs1, setTxSlot_mem]; exact writeTxDesc_wf _ _ _ _ _
    have hs1' : s1 = { s with tx := { s.tx with slot := s.tx.slot.set i (some h) }, mem := s1.mem } := by
      rw [hs1]; simp [State.setTxSlot, State.writeTxDesc, State.memWrite]
    obtain ⟨m, sl, he, hlen, hin, hout, hdesc, hbytes, hwf⟩ :=
      ih (ringInc s.par i) s1 (hpar ▸ ringInc_lt _ _) (by rw [hpar]; omega) (by rw [hslot, hpar, List.length_set, hl])
    simp only [hpar, hslot, inc_add_mod] at hlen hin hout hdesc hbytes hwf
    have hne : ∀ j, j < rest.length → i ≠ (i + (j + 1)) % s.par.n := by
      intro j hj
      have := slot_ne_of_lt (n := s.par.n) (i := i) (j := 0) (k := j + 1) (by omega) (by omega)
      rwa [Nat.add_zero, Nat.mod_eq_of_lt hi] at this
    have hfar : ∀ j, j < rest.length → ∀ b, txDescAddr s.par i ≤ b → b < txDescAddr s.par i + 16 →
        outside b (txDescAddr s.par ((i + (j + 1)) % s.par.n)) 16 := by
      intro j hj b h1 h2
      have := hne j hj
      simp only [txDescAddr, outside] at *
      omega
    refine ⟨m, sl, ?_, hlen, ?_, ?_, ?_, ?_, fun hw => hwf (hwf1 hw)⟩
    · rw [fillTx, ← hs1, he, hs1']
    · intro j hj
      cases j with
      | zero =>
        rw [Nat.add_zero, Nat.mod_eq_of_lt hi, hout i hne]
        simp [hl, hi]
      | succ j => exact hin j (by simpa using hj)
    · intro k hk'
      have h0 := hk' 0 (by simp)
      rw [Nat.add_zero, Nat.mod_eq_of_lt hi] at h0
      rw [hout k fun j hj => hk' (j + 1) (by simpa using hj)]
      simp [Ne.symm h0]
    · intro j g' hj
      cases j with
      | zero =>
        simp only [List.getElem?_cons_zero, Option.some.injEq] at hj
        subst hj
        rw [Nat.add_zero, Nat.mod_eq_of_lt hi]
        have heop : decide (0 + 1 = (g :: rest).length) = rest.isEmpty := by cases rest <;> simp
        rw [heop]
        exact hreads.of_same fun b h1 h2 => hbytes b fun j hj => hfar j hj b h1 h2
      | succ j =>
        have := hdesc j g' (by simpa using hj)
        simpa using this
    · intro a ha
      rw [hbytes a fun j hj => ha (j + 1) (by simpa using hj)]
      have h0 := ha 0 (by simp)
      rw [Nat.add_zero, Nat.mod_eq_of_lt hi] at h0
      exact hsame a h0

/-! ## Walking over slots -/

/-- One slot freed: the event it owes, then the slot empty, the cursor on by one, the free count up by one. -/
theorem freeTxSlot_eq (ev : Handle → Event) (s : State) (hc : s.tx.cons < s.par.n) :
    freeTxSlot ev s =
      ({ s with
          tx := { s.tx with cons := ringInc s.par s.tx.cons, free := s.tx.free + 1, slot := s.tx.slot.set s.tx.cons none }
          port := { s.port with events := s.port.events ++ owedEvents s ev s.tx.cons 1 } },
       (owedEvents s ev s.tx.cons 1).length) := by
  have h : owedEvents s ev s.tx.cons 1 =
      if s.txEop s.tx.cons then ((s.txSlot s.tx.cons).map ev).toList else [] := by
    simp only [owedEvents, List.range_one, List.filterMap_cons, List.filterMap_nil, Nat.add_zero, Nat.mod_eq_of_lt hc]
    by_cases he : s.txEop s.tx.cons = true
    · cases hs : s.txSlot s.tx.cons <;> simp [he]
    · simp [he]
  rw [h, freeTxSlot]
  split
  · cases hs : s.txSlot s.tx.cons <;> simp [State.setTxSlot, State.emit]
  · simp [State.setTxSlot]

theorem owedEvents_succ (s : State) (ev : Handle → Event) (i c : Nat) :
    owedEvents s ev i (c + 1) = owedEvents s ev i 1 ++ owedEvents s ev (i + 1) c := by
  simp only [owedEvents, List.range_succ_eq_map, List.filterMap_cons, List.filterMap_map]
  have : ∀ j, (fun j => if s.txEop ((i + j) % s.par.n) = true then (s.txSlot ((i + j) % s.par.n)).map ev else none) (j + 1)
      = if s.txEop ((i + 1 + j) % s.par.n) = true then (s.txSlot ((i + 1 + j) % s.par.n)).map ev else none := by
    intro j; simp only [show i + (j + 1) = i + 1 + j by omega]
  simp only [List.range_zero, List.filterMap_nil, Function.comp_def, Nat.succ_eq_add_one, this]
  split <;> simp

/-- The events owed depend on the slots walked over only. -/
theorem owedEvents_congr {s t : State} (ev : Handle → Event) (i c : Nat) (hp : t.par = s.par)
    (h : ∀ j, j < c → t.txEop ((i + j) % s.par.n) = s.txEop ((i + j) % s.par.n) ∧
      t.txSlot ((i + j) % s.par.n) = s.txSlot ((i + j) % s.par.n)) : owedEvents t ev i c = owedEvents s ev i c := by
  unfold owedEvents
  apply List.filterMap_congr
  intro j hj
  rw [List.mem_range] at hj
  rw [hp, (h j hj).1, (h j hj).2]

theorem owedEvents_mod (s : State) (ev : Handle → Event) (i c : Nat) :
    owedEvents s ev (i % s.par.n) c = owedEvents s ev i c := by
  simp only [owedEvents, Nat.mod_add_mod]

/-- What a walk over `c` slots leaves: the events in slot order, those slots empty, the cursor and the count moved by `c`. -/
theorem walkTx_spec (ev : Handle → Event) (c : Nat) (s : State) (hc : s.tx.cons < s.par.n) (hl : s.tx.slot.length = s.par.n)
    (hn : c ≤ s.par.n) :
    ∃ sl : List (Option Handle),
      walkTx ev c s =
        ({ s with
            tx := { s.tx with cons := (s.tx.cons + c) % s.par.n, free := s.tx.free + c, slot := sl }
            port := { s.port with events := s.port.events ++ owedEvents s ev s.tx.cons c } },
         (owedEvents s ev s.tx.cons c).length) ∧
      sl.length = s.par.n ∧
      (∀ j, j < c → sl[(s.tx.cons + j) % s.par.n]? = some none) ∧
      ∀ k, (∀ j, j < c → k ≠ (s.tx.cons + j) % s.par.n) → sl[k]? = s.tx.slot[k]? := by
  induction c generalizing s with
  | zero =>
    exact ⟨s.tx.slot, by simp [walkTx, owedEvents, Nat.mod_eq_of_lt hc], hl, by simp, by simp⟩
  | succ c ih =>
    have h1 := freeTxSlot_eq ev s hc
    obtain ⟨sl, he, hlen, hin, hout⟩ := ih (freeTxSlot ev s).1 (by rw [h1]; exact ringInc_lt _ _) (by rw [h1]; simpa using hl)
      (by rw [h1]; show c ≤ s.par.n; omega)
    rw [h1] at he hlen hin hout
    simp only [inc_add_mod] at he hin hout
    have hne : ∀ j, j < c → s.tx.cons ≠ (s.tx.cons + (j + 1)) % s.par.n := by
      intro j hj
      have := slot_ne_of_lt (n := s.par.n) (i := s.tx.cons) (j := 0) (k := j + 1) (by omega) (by omega)
      rwa [Nat.add_zero, Nat.mod_eq_of_lt hc] at this
    have howed : owedEvents { s with
          tx := { s.tx with cons := ringInc s.par s.tx.cons, free := s.tx.free + 1, slot := s.tx.slot.set s.tx.cons none }
          port := { s.port with events := s.port.events ++ owedEvents s ev s.tx.cons 1 } } ev (ringInc s.par s.tx.cons) c
        = owedEvents s ev (s.tx.cons + 1) c := by
      rw [ringInc_eq, ← owedEvents_mod s ev (s.tx.cons + 1)]
      refine owedEvents_congr ev _ c rfl fun j hj => ⟨rfl, ?_⟩
      have := hne j hj
      rw [show s.tx.cons + (j + 1) = s.tx.cons + 1 + j by omega] at this
      simp only [State.txSlot, Nat.mod_add_mod, List.getD_eq_getElem?_getD, List.getElem?_set_ne this]
    refine ⟨sl, ?_, hlen, ?_, ?_⟩
    · rw [walkTx, h1]
      simp only [he, howed, owedEvents_succ s ev s.tx.cons c, List.length_append, List.append_assoc]
      simp [Nat.add_comm, Nat.add_left_comm]
    · intro j hj
      cases j with
      | zero =>
        rw [Nat.add_zero, Nat.mod_eq_of_lt hc, hout s.tx.cons hne]
        simp [hl, hc]
      | succ j => exact hin j (by omega)
    · intro k hk
      have h0 := hk 0 (by omega)
      rw [Nat.add_zero, Nat.mod_eq_of_lt hc] at h0
      rw [hout k fun j hj => hk (j + 1) (by omega)]
      simp [Ne.symm h0]

theorem owedEvents_length_le (s : State) (ev : Handle → Event) (i c : Nat) : (owedEvents s ev i c).length ≤ c := by
  simpa [owedEvents] using List.length_filterMap_le
    (fun j => if s.txEop ((i + j) % s.par.n) = true then (s.txSlot ((i + j) % s.par.n)).map ev else none) (List.range c)

end Sys2Proof.Machine
end

