-- ==== Sys2Proof/Laws/Lifecycle.lean ====
section
/-! SUPPORT. What the procedures of the lifecycle operations do, once each (45_lifecycle.md R220 to R226,
46_environment_agents.md R236). -/

namespace Sys2Proof.Machine

/-! ## Memory zeroed -/

theorem byteAt_zeroed (m : List Host.Cell) (a n b : Nat) :
    Memory.byteAt (Memory.writeLE m a n 0) b = if a ≤ b ∧ b < a + n then 0 else Memory.byteAt m b := by
  rw [byteAt_writeLE]; simp

/-- The bytes of the descriptors of slot `i` of the three rings. -/
def inSlot (p : Params) (i b : Nat) : Prop :=
  ¬ outside b (txDescAddr p i) 16 ∨ ¬ outside b (rxDescAddr p i) 16 ∨ ¬ outside b (rrDescAddr p i) 8

theorem zeroSlot_eq (s : State) (i : Nat) : ∃ m, zeroSlot s i = { s with mem := m } ∧
    (∀ b, inSlot s.par i b → Memory.byteAt m b = 0) ∧ (∀ b, ¬ inSlot s.par i b → Memory.byteAt m b = Memory.byteAt s.mem b) ∧
    (Memory.wf s.mem → Memory.wf m) := by
  refine ⟨(zeroSlot s i).mem, by simp [zeroSlot, State.memWrite], ?_, ?_, ?_⟩ <;>
    simp only [zeroSlot, memWrite_mem, byteAt_zeroed, inSlot, outside]
  · intro b hb
    split
    · rfl
    split
    · rfl
    split
    · rfl
    split
    · rfl
    split
    · rfl
    · omega
  · intro b hb
    rw [if_neg (by omega), if_neg (by omega), if_neg (by omega), if_neg (by omega), if_neg (by omega)]
  · intro h
    exact writeLE_wf _ _ _ _ (writeLE_wf _ _ _ _ (writeLE_wf _ _ _ _ (writeLE_wf _ _ _ _ (writeLE_wf _ _ _ _ h))))

/-- Zeroing the slots of a list changes their bytes only. -/
theorem zeroSlots_spec (l : List Nat) (s : State) : ∃ m, l.foldl zeroSlot s = { s with mem := m } ∧
    (∀ b, (∃ i ∈ l, inSlot s.par i b) → Memory.byteAt m b = 0) ∧
    (∀ b, (∀ i ∈ l, ¬ inSlot s.par i b) → Memory.byteAt m b = Memory.byteAt s.mem b) ∧ (Memory.wf s.mem → Memory.wf m) := by
  induction l generalizing s with
  | nil => exact ⟨s.mem, rfl, by simp, by simp, id⟩
  | cons i rest ih =>
    obtain ⟨m1, h1, hz1, hs1, hw1⟩ := zeroSlot_eq s i
    obtain ⟨m, h, hz, hs, hw⟩ := ih (zeroSlot s i)
    rw [h1] at h hz hs hw
    refine ⟨m, by rw [List.foldl_cons, h1, h], ?_, ?_, fun h => hw (hw1 h)⟩
    · rintro b ⟨j, hj, hb⟩
      by_cases hr : ∃ k ∈ rest, inSlot s.par k b
      · exact hz b hr
      · rcases List.mem_cons.1 hj with rfl | hj
        · rw [hs b fun k hk hin => hr ⟨k, hk, hin⟩]; exact hz1 b hb
        · exact absurd ⟨j, hj, hb⟩ hr
    · intro b hb
      rw [hs b fun k hk => hb k (List.mem_cons_of_mem _ hk)]
      exact hs1 b (hb i (List.mem_cons_self ..))

/-- The descriptor arrays zeroed: every byte of them 0, every other byte as before, nothing else changed. -/
theorem zeroRings_spec (s : State) : ∃ m, zeroRings s = { s with mem := m } ∧
    (∀ i b, i < s.par.n → inSlot s.par i b → Memory.byteAt m b = 0) ∧
    (∀ b, outside b s.par.txBase (16 * s.par.n) → outside b s.par.rxBase (16 * s.par.n) → outside b s.par.rrBase (8 * s.par.n) →
      Memory.byteAt m b = Memory.byteAt s.mem b) ∧ (Memory.wf s.mem → Memory.wf m) := by
  obtain ⟨m, h, hz, hs, hw⟩ := zeroSlots_spec (List.range s.par.n) s
  refine ⟨m, h, fun i b hi hb => hz b ⟨i, List.mem_range.2 hi, hb⟩, fun b h1 h2 h3 => hs b fun i hi hin => ?_, hw⟩
  have hi := List.mem_range.1 hi
  have := txDesc_inside (p := s.par) hi
  have := rxDesc_inside (p := s.par) hi
  have := rrDesc_inside (p := s.par) hi
  unfold inSlot outside at hin
  unfold outside at h1 h2 h3
  omega

/-- `ring_init`: the rings and the poller initial, the descriptor arrays zero; slots of the RX ring, the link, the counters and
the faults as they are. -/
theorem ringInit_spec (s : State) : ∃ m,
    ringInit s = { s with
      tx := emptyTx s.par, rx := { s.rx with prod := 0, rrCons := 0 }, poll := emptyPoller false,
      ctl := { s.ctl with txStalled := false }, mem := m } ∧
    (∀ i b, i < s.par.n → inSlot s.par i b → Memory.byteAt m b = 0) ∧
    (∀ b, outside b s.par.txBase (16 * s.par.n) → outside b s.par.rxBase (16 * s.par.n) → outside b s.par.rrBase (8 * s.par.n) →
      Memory.byteAt m b = Memory.byteAt s.mem b) ∧ (Memory.wf s.mem → Memory.wf m) := by
  obtain ⟨m, h, hz, hs, hw⟩ := zeroRings_spec s
  exact ⟨m, by simp [ringInit, h, emptyTx, emptyPoller], hz, hs, hw⟩

/-- `dev_reset`: the device's cursors and credits, the mailboxes and the status block zero. -/
theorem devReset_spec (s : State) : ∃ m,
    devReset s = { s with
      dev := { active := s.dev.active, txCons := 0, txSeen := 0, txPending := 0, rxCons := 0, rxSeen := 0, rxAvail := 0, rrProd := 0,
               rrSeen := 0, tag := 0 }
      csr := { s.csr with mbTxProd := 0, mbRxProd := 0, mbRrCons := 0 }
      mem := m } ∧
    (∀ b, s.par.sbBase ≤ b → b < s.par.sbBase + 8 → Memory.byteAt m b = 0) ∧ sameOutside s.mem m s.par.sbBase 8 ∧
    (Memory.wf s.mem → Memory.wf m) :=
  ⟨Memory.writeLE s.mem s.par.sbBase 8 0, rfl, fun b h1 h2 => by rw [byteAt_zeroed, if_pos (by omega)],
    writeLE_sameOutside _ _ _ _, writeLE_wf _ _ _ _⟩

/-- `tx_fail_all`: `TxFailed` for every packet in flight; the ring empty and the cursor on by what was in flight. -/
theorem txFailAll_spec (s : State) (hc : s.tx.cons < s.par.n) (hl : s.tx.slot.length = s.par.n) (hf : s.tx.free ≤ s.par.n) :
    ∃ sl : List (Option Handle),
      txFailAll s = { s with
        tx := { s.tx with cons := (s.tx.cons + (s.par.n - s.tx.free)) % s.par.n, free := s.par.n, slot := sl }
        port := { s.port with events := s.port.events ++ owedEvents s .txFailed s.tx.cons (s.par.n - s.tx.free) } } ∧
      sl.length = s.par.n := by
  obtain ⟨sl, h, hlen, _⟩ := walkTx_spec .txFailed (s.par.n - s.tx.free) s hc hl (by omega)
  refine ⟨sl, ?_, hlen⟩
  rw [txFailAll, State.inFlight, h]
  simp only [show s.tx.free + (s.par.n - s.tx.free) = s.par.n by omega]

/-! ## Posting a whole ring -/

/-- Posting buffers from slot `i` on: `k` of them give `k` posts, `k` slots and `k` descriptors. -/
theorem postBuffers_spec (bufs : List Addr) (i : Nat) (s : State) (hn : s.par.n ≤ 32768) (hs : s.dev.rxSeen < s.par.n)
    (hb : s.par.bufcap < 65536) (hl : i + bufs.length ≤ s.rx.slot.length) :
    ∃ (m : List Host.Cell) (sl : List (Option Addr)) (mb : Word) (d : Device),
      postBuffers bufs i s = { s with
        rx := { s.rx with prod := if bufs = [] then s.rx.prod else (s.rx.prod + bufs.length) % s.par.n, slot := sl }
        csr := { s.csr with mbRxProd := mb }, dev := d, mem := m } ∧
      (mb = if bufs = [] then s.csr.mbRxProd else BitVec.ofNat 32 ((s.rx.prod + bufs.length) % s.par.n)) ∧
      sl.length = s.rx.slot.length ∧
      (∀ j, sl[j]? = if i ≤ j ∧ j < i + bufs.length then (bufs[j - i]?).map some else s.rx.slot[j]?) ∧
      (∀ j b, bufs[j]? = some b → RxDescIs s.par m (i + j) b ∧ Memory.readLE m (rxDescAddr s.par (i + j) + 10) 6 = 0) ∧
      (∀ a, (∀ j, j < bufs.length → outside a (rxDescAddr s.par (i + j)) 16) → Memory.byteAt m a = Memory.byteAt s.mem a) ∧
      (d = { s.dev with rxSeen := d.rxSeen, rxAvail := d.rxAvail }) ∧ d.rxSeen < s.par.n ∧
      (s.dev.active = true → s.dev.rxSeen = s.rx.prod → s.dev.rxAvail + bufs.length ≤ s.par.n → 2 ≤ s.par.n →
        d.rxAvail = s.dev.rxAvail + bufs.length ∧
          d.rxSeen = if bufs = [] then s.rx.prod else (s.rx.prod + bufs.length) % s.par.n) ∧
      (Memory.wf s.mem → Memory.wf m) := by
  induction bufs generalizing i s with
  | nil =>
    refine ⟨s.mem, s.rx.slot, s.csr.mbRxProd, s.dev, rfl, by simp, rfl, fun j => ?_, by simp, by simp, rfl, hs, ?_, id⟩
    · rw [if_neg (by simp)]
    · intro _ h _ _; simp [h]
  | cons b rest ih =>
    simp only [List.length_cons] at hl
    obtain ⟨m1, h1, hd1, hz1, ho1, hw1⟩ := rxPost_spec s i b hn hs hb
    obtain ⟨s1, hs1⟩ : ∃ s1, s1 = rxPost s i b := ⟨_, rfl⟩
    rw [← hs1] at h1
    have epar : s1.par = s.par := by rw [h1]; rfl
    have eprod : s1.rx.prod = (s.rx.prod + 1) % s.par.n := by rw [h1]; rfl
    have eslot : s1.rx.slot = s.rx.slot.set i (some b) := by rw [h1]; rfl
    have edev : s1.dev = rxRung s.par s.dev ((s.rx.prod + 1) % s.par.n) := by rw [h1]; rfl
    have emem : s1.mem = m1 := by rw [h1]; rfl
    have embx : s1.csr.mbRxProd = BitVec.ofNat 32 ((s.rx.prod + 1) % s.par.n) := by rw [h1]; rfl
    have eall : ∀ (sl : List (Option Addr)) (pr : Nat) (mb : Word) (d : Device) (m : List Host.Cell),
        ({ s1 with rx := { s1.rx with prod := pr, slot := sl }, csr := { s1.csr with mbRxProd := mb }, dev := d, mem := m } : State) =
        { s with rx := { s.rx with prod := pr, slot := sl }, csr := { s.csr with mbRxProd := mb }, dev := d, mem := m } := by
      intros; rw [h1]; rfl
    obtain ⟨m, sl, mb, d, h, hmb, hlen, hsl, hd, ho, hdev, hseen, hav, hw⟩ := ih (i + 1) s1 (epar ▸ hn)
      (by rw [edev, epar]; exact rxRung_seen_lt (Nat.mod_lt _ s.par.n_pos) hs) (epar ▸ hb)
      (by rw [eslot, List.length_set]; omega)
    have hmod : ∀ k, ((s.rx.prod + 1) % s.par.n + k) % s.par.n = (s.rx.prod + (k + 1)) % s.par.n := by
      intro k; rw [Nat.mod_add_mod]; congr 1; omega
    rw [eall] at h
    simp only [epar, eprod, eslot, edev, emem, embx, hmod] at h hmb hlen hsl hd ho hdev hseen hav hw
    clear eall h1 epar eprod eslot edev emem embx ih
    have hfar : ∀ j, j < rest.length → ∀ a, rxDescAddr s.par i ≤ a → a < rxDescAddr s.par i + 16 →
        outside a (rxDescAddr s.par (i + 1 + j)) 16 := by
      intro j _ a _ _
      simp only [rxDescAddr, outside] at *
      omega
    have hprod : (if rest = [] then (s.rx.prod + 1) % s.par.n else (s.rx.prod + (rest.length + 1)) % s.par.n)
        = (s.rx.prod + (rest.length + 1)) % s.par.n := by
      split
      · next h => simp [h]
      · rfl
    refine ⟨m, sl, mb, d, ?_, ?_, ?_, ?_, ?_, ?_, ?_, hseen, ?_, fun h => hw (hw1 h)⟩
    · rw [postBuffers, ← hs1, h, hprod, if_neg (by simp), List.length_cons]
    · rw [hmb]
      split
      · next h => simp [h]
      · simp
    · rw [hlen, List.length_set]
    · intro j
      rw [hsl j]
      by_cases hj : i + 1 ≤ j ∧ j < i + 1 + rest.length
      · rw [if_pos hj, if_pos (by simp only [List.length_cons]; omega), show j - i = (j - (i + 1)) + 1 by omega, List.getElem?_cons_succ]
      · rw [if_neg hj]
        by_cases hji : j = i
        · subst hji
          rw [if_pos (by simp), List.getElem?_set_self (by omega)]
          simp
        · rw [if_neg (by simp only [List.length_cons]; omega), List.getElem?_set_ne (by omega)]
    · intro j b' hj
      cases j with
      | zero =>
        simp only [List.getElem?_cons_zero, Option.some.injEq] at hj
        subst hj
        rw [Nat.add_zero]
        refine ⟨hd1.of_same fun a h1 h2 => ho a fun j hj => hfar j hj a h1 (by omega), ?_⟩
        rw [← hz1]
        exact readLE_congr _ _ fun a h1 h2 => ho a fun j hj => hfar j hj a (by omega) (by omega)
      | succ j =>
        have := hd j b' (by simpa using hj)
        rwa [show i + 1 + j = i + (j + 1) by omega] at this
    · intro a ha
      rw [ho a fun j hj => by have := ha (j + 1) (by simpa using hj); rwa [show i + 1 + j = i + (j + 1) by omega]]
      exact ho1 a (by simpa using ha 0 (by simp))
    · rw [hdev]
      unfold rxRung
      split <;> rfl
    · intro ha hsn hle h2
      simp only [List.length_cons] at hle
      have hone : ((s.rx.prod + 1) % s.par.n + s.par.n - s.dev.rxSeen) % s.par.n = 1 := by
        rw [hsn]
        by_cases hw : s.rx.prod + 1 < s.par.n
        · rw [Nat.mod_eq_of_lt hw, show s.rx.prod + 1 + s.par.n - s.rx.prod = 1 + s.par.n by omega, Nat.add_mod_right,
            Nat.mod_eq_of_lt (by omega)]
        · have : s.rx.prod + 1 = s.par.n := by omega
          rw [this, Nat.mod_self, show 0 + s.par.n - s.rx.prod = 1 by omega, Nat.mod_eq_of_lt (by omega)]
      have hr : rxRung s.par s.dev ((s.rx.prod + 1) % s.par.n) =
          { s.dev with rxAvail := s.dev.rxAvail + 1, rxSeen := (s.rx.prod + 1) % s.par.n } := by
        unfold rxRung
        rw [if_pos ha, hone, Nat.min_eq_right (by omega)]
      rw [hr] at hav
      obtain ⟨h3, h4⟩ := hav ha rfl (by dsimp only; omega) h2
      refine ⟨by rw [h3, List.length_cons]; dsimp only; omega, ?_⟩
      rw [h4, hprod, if_neg (by simp), List.length_cons]

/-! ## Taking and giving back all buffers -/

/-- With a list of fresh buffers listed, the allocator hands out exactly these. -/
theorem allocMany_listed (bufs : List Addr) (s : State) (rest : List (Option Addr)) (ha : s.env.allocIn = bufs.map some ++ rest)
    (hf : allFresh s.par s.env.live bufs) :
    ∃ lv : List Addr,
      allocMany bufs.length s =
        ({ s with env := { s.env with live := lv, allocIn := rest, allocCalls := s.env.allocCalls + bufs.length } }, bufs, true) ∧
      (∀ b, b ∈ lv ↔ b ∈ bufs ∨ b ∈ s.env.live) ∧
      ∀ p : Addr → Bool, (∀ b ∈ bufs, p b = false) → lv.filter p = s.env.live.filter p := by
  induction bufs generalizing s with
  | nil =>
    refine ⟨s.env.live, ?_, by simp, fun _ _ => rfl⟩
    simp only [List.map_nil, List.nil_append] at ha
    simp [allocMany, ← ha]
  | cons b bufs ih =>
    obtain ⟨hf1, hf2⟩ := hf
    have h1 := alloc_some s b (bufs.map some ++ rest) (by simpa using ha) hf1
    have hcong : ∀ (l : List Addr) (live live' : List Addr), (∀ x, x ∈ live ↔ x ∈ live') → allFresh s.par live l →
        allFresh s.par live' l := by
      intro l
      induction l with
      | nil => intros; trivial
      | cons c l ihl =>
        intro live live' hm h
        exact ⟨by rw [← freshBuffer_congr c hm]; exact h.1, ihl _ _ (fun x => by simp [hm x]) h.2⟩
    obtain ⟨lv, h, hmem, hfil⟩ := ih (s.countCall.addLive b) (by simp [ha])
      (hcong _ _ _ (fun x => by simp [mem_liveInsert]) hf2)
    refine ⟨lv, ?_, ?_, ?_⟩
    · rw [List.length_cons, allocMany, h1]
      simp only [h]
      simp [State.addLive, State.countCall, Nat.add_assoc, Nat.add_comm]
    · intro x
      rw [hmem x]
      simp [mem_liveInsert, or_left_comm, or_assoc]
    · intro p hp
      rw [hfil p fun x hx => hp x (List.mem_cons_of_mem _ hx)]
      simp [filter_liveInsert b _ p (hp b (List.mem_cons_self ..))]

/-- Giving back a list of buffers: one `BufFree` each in order, and `live` without them. -/
theorem freeAll_eq (bufs : List Addr) (s : State) :
    freeAll s bufs = { s with
      env := { s.env with live := s.env.live.filter fun x => decide (x ∉ bufs) }
      port := { s.port with events := s.port.events ++ bufs.map .bufFree } } := by
  induction bufs generalizing s with
  | nil => simp [freeAll]
  | cons b rest ih =>
    rw [freeAll, List.foldl_cons, ← freeAll, ih]
    simp only [freeBuffer, emit_env, dropLive_env, emit_port, dropLive_port, List.filter_filter, List.map_cons, List.append_assoc,
      List.singleton_append]
    simp only [State.emit, State.dropLive]
    congr 2
    apply List.filter_congr
    intro x _
    by_cases hx : x = b <;> simp [hx]

/-- Releasing the receive slots below `k`: their buffers go out in slot order, and the slots are empty
(45_lifecycle.md R224). -/
theorem releaseSlots_eq (s : State) (k : Nat) (hk : k ≤ s.rx.slot.length) :
    (List.range k).foldl releaseSlot s = { s with
      rx := { s.rx with slot := List.replicate k none ++ s.rx.slot.drop k }
      env := { s.env with live := s.env.live.filter fun x => decide (x ∉ (s.rx.slot.take k).filterMap id) }
      port := { s.port with events := s.port.events ++ ((s.rx.slot.take k).filterMap id).map .bufFree } } := by
  induction k with
  | zero => simp
  | succ k ih =>
    have hk' : k < s.rx.slot.length := hk
    rw [List.range_succ, List.foldl_append, ih (by omega), List.foldl_cons, List.foldl_nil]
    have hget : (List.replicate k none ++ s.rx.slot.drop k).getD k none = s.rx.slot[k] := by
      simp [List.getD_eq_getElem?_getD, hk']
    have hdrop : s.rx.slot.drop k = s.rx.slot[k] :: s.rx.slot.drop (k + 1) := (List.cons_getElem_drop_succ (h := hk')).symm
    have htake : s.rx.slot.take (k + 1) = s.rx.slot.take k ++ [s.rx.slot[k]] := by simp
    have hset : List.replicate (k + 1) (none : Option Addr) ++ s.rx.slot.drop (k + 1) =
        List.replicate k none ++ none :: s.rx.slot.drop (k + 1) := by simp [List.replicate_succ']
    unfold releaseSlot State.rxSlot
    simp only [hget, htake, List.filterMap_append, hset]
    cases h : s.rx.slot[k] with
    | none =>
      rw [hdrop, h]
      simp
    | some b =>
      rw [hdrop, h]
      simp only [freeBuffer, State.dropLive, State.emit, State.setRxSlot, List.filter_filter]
      simp [bne, Bool.and_comm, beq_eq_decide]

/-- `rx_release_all()`: every buffer held goes out in slot order, and every slot is empty (45_lifecycle.md R224). -/
theorem rxReleaseAll_eq (s : State) (hn : s.rx.slot.length = s.par.n) :
    rxReleaseAll s = { s with
      rx := { s.rx with slot := List.replicate s.par.n none }
      env := { s.env with live := s.env.live.filter fun x => decide (x ∉ slotBuffers s) }
      port := { s.port with events := s.port.events ++ (slotBuffers s).map .bufFree } } := by
  rw [rxReleaseAll, releaseSlots_eq s _ (by omega)]
  simp [slotBuffers, ← hn]

/-- The end of an operation that leaves the epoch's last value alone or never had it: its result stands on the port. -/
theorem answer_next (s : State) (done : State × Result) (h : s.link.epoch ≠ 0xFFFFFFFF#32 ∨ done.1.link.epoch = s.link.epoch) :
    answer s done = .next (done.1.setResult done.2) := by
  have : epochOverflowed s done.1 = false := by
    rcases h with h | h
    · simp [epochOverflowed, h]
    · simp [epochOverflowed, h]
  simp [answer, this]

/-- Where an operation answered, its result stands on the port of the state it led to. -/
theorem answer_eq_next {s t : State} {done : State × Result} (h : answer s done = .next t) : t = done.1.setResult done.2 := by
  cases hb : epochOverflowed s done.1 <;> simp [answer, hb] at h
  exact h.symm

/-- Where an agent took a step, it was enabled. -/
theorem agentStep_eq_next {en : Bool} {t u : State} (h : agentStep en u = .next t) : en = true ∧ t = u := by
  cases en <;> simp [agentStep] at h
  exact ⟨rfl, h.symm⟩

end Sys2Proof.Machine
end

