-- ==== Sys2Proof/Laws/Pass.lean ====
section
/-! SUPPORT. What the parts of a servicing pass do, once each (42_status_block_poller.md R161 to R165, 41_ring_manager.md R144). -/

namespace Sys2Proof.Machine

/-- The end of a reclamation that freed a slot. -/
theorem noteReclaim_eq (s : State) :
    noteReclaim s = { s with
      poll := { s.poll with wdProgress := true }
      ctl := { s.ctl with txStalled := false }
      port := { s.port with events := s.port.events ++ if s.ctl.txStalled = true then [.resume] else [] } } := by
  unfold noteReclaim
  cases hst : s.ctl.txStalled with
  | true => simp [hst, State.emit]
  | false =>
    rw [show s.ctl = { s.ctl with txStalled := false } by rw [← hst]]
    simp

/-- `tx_reclaim(idx)`: the completed slots freed and reported, `Resume` after them if the queue was stalled; an index that
over-claims frees nothing and sets `fault[0]` (41_ring_manager.md R144). -/
theorem txReclaim_spec (s : State) (idx c w : Nat) (hI : Inv s) (hc : c = (idx % s.par.n + s.par.n - s.tx.cons) % s.par.n)
    (hw : w = reclaimed s c) :
    ∃ sl : List (Option Handle),
      (txReclaim s idx).1 = { s with
        tx := { s.tx with cons := (s.tx.cons + w) % s.par.n, free := s.tx.free + w, slot := sl }
        poll := { s.poll with wdProgress := s.poll.wdProgress || decide (0 < w) }
        ctl := { s.ctl with txStalled := s.ctl.txStalled && decide (w = 0),
                            faultTxIdx := s.ctl.faultTxIdx || decide (s.par.n - s.tx.free < c) }
        port := { s.port with events := s.port.events ++ reclaimEvents s w } } ∧
      ((txReclaim s idx).2.code == .ok && (txReclaim s idx).2.val.extractLsb' 0 16 != 0) = decide (0 < w) ∧
      SlotsFreed s w sl := by
  have hd : ringDist s.par (wrap s.par idx) s.tx.cons = c := by rw [ringDist_eq _ hI.tx_cons_lt, hc]; rfl
  have hcn : c < s.par.n := by rw [hc]; exact Nat.mod_lt _ s.par.n_pos
  have hn := hI.legal.n_le
  by_cases hf : s.par.n - s.tx.free < c
  · have hw0 : w = 0 := by rw [hw, reclaimed, if_neg (by omega)]
    refine ⟨s.tx.slot, ?_, ?_, hI.tx_len, fun j hj => by omega, fun i _ => rfl⟩
    · simp [txReclaim, hd, State.inFlight, hf, hw0, reclaimEvents, owedEvents, Nat.mod_eq_of_lt hI.tx_cons_lt]
    · simp [txReclaim, hd, State.inFlight, hf, hw0, Result.err]
  · have hwc : w = c := by rw [hw, reclaimed, if_pos (by omega)]
    subst hwc
    obtain ⟨sl, hs, hlen, hfr, hot⟩ := walkTx_spec .txDone w s hI.tx_cons_lt hI.tx_len (by omega)
    refine ⟨sl, ?_, ?_, hlen, hfr, hot⟩
    · simp only [txReclaim, hd, State.inFlight, hf, if_false, hs]
      by_cases h0 : 0 < w
      · simp [h0, noteReclaim_eq, reclaimEvents, Nat.ne_of_gt h0]
      · simp [show w = 0 by omega, reclaimEvents]
    · have h32 : ∀ a : BitVec 48, (a ++ BitVec.ofNat 16 w).extractLsb' 0 16 = BitVec.ofNat 16 w := by
        intro a
        apply BitVec.eq_of_getLsbD_eq
        intro i hi
        rw [BitVec.getLsbD_extractLsb', BitVec.getLsbD_append]
        simp [hi]
      have h16 : BitVec.ofNat 16 w = 0#16 ↔ w = 0 := by
        rw [← BitVec.toNat_inj]
        simp only [BitVec.toNat_ofNat]
        omega
      simp only [txReclaim, hd, State.inFlight, hf, if_false, hs, Result.okVal]
      erw [h32]
      rw [Bool.eq_iff_iff]
      simp [h16, Nat.pos_iff_ne_zero]

/-! ## The status block -/

/-- The one 8-byte read gives the fields that stand in it (42_status_block_poller.md R162, 20_memory.md R88). -/
theorem statusBlock_fields (s : State) :
    sbTxCons s.par (statusBlock s) = s.memRead s.par.sbBase 2 % s.par.n ∧
    sbRrProd s.par (statusBlock s) = s.memRead (s.par.sbBase + 2) 2 % s.par.n ∧
    sbTag (statusBlock s) = BitVec.ofNat 32 (s.memRead (s.par.sbBase + 4) 4) := by
  have h1 := readLE_lt s.mem s.par.sbBase 2
  have h2 := readLE_lt s.mem (s.par.sbBase + 2) 2
  have h3 := readLE_lt s.mem (s.par.sbBase + 4) 4
  have e1 := readLE_add s.mem s.par.sbBase 2 6
  have e2 := readLE_add s.mem (s.par.sbBase + 2) 2 4
  simp only [Nat.reduceAdd, Nat.add_assoc] at e1 e2
  rw [e2] at e1
  unfold statusBlock State.memRead
  rw [e1]
  generalize Memory.readLE s.mem s.par.sbBase 2 = a at *
  generalize Memory.readLE s.mem (s.par.sbBase + 2) 2 = b at *
  generalize Memory.readLE s.mem (s.par.sbBase + 4) 4 = c at *
  refine ⟨?_, ?_, ?_⟩
  · simp only [sbTxCons, wrap, BitVec.extractLsb'_toNat, BitVec.toNat_ofNat, Nat.shiftRight_zero]
    refine congrArg (· % s.par.n) ?_
    omega
  · simp only [sbRrProd, wrap, BitVec.extractLsb'_toNat, BitVec.toNat_ofNat, Nat.shiftRight_eq_div_pow]
    refine congrArg (· % s.par.n) ?_
    omega
  · apply BitVec.eq_of_toNat_eq
    simp only [sbTag, BitVec.extractLsb'_toNat, BitVec.toNat_ofNat, Nat.shiftRight_eq_div_pow]
    omega

/-- The work summary of a pass without a link change, as a sum of its fields (42_status_block_poller.md R165). -/
theorem workSummary_eq (nd : Nat) (txr : Bool) (h : nd < 65536) :
    workSummary nd false txr = BitVec.ofNat 64 (65536 * nd + if txr then 1 else 0) := by
  apply BitVec.eq_of_toNat_eq
  unfold workSummary
  have h1 : ∀ (x : BitVec 16), (0#32 ++ x ++ 0#14 ++ flagBit false ++ flagBit txr).toNat =
      65536 * x.toNat + if txr then 1 else 0 := by
    intro x
    have hor := Nat.two_pow_add_eq_or_of_lt (i := 1) (b := 1) (by omega) (x.toNat * 32768)
    simp only [BitVec.toNat_append]
    cases txr
    · simp [flagBit, Nat.shiftLeft_eq]; omega
    · simp [flagBit, Nat.shiftLeft_eq]
      rw [show x.toNat * 16384 * 2 * 2 = 2 ^ 1 * (x.toNat * 32768) by omega, ← hor]; omega
  erw [h1]
  simp only [BitVec.toNat_ofNat]
  split <;> omega

/-! ## The link's part -/

/-- A pass that keeps the gate open only takes the pending link interrupt (44_link_fsm.md R191, R205 (d)). -/
theorem serviceLink_open (s : State) (h : GateStaysOpen s) :
    serviceLink s = { s with poll := { s.poll with irqLink := false } } := by
  unfold serviceLink
  by_cases hi : s.poll.irqLink = true
  · obtain ⟨hu, hp⟩ := h hi
    rw [if_pos hi, linkService]
    simp [hu, hp, regRead, phyLinkOk]
  · rw [if_neg hi]
    have hp : s.poll = { s.poll with irqLink := false } := by rw [← Bool.eq_false_iff.2 hi]
    exact congrArg (fun p => { s with poll := p }) hp

end Sys2Proof.Machine
end

