-- ==== Sys2Proof/Laws/PerInstr.lean ====
section
/-! SUPPORT. A family of facts about each instruction as syntax: the command word it is written as is the word of its own row of
the opcode map, 30_encoding.md R112, and stands on the port its opcode belongs to (R116). -/

namespace Sys2Proof.Laws

/-- A command word masked field by field. -/
theorem mkCmd_and (op a mo ma : BitVec 8) (b mb : BitVec 16) :
    mkCmd op a b &&& mkCmd mo ma mb = mkCmd (op &&& mo) (a &&& ma) (b &&& mb) := by
  have h8 : ∀ (x y x' y' : BitVec 8), (x ++ y) &&& (x' ++ y') = (x &&& x') ++ (y &&& y') := fun x y x' y' => by
    ext i hi
    simp only [BitVec.getElem_and, BitVec.getElem_append]
    split <;> rfl
  have h16 : ∀ (x x' : BitVec 16) (y y' : BitVec 16), (x ++ y) &&& (x' ++ y') = (x &&& x') ++ (y &&& y') := fun x x' y y' => by
    ext i hi
    simp only [BitVec.getElem_and, BitVec.getElem_append]
    split <;> rfl
  exact (h16 (op ++ a) (mo ++ ma) b mb).trans (by rw [h8]; rfl)

/-- A command word hits a row when its three fields do. -/
theorem hits_mkCmd (r : OpRow) (op a mo ma vo va : BitVec 8) (b mb vb : BitVec 16) (hm : r.mask = mkCmd mo ma mb)
    (hv : r.value = mkCmd vo va vb) (h1 : op &&& mo = vo) (h2 : a &&& ma = va) (h3 : b &&& mb = vb) :
    r.hits (mkCmd op a b) = true := by
  rw [OpRow.hits, hm, hv, mkCmd_and, h1, h2, h3]
  exact beq_self_eq_true _

/-- The opcode field of a command word. -/
theorem cmdOp_mkCmd (op a : BitVec 8) (b : BitVec 16) : cmdOp (mkCmd op a b) = op := by
  apply BitVec.eq_of_getLsbD_eq
  intro i hi
  rw [cmdOp, BitVec.getLsbD_extractLsb', mkCmd]
  change (decide (i < 8) && BitVec.getLsbD (w := 8 + 8 + 16) ((op ++ a) ++ b) (24 + i)) = _
  rw [BitVec.getLsbD_append, BitVec.getLsbD_append, if_neg (by omega), if_neg (by omega)]
  simp [hi, show 24 + i - 16 - 8 = i by omega]

namespace EncodeMatchesRow

/-- The command word of a well-formed instruction hits the row of its mnemonic, and its opcode's port is the instruction's. -/
def Statement (i : Instr) : Prop :=
  i.WellFormed → portOfOpcode (cmdOp (encode i).cmd) = i.port ∧
    ∃ row ∈ opcodeMap, row.mnemonic = i.mnemonic ∧ row.hits (encode i).cmd = true

/-- One row of the map, given with its fields, settles the statement. -/
theorem of_row {i : Instr} (n : Nat) (op a mo ma vo va : BitVec 8) (b mb vb : BitVec 16) (row : OpRow)
    (hr : opcodeMap[n]? = some row) (hn : row.mnemonic = i.mnemonic) (he : (encode i).cmd = mkCmd op a b)
    (hp : portOfOpcode op = i.port) (hm : row.mask = mkCmd mo ma mb) (hv : row.value = mkCmd vo va vb)
    (h1 : op &&& mo = vo) (h2 : a &&& ma = va) (h3 : b &&& mb = vb) : Statement i := by
  intro _
  rw [he]
  exact ⟨by rw [cmdOp_mkCmd, hp], row, List.mem_of_getElem? hr, hn, hits_mkCmd row _ _ _ _ _ _ _ _ _ hm hv h1 h2 h3⟩

theorem rdreg (off : BitVec 16) : Statement (.rdreg off) :=
  of_row 0 0x01 0 0xff 0xff 0x01 0 off 0x0 0 _ rfl rfl rfl rfl rfl rfl rfl rfl BitVec.and_zero

theorem wrreg (off : BitVec 16) (val : Word) : Statement (.wrreg off val) :=
  of_row 1 0x02 0 0xff 0xff 0x02 0 off 0x0 0 _ rfl rfl rfl rfl rfl rfl rfl rfl BitVec.and_zero

theorem rdind (addr : Word) : Statement (.rdind addr) :=
  of_row 2 0x03 0 0xff 0xff 0x03 0 0 0xffff 0 _ rfl rfl rfl rfl rfl rfl rfl rfl rfl

theorem wrind (addr : Word) (val : Word) : Statement (.wrind addr val) :=
  of_row 3 0x04 0 0xff 0xff 0x04 0 0 0xffff 0 _ rfl rfl rfl rfl rfl rfl rfl rfl rfl

theorem doorbell (off : BitVec 16) (val : Word) : Statement (.doorbell off val) :=
  of_row 4 0x05 0 0xff 0xff 0x05 0 off 0x0 0 _ rfl rfl rfl rfl rfl rfl rfl rfl BitVec.and_zero

theorem setbit (off : BitVec 16) (mask : Word) : Statement (.setbit off mask) :=
  of_row 5 0x06 0 0xff 0xff 0x06 0 off 0x0 0 _ rfl rfl rfl rfl rfl rfl rfl rfl BitVec.and_zero

theorem clrbit (off : BitVec 16) (mask : Word) : Statement (.clrbit off mask) :=
  of_row 6 0x07 0 0xff 0xff 0x07 0 off 0x0 0 _ rfl rfl rfl rfl rfl rfl rfl rfl BitVec.and_zero

theorem txpost (csum : Bool) (h : Handle) (segs : List Seg) : Statement (.txpost csum h segs) :=
  of_row 7 0x10 (BitVec.ofNat 8 segs.length) 0xff 0x0 0x10 0 ((0 : BitVec 15) ++ BitVec.ofBool csum) 0xfffe 0 _ rfl rfl rfl rfl rfl rfl rfl BitVec.and_zero (by cases csum <;> decide)

theorem txreclaim (idx : BitVec 16) : Statement (.txreclaim idx) :=
  of_row 8 0x11 0 0xff 0xff 0x11 0 idx 0x0 0 _ rfl rfl rfl rfl rfl rfl rfl rfl BitVec.and_zero

theorem rxpost (slot : BitVec 16) (buf : Addr) : Statement (.rxpost slot buf) :=
  of_row 9 0x12 0 0xff 0xff 0x12 0 slot 0x0 0 _ rfl rfl rfl rfl rfl rfl rfl rfl BitVec.and_zero

theorem rrdrain (idx : BitVec 16) : Statement (.rrdrain idx) :=
  of_row 10 0x13 0 0xff 0xff 0x13 0 idx 0x0 0 _ rfl rfl rfl rfl rfl rfl rfl rfl BitVec.and_zero

theorem rxrefill (slot : BitVec 16) : Statement (.rxrefill slot) :=
  of_row 11 0x14 0 0xff 0xff 0x14 0 slot 0x0 0 _ rfl rfl rfl rfl rfl rfl rfl rfl BitVec.and_zero

theorem onint : Statement (.onint) :=
  of_row 12 0x20 0 0xff 0xff 0x20 0 0 0xffff 0 _ rfl rfl rfl rfl rfl rfl rfl rfl rfl

theorem wdtick : Statement (.wdtick) :=
  of_row 13 0x21 0 0xff 0xff 0x21 0 0 0xffff 0 _ rfl rfl rfl rfl rfl rfl rfl rfl rfl

theorem submit (csum : Bool) (h : Handle) (segs : List Seg) : Statement (.submit csum h segs) :=
  of_row 14 0x30 (BitVec.ofNat 8 segs.length) 0xff 0x0 0x30 0 ((0 : BitVec 15) ++ BitVec.ofBool csum) 0xfffe 0 _ rfl rfl rfl rfl rfl rfl rfl BitVec.and_zero (by cases csum <;> decide)

theorem lnkauto (adv : BitVec 2) (caps : BitVec 6) : Statement (.lnkauto adv caps) :=
  of_row 15 0x40 0 0xff 0xff 0x40 0 ((0 : BitVec 8) ++ adv ++ caps) 0xff00 0 _ rfl rfl rfl rfl rfl rfl rfl rfl (by revert adv caps; decide)

theorem lnkforce (duplex : Bool) (speed : BitVec 2) : Statement (.lnkforce duplex speed) :=
  of_row 16 0x41 0 0xff 0xff 0x41 0 ((0 : BitVec 13) ++ BitVec.ofBool duplex ++ speed) 0xfff8 0 _ rfl rfl rfl rfl rfl rfl rfl rfl (by revert duplex speed; decide)

theorem resdone (e : Word) : Statement (.resdone e) :=
  of_row 17 0x42 0 0xff 0xff 0x42 0 0 0xffff 0 _ rfl rfl rfl rfl rfl rfl rfl rfl rfl

theorem start : Statement (.start) :=
  of_row 18 0x50 0 0xff 0xff 0x50 0 0 0xffff 0 _ rfl rfl rfl rfl rfl rfl rfl rfl rfl

theorem stop : Statement (.stop) :=
  of_row 19 0x51 0 0xff 0xff 0x51 0 0 0xffff 0 _ rfl rfl rfl rfl rfl rfl rfl rfl rfl

theorem adpreset : Statement (.adpreset) :=
  of_row 20 0x52 0 0xff 0xff 0x52 0 0 0xffff 0 _ rfl rfl rfl rfl rfl rfl rfl rfl rfl

theorem devtx (k : BitVec 8) : Statement (.devtx k) :=
  of_row 21 0x60 k 0xff 0x0 0x60 0 0 0xffff 0 _ rfl rfl rfl rfl rfl rfl rfl BitVec.and_zero rfl

theorem devrx (flags : BitVec 2) (err : BitVec 2) (len : BitVec 16) : Statement (.devrx flags err len) :=
  of_row 22 0x61 ((0 : BitVec 4) ++ flags ++ err) 0xff 0xf0 0x61 0 len 0x0 0 _ rfl rfl rfl rfl rfl rfl rfl (by revert flags err; decide) BitVec.and_zero

theorem devsb : Statement (.devsb) :=
  of_row 23 0x62 0 0xff 0xff 0x62 0 0 0xffff 0 _ rfl rfl rfl rfl rfl rfl rfl rfl rfl

theorem physet (status : BitVec 8) : Statement (.physet status) :=
  fun h => of_row (i := .physet status) 24 0x63 0 0xff 0xff 0x63 0 ((0 : BitVec 8) ++ status) 0xff20 0 _ rfl rfl rfl rfl rfl rfl rfl rfl
    (by change phyStatusOk status = true at h; revert status; decide) h

end EncodeMatchesRow

end Sys2Proof.Laws
end

