-- ==== Sys2Proof/Tests/Slice0.lean ====
section
/-! SUPPORT. Tests of the model against 95_test_vectors.md and hand calculation from the rules, ill-formed terms for each
well-formedness check, and for each obligation with hypotheses a concrete state and operands that meet them. -/

namespace Sys2Proof.Tests

set_option Elab.async false

open Sys2Proof.Machine

/-! ## Well-formedness refuses ill-formed terms -/

/-- 256 segments do not fit the 8-bit field `nseg`, 255 do (30_encoding.md R113). -/
theorem test_wellformed_segment_count :
    segCountOk (List.replicate 256 ⟨0, 1⟩) = false ∧ segCountOk (List.replicate 255 ⟨0, 1⟩) = true := by
  decide +kernel

theorem test_wellformed_refuses_txpost (csum : Bool) (h : Handle) :
    (Instr.txpost csum h (List.replicate 256 ⟨0, 1⟩)).wellFormed = false := test_wellformed_segment_count.1

theorem test_wellformed_refuses_submit (csum : Bool) (h : Handle) :
    (Instr.submit csum h (List.replicate 256 ⟨0, 1⟩)).wellFormed = false := test_wellformed_segment_count.1

/-- A PHY status with bit 5 set has no encoding (30_encoding.md R113). -/
theorem test_wellformed_refuses_physet : (Instr.physet 0x20).wellFormed = false ∧ (Instr.physet 0xDB).wellFormed = true := by
  decide

/-! ## Decoding the words of 95_test_vectors.md section 3.1 -/

/-- A request on the host port. -/
def hostWord (cmd : BitVec 32) (d : BitVec 64) : Request := ⟨.host, cmd, d, []⟩

theorem test_decode_rdreg : decode (hostWord 0x01000034 0) = some (.rdreg 0x34) := by decide
theorem test_decode_wrreg : decode (hostWord 0x02000040 0xFF) = some (.wrreg 0x40 0xFF) := by decide
theorem test_decode_rdind : decode (hostWord 0x03000000 0x10) = some (.rdind 0x10) := by decide
theorem test_decode_wrind : decode (hostWord 0x04000000 0x0000123400000010) = some (.wrind 0x10 0x1234) := by decide
theorem test_decode_doorbell : decode (hostWord 0x05000080 5) = some (.doorbell 0x80 5) := by decide
theorem test_decode_setbit : decode (hostWord 0x06000044 2) = some (.setbit 0x44 2) := by decide
theorem test_decode_clrbit : decode (hostWord 0x0700004C 0x18) = some (.clrbit 0x4C 0x18) := by decide
theorem test_decode_txpost :
    decode ⟨.host, 0x10020001, 0xA1, [0x00000000000310000064, 0x000000000003200000C8]⟩ =
      some (.txpost true 0xA1 [⟨0x31000, 100⟩, ⟨0x32000, 200⟩]) := by decide
theorem test_decode_txreclaim : decode (hostWord 0x11000003 0) = some (.txreclaim 3) := by decide
theorem test_decode_rxpost : decode (hostWord 0x12000002 0x40000) = some (.rxpost 2 0x40000) := by decide
theorem test_decode_rrdrain : decode (hostWord 0x13000001 0) = some (.rrdrain 1) := by decide
theorem test_decode_rxrefill : decode (hostWord 0x14000005 0) = some (.rxrefill 5) := by decide
theorem test_decode_onint : decode (hostWord 0x20000000 0) = some .onint := by decide
theorem test_decode_wdtick : decode (hostWord 0x21000000 0) = some .wdtick := by decide
theorem test_decode_submit :
    decode ⟨.host, 0x30020000, 0xF0, [0x00000000000310000064, 0x000000000003200000C8]⟩ =
      some (.submit false 0xF0 [⟨0x31000, 100⟩, ⟨0x32000, 200⟩]) := by decide
theorem test_decode_lnkauto : decode (hostWord 0x4000007E 0) = some (.lnkauto 1 0x3E) := by decide
theorem test_decode_lnkforce : decode (hostWord 0x41000006 0) = some (.lnkforce true 2) := by decide
theorem test_decode_resdone : decode (hostWord 0x42000000 1) = some (.resdone 1) := by decide
theorem test_decode_start : decode (hostWord 0x50000000 0) = some .start := by decide
theorem test_decode_stop : decode (hostWord 0x51000000 0) = some .stop := by decide
theorem test_decode_adpreset : decode (hostWord 0x52000000 0) = some .adpreset := by decide
theorem test_decode_devtx : decode ⟨.device, 0x60030000, 0, []⟩ = some (.devtx 3) := by decide
theorem test_decode_devrx : decode ⟨.device, 0x610C0064, 0, []⟩ = some (.devrx 3 0 100) := by decide
theorem test_decode_devsb : decode ⟨.device, 0x62000000, 0, []⟩ = some .devsb := by decide
theorem test_decode_physet : decode ⟨.phy, 0x630000DB, 0, []⟩ = some (.physet 0xDB) := by decide

/-- The illegal words of 95_test_vectors.md section 3.1, X-1 to X-17. -/
theorem test_decode_illegal_words :
    ([0x00000000, 0x08000000, 0x0F000000, 0x15000000, 0x1F000000, 0x22000000, 0x2F000000, 0x31000000, 0x3F000000,
      0x43000000, 0x4F000000, 0x53000000, 0x5F000000, 0x64000000, 0xFF000000, 0xFFFFFFFF, 0x20000001, 0x20010000, 0x01010000,
      0x03000010, 0x10010002, 0x30018000, 0x11010003, 0x14010005, 0x40000100, 0x41000008, 0x42000001, 0x50000001, 0x51FF0000,
      0x52000100] : List (BitVec 32)).all (fun cmd => decide (decode (hostWord cmd 0) = none)) = true := by decide +kernel

/-- X-18: an agent's word on the host port. -/
theorem test_decode_agent_words_on_host :
    ([0x60030000, 0x610C0064, 0x62000000, 0x630000DB] : List (BitVec 32)).all
      (fun cmd => decide (decode (hostWord cmd 0) = none)) = true := by decide +kernel

/-- X-19 to X-21: malformed agent words. -/
theorem test_decode_malformed_agent_words :
    decode ⟨.device, 0x60030001, 0, []⟩ = none ∧ decode ⟨.device, 0x61100064, 0, []⟩ = none ∧
      decode ⟨.phy, 0x630000FB, 0, []⟩ = none := by decide

/-- The event records of 95_test_vectors.md section 3.1. -/
theorem test_event_records :
    (Event.txDone 0xA0).record = 0x800000000000000000000000A0 ∧
    (Event.txFailed 0xD1).record = 0x810000000000000000000000D1 ∧
    (Event.deliver 0x20000 100 true true).record = 0x82000000000002000000030064 ∧
    (Event.bufFree 0x21000).record = 0x83000000000002100000000000 ∧
    Event.resume.record = 0x84000000000000000000000000 := by decide

/-! ## Small states: four slots, two segments -/

/-- A small configuration: `N = 4`, `MAXSEG = 2`, the regions one after the other from 0x1000. -/
def tiny : Params where
  logn        := 2
  maxseg      := 2
  maxpkt      := 100
  bufcap      := 128
  wdTimeout   := 2
  negTimeout  := 2
  negRetryMax := 1
  negFallback := .fbLinkDown
  renegOnLoss := false
  txBase      := 0x1000
  rxBase      := 0x1040
  rrBase      := 0x1080
  sbBase      := 0x10A0
  csrBase     := 0
  imemWords   := 2

/-- The same with a forced fallback and re-negotiation on loss. -/
def tiny2 : Params := { tiny with negFallback := .fbForced 1 false, renegOnLoss := true }

theorem tiny_legal : tiny.Legal := by constructor <;> decide

theorem tiny2_legal : tiny2.Legal := by constructor <;> decide

/-- Bytes listed from an address on. -/
def listed : Nat → List Nat → List Host.Cell
  | _, [] => []
  | a, b :: rest => (a, BitVec.ofNat 8 b) :: listed (a + 1) rest

/-- The machine after reset, with an answer of the allocator for each slot. -/
def off : State :=
  { State.resetOf tiny with
    env := { live := [], resolvePending := [], allocIn := [some 0x2000, some 0x2080, some 0x2100, some 0x2180], allocCalls := 0 } }

/-- Enabled, link forced up at 1000 Mb/s full duplex, four buffers posted, nothing in flight. TX descriptor 0 has `EOP`, RX
descriptor 0 the capacity 128. The status block shows the given
indices, and return descriptors 0 and 1 name slots 0 and the given one, with length 64. -/
def onWith (p : Params) (slot1 txc rrp : Nat) : State :=
  { State.resetOf p with
    rx := { prod := 0, slot := [some 0x2000, some 0x2080, some 0x2100, some 0x2180], rrCons := 0 }
    ctl := { (State.resetOf p).ctl with enabled := true }
    link := { (State.resetOf p).link with state := .up, up := true, epoch := 1, mode := .forced 2 true, curSpeed := 2,
                                          curDuplex := true }
    csr := { (State.resetOf p).csr with devCtrlEn := true }
    dev := { (State.resetOf p).dev with active := true, rxAvail := 4 }
    env := { live := [0x2000, 0x2080, 0x2100, 0x2180], resolvePending := [], allocIn := [some 0x2200], allocCalls := 4 }
    mem := listed 0x100A [1, 0] ++ listed 0x1048 [128, 0] ++ listed 0x1080 [0, 0, 64, 0, 3, 0, 0, 0, slot1, 0, 64, 0, 3, 0, 0, 0] ++
      listed 0x10A0 [txc, 0, rrp, 0, 1, 0, 0, 0] }

/-- The ordinary running machine. -/
def on : State := onWith tiny 1 0 0

/-- One packet of one segment in flight, handle 7, in slot 0. -/
def busyWith (txc : Nat) : State :=
  { onWith tiny 1 txc 0 with tx := { prod := 1, free := 3, cons := 0, slot := [some 7, none, none, none] } }

def busy : State := busyWith 1

/-- The running machine with the link part replaced. -/
def linked (p : Params) (st : LinkState) (m : LinkMode) (irq : Bool) (phy : Word) : State :=
  { onWith p 1 0 0 with
    link := { (State.resetOf p).link with state := st, up := decide (st = .up), epoch := 1, mode := m }
    poll := { (State.resetOf p).poll with irqLink := irq }
    csr := { (State.resetOf p).csr with devCtrlEn := true, phyStatus := phy } }

/-- A negotiation with the given counts. -/
def negotiating (p : Params) (ticks : BitVec 16) (retries : BitVec 8) : State :=
  { onWith p 1 0 0 with
    link := { (State.resetOf p).link with state := .negotiating, epoch := 1, negTicks := ticks, negRetries := retries } }

/-- The machine with a request on its list. -/
def asked (s : State) (x : Stimulus) : State := { s with port := { s.port with pending := [x] } }

/-- The invariant of a concrete state, from checks that can be evaluated. -/
theorem inv_of {s : State} (hl : s.par.Legal)
    (h : Memory.wf s.mem ∧ canonical s.imem = true ∧ s.tx.slot.length = s.par.n ∧ s.rx.slot.length = s.par.n ∧
      s.tx.prod < s.par.n ∧ s.tx.cons < s.par.n ∧ s.tx.free ≤ s.par.n ∧
      s.tx.prod = (s.tx.cons + (s.par.n - s.tx.free)) % s.par.n ∧
      (∀ k, k < s.par.n → ((s.txSlot ((s.tx.cons + k) % s.par.n)).isSome = true ↔ k < s.par.n - s.tx.free)) ∧
      s.rx.prod < s.par.n ∧ s.rx.rrCons < s.par.n ∧
      (s.ctl.enabled = true → ∀ i, i < s.par.n → (s.rxSlot i).isSome = true) ∧
      (s.ctl.enabled = false → ∀ i, i < s.par.n → s.rxSlot i = none) ∧
      s.poll.snapTxCons < s.par.n ∧ s.poll.snapRrProd < s.par.n ∧ s.poll.wdStallTicks.toNat < s.par.wdTimeout)
    (h2 : (s.link.up = true ↔ s.link.state = .up) ∧ (s.ctl.enabled = false → s.link.state = .down) ∧
      (s.link.up = false → s.link.curSpeed = 0 ∧ s.link.curDuplex = false ∧ s.link.fcRx = false ∧ s.link.fcTx = false) ∧
      s.link.negTicks.toNat ≤ s.par.negTimeout ∧
      (s.link.state = .negotiating → s.link.negTicks.toNat < s.par.negTimeout) ∧
      s.link.negRetries.toNat ≤ s.par.negRetryMax ∧ (∀ sp dp, s.link.mode = .forced sp dp → sp ≠ 3) ∧
      s.link.resSpeed ≠ 3 ∧ s.link.curSpeed ≠ 3 ∧ phySpeed s.csr.phyStatus ≠ 3 ∧ s.csr.phyAdv.toNat < 256 ∧
      s.csr.phyCtrl &&& 0b11101#32 = s.csr.phyCtrl ∧ s.csr.phyStatus.toNat < 256 ∧ s.csr.macMode.toNat < 32)
    (h3 : s.csr.mbTxProd.toNat < 65536 ∧ s.csr.mbRxProd.toNat < 65536 ∧ s.csr.mbRrCons.toNat < 65536 ∧
      s.dev.active = s.csr.devCtrlEn ∧ s.dev.txCons < s.par.n ∧ s.dev.txSeen < s.par.n ∧ s.dev.txPending ≤ s.par.n ∧
      s.dev.rxCons < s.par.n ∧ s.dev.rxSeen < s.par.n ∧ s.dev.rxAvail ≤ s.par.n ∧ s.dev.rrProd < s.par.n ∧
      s.dev.rrSeen < s.par.n ∧ (s.env.live.Pairwise fun a b => a.toNat < b.toNat) ∧
      (s.env.resolvePending.Pairwise fun a b => a.toNat ≤ b.toNat)) : Inv s := by
  obtain ⟨a1, a2, a3, a4, a5, a6, a7, a8, a9, a10, a11, a12, a13, a14, a15, a16⟩ := h
  obtain ⟨b1, b2, b3, b4, b5, b6, b7, b8, b9, b10, b11, b12, b13, b14⟩ := h2
  obtain ⟨c1, c2, c3, c4, c5, c6, c7, c8, c9, c10, c11, c12, c13, c14⟩ := h3
  exact ⟨hl, a1, a2, a3, a4, a5, a6, a7, a8, a9, a10, a11, a12, a13, a14, a15, a16, b1, b2, b3, b4, b5, b6, b7, b8, b9, b10, b11,
    b12, b13, b14, c1, c2, c3, c4, c5, c6, c7, c8, c9, c10, c11, c12, c13, c14⟩

theorem inv_off : Inv off := inv_of tiny_legal (by decide) (by decide) (by decide)

theorem inv_on : Inv on := inv_of tiny_legal (by decide) (by decide) (by decide)

theorem inv_busy : Inv busy := inv_of tiny_legal (by decide) (by decide) (by decide)

/-! ## One step each, by hand from the rules -/

/-- The next state, where there is one. -/
def after (o : Host.Outcome State Fault Refusal) : Option State :=
  match o with
  | .next t => some t
  | .fault _ => none
  | .refused _ => none

/-- The result of a request. -/
def answered (o : Host.Outcome State Fault Refusal) : Option Result := (after o).bind (·.port.result)

/-- The events emitted, for a machine that had none. -/
def emitted (o : Host.Outcome State Fault Refusal) : Option (List Event) := (after o).map (·.port.events)

/-- 10_state.md R48: `LINK_CFG` reads 0x00000FF0 after reset. -/
theorem test_rdreg_link_cfg : answered (exec (.rdreg 0x34) State.reset) = some ⟨.ok, 0xFF0⟩ := by decide
theorem test_rdreg_odd_offset : answered (exec (.rdreg 0x02) State.reset) = some ⟨.badOperand, 0⟩ := by decide
theorem test_wrreg_phy_adv : (after (exec (.wrreg 0x40 0x1FF) State.reset)).map (·.csr.phyAdv) = some 0xFF := by decide
theorem test_wrreg_read_only : after (exec (.wrreg 0x08 1) State.reset) =
    some { State.reset with port := { State.reset.port with result := some ⟨.ok, 0⟩ } } := by decide
theorem test_wrind_stores : (after (exec (.wrind 0x10 0x1234) State.reset)).map (·.imem) = some [(4, 0x1234)] := by decide
theorem test_rdind_reads : answered (exec (.rdind 0x10) { State.reset with imem := [(4, 0x1234)] }) = some ⟨.ok, 0x1234⟩ := by
  decide
/-- 46_environment_agents.md R237: index 5 is 1 in a ring of four. -/
theorem test_doorbell_tx : (after (exec (.doorbell 0x80 5) on)).map (fun t => (t.csr.mbTxProd, t.dev.txPending)) = some (5, 1) := by
  decide
theorem test_setbit_mac : (after (exec (.setbit 0x4C 0x18) on)).map (·.csr.macMode) = some 0x18 := by decide
theorem test_clrbit_reset_bit_reads_zero : answered (exec (.clrbit 0x30 0x2) on) = some ⟨.ok, 1⟩ := by decide
/-- 41_ring_manager.md R141: two descriptors, the handle in both slots. -/
theorem test_txpost_two_segments :
    (after (exec (.txpost false 9 [⟨0x3000, 5⟩, ⟨0x3100, 6⟩]) on)).map (fun t => (t.tx, t.dev.txPending)) =
      some ({ prod := 2, free := 2, cons := 0, slot := [some 9, some 9, none, none] }, 2) := by decide +kernel
theorem test_txpost_eop_last :
    (after (exec (.txpost true 9 [⟨0x3000, 5⟩, ⟨0x3100, 6⟩]) on)).map (fun t => (t.memRead 0x100A 2, t.memRead 0x101A 2)) =
      some (2, 3) := by decide +kernel
theorem test_txreclaim_one : answered (exec (.txreclaim 1) busy) = some ⟨.ok, 0x10001⟩ := by decide +kernel
theorem test_txreclaim_event : emitted (exec (.txreclaim 1) busy) = some [.txDone 7] := by decide +kernel
theorem test_rxpost_busy : answered (exec (.rxpost 3 0x4000) on) = some ⟨.slotBusy, 0⟩ := by decide
theorem test_rrdrain_event : emitted (exec (.rrdrain 1) on) = some [.rxFilled 0x2000 64 3] := by decide +kernel
theorem test_rrdrain_repeated_slot : answered (exec (.rrdrain 2) (onWith tiny 0 0 0)) = some ⟨.indexFault, 0⟩ := by decide +kernel
theorem test_rxrefill_old_buffer : answered (exec (.rxrefill 2) on) = some ⟨.ok, 0x2100⟩ := by decide +kernel
theorem test_onint_delivers : emitted (exec .onint (onWith tiny 1 0 1)) = some [.deliver 0x2000 64 true true] := by decide +kernel
theorem test_onint_summary : answered (exec .onint (onWith tiny 1 0 1)) = some ⟨.ok, 0x10000⟩ := by decide +kernel
theorem test_wdtick_counts : (after (exec .wdtick busy)).map (·.poll.wdStallTicks) = some 1 := by decide +kernel
theorem test_wdtick_fires :
    emitted (exec .wdtick { busy with poll := { busy.poll with wdStallTicks := 1 } }) =
      some [.hwTimeout, .linkDown 1, .txFailed 7, .linkUp 2 2 true false false] := by decide +kernel
theorem test_submit_stalls : (after (exec (.submit false 9 [⟨0, 1⟩, ⟨0, 1⟩]) { busy with tx := { busy.tx with free := 1 } })).map
    (·.ctl.txStalled) = some true := by decide +kernel
theorem test_submit_gate : answered (exec (.submit false 9 [⟨0, 1⟩]) (negotiating tiny 0 0)) = some ⟨.gateClosed, 0⟩ := by decide
theorem test_lnkauto_restarts :
    (after (exec (.lnkauto 3 0x3F) on)).map (fun t => (t.link.state, t.link.epoch, t.csr.phyAdv, t.csr.phyCtrl, t.port.events)) =
      some (.negotiating, 2, 0xFF, 1, [.linkDown 1]) := by decide +kernel
theorem test_lnkforce_up : emitted (exec (.lnkforce false 1) on) = some [.linkDown 1, .linkUp 2 1 false false false] := by
  decide +kernel
theorem test_resdone_stale : answered (exec (.resdone 7) on) = some ⟨.staleEpoch, 0⟩ := by decide
theorem test_resdone_resolves :
    (after (exec (.resdone 1) (linked tiny .resolving .auto false 0xDB))).map (fun t => (t.link.state, t.port.result)) =
      some (.up, some ⟨.ok, 0⟩) := by decide
theorem test_start_posts : (after (exec .start off)).map (fun t => (t.rx.slot, t.dev.rxAvail, t.link.state, t.link.epoch)) =
    some ([some 0x2000, some 0x2080, some 0x2100, some 0x2180], 4, .negotiating, 1) := by decide +kernel
/-- 45_lifecycle.md R225: `LinkDown` carries the new epoch. -/
theorem test_stop_events : emitted (exec .stop on) =
    some [.linkDown 2, .bufFree 0x2000, .bufFree 0x2080, .bufFree 0x2100, .bufFree 0x2180] := by decide +kernel
theorem test_adpreset_events : emitted (exec .adpreset busy) =
    some [.linkDown 1, .txFailed 7, .linkUp 2 2 true false false] := by decide +kernel
theorem test_devtx_consumes :
    (after (exec (.devtx 1) { on with dev := { on.dev with txPending := 2 } })).map (fun t => (t.dev.txCons, t.dev.txPending)) =
      some (1, 1) := by decide
theorem test_devtx_too_many : after (exec (.devtx 1) on) = none := by decide
theorem test_devrx_writes : (after (exec (.devrx 2 1 128) on)).map (fun t => (t.memRead 0x1080 8, t.dev.rrProd, t.dev.rxAvail)) =
    some (0x0001000200800000, 1, 3) := by decide +kernel
theorem test_devrx_too_long : after (exec (.devrx 0 0 129) on) = none := by decide +kernel
theorem test_devsb_publishes :
    (after (exec .devsb { on with dev := { on.dev with txCons := 3, rrProd := 2, tag := 4 } })).map
      (fun t => (t.memRead 0x10A0 8, t.poll.irqRing)) = some (0x0000000500020003, true) := by decide +kernel
theorem test_physet_changes : (after (exec (.physet 0xDB) on)).map (fun t => (t.csr.phyStatus, t.poll.irqLink)) = some (0xDB, true) := by
  decide
theorem test_physet_same_value : (after (exec (.physet 0) on)).map (·.poll.irqLink) = some false := by decide
theorem test_step_runs_word : (after (step (State.reset.withFetchWord 32 0x41000006))).map (·.link.mode) = some (.forced 2 true) := by
  decide
theorem test_step_illegal_word : answered (step (State.reset.withFetchWord 32 0x08000000)) = some ⟨.illegalCommand, 0⟩ := by decide

/-! ## The hypotheses of each obligation can be met -/

theorem witness_DecodeEncode :
    (Instr.submit true 0xF0 [⟨0x31000, 100⟩]).WellFormed ∧ (Instr.physet 0xDF).WellFormed ∧ Instr.stop.WellFormed := by decide
theorem witness_DecodeDeterminesWord : decode ⟨.phy, 0x630000DB, 0, []⟩ = some (.physet 0xDB) := by decide
theorem witness_OpcodeMapDecides :
    (∀ row ∈ opcodeMap, row.hits 0x08000000 = false) ∧ ∃ row ∈ opcodeMap, row.hits 0x6300FFDF = false ∧ row.hits 0x630000DF = true := by
  decide +kernel
theorem witness_IllegalCommandAnswered :
    ((asked on (.command (hostWord 0x20000001 0))).port.pending = .command (hostWord 0x20000001 0) :: [] ∧
      ∀ row ∈ opcodeMap, row.hits (hostWord 0x20000001 0).cmd = false) ∧
    (0x60 ≤ (cmdOp (hostWord 0x60030000 0).cmd).toNat ∧ (cmdOp (hostWord 0x63000000 0).cmd).toNat ≤ 0x63) ∧
    ∃ row ∈ opcodeMap, row.hits (hostWord 0x50000000 0).cmd = true ∧
      ¬ (0x60 ≤ (cmdOp (hostWord 0x50000000 0).cmd).toNat ∧ (cmdOp (hostWord 0x50000000 0).cmd).toNat ≤ 0x63) := by decide +kernel
theorem witness_StepRunsDecoded :
    (asked on (.command (hostWord 0x50000000 0))).port.pending = .command (hostWord 0x50000000 0) :: [] ∧
      decode (hostWord 0x50000000 0) = some .start ∧ decodeTableWord 32 0x630000DB = some (.physet 0xDB) := by decide
theorem witness_StepIdlesOrHasNoStep :
    on.port.pending = [] ∧ (asked on (.command ⟨.device, 0, 0, []⟩)).port.pending = .command ⟨.device, 0, 0, []⟩ :: [] ∧
      decode ⟨.device, 0, 0, []⟩ = none ∧ decode ⟨.phy, 0x630000FB, 0, []⟩ = none := by decide
theorem witness_RogueWritesEightBytes :
    (asked on (.rogueSb 5)).port.pending = .rogueSb 5 :: [] ∧ (asked on (.rogueRr 3 5)).port.pending = .rogueRr 3 5 :: [] ∧
      3 < on.par.n := by decide
theorem witness_RdregReadsFields :
    Inv busy ∧ ((0xFC#16).toNat % 4 = 0 ∧ (0xFC#16).toNat < 0x100) ∧ ¬ ((0x100#16).toNat % 4 = 0 ∧ (0x100#16).toNat < 0x100) ∧
      ¬ ((0xFD#16).toNat % 4 = 0 ∧ (0xFD#16).toNat < 0x100) := ⟨inv_busy, by decide⟩
theorem witness_WrregStoresOrIgnores :
    ((0#16).toNat % 4 = 0 ∧ (0#16).toNat < 0x100 ∧ (0#16).toNat ∉ [0x30, 0x40, 0x44, 0x4C, 0x60, 0x64, 0x80, 0x84, 0x88]) ∧
    ((0xFC#16).toNat % 4 = 0 ∧ (0xFC#16).toNat < 0x100 ∧ (0xFC#16).toNat ∉ [0x30, 0x40, 0x44, 0x4C, 0x60, 0x64, 0x80, 0x84, 0x88]) ∧
    (on.csr.winBase.toNat % 4 = 0 ∧ on.csr.winBase.toNat / 4 < on.par.imemWords) ∧
    ¬ ((8#32).toNat % 4 = 0 ∧ (8#32).toNat / 4 < { on with csr := { on.csr with winBase := 8 } }.par.imemWords) := by decide
theorem witness_WrregDevCtrlResets : (1#32).getLsbD 1 = false ∧ (3#32).getLsbD 1 = true := by decide
theorem witness_IndirectRoundTrip :
    ((0#32).toNat % 4 = 0 ∧ (0#32).toNat / 4 < on.par.imemWords) ∧ ((4#32).toNat % 4 = 0 ∧ (4#32).toNat / 4 < on.par.imemWords) := by
  decide
theorem witness_DoorbellNotifiesDevice : Inv on ∧ on.dev.active = true ∧ (0x7C#16).toNat ∉ [0x80, 0x84, 0x88] ∧
    (0x8C#16).toNat ∉ [0x80, 0x84, 0x88] := ⟨inv_on, by decide⟩
theorem witness_BitHelpersReadModifyWrite :
    ((0xFC#16).toNat % 4 = 0 ∧ (0xFC#16).toNat < 0x100) ∧ ¬ ((0x100#16).toNat % 4 = 0 ∧ (0x100#16).toNat < 0x100) := by decide
theorem witness_BadOperandsRefused :
    ¬ ((0x101#16).toNat % 4 = 0 ∧ (0x101#16).toNat < 0x100) ∧ ¬ ((8#32).toNat % 4 = 0 ∧ (8#32).toNat / 4 < on.par.imemWords) ∧
      on.ctl.enabled = true ∧ on.par.n ≤ (4#16).toNat ∧ (0x2004#64).toNat % 8 ≠ 0 := by decide
theorem witness_PacketAccepted :
    Inv on ∧ on.ctl.enabled = true ∧ on.link.up = true ∧ [(⟨0x3000, 5⟩ : Seg), ⟨0x3100, 6⟩] ≠ [] ∧
      [(⟨0x3000, 5⟩ : Seg), ⟨0x3100, 6⟩].length ≤ on.par.maxseg ∧ (∀ g ∈ [(⟨0x3000, 5⟩ : Seg), ⟨0x3100, 6⟩], g.len ≠ 0) ∧
      [(⟨0x3000, 5⟩ : Seg), ⟨0x3100, 6⟩].length ≤ on.tx.free := ⟨inv_on, by decide⟩
theorem witness_PacketRejected :
    on.ctl.enabled = true ∧ on.link.up = true ∧ on.par.maxseg < [(⟨0, 1⟩ : Seg), ⟨0, 1⟩, ⟨0, 1⟩].length ∧
      (∃ g ∈ [(⟨0, 1⟩ : Seg), ⟨0, 0⟩], g.len = 0) ∧ (∀ g ∈ [(⟨0, 1⟩ : Seg), ⟨0, 2⟩], g.len ≠ 0) ∧
      { on with tx := { on.tx with free := 1 } }.tx.free < [(⟨0, 1⟩ : Seg), ⟨0, 2⟩].length := by decide
theorem witness_GatesRefuse :
    off.ctl.enabled = false ∧ on.ctl.enabled = true ∧ (negotiating tiny 0 0).ctl.enabled = true ∧
      (negotiating tiny 0 0).link.up = false := by decide
theorem witness_ReclaimWalks :
    Inv busy ∧ busy.ctl.enabled = true ∧ 1 = ((1#16).toNat % busy.par.n + busy.par.n - busy.tx.cons) % busy.par.n ∧
      1 ≤ busy.par.n - busy.tx.free := ⟨inv_busy, by decide⟩
theorem witness_PostReclaimRoundTrip :
    Inv on ∧ on.ctl.enabled = true ∧ on.tx.free = on.par.n ∧ [(⟨0x3000, 5⟩ : Seg)] ≠ [] ∧
      [(⟨0x3000, 5⟩ : Seg)].length ≤ on.par.maxseg ∧ ∀ g ∈ [(⟨0x3000, 5⟩ : Seg)], g.len ≠ 0 := ⟨inv_on, by decide⟩
theorem witness_RxpostPostsOrIsBusy :
    on.ctl.enabled = true ∧ (3#16).toNat < on.par.n ∧ (0x4000#64 : Addr) ≠ 0 ∧ (0x4000#64).toNat % 8 = 0 ∧ on.par.bufcap < 65536 ∧
      on.dev.rxSeen < on.par.n ∧ on.par.n ≤ 32768 ∧ (on.rxSlot 3).isSome = true ∧
      { on with rx := { on.rx with slot := [none, none, none, none] } }.rxSlot 3 = none := by decide
theorem witness_RefillSwapsOrCounts :
    Inv on ∧ on.ctl.enabled = true ∧ (3#16).toNat < on.par.n ∧ on.rxSlot 3 = some 0x2180 ∧ on.env.allocIn = some 0x2200 :: [] ∧
      freshBuffer on.par on.env.live 0x2200 = true := ⟨inv_on, by decide⟩
/-- The machine with an allocator that fails. -/
def starved : State := { on with env := { on.env with allocIn := [none] } }
theorem witness_RefillSwapsOrCounts_none :
    Inv starved ∧ starved.ctl.enabled = true ∧ (0#16).toNat < starved.par.n ∧ starved.rxSlot 0 = some 0x2000 ∧
      starved.env.allocIn = none :: [] := ⟨inv_of tiny_legal (by decide) (by decide) (by decide), by decide⟩
theorem witness_DrainHandlesBatch :
    Inv on ∧ on.ctl.enabled = true ∧ 2 = ((2#16).toNat % on.par.n + on.par.n - on.rx.rrCons) % on.par.n ∧ goodBatch on 2 := by
  refine ⟨inv_on, by decide, by decide, by decide +kernel, fun j k hjk hk => ?_⟩
  obtain ⟨rfl, rfl⟩ : j = 0 ∧ k = 1 := by omega
  decide +kernel
theorem witness_IndexFaultsRefused :
    Inv busy ∧ busy.ctl.enabled = true ∧
      busy.par.n - busy.tx.free < ((2#16).toNat % busy.par.n + busy.par.n - busy.tx.cons) % busy.par.n :=
  ⟨inv_busy, by decide⟩
/-- The second return descriptor names a slot outside the ring, or the first one's slot again. -/
theorem witness_IndexFaultsRefused_batch :
    (Inv (onWith tiny 4 0 0) ∧ (onWith tiny 4 0 0).par.n ≤ batchSlot (onWith tiny 4 0 0) 1) ∧
    (Inv (onWith tiny 0 0 0) ∧ batchSlot (onWith tiny 0 0 0) 0 = batchSlot (onWith tiny 0 0 0) 1) ∧
    2 = ((2#16).toNat % (onWith tiny 4 0 0).par.n + (onWith tiny 4 0 0).par.n - (onWith tiny 4 0 0).rx.rrCons) %
      (onWith tiny 4 0 0).par.n :=
  ⟨⟨inv_of tiny_legal (by decide) (by decide) (by decide), by decide +kernel⟩,
    ⟨inv_of tiny_legal (by decide) (by decide) (by decide), by decide +kernel⟩, by decide⟩
theorem witness_PassAlwaysOk : on.link.epoch ≠ 0xFFFFFFFF := by decide
/-- The running machine with a link interrupt pending that finds the link ok. -/
def linkOk (s : State) : State :=
  { s with poll := { s.poll with irqLink := true }, csr := { s.csr with phyStatus := 1 } }
theorem gate_linkOk (s : State) (h : s.link.state = .up) : GateStaysOpen (linkOk s) := fun _ => ⟨h, by simp [linkOk]⟩
theorem gate_no_interrupt {s : State} (h : s.poll.irqLink = false) : GateStaysOpen s := fun h' => by simp [h] at h'
theorem witness_PassWithoutWork :
    (on.ctl.enabled = true ∧ on.link.up = true ∧ GateStaysOpen on ∧ on.memRead on.par.sbBase 2 % on.par.n = on.poll.snapTxCons ∧
      on.memRead (on.par.sbBase + 2) 2 % on.par.n = on.poll.snapRrProd) ∧
    (GateStaysOpen (linkOk on) ∧ (linkOk on).poll.irqLink = true) ∧
    (negotiating tiny 0 0).ctl.enabled = true ∧ (negotiating tiny 0 0).poll.irqLink = false ∧ (negotiating tiny 0 0).link.up = false :=
  ⟨⟨by decide, by decide, gate_no_interrupt (by decide), by decide +kernel, by decide +kernel⟩, ⟨gate_linkOk on (by decide), by decide⟩,
    by decide⟩
theorem witness_PassIsIdempotent : Inv on ∧ ∃ t, exec .onint on = .next t ∧ t.poll.irqLink = false := by
  refine ⟨inv_on, ?_⟩
  have h : (after (exec .onint on)).map (·.poll.irqLink) = some false := by decide +kernel
  match hx : exec .onint on with
  | .next t => rw [hx] at h; exact ⟨t, rfl, by simpa [after] using h⟩
  | .fault _ => rw [hx] at h; simp [after] at h
  | .refused _ => rw [hx] at h; simp [after] at h
/-- One packet to reclaim, under a pending link interrupt. -/
theorem witness_PassReclaims :
    Inv (linkOk busy) ∧ (linkOk busy).ctl.enabled = true ∧ (linkOk busy).link.up = true ∧ GateStaysOpen (linkOk busy) ∧
      1 = (linkOk busy).memRead (linkOk busy).par.sbBase 2 % (linkOk busy).par.n ∧
      0 = (linkOk busy).memRead ((linkOk busy).par.sbBase + 2) 2 % (linkOk busy).par.n ∧ 1 ≠ (linkOk busy).poll.snapTxCons ∧
      1 = (1 + (linkOk busy).par.n - (linkOk busy).tx.cons) % (linkOk busy).par.n ∧ 1 = reclaimed (linkOk busy) 1 ∧
      0 = (0 + (linkOk busy).par.n - (linkOk busy).rx.rrCons) % (linkOk busy).par.n :=
  ⟨inv_of tiny_legal (by decide) (by decide) (by decide), by decide, by decide, gate_linkOk busy (by decide), by decide +kernel⟩
theorem witness_PassReclaims_overclaim :
    Inv (busyWith 2) ∧ (busyWith 2).ctl.enabled = true ∧ (busyWith 2).link.up = true ∧ GateStaysOpen (busyWith 2) ∧
      2 = (busyWith 2).memRead (busyWith 2).par.sbBase 2 % (busyWith 2).par.n ∧ 2 ≠ (busyWith 2).poll.snapTxCons ∧
      2 = (2 + (busyWith 2).par.n - (busyWith 2).tx.cons) % (busyWith 2).par.n ∧ 0 = reclaimed (busyWith 2) 2 :=
  ⟨inv_of tiny_legal (by decide) (by decide) (by decide), by decide, by decide, gate_no_interrupt (by decide), by decide +kernel⟩
/-- Two return descriptors published, the second naming the given slot, with the packet in slot 0 reported sent. -/
def mixed (slot1 : Nat) : State :=
  { onWith tiny slot1 1 2 with tx := { prod := 1, free := 3, cons := 0, slot := [some 7, none, none, none] } }
/-- A refused batch, for a slot outside the ring and for a slot named twice, beside transmit work. -/
theorem witness_PassReclaims_refused :
    (Inv (mixed 4) ∧ GateStaysOpen (mixed 4) ∧ refusedBatch (mixed 4) 2) ∧
    (Inv (mixed 0) ∧ GateStaysOpen (mixed 0) ∧ refusedBatch (mixed 0) 2) ∧
    (mixed 4).ctl.enabled = true ∧ (mixed 4).link.up = true ∧
    1 = (mixed 4).memRead (mixed 4).par.sbBase 2 % (mixed 4).par.n ∧ 1 = reclaimed (mixed 4) 1 ∧
    2 = (mixed 4).memRead ((mixed 4).par.sbBase + 2) 2 % (mixed 4).par.n ∧
    2 = (2 + (mixed 4).par.n - (mixed 4).rx.rrCons) % (mixed 4).par.n :=
  ⟨⟨inv_of tiny_legal (by decide) (by decide) (by decide), gate_no_interrupt (by decide), .inl ⟨1, by decide, by decide +kernel⟩⟩,
    ⟨inv_of tiny_legal (by decide) (by decide) (by decide), gate_no_interrupt (by decide),
      .inr ⟨0, 1, by decide, by decide, by decide +kernel⟩⟩, by decide +kernel⟩
/-- Two good return descriptors and one packet to reclaim, under a pending link interrupt. -/
theorem witness_PassDeliversFrame :
    Inv (linkOk (mixed 1)) ∧ (linkOk (mixed 1)).ctl.enabled = true ∧ (linkOk (mixed 1)).link.up = true ∧
      GateStaysOpen (linkOk (mixed 1)) ∧
      1 = (linkOk (mixed 1)).memRead (linkOk (mixed 1)).par.sbBase 2 % (linkOk (mixed 1)).par.n ∧
      2 = (linkOk (mixed 1)).memRead ((linkOk (mixed 1)).par.sbBase + 2) 2 % (linkOk (mixed 1)).par.n ∧
      1 ≠ (linkOk (mixed 1)).poll.snapTxCons ∧ 1 = reclaimed (linkOk (mixed 1)) 1 ∧
      2 = (2 + (linkOk (mixed 1)).par.n - (linkOk (mixed 1)).rx.rrCons) % (linkOk (mixed 1)).par.n ∧
      goodBatch (linkOk (mixed 1)) 2 := by
  refine ⟨inv_of tiny_legal (by decide) (by decide) (by decide), by decide, by decide, gate_linkOk _ (by decide), by decide +kernel,
    by decide +kernel, by decide, by decide, by decide, by decide +kernel, fun j k hjk hk => ?_⟩
  obtain ⟨rfl, rfl⟩ : j = 0 ∧ k = 1 := by omega
  decide +kernel
theorem witness_TickCountsStall :
    Inv busy ∧ busy.ctl.enabled = true ∧ busy.link.state ≠ .negotiating ∧
      ¬ (busy.link.up = true ∧ busy.tx.free < busy.par.n ∧ busy.poll.wdProgress = false ∧
        busy.par.wdTimeout = busy.poll.wdStallTicks.toNat + 1) := ⟨inv_busy, by decide⟩
theorem witness_TickTimesNegotiation :
    (Inv (negotiating tiny 0 0) ∧ (negotiating tiny 0 0).ctl.enabled = true ∧ (negotiating tiny 0 0).link.state = .negotiating ∧
      (negotiating tiny 0 0).link.negTicks.toNat + 1 < (negotiating tiny 0 0).par.negTimeout) ∧
    (Inv (negotiating tiny 1 0) ∧ (negotiating tiny 1 0).ctl.enabled = true ∧ (negotiating tiny 1 0).link.state = .negotiating ∧
      (negotiating tiny 1 0).link.negTicks.toNat + 1 = (negotiating tiny 1 0).par.negTimeout ∧
      (negotiating tiny 1 0).link.negRetries.toNat < (negotiating tiny 1 0).par.negRetryMax ∧
      (negotiating tiny 1 0).link.epoch ≠ 0xFFFFFFFF) :=
  ⟨⟨inv_of tiny_legal (by decide) (by decide) (by decide), by decide⟩,
    ⟨inv_of tiny_legal (by decide) (by decide) (by decide), by decide⟩⟩
theorem witness_TickTimesNegotiation_exhausted :
    (Inv (negotiating tiny 1 1) ∧ (negotiating tiny 1 1).link.negTicks.toNat + 1 = (negotiating tiny 1 1).par.negTimeout ∧
      (negotiating tiny 1 1).link.negRetries.toNat = (negotiating tiny 1 1).par.negRetryMax ∧
      (negotiating tiny 1 1).par.negFallback = .fbLinkDown) ∧
    (Inv (negotiating tiny2 1 1) ∧ (negotiating tiny2 1 1).link.negTicks.toNat + 1 = (negotiating tiny2 1 1).par.negTimeout ∧
      (negotiating tiny2 1 1).link.negRetries.toNat = (negotiating tiny2 1 1).par.negRetryMax ∧
      (negotiating tiny2 1 1).par.negFallback = .fbForced 1 false ∧ (negotiating tiny2 1 1).link.epoch ≠ 0xFFFFFFFF) :=
  ⟨⟨inv_of tiny_legal (by decide) (by decide) (by decide), by decide⟩,
    ⟨inv_of tiny2_legal (by decide) (by decide) (by decide), by decide⟩⟩
/-- The next tick fires. -/
def stalled : State := { busy with poll := { busy.poll with wdStallTicks := 1 } }
theorem witness_WatchdogResetsAdapter :
    Inv stalled ∧ stalled.ctl.enabled = true ∧ stalled.link.up = true ∧ stalled.tx.free < stalled.par.n ∧
      stalled.poll.wdProgress = false ∧ stalled.par.wdTimeout = stalled.poll.wdStallTicks.toNat + 1 ∧
      stalled.link.epoch ≠ 0xFFFFFFFF := ⟨inv_of tiny_legal (by decide) (by decide) (by decide), by decide⟩
theorem witness_ResdoneResolves :
    (5#32 : Word) ≠ on.link.epoch ∧ ((1#32 : Word) = on.link.epoch ∧ on.link.state ≠ .resolving) ∧
      ((1#32 : Word) = (linked tiny .resolving .auto false 0).link.epoch ∧ (linked tiny .resolving .auto false 0).link.state = .resolving) ∧
      (true, true) = resolveFc 0b11 0b10 := by decide
theorem witness_LnkautoNegotiates : (0x3F#6) ≠ 0 ∧ off.ctl.enabled = false ∧ on.ctl.enabled = true ∧ on.link.epoch ≠ 0xFFFFFFFF := by
  decide
theorem witness_LnkforceForcesUp : (2#2) ≠ 3 ∧ off.ctl.enabled = false ∧ on.ctl.enabled = true ∧ on.link.epoch ≠ 0xFFFFFFFF := by
  decide
theorem witness_PassServicesLink_complete :
    Inv (linked tiny .negotiating .auto true 0xDB) ∧ (linked tiny .negotiating .auto true 0xDB).ctl.enabled = true ∧
      (linked tiny .negotiating .auto true 0xDB).poll.irqLink = true ∧ (0xDB#32).getLsbD 0 = true ∧ (0xDB#32).getLsbD 1 = true :=
  ⟨inv_of tiny_legal (by decide) (by decide) (by decide), by decide⟩
theorem witness_PassServicesLink_loss :
    (Inv (linked tiny .up .auto true 0) ∧ ¬ ((linked tiny .up .auto true 0).link.mode = .auto ∧
      (linked tiny .up .auto true 0).par.renegOnLoss = true)) ∧
    (Inv (linked tiny2 .up .auto true 2) ∧ (linked tiny2 .up .auto true 2).link.mode = .auto ∧
      (linked tiny2 .up .auto true 2).par.renegOnLoss = true ∧ (linked tiny2 .up .auto true 2).link.epoch ≠ 0xFFFFFFFF) ∧
    (0#32).getLsbD 0 = false ∧ (2#32).getLsbD 0 = false :=
  ⟨⟨inv_of tiny_legal (by decide) (by decide) (by decide), by decide⟩,
    ⟨inv_of tiny2_legal (by decide) (by decide) (by decide), by decide⟩, by decide⟩
theorem witness_PassServicesLink_nothing :
    (Inv (linked tiny .down .auto true 0) ∧ (linked tiny .down .auto true 0).link.state = .down) ∧
    (Inv (linked tiny .resolving .auto true 3) ∧ (linked tiny .resolving .auto true 3).link.state = .resolving) ∧
    (Inv (linked tiny .negotiating .auto true 1) ∧ (linked tiny .negotiating .auto true 1).link.state = .negotiating ∧
      (1#32).getLsbD 1 = false) :=
  ⟨⟨inv_of tiny_legal (by decide) (by decide) (by decide), by decide⟩,
    ⟨inv_of tiny_legal (by decide) (by decide) (by decide), by decide⟩,
    ⟨inv_of tiny_legal (by decide) (by decide) (by decide), by decide⟩⟩
theorem witness_PassServicesLink_ok :
    Inv (linkOk on) ∧ (linkOk on).ctl.enabled = true ∧ (linkOk on).poll.irqLink = true ∧ (1#32) = (linkOk on).csr.phyStatus ∧
      (linkOk on).link.state = .up ∧ (1#32).getLsbD 0 = true :=
  ⟨inv_of tiny_legal (by decide) (by decide) (by decide), by decide⟩
theorem witness_StaleCallbackDiscarded :
    (linked tiny .resolving .auto false 0).ctl.enabled = true ∧ (linked tiny .resolving .auto false 0).link.state = .resolving ∧
      (2#2) ≠ 3 ∧ (1#6) ≠ 0 ∧ (linked tiny .resolving .auto false 0).link.epoch ≠ 0xFFFFFFFF := by decide

/-- A step that has a next state, from a test of what it leaves. -/
theorem next_of_after {o : Host.Outcome State Fault Refusal} {f : State → Bool} (h : (after o).map f = some true) :
    ∃ t, o = .next t ∧ f t = true := by
  match o with
  | .next t => exact ⟨t, rfl, by simpa [after] using h⟩
  | .fault _ => simp [after] at h
  | .refused _ => simp [after] at h

/-- The running machine asked to negotiate anew. -/
def relinked : State := asked on (.command (hostWord 0x400000FF 0))

theorem witness_LinkTransitions : ∃ t, step relinked = .next t ∧ t.link.epoch = 2 := by
  obtain ⟨t, h, h2⟩ := next_of_after (o := step relinked) (f := fun t => decide (t.link.epoch = 2)) (by decide +kernel)
  exact ⟨t, h, of_decide_eq_true h2⟩
theorem witness_LinkCommandsLeaveRings : ∃ t, exec (.lnkauto 3 0x3F) on = .next t ∧ t.link.epoch = 2 := by
  obtain ⟨t, h, h2⟩ := next_of_after (o := exec (.lnkauto 3 0x3F) on) (f := fun t => decide (t.link.epoch = 2)) (by decide +kernel)
  exact ⟨t, h, of_decide_eq_true h2⟩
/-- A machine at the last epoch. -/
def lastEpoch (s : State) : State := { s with link := { s.link with epoch := 0xFFFFFFFF } }
theorem witness_LastEpochIsStuck :
    ((lastEpoch on).link.epoch = 0xFFFFFFFF ∧ (lastEpoch on).ctl.enabled = true ∧ (1#6) ≠ 0 ∧ (0#2) ≠ 3) ∧
    ((lastEpoch off).link.epoch = 0xFFFFFFFF ∧ (lastEpoch off).ctl.enabled = false ∧
      [0x2000, 0x2080, 0x2100, (0x2180 : Addr)].length = (lastEpoch off).par.n ∧
      (lastEpoch off).env.allocIn = [0x2000, 0x2080, 0x2100, (0x2180 : Addr)].map some ++ [] ∧
      allFresh (lastEpoch off).par (lastEpoch off).env.live [0x2000, 0x2080, 0x2100, 0x2180]) :=
  ⟨by decide, by decide, by decide, by decide, by decide,
    by unfold allFresh allFresh allFresh allFresh allFresh; decide +kernel⟩
theorem witness_LastEpochIsStuck_tick :
    (Inv (lastEpoch (negotiating tiny 1 0)) ∧ (lastEpoch (negotiating tiny 1 0)).ctl.enabled = true ∧
      (lastEpoch (negotiating tiny 1 0)).link.state = .negotiating ∧
      (lastEpoch (negotiating tiny 1 0)).link.negTicks.toNat + 1 = (lastEpoch (negotiating tiny 1 0)).par.negTimeout ∧
      (lastEpoch (negotiating tiny 1 0)).link.negRetries.toNat < (lastEpoch (negotiating tiny 1 0)).par.negRetryMax) ∧
    (Inv (lastEpoch (negotiating tiny2 1 1)) ∧
      (lastEpoch (negotiating tiny2 1 1)).link.negTicks.toNat + 1 = (lastEpoch (negotiating tiny2 1 1)).par.negTimeout ∧
      ∃ sp dp, (lastEpoch (negotiating tiny2 1 1)).par.negFallback = .fbForced sp dp) ∧
    (Inv (lastEpoch { busy with poll := { busy.poll with wdStallTicks := 1 } }) ∧
      (lastEpoch busy).link.up = true ∧ (lastEpoch busy).tx.free < busy.par.n ∧ busy.poll.wdProgress = false ∧
      busy.par.wdTimeout = (1#16).toNat + 1) :=
  ⟨⟨inv_of tiny_legal (by decide) (by decide) (by decide), by decide⟩,
    ⟨inv_of tiny2_legal (by decide) (by decide) (by decide), by decide, 1, false, rfl⟩,
    inv_of tiny_legal (by decide) (by decide) (by decide), by decide⟩
theorem witness_LastEpochIsStuck_loss :
    (lastEpoch (linked tiny2 .up .auto true 2)).ctl.enabled = true ∧ (lastEpoch (linked tiny2 .up .auto true 2)).poll.irqLink = true ∧
      (lastEpoch (linked tiny2 .up .auto true 2)).link.state = .up ∧
      (lastEpoch (linked tiny2 .up .auto true 2)).csr.phyStatus.getLsbD 0 = false ∧
      (lastEpoch (linked tiny2 .up .auto true 2)).link.mode = .auto ∧
      (lastEpoch (linked tiny2 .up .auto true 2)).par.renegOnLoss = true := by decide
theorem witness_StartBringsUp :
    Inv off ∧ off.ctl.enabled = false ∧ off.link.epoch ≠ 0xFFFFFFFF ∧ [0x2000, 0x2080, 0x2100, (0x2180 : Addr)].length = off.par.n ∧
      off.env.allocIn = [0x2000, 0x2080, 0x2100, (0x2180 : Addr)].map some ++ [] ∧
      allFresh off.par off.env.live [0x2000, 0x2080, 0x2100, 0x2180] :=
  ⟨inv_off, by decide, by decide, by decide, by decide, by unfold allFresh allFresh allFresh allFresh allFresh; decide +kernel⟩
/-- The machine after reset with an allocator that fails on its second call. -/
def shortOff : State := { off with env := { off.env with allocIn := [some 0x2000, none] } }
theorem witness_StartFailsClean :
    shortOff.ctl.enabled = false ∧ [(0x2000 : Addr)].length < shortOff.par.n ∧ 1 ≤ shortOff.par.bufcap ∧
      shortOff.env.allocIn = [(0x2000 : Addr)].map some ++ none :: [] ∧ allFresh shortOff.par shortOff.env.live [0x2000] :=
  ⟨by decide, by decide, by decide, by decide, by unfold allFresh allFresh; decide +kernel⟩
theorem witness_StopQuiesces :
    Inv busy ∧ busy.ctl.enabled = true ∧ busy.link.epoch ≠ 0xFFFFFFFF ∧
      1 = (if (busy.memRead busy.par.sbBase 2 % busy.par.n + busy.par.n - busy.tx.cons) % busy.par.n ≤ busy.par.n - busy.tx.free
        then (busy.memRead busy.par.sbBase 2 % busy.par.n + busy.par.n - busy.tx.cons) % busy.par.n else 0) :=
  ⟨inv_busy, by decide +kernel⟩
theorem witness_AdapterResetRestarts : Inv busy ∧ busy.ctl.enabled = true ∧ busy.link.epoch ≠ 0xFFFFFFFF := ⟨inv_busy, by decide⟩
theorem witness_DevtxConsumes :
    ({ on with dev := { on.dev with txPending := 1 } }.dev.active = true ∧ 1 ≤ (1#8).toNat ∧
      (1#8).toNat ≤ { on with dev := { on.dev with txPending := 1 } }.dev.txPending) ∧
    ¬ (on.dev.active = true ∧ 1 ≤ (0#8).toNat ∧ (0#8).toNat ≤ on.dev.txPending) ∧
    ¬ (on.dev.active = true ∧ 1 ≤ (1#8).toNat ∧ (1#8).toNat ≤ on.dev.txPending) := by decide
theorem witness_DevrxReturnsFrame :
    Inv on ∧ (on.dev.active = true ∧ 1 ≤ on.dev.rxAvail ∧ (on.dev.rrProd + on.par.n - on.dev.rrSeen) % on.par.n ≤ on.par.n - 2 ∧
        (128#16).toNat ≤ on.memRead (rxDescAddr on.par on.dev.rxCons + 8) 2) ∧
      ¬ (on.dev.active = true ∧ 1 ≤ on.dev.rxAvail ∧ (on.dev.rrProd + on.par.n - on.dev.rrSeen) % on.par.n ≤ on.par.n - 2 ∧
        (129#16).toNat ≤ on.memRead (rxDescAddr on.par on.dev.rxCons + 8) 2) := ⟨inv_on, by decide +kernel⟩
theorem witness_DevsbPublishes : (Inv on ∧ on.dev.active = true) ∧ (Inv off ∧ off.dev.active = false) :=
  ⟨⟨inv_on, by decide⟩, inv_off, by decide⟩
theorem witness_PhysetReports : (0xDB#8).extractLsb' 2 2 ≠ 3#2 ∧ (0x0C#8).extractLsb' 2 2 = 3#2 := by decide
theorem witness_ResetCsrs : tiny.Legal ∧ (0xFC#16).toNat % 4 = 0 ∧ (0xFC#16).toNat < 0x100 ∧ (0x64#16).toNat % 4 = 0 :=
  ⟨tiny_legal, by decide⟩
theorem witness_InvAtReset : Config.resetParams.Legal ∧ tiny.Legal := ⟨by constructor <;> decide, tiny_legal⟩
theorem inv_relinked : Inv relinked := inv_of tiny_legal (by decide) (by decide) (by decide)
theorem witness_InvKept : Inv relinked ∧ ∃ t, step relinked = .next t :=
  ⟨inv_relinked, witness_LinkTransitions.imp fun _ h => h.1⟩
/-- One packet in flight, and the request to restart. -/
def resetting : State := asked busy (.command (hostWord 0x400000FF 0))
theorem witness_InvKept_framed : Inv resetting ∧ TxFramed resetting ∧ ∃ t, step resetting = .next t := by
  refine ⟨inv_of tiny_legal (by decide) (by decide) (by decide), ⟨fun k hk => ?_, fun k hk => ?_⟩,
    (next_of_after (o := step resetting) (f := fun _ => true) (by decide +kernel)).imp fun _ h => h.1⟩
  · exact absurd hk (by simp [resetting, asked, busy, busyWith, onWith, State.resetOf, Params.n, tiny])
  · obtain rfl : k = 0 := by
      simp only [resetting, asked, busy, busyWith, onWith, State.resetOf, Params.n, tiny] at hk
      omega
    decide +kernel
/-- The running machine with its four receive descriptors as they were posted. -/
def posted : State :=
  { relinked with
    mem := listed 0x1040 [0, 0x20, 0, 0, 0, 0, 0, 0, 128, 0] ++ listed 0x1050 [0x80, 0x20, 0, 0, 0, 0, 0, 0, 128, 0] ++
      listed 0x1060 [0, 0x21, 0, 0, 0, 0, 0, 0, 128, 0] ++ listed 0x1070 [0x80, 0x21, 0, 0, 0, 0, 0, 0, 128, 0] }
theorem witness_RxBackedKept : Inv posted ∧ RxBacked posted ∧ ∃ t, step posted = .next t := by
  refine ⟨inv_of tiny_legal (by decide) (by decide) (by decide), ?_, ?_⟩
  · have h : ∀ i, i < 4 → ∃ b, posted.rxSlot i = some b ∧ posted.memRead (rxDescAddr tiny i) 8 = b.toNat ∧
        posted.rxCap i = 128 ∧ b ∈ posted.env.live := by
      intro i hi
      match i, hi with
      | 0, _ => exact ⟨0x2000, by decide +kernel⟩
      | 1, _ => exact ⟨0x2080, by decide +kernel⟩
      | 2, _ => exact ⟨0x2100, by decide +kernel⟩
      | 3, _ => exact ⟨0x2180, by decide +kernel⟩
    have hd : ∀ i, i < 4 → ∀ j, j < 4 → posted.rxSlot i = posted.rxSlot j → i = j := by decide +kernel
    constructor
    · intro i b hi hb
      obtain ⟨b', h1, h2, _⟩ := h i hi
      rw [hb] at h1
      cases h1
      exact h2
    · intro i b hi hb
      obtain ⟨_, _, _, h3, _⟩ := h i hi
      exact h3
    · intro i b hi hb
      obtain ⟨b', h1, _, _, h4⟩ := h i hi
      rw [hb] at h1
      cases h1
      exact h4
    · intro i j b hi hj hb hb'
      exact hd i hi j hj (hb.trans hb'.symm)
  · exact (next_of_after (o := step posted) (f := fun _ => true) (by decide +kernel)).imp fun _ h => h.1
theorem witness_ParametersFixed : ∃ t, step relinked = .next t := witness_InvKept.2
theorem witness_FaultsStickyEventsAppended :
    ∃ t, step { relinked with ctl := { relinked.ctl with faultTxIdx := true, faultRrIdx := true } } = .next t :=
  (next_of_after (f := fun _ => true) (by decide +kernel)).imp fun _ h => h.1
theorem witness_MemoryConfined : Inv relinked ∧ (∃ t, step relinked = .next t) ∧
    ∀ r ∈ relinked.par.regions, outside 0xFFF r.1 r.2 ∧ outside 0x10A8 r.1 r.2 :=
  ⟨inv_relinked, witness_InvKept.2, by decide⟩
theorem witness_MemoryOwnership : Inv on ∧ (∃ t, exec (.devrx 0 0 1) on = .next t) ∧ (∃ t, exec (.wrreg 0x40 1) on = .next t) ∧
    Instr.devsb.port ≠ .host ∧ (Instr.wrreg 0x40 1).port = .host ∧
    (Instr.wrreg 0x40 1).mnemonic ∉ ["START", "STOP", "ADPRESET", "WDTICK"] ∧
    Instr.onint.mnemonic ∉ ["START", "ADPRESET", "WDTICK", "WRREG", "SETBIT"] ∧ ¬ outside 0x1080 on.par.rrBase (8 * on.par.n) :=
  ⟨inv_on, (next_of_after (f := fun _ => true) (by decide +kernel)).imp fun _ h => h.1,
    (next_of_after (f := fun _ => true) (by decide +kernel)).imp fun _ h => h.1, by decide⟩

end Sys2Proof.Tests
end

/-! O57. The parameters are the one field of the state that nothing writes (00_scope.md R8): one lemma for each procedure of the
model, in the order of the definitions, then one for each operation. -/

namespace Sys2Proof.Machine

/-! ## The primitives -/

/-- A walk whose every move keeps the parameters keeps them. -/
theorem foldl_par {α : Type} {f : State → α → State} (hf : ∀ s a, (f s a).par = s.par) (l : List α) (s : State) :
    (l.foldl f s).par = s.par := by
  induction l generalizing s with
  | nil => rfl
  | cons a l ih => rw [List.foldl_cons, ih, hf]

@[simp] theorem freeBuffer_par (s : State) (b : Addr) : (freeBuffer s b).par = s.par := rfl

@[simp] theorem freeAll_par (s : State) (bufs : List Addr) : (freeAll s bufs).par = s.par := foldl_par freeBuffer_par bufs s

@[simp] theorem passOut_par (s : State) (b : Addr) (e : Event) : (passOut s b e).par = s.par := rfl

@[simp] theorem devReset_par (s : State) : (devReset s).par = s.par := rfl

@[simp] theorem devDoorbell_par (s : State) (c : Csr) (v : Nat) : (devDoorbell s c v).par = s.par := by
  unfold devDoorbell
  split
  · cases c <;> rfl
  · rfl

@[simp] theorem setPhyStatus_par (s : State) (v : Word) : (setPhyStatus s v).par = s.par := rfl

@[simp] theorem phyRestart_par (s : State) : (phyRestart s).par = s.par := rfl

/-! ## The Register Access Layer -/

@[simp] theorem storeMailbox_par (s : State) (c : Csr) (v : Word) : (storeMailbox s c v).par = s.par := by cases c <;> rfl

@[simp] theorem ringDoorbell_par (s : State) (c : Csr) (v : Word) : (ringDoorbell s c v).par = s.par := by simp [ringDoorbell]

@[simp] theorem writeDevCtrl_par (s : State) (v : Word) : (writeDevCtrl s v).par = s.par := by
  unfold writeDevCtrl
  split <;> rfl

@[simp] theorem writePhyCtrl_par (s : State) (v : Word) : (writePhyCtrl s v).par = s.par := by
  unfold writePhyCtrl
  split <;> rfl

@[simp] theorem regWrite_par (s : State) (c : Csr) (v : Word) : (regWrite s c v).par = s.par := by
  cases c with
  | devCtrl => exact writeDevCtrl_par s v
  | phyCtrl => exact writePhyCtrl_par s v
  | winData => simp only [regWrite]; split <;> rfl
  | mbTxProd => exact ringDoorbell_par s _ v
  | mbRxProd => exact ringDoorbell_par s _ v
  | mbRrCons => exact ringDoorbell_par s _ v
  | _ => rfl

@[simp] theorem writeAt_par (s : State) (off : BitVec 16) (v : Word) : (writeAt s off v).par = s.par := by
  unfold writeAt
  split
  · exact regWrite_par ..
  · rfl

@[simp] theorem indRead_par (s : State) (addr : Word) : (indRead s addr).1.par = s.par := regWrite_par ..

@[simp] theorem indWrite_par (s : State) (addr v : Word) : (indWrite s addr v).par = s.par := by simp [indWrite]

/-! ## The link -/

@[simp] theorem linkDownNow_par (s : State) : (linkDownNow s).par = s.par := by
  unfold linkDownNow
  split <;> simp

@[simp] theorem beginNegotiation_par (s : State) : (beginNegotiation s).par = s.par := by simp [beginNegotiation, bumpEpoch]

@[simp] theorem requestNegotiation_par (s : State) : (requestNegotiation s).par = s.par := by simp [requestNegotiation]

@[simp] theorem negComplete_par (s : State) (st : Word) : (negComplete s st).par = s.par := rfl

@[simp] theorem resolveDone_par (s : State) : (resolveDone s).par = s.par := by simp [resolveDone]

@[simp] theorem linkLoss_par (s : State) : (linkLoss s).par = s.par := by
  unfold linkLoss
  split <;> simp

@[simp] theorem enterForced_par (s : State) (sp : BitVec 2) (dp : Bool) : (enterForced s sp dp).par = s.par := by
  simp [enterForced, bumpEpoch]

@[simp] theorem linkService_par (s : State) : (linkService s).par = s.par := by
  simp only [linkService]
  split
  case h_1 => split <;> simp
  case h_2 => split <;> simp
  case h_3 => rfl
  case h_4 => rfl

@[simp] theorem linkStart_par (s : State) : (linkStart s).par = s.par := by
  unfold linkStart
  split <;> simp

@[simp] theorem negFallback_par (s : State) : (negFallback s).par = s.par := by
  unfold negFallback
  split <;> simp

@[simp] theorem negTick_par (s : State) : (negTick s).1.par = s.par := by
  simp only [negTick]
  split
  · split
    · rfl
    · split <;> simp
  · rfl

/-! ## The rings -/

@[simp] theorem fillTx_par (h : Handle) (csum : Bool) (segs : List Seg) (i : Nat) (s : State) :
    (fillTx h csum segs i s).par = s.par := by
  induction segs generalizing i s with
  | nil => rfl
  | cons g rest ih => simp [fillTx, ih]

@[simp] theorem txPost_par (s : State) (h : Handle) (csum : Bool) (segs : List Seg) : (txPost s h csum segs).1.par = s.par := by
  unfold txPost
  split_ifs <;> simp

@[simp] theorem freeTxSlot_par (ev : Handle → Event) (s : State) : (freeTxSlot ev s).1.par = s.par := by
  simp only [freeTxSlot, setTxSlot_par]
  split
  · split <;> rfl
  · rfl

@[simp] theorem walkTx_par (ev : Handle → Event) (c : Nat) (s : State) : (walkTx ev c s).1.par = s.par := by
  induction c generalizing s with
  | zero => rfl
  | succ c ih => simp [walkTx, ih]

@[simp] theorem noteReclaim_par (s : State) : (noteReclaim s).par = s.par := by rw [noteReclaim_eq]

@[simp] theorem txReclaim_par (s : State) (idx : Nat) : (txReclaim s idx).1.par = s.par := by
  simp only [txReclaim]
  split
  · rfl
  · split <;> simp

@[simp] theorem txFailAll_par (s : State) : (txFailAll s).par = s.par := walkTx_par ..

@[simp] theorem rxRepost_par (s : State) : (rxRepost s).par = s.par := by simp [rxRepost]

@[simp] theorem rxPost_par (s : State) (i : Nat) (b : Addr) : (rxPost s i b).par = s.par := by simp [rxPost]

@[simp] theorem rxRefill_par (s : State) (i : Nat) : (rxRefill s i).1.par = s.par := by
  have halloc := alloc_par s
  unfold rxRefill
  split
  case h_1 s1 nb h =>
    rw [h] at halloc
    simpa using halloc
  case h_2 s1 h =>
    rw [h] at halloc
    simpa using halloc

@[simp] theorem drainOne_par (s : State) : (drainOne s).1.par = s.par := by
  have hrefill := rxRefill_par s (s.rrSlot s.rx.rrCons)
  simp only [drainOne]
  split
  · simp
  · split
    case h_1 s1 old h => rwa [h] at hrefill
    case h_2 s1 h => rwa [h] at hrefill

@[simp] theorem drainLoop_par (c : Nat) (s : State) : (drainLoop c s).1.par = s.par := by
  induction c generalizing s with
  | zero => rfl
  | succ c ih => simp [drainLoop, ih]

@[simp] theorem rrDrain_par (s : State) (idx : Nat) : (rrDrain s idx).1.par = s.par := by
  simp only [rrDrain]
  split
  · split <;> simp
  · rfl

@[simp] theorem reportDrained_par (s : State) (d : Drained) : (reportDrained s d).par = s.par := by cases d <;> rfl

@[simp] theorem deliverOne_par (s : State) (d : Drained) : (deliverOne s d).1.par = s.par := by
  cases d with
  | filled buf len flags => simp only [deliverOne]; split <;> rfl
  | dropped slot err => rfl
  | noBuf slot => rfl

@[simp] theorem rxDeliver_par (out : List Drained) (s : State) : (rxDeliver out s).1.par = s.par := by
  induction out generalizing s with
  | nil => rfl
  | cons e rest ih => simp [rxDeliver, ih]

/-! ## The lifecycle -/

@[simp] theorem ringInit_par (s : State) : (ringInit s).par = s.par := by
  obtain ⟨m, h, _⟩ := ringInit_spec s
  rw [h]

@[simp] theorem allocMany_par (k : Nat) (s : State) : (allocMany k s).1.par = s.par := by
  induction k generalizing s with
  | zero => rfl
  | succ k ih =>
    have halloc := alloc_par s
    unfold allocMany
    split
    case h_1 s1 b h =>
      rw [h] at halloc
      exact (ih s1).trans halloc
    case h_2 s1 h => rwa [h] at halloc

@[simp] theorem postBuffers_par (bufs : List Addr) (i : Nat) (s : State) : (postBuffers bufs i s).par = s.par := by
  induction bufs generalizing i s with
  | nil => rfl
  | cons b rest ih => simp [postBuffers, ih]

theorem releaseSlot_par (s : State) (i : Nat) : (releaseSlot s i).par = s.par := by
  unfold releaseSlot
  split <;> rfl

@[simp] theorem rxReleaseAll_par (s : State) : (rxReleaseAll s).par = s.par := foldl_par releaseSlot_par _ s

@[simp] theorem adapterReset_par (s : State) : (adapterReset s).par = s.par := by simp [adapterReset]

@[simp] theorem bringUp_par (s : State) (bufs : List Addr) : (bringUp s bufs).par = s.par := by simp [bringUp]

@[simp] theorem finalReclaim_par (s : State) : (finalReclaim s).par = s.par := by
  simp only [finalReclaim]
  split <;> simp

@[simp] theorem shutDown_par (s : State) : (shutDown s).par = s.par := by simp [shutDown, bumpEpoch]

@[simp] theorem startWith_par (got : State × List Addr × Bool) : (startWith got).1.par = got.1.par := by
  unfold startWith
  split <;> simp

/-! ## The servicing pass and the tick -/

@[simp] theorem serviceLink_par (s : State) : (serviceLink s).par = s.par := by
  unfold serviceLink
  split <;> simp

@[simp] theorem dispatchPass_par (s : State) (t r : Nat) (g : Word) (lc : Bool) : (dispatchPass s t r g lc).1.par = s.par := by
  have hdrain : (rrDrain (txReclaim s t).1 r).1.par = s.par := by simp
  simp only [dispatchPass, storeSnapshot]
  split
  case h_1 s1 out h =>
    rw [h] at hdrain
    exact (rxDeliver_par out s1).trans hdrain
  case h_2 s1 h => rwa [h] at hdrain

@[simp] theorem servicePass_par (s : State) (lc : Bool) : (servicePass s lc).1.par = s.par := by
  simp only [servicePass]
  split <;> simp

@[simp] theorem onInterrupt_par (s : State) : (onInterrupt s).1.par = s.par := by
  simp only [onInterrupt]
  split
  · split <;> simp
  · rfl

@[simp] theorem wdCheck_par (s : State) : (wdCheck s).par = s.par := rfl

@[simp] theorem tick_par (s : State) : (tick s).1.par = s.par := by
  simp only [tick]
  split
  · split <;> simp
  · rfl

/-! ## The ends of the commands -/

@[simp] theorem takeCallback_par (s : State) (e : Word) : (takeCallback s e).par = s.par := rfl

theorem whenEnabled_par {s : State} {done : State × Result} (h : done.1.par = s.par) : (whenEnabled s done).1.par = s.par := by
  unfold whenEnabled
  split
  · exact h
  · rfl

@[simp] theorem submitPacket_par (s : State) (h : Handle) (csum : Bool) (segs : List Seg) :
    (submitPacket s (txPost s h csum segs)).1.par = s.par := by
  unfold submitPacket
  split <;> simp

@[simp] theorem reportDrain_par (done : State × Option (List Drained)) : (reportDrain done).1.par = done.1.par := by
  unfold reportDrain
  split
  · exact foldl_par reportDrained_par _ _
  · rfl

@[simp] theorem reportRefill_par (done : State × Option Addr) : (reportRefill done).1.par = done.1.par := by
  unfold reportRefill
  split <;> rfl

/-! ## The operations -/

/-- Where the outcome of an operation from `s` is a next state, it has the parameters of `s`. -/
def KeepsPar (s : State) (o : Host.Outcome State Fault Refusal) : Prop := ∀ t, o = .next t → t.par = s.par

theorem keepsPar_answer {s b : State} {done : State × Result} (h : done.1.par = s.par) : KeepsPar s (answer b done) := by
  intro t ht
  rw [answer_eq_next ht, setResult_par, h]

theorem keepsPar_agentStep {s u : State} {en : Bool} (h : u.par = s.par) : KeepsPar s (agentStep en u) := by
  intro t ht
  rw [(agentStep_eq_next ht).2, h]

theorem keepsPar_fault (s : State) (f : Fault) : KeepsPar s (.fault f) := by
  rintro t ⟨⟩

/-- No operation changes a parameter: one case for each arm of `exec`. -/
theorem exec_keepsPar (i : Instr) (s : State) : KeepsPar s (exec i s) := by
  cases i with
  | rdreg off => exact keepsPar_answer (by split <;> rfl)
  | wrreg off val => exact keepsPar_answer (by split <;> simp)
  | rdind addr => exact keepsPar_answer (by split <;> simp)
  | wrind addr val => exact keepsPar_answer (by split <;> simp)
  | doorbell off val =>
    refine keepsPar_answer ?_
    split
    · split <;> simp
    · rfl
  | setbit off mask => exact keepsPar_answer (by split <;> simp)
  | clrbit off mask => exact keepsPar_answer (by split <;> simp)
  | txpost csum h segs => exact keepsPar_answer (whenEnabled_par (txPost_par s h csum segs))
  | txreclaim idx => exact keepsPar_answer (whenEnabled_par (txReclaim_par s idx.toNat))
  | rxpost slot buf => exact keepsPar_answer (whenEnabled_par (by split_ifs <;> simp))
  | rrdrain idx => exact keepsPar_answer (whenEnabled_par (by simp))
  | rxrefill slot => exact keepsPar_answer (whenEnabled_par (by split <;> simp))
  | onint => exact keepsPar_answer (onInterrupt_par s)
  | wdtick => exact keepsPar_answer (tick_par s)
  | submit csum h segs => exact keepsPar_answer (by split_ifs <;> simp)
  | lnkauto adv caps => exact keepsPar_answer (by split_ifs <;> simp)
  | lnkforce duplex speed => exact keepsPar_answer (by split_ifs <;> simp)
  | resdone e => exact keepsPar_answer (by split_ifs <;> simp)
  | start => exact keepsPar_answer (by split <;> simp)
  | stop => exact keepsPar_answer (by split <;> simp)
  | adpreset => exact keepsPar_answer (by split <;> simp)
  | devtx k => exact keepsPar_agentStep (by rfl)
  | devrx flags err len => exact keepsPar_agentStep (by simp)
  | devsb => exact keepsPar_agentStep (by simp)
  | physet status => exact keepsPar_agentStep (setPhyStatus_par ..)

theorem runUndecodable_keepsPar (r : Request) (s : State) : KeepsPar s (runUndecodable r s) := by
  unfold runUndecodable
  split
  · rintro t ⟨⟩
    rfl
  · exact keepsPar_fault s _
  · exact keepsPar_fault s _

theorem runStimulus_keepsPar (x : Stimulus) (s : State) : KeepsPar s (runStimulus x s) := by
  cases x with
  | command r =>
    simp only [runStimulus, runRequest]
    split
    · exact exec_keepsPar _ s
    · exact runUndecodable_keepsPar r s
  | rogueSb v =>
    simp only [runStimulus, rogueWriteSb]
    exact keepsPar_agentStep (memWrite_par s ..)
  | rogueRr j v => exact keepsPar_agentStep (memWrite_par s ..)

/-- Settles O57: the idle step changes nothing, and every stimulus runs to an outcome that has the parameters it started with. -/
theorem parametersFixed : Obligations.ParametersFixed := by
  intro s t h
  unfold step at h
  split at h
  · cases h
    rfl
  · rw [runStimulus_keepsPar _ _ t h, withPending_par]

end Sys2Proof.Machine

/-! O55, O56: what every step keeps. `Inv` is taken apart by owner; each procedure of the model has one lemma that says that it
keeps the invariant, the framing of packets and the backing of receive slots (`Keeps`), and each operation is a composition of
these. O58 goes the same way with `Grows`, from any state. O52, O53 and O54 are about the reset state. -/

namespace Sys2Proof.Machine

/-! ## The invariant by owner -/

/-- The part of `Inv` about the transmit ring (10_state.md R22 to R26: ranges, I1, I2, I3). -/
structure TxOk (p : Params) (r : TxRing) : Prop where
  len     : r.slot.length = p.n
  prod_lt : r.prod < p.n
  cons_lt : r.cons < p.n
  free_le : r.free ≤ p.n
  dist    : r.prod = (r.cons + (p.n - r.free)) % p.n
  slots   : ∀ k, k < p.n → ((r.slot.getD ((r.cons + k) % p.n) none).isSome = true ↔ k < p.n - r.free)

/-- The part about the receive rings: all slots hold a buffer while enabled, none otherwise (R27 to R30). -/
structure RxOk (p : Params) (on : Bool) (r : RxRing) : Prop where
  len     : r.slot.length = p.n
  prod_lt : r.prod < p.n
  cons_lt : r.rrCons < p.n
  full    : on = true → ∀ i, i < p.n → (r.slot.getD i none).isSome = true
  empty   : on = false → ∀ i, i < p.n → r.slot.getD i none = none

/-- The part about the poller and the watchdog (R32 to R34). -/
structure PollOk (p : Params) (q : Poller) : Prop where
  tx_lt    : q.snapTxCons < p.n
  rr_lt    : q.snapRrProd < p.n
  stall_lt : q.wdStallTicks.toNat < p.wdTimeout

/-- The part about the link (R39 to R46, I7). -/
structure LinkOk (p : Params) (on : Bool) (l : Link) : Prop where
  up_iff     : l.up = true ↔ l.state = .up
  off_down   : on = false → l.state = .down
  down_clear : l.up = false → l.curSpeed = 0 ∧ l.curDuplex = false ∧ l.fcRx = false ∧ l.fcTx = false
  ticks_le   : l.negTicks.toNat ≤ p.negTimeout
  ticks_lt   : l.state = .negotiating → l.negTicks.toNat < p.negTimeout
  retries_le : l.negRetries.toNat ≤ p.negRetryMax
  mode_speed : ∀ sp dp, l.mode = .forced sp dp → sp ≠ 3
  res_speed  : l.resSpeed ≠ 3
  cur_speed  : l.curSpeed ≠ 3

/-- The part about the CSRs with storage of their own: reserved bits (R48, R62 to R67). -/
structure CsrOk (c : Csrs) : Prop where
  phy_speed  : phySpeed c.phyStatus ≠ 3
  phy_adv    : c.phyAdv.toNat < 256
  phy_ctrl   : c.phyCtrl &&& 0b11101#32 = c.phyCtrl
  phy_status : c.phyStatus.toNat < 256
  mac_mode   : c.macMode.toNat < 32
  mb_tx      : c.mbTxProd.toNat < 65536
  mb_rx      : c.mbRxProd.toNat < 65536
  mb_rr      : c.mbRrCons.toNat < 65536

/-- The part about the device, with `DEV_CTRL.EN` given (R70). -/
structure DevOk (p : Params) (en : Bool) (d : Device) : Prop where
  active  : d.active = en
  tx_cons : d.txCons < p.n
  tx_seen : d.txSeen < p.n
  pending : d.txPending ≤ p.n
  rx_cons : d.rxCons < p.n
  rx_seen : d.rxSeen < p.n
  avail   : d.rxAvail ≤ p.n
  rr_prod : d.rrProd < p.n
  rr_seen : d.rrSeen < p.n

/-- The part about the environment's lists (log 14). -/
structure EnvOk (e : Environment) : Prop where
  live : e.live.Pairwise fun a b => a.toNat < b.toNat
  owed : e.resolvePending.Pairwise fun a b => a.toNat ≤ b.toNat

/-- `Inv`, one field for each owner: an operation has to argue about the owners it touches only. -/
structure InvParts (s : State) : Prop where
  legal : s.par.Legal
  mem   : Memory.wf s.mem
  imem  : canonical s.imem = true
  tx    : TxOk s.par s.tx
  rx    : RxOk s.par s.ctl.enabled s.rx
  poll  : PollOk s.par s.poll
  link  : LinkOk s.par s.ctl.enabled s.link
  csr   : CsrOk s.csr
  dev   : DevOk s.par s.csr.devCtrlEn s.dev
  env   : EnvOk s.env

theorem Inv.parts {s : State} (h : Inv s) : InvParts s where
  legal := h.legal
  mem   := h.mem_wf
  imem  := h.imem_wf
  tx    := ⟨h.tx_len, h.tx_prod_lt, h.tx_cons_lt, h.tx_free_le, h.tx_dist, h.tx_slots⟩
  rx    := ⟨h.rx_len, h.rx_prod_lt, h.rr_cons_lt, h.rx_on, h.rx_off⟩
  poll  := ⟨h.snap_tx_lt, h.snap_rr_lt, h.stall_lt⟩
  link  := ⟨h.up_iff, h.off_down, h.down_clear, h.ticks_le, h.ticks_lt, h.retries_le, h.mode_speed, h.res_speed, h.cur_speed⟩
  csr   := ⟨h.phy_speed, h.phy_adv, h.phy_ctrl, h.phy_status, h.mac_mode, h.mb_tx, h.mb_rx, h.mb_rr⟩
  dev   := ⟨h.dev_active, h.dev_tx_cons, h.dev_tx_seen, h.dev_pending, h.dev_rx_cons, h.dev_rx_seen, h.dev_avail, h.dev_rr_prod,
            h.dev_rr_seen⟩
  env   := ⟨h.live_sorted, h.owed_sorted⟩

theorem InvParts.inv {s : State} (h : InvParts s) : Inv s where
  legal        := h.legal
  mem_wf       := h.mem
  imem_wf      := h.imem
  tx_len       := h.tx.len
  rx_len       := h.rx.len
  tx_prod_lt   := h.tx.prod_lt
  tx_cons_lt   := h.tx.cons_lt
  tx_free_le   := h.tx.free_le
  tx_dist      := h.tx.dist
  tx_slots     := h.tx.slots
  rx_prod_lt   := h.rx.prod_lt
  rr_cons_lt   := h.rx.cons_lt
  rx_on        := h.rx.full
  rx_off       := h.rx.empty
  snap_tx_lt   := h.poll.tx_lt
  snap_rr_lt   := h.poll.rr_lt
  stall_lt     := h.poll.stall_lt
  up_iff       := h.link.up_iff
  off_down     := h.link.off_down
  down_clear   := h.link.down_clear
  ticks_le     := h.link.ticks_le
  ticks_lt     := h.link.ticks_lt
  retries_le   := h.link.retries_le
  mode_speed   := h.link.mode_speed
  res_speed    := h.link.res_speed
  cur_speed    := h.link.cur_speed
  phy_speed    := h.csr.phy_speed
  phy_adv      := h.csr.phy_adv
  phy_ctrl     := h.csr.phy_ctrl
  phy_status   := h.csr.phy_status
  mac_mode     := h.csr.mac_mode
  mb_tx        := h.csr.mb_tx
  mb_rx        := h.csr.mb_rx
  mb_rr        := h.csr.mb_rr
  dev_active   := h.dev.active
  dev_tx_cons  := h.dev.tx_cons
  dev_tx_seen  := h.dev.tx_seen
  dev_pending  := h.dev.pending
  dev_rx_cons  := h.dev.rx_cons
  dev_rx_seen  := h.dev.rx_seen
  dev_avail    := h.dev.avail
  dev_rr_prod  := h.dev.rr_prod
  dev_rr_seen  := h.dev.rr_seen
  live_sorted  := h.env.live
  owed_sorted  := h.env.owed

/-! ## Framing and backing depend on their own region of memory -/

/-- The bytes of the TX and of the RX descriptor array read as before. -/
structure DescsSame (p : Params) (m m' : List Host.Cell) : Prop where
  tx : ∀ a, p.txBase ≤ a → a < p.txBase + 16 * p.n → Memory.byteAt m' a = Memory.byteAt m a
  rx : ∀ a, p.rxBase ≤ a → a < p.rxBase + 16 * p.n → Memory.byteAt m' a = Memory.byteAt m a

theorem DescsSame.refl (p : Params) (m : List Host.Cell) : DescsSame p m m := ⟨fun _ _ _ => rfl, fun _ _ _ => rfl⟩

/-- A write to the status block touches no descriptor of the two arrays. -/
theorem descsSame_of_sb {p : Params} (hp : p.Legal) {m m' : List Host.Cell} (h : sameOutside m m' p.sbBase 8) :
    DescsSame p m m' := by
  obtain ⟨-, -, htx, -, hrx, -⟩ := Regions.apart hp
  unfold disjointRanges at htx hrx
  exact ⟨fun a h1 h2 => h a (by unfold outside; omega), fun a h1 h2 => h a (by unfold outside; omega)⟩

/-- A write to a return descriptor touches none either. -/
theorem descsSame_of_rr {p : Params} (hp : p.Legal) {m m' : List Host.Cell} {j : Nat} (hj : j < p.n)
    (h : sameOutside m m' (rrDescAddr p j) 8) : DescsSame p m m' := by
  obtain ⟨-, htx, -, hrx, -, -⟩ := Regions.apart hp
  have hin := rrDesc_inside hj
  unfold disjointRanges at htx hrx
  exact ⟨fun a h1 h2 => h a (by unfold outside; omega), fun a h1 h2 => h a (by unfold outside; omega)⟩

theorem txEop_congr {s t : State} (hp : t.par = s.par) {i : Nat}
    (hm : ∀ a, txDescAddr s.par i ≤ a → a < txDescAddr s.par i + 16 → Memory.byteAt t.mem a = Memory.byteAt s.mem a) :
    t.txEop i = s.txEop i := by
  unfold State.txEop State.memRead
  rw [hp, readLE_congr _ _ fun a h1 h2 => hm a (by omega) (by omega)]

/-- I4 depends on the transmit ring and its descriptors. -/
theorem TxFramed.of_same {s t : State} (hp : t.par = s.par) (htx : t.tx = s.tx)
    (hm : ∀ a, s.par.txBase ≤ a → a < s.par.txBase + 16 * s.par.n → Memory.byteAt t.mem a = Memory.byteAt s.mem a)
    (h : TxFramed s) : TxFramed t := by
  have hslot : t.txSlot = s.txSlot := by funext i; rw [State.txSlot, htx, State.txSlot]
  have heop : ∀ k, t.txEop ((s.tx.cons + k) % s.par.n) = s.txEop ((s.tx.cons + k) % s.par.n) := fun k =>
    txEop_congr hp fun a h1 h2 => by
      have := txDesc_inside (p := s.par) (Nat.mod_lt (s.tx.cons + k) s.par.n_pos)
      exact hm a (by omega) (by omega)
  constructor
  · intro k
    rw [hp, htx, hslot, heop]
    exact h.same_packet k
  · intro k
    rw [hp, htx, heop]
    exact h.ends_packet k

/-- Nothing in flight is framed. -/
theorem txFramed_of_free {s : State} (h : s.tx.free = s.par.n) : TxFramed s :=
  ⟨fun k hk => by omega, fun k hk => by omega⟩

theorem RxBacked.descIs {s : State} (h : RxBacked s) {i : Nat} {b : Addr} (hi : i < s.par.n) (hb : s.rxSlot i = some b) :
    RxDescIs s.par s.mem i b := ⟨h.desc_addr i b hi hb, h.desc_cap i b hi hb⟩

/-- Backing depends on the receive slots, their descriptors and the live buffers. -/
theorem RxBacked.of_same {s t : State} (hp : t.par = s.par) (hrx : t.rx.slot = s.rx.slot)
    (hl : ∀ i b, i < s.par.n → s.rxSlot i = some b → b ∈ s.env.live → b ∈ t.env.live)
    (hm : ∀ a, s.par.rxBase ≤ a → a < s.par.rxBase + 16 * s.par.n → Memory.byteAt t.mem a = Memory.byteAt s.mem a)
    (h : RxBacked s) : RxBacked t := by
  have hslot : t.rxSlot = s.rxSlot := by funext i; rw [State.rxSlot, hrx, State.rxSlot]
  have hd : ∀ i b, i < s.par.n → s.rxSlot i = some b → RxDescIs s.par t.mem i b := fun i b hi hb =>
    (h.descIs hi hb).of_same fun a h1 h2 => by
      have := rxDesc_inside hi
      exact hm a (by omega) (by omega)
  constructor
  · intro i b
    rw [hp, hslot]
    exact fun hi hb => (hd i b hi hb).addr
  · intro i b
    rw [hp, hslot]
    intro hi hb
    unfold State.rxCap
    rw [hp]
    exact (hd i b hi hb).cap
  · intro i b
    rw [hp, hslot]
    exact fun hi hb => hl i b hi hb (h.live i b hi hb)
  · intro i j b
    rw [hp, hslot]
    exact h.distinct i j b

/-- With no buffer posted there is nothing to back. -/
theorem rxBacked_of_off {s : State} (h : Inv s) (hoff : s.ctl.enabled = false) : RxBacked s := by
  have hnone : ∀ i b, i < s.par.n → s.rxSlot i ≠ some b := fun i b hi hb => by
    rw [h.rx_off hoff i hi] at hb
    cases hb
  exact ⟨fun i b hi hb => absurd hb (hnone i b hi), fun i b hi hb => absurd hb (hnone i b hi),
    fun i b hi hb => absurd hb (hnone i b hi), fun i j b hi _ hb => absurd hb (hnone i b hi)⟩

/-! ## What an operation keeps -/

/-- The outcome of a move from `s` to `t`: `Inv` holds, and framing and backing hold if they held. -/
structure Keeps (s t : State) : Prop where
  inv    : Inv t
  framed : TxFramed s → TxFramed t
  backed : RxBacked s → RxBacked t

theorem Keeps.refl {s : State} (h : Inv s) : Keeps s s := ⟨h, id, id⟩

theorem Keeps.trans {s t u : State} (h : Keeps s t) (k : Keeps t u) : Keeps s u :=
  ⟨k.inv, fun hf => k.framed (h.framed hf), fun hb => k.backed (h.backed hb)⟩

/-- A move that leaves the rings' slots, the two descriptor arrays and the live buffers alone has only `Inv` to keep. -/
theorem Keeps.of_rings_same {s t : State} (hi : InvParts t) (hp : t.par = s.par := by rfl) (htx : t.tx = s.tx := by rfl)
    (hrx : t.rx.slot = s.rx.slot := by rfl) (hl : t.env.live = s.env.live := by rfl)
    (hm : DescsSame s.par s.mem t.mem := by exact .refl ..) : Keeps s t :=
  ⟨hi.inv, TxFramed.of_same hp htx hm.tx, RxBacked.of_same hp hrx (fun _ _ _ _ hb => hl ▸ hb) hm.rx⟩

/-- Ports, faults, counters and the stall flag are no part of what is kept. -/
theorem keeps_ports {s : State} (h : Inv s) (q : Ports) (c : Control) (hc : c.enabled = s.ctl.enabled) :
    Keeps s { s with ctl := c, port := q } :=
  .of_rings_same { h.parts with rx := hc ▸ h.parts.rx, link := hc ▸ h.parts.link }

theorem keeps_setResult {s : State} (h : Inv s) (r : Result) : Keeps s (s.setResult r) := keeps_ports h _ s.ctl rfl

theorem keeps_withPending {s : State} (h : Inv s) (q : List Stimulus) : Keeps s (s.withPending q) := keeps_ports h _ s.ctl rfl

theorem keeps_emit {s : State} (h : Inv s) (e : Event) : Keeps s (s.emit e) := keeps_ports h _ s.ctl rfl

/-! ## The register access layer keeps everything -/

theorem low16_lt (v : Word) : ((v.setWidth 16).setWidth 32 : Word).toNat < 65536 := by
  rw [BitVec.toNat_setWidth_of_le (by omega)]
  exact (v.setWidth 16).isLt

theorem storeMailbox_keeps {s : State} (h : Inv s) (c : Csr) (v : Word) : Keeps s (storeMailbox s c v) := by
  have hp := h.parts
  have hv := low16_lt v
  cases c with
  | mbTxProd => exact .of_rings_same { hp with csr := { hp.csr with mb_tx := hv } }
  | mbRxProd => exact .of_rings_same { hp with csr := { hp.csr with mb_rx := hv } }
  | mbRrCons => exact .of_rings_same { hp with csr := { hp.csr with mb_rr := hv } }
  | _ => exact .refl h

theorem devDoorbell_keeps {s : State} (h : Inv s) (c : Csr) {v : Nat} (hv : v < s.par.n) : Keeps s (devDoorbell s c v) := by
  have hp := h.parts
  unfold devDoorbell
  split
  · cases c with
    | mbTxProd =>
      exact .of_rings_same { hp with dev := { hp.dev with tx_seen := hv, pending := Nat.min_le_left .. } }
    | mbRxProd =>
      exact .of_rings_same { hp with dev := { hp.dev with rx_seen := hv, avail := Nat.min_le_left .. } }
    | mbRrCons => exact .of_rings_same { hp with dev := { hp.dev with rr_seen := hv } }
    | _ => exact .refl h
  · exact .refl h

theorem ringDoorbell_keeps {s : State} (h : Inv s) (c : Csr) (v : Word) : Keeps s (ringDoorbell s c v) := by
  have hs := storeMailbox_keeps h c v
  exact hs.trans (devDoorbell_keeps hs.inv c (by rw [storeMailbox_par]; exact wrap_lt ..))

theorem devReset_keeps {s : State} (h : Inv s) : Keeps s (devReset s) := by
  have hp := h.parts
  have hn := s.par.n_pos
  have h0 : (0#32).toNat < 65536 := by decide
  obtain ⟨m, hs, -, hm, hw⟩ := devReset_spec s
  rw [hs]
  refine .of_rings_same ?_ (hm := descsSame_of_sb h.legal hm)
  exact { hp with
    mem := hw h.mem_wf
    csr := { hp.csr with mb_tx := h0, mb_rx := h0, mb_rr := h0 }
    dev := { active := h.dev_active, tx_cons := hn, tx_seen := hn, pending := Nat.zero_le _, rx_cons := hn, rx_seen := hn,
             avail := Nat.zero_le _, rr_prod := hn, rr_seen := hn } }

theorem writeDevCtrl_keeps {s : State} (h : Inv s) (v : Word) : Keeps s (writeDevCtrl s v) := by
  have hp := h.parts
  have hen : Keeps s { s with csr := { s.csr with devCtrlEn := v.getLsbD 0 }, dev := { s.dev with active := v.getLsbD 0 } } :=
    .of_rings_same { hp with csr := { hp.csr with }, dev := { hp.dev with active := rfl } }
  simp only [writeDevCtrl]
  split
  · exact hen.trans (devReset_keeps hen.inv)
  · exact hen

/-- What `PHY_STATUS` may hold: no reserved speed code, no bit above 7 (R64). -/
def phyStatusFits (v : Word) : Prop := phySpeed v ≠ 3 ∧ v.toNat < 256

theorem setPhyStatus_keeps {s : State} (h : Inv s) {v : Word} (hv : phyStatusFits v) : Keeps s (setPhyStatus s v) := by
  have hp := h.parts
  exact .of_rings_same { hp with csr := { hp.csr with phy_speed := hv.1, phy_status := hv.2 }, poll := { hp.poll with } }

/-- Clearing `AN_COMPLETE` leaves the speed field alone. -/
theorem phyStatusFits_clear {v : Word} (h : phyStatusFits v) : phyStatusFits (v &&& ~~~(2#32)) := by
  obtain ⟨hspeed, hlt⟩ := h
  constructor
  · have hfield : phySpeed (v &&& ~~~(2#32)) = phySpeed v := by
      rw [phySpeed, BitVec.extractLsb'_and, show (~~~(2#32)).extractLsb' 2 2 = BitVec.allOnes 2 by decide, BitVec.and_allOnes,
        phySpeed]
    rwa [hfield]
  · rw [BitVec.toNat_and]
    exact Nat.lt_of_le_of_lt Nat.and_le_left hlt

theorem phyRestart_keeps {s : State} (h : Inv s) : Keeps s (phyRestart s) :=
  setPhyStatus_keeps h (phyStatusFits_clear ⟨h.phy_speed, h.phy_status⟩)

theorem writePhyCtrl_keeps {s : State} (h : Inv s) (v : Word) : Keeps s (writePhyCtrl s v) := by
  have hp := h.parts
  have hst : Keeps s { s with csr := { s.csr with phyCtrl := v &&& 0b11101#32 } } :=
    .of_rings_same { hp with csr := { hp.csr with phy_ctrl := by rw [BitVec.and_assoc, BitVec.and_self] } }
  simp only [writePhyCtrl]
  split
  · exact hst.trans (phyRestart_keeps hst.inv)
  · exact hst

theorem and_toNat_lt (v m : Word) {k : Nat} (hm : m.toNat < k) : (v &&& m).toNat < k := by
  rw [BitVec.toNat_and]
  exact Nat.lt_of_le_of_lt Nat.and_le_right hm

theorem regWrite_keeps {s : State} (h : Inv s) (c : Csr) (v : Word) : Keeps s (regWrite s c v) := by
  have hp := h.parts
  cases c with
  | devCtrl => exact writeDevCtrl_keeps h v
  | phyCtrl => exact writePhyCtrl_keeps h v
  | phyAdv =>
    exact .of_rings_same { hp with csr := { hp.csr with phy_adv := and_toNat_lt v _ (by decide) } }
  | macMode =>
    exact .of_rings_same { hp with csr := { hp.csr with mac_mode := and_toNat_lt v _ (by decide) } }
  | winBase => exact .of_rings_same { hp with csr := { hp.csr with } }
  | winData =>
    simp only [regWrite]
    split
    · exact .of_rings_same { hp with imem := imemWrite_canonical s _ v h.imem_wf }
    · exact .refl h
  | mbTxProd => exact ringDoorbell_keeps h _ v
  | mbRxProd => exact ringDoorbell_keeps h _ v
  | mbRrCons => exact ringDoorbell_keeps h _ v
  | _ => exact .refl h

theorem writeAt_keeps {s : State} (h : Inv s) (off : BitVec 16) (v : Word) : Keeps s (writeAt s off v) := by
  unfold writeAt
  split
  · exact regWrite_keeps h ..
  · exact .refl h

theorem indWrite_keeps {s : State} (h : Inv s) (addr v : Word) : Keeps s (indWrite s addr v) := by
  have hb := regWrite_keeps h .winBase addr
  exact hb.trans (regWrite_keeps hb.inv .winData v)

/-! ## The link procedures keep everything -/

/-- The link as `begin_negotiation` leaves it (44_link_fsm.md R195). -/
def negotiatingLink (l : Link) : Link := { l with epoch := l.epoch + 1, negTicks := 0, state := .negotiating }

/-- The link as `enter_forced` leaves it (R201). -/
def forcedLink (l : Link) (sp : BitVec 2) (dp : Bool) : Link :=
  { l with state := .up, up := true, epoch := l.epoch + 1, curSpeed := sp, curDuplex := dp, fcRx := false, fcTx := false }

section
variable {p : Params} {l : Link}

theorem LinkOk.downed {on : Bool} (h : LinkOk p on l) : LinkOk p on (downedLink l) :=
  { h with up_iff := ⟨nofun, nofun⟩, off_down := fun _ => rfl, down_clear := fun _ => ⟨rfl, rfl, rfl, rfl⟩, ticks_lt := nofun,
           cur_speed := (by decide : (0#2) ≠ 3) }

theorem LinkOk.negotiating (hp : p.Legal) (h : LinkOk p true l) (hup : l.up = false) : LinkOk p true (negotiatingLink l) :=
  { h with up_iff := ⟨fun hu => absurd (hup.symm.trans hu) nofun, nofun⟩, off_down := nofun, ticks_le := Nat.zero_le _,
           ticks_lt := fun _ => hp.neg_pos }

theorem LinkOk.forced (h : LinkOk p true l) {sp : BitVec 2} (hsp : sp ≠ 3) (dp : Bool) : LinkOk p true (forcedLink l sp dp) :=
  { h with up_iff := ⟨fun _ => rfl, fun _ => rfl⟩, off_down := nofun, down_clear := nofun, ticks_lt := nofun, cur_speed := hsp }

/-- An enabled adapter may have its link in any state. -/
theorem LinkOk.enable {on : Bool} (h : LinkOk p on l) : LinkOk p true l := { h with off_down := nofun }

theorem LinkOk.not_up {on : Bool} (h : LinkOk p on l) (hst : l.state ≠ .up) : l.up = false :=
  Bool.eq_false_iff.2 fun hu => hst (h.up_iff.1 hu)

end

/-- Only an enabled adapter has a link that is not down. -/
theorem enabled_of_link {s : State} (h : Inv s) (hst : s.link.state ≠ .down) : s.ctl.enabled ≠ false :=
  fun hoff => hst (h.off_down hoff)

theorem epochInsert_sorted (e : Word) {l : List Word} (h : l.Pairwise fun a b => a.toNat ≤ b.toNat) :
    (epochInsert e l).Pairwise fun a b => a.toNat ≤ b.toNat := by
  induction l with
  | nil => exact List.pairwise_singleton _ _
  | cons x rest ih =>
    obtain ⟨hx, hrest⟩ := List.pairwise_cons.1 h
    simp only [epochInsert]
    split
    · next hle =>
      refine List.pairwise_cons.2 ⟨fun y hy => ?_, h⟩
      rcases List.mem_cons.1 hy with rfl | hy
      · exact hle
      · exact Nat.le_trans hle (hx y hy)
    · next hgt =>
      refine List.pairwise_cons.2 ⟨fun y hy => ?_, ih hrest⟩
      rcases List.mem_cons.1 ((epochInsert_perm e rest).mem_iff.1 hy) with rfl | hy
      · omega
      · exact hx y hy

theorem linkDownNow_keeps {s : State} (h : Inv s) : Keeps s (linkDownNow s) := by
  have hp := h.parts
  rw [linkDownNow_eq]
  exact .of_rings_same { hp with link := hp.link.downed, csr := { hp.csr with mac_mode := (by decide : (0#32).toNat < 32) } }

@[simp] theorem linkDownNow_ctl (s : State) : (linkDownNow s).ctl = s.ctl := by rw [linkDownNow_eq]

@[simp] theorem linkDownNow_link (s : State) : (linkDownNow s).link = downedLink s.link := by rw [linkDownNow_eq]

/-- The link before may be any; what counts is the link after. -/
theorem beginNegotiation_keeps {s : State} (h : Inv s) {l : Link} (hl : LinkOk s.par s.ctl.enabled (negotiatingLink l)) :
    Keeps s (beginNegotiation { s with link := l }) := by
  have hp := h.parts
  have hst := phyStatusFits_clear ⟨h.phy_speed, h.phy_status⟩
  rw [beginNegotiation_eq]
  refine .of_rings_same ?_
  exact { hp with
    link := hl
    poll := { hp.poll with }
    csr := { hp.csr with
      phy_speed := hst.1
      phy_status := hst.2
      phy_adv := by rw [← phyAdvWord_eq]; exact and_toNat_lt _ _ (by decide)
      phy_ctrl := (by decide : 1#32 &&& 0b11101#32 = 1#32) } }

theorem requestNegotiation_keeps {s : State} (h : Inv s) (hon : s.ctl.enabled = true) (hup : s.link.up = false) :
    Keeps s (requestNegotiation s) := by
  have hl := h.parts.link
  rw [hon] at hl
  refine beginNegotiation_keeps h ?_
  rw [hon]
  exact LinkOk.negotiating h.legal { hl with retries_le := Nat.zero_le _ } hup

theorem enterForced_keeps {s : State} (h : Inv s) {l : Link} {sp : BitVec 2} {dp : Bool}
    (hl : LinkOk s.par s.ctl.enabled (forcedLink l sp dp)) : Keeps s (enterForced { s with link := l } sp dp) := by
  have hp := h.parts
  have hmac := macModeWord_eq false false dp sp
  simp only [Bool.toNat_false, Nat.mul_zero, Nat.zero_add] at hmac
  rw [enterForced_eq]
  refine .of_rings_same ?_
  exact { hp with
    link := hl
    csr := { hp.csr with
      mac_mode := by rw [← hmac]; exact and_toNat_lt _ _ (by decide)
      phy_ctrl := by rw [← (phyForceWord_eq sp dp).1, BitVec.and_assoc, BitVec.and_self] } }

theorem linkStart_keeps {s : State} (h : Inv s) (hon : s.ctl.enabled = true) (hup : s.link.up = false) :
    Keeps s (linkStart s) := by
  unfold linkStart
  split
  · exact requestNegotiation_keeps h hon hup
  · next sp dp hm =>
    have hl := h.parts.link
    rw [hon] at hl
    exact enterForced_keeps h (l := s.link) (by rw [hon]; exact hl.forced (h.mode_speed sp dp hm) dp)

theorem negComplete_keeps {s : State} (h : Inv s) (hst : s.link.state = .negotiating) :
    Keeps s (negComplete s s.csr.phyStatus) := by
  have hp := h.parts
  have hup : s.link.up = false := hp.link.not_up (by rw [hst]; nofun)
  have hon := enabled_of_link h (by rw [hst]; nofun)
  rw [negComplete_eq]
  refine .of_rings_same ?_
  exact { hp with
    link := { hp.link with up_iff := ⟨fun hu => absurd (hup.symm.trans hu) nofun, nofun⟩, off_down := fun hoff => absurd hoff hon,
                           ticks_lt := nofun, res_speed := h.phy_speed }
    env := { hp.env with owed := epochInsert_sorted _ h.owed_sorted } }

theorem resolveDone_keeps {s : State} (h : Inv s) (hst : s.link.state = .resolving) : Keeps s (resolveDone s) := by
  have hp := h.parts
  have hon := enabled_of_link h (by rw [hst]; nofun)
  rw [resolveDone_eq s _ _ rfl]
  refine .of_rings_same ?_
  exact { hp with
    link := { hp.link with up_iff := ⟨fun _ => rfl, fun _ => rfl⟩, off_down := fun hoff => absurd hoff hon, down_clear := nofun,
                           ticks_lt := nofun, cur_speed := h.res_speed }
    csr := { hp.csr with mac_mode := by rw [← macModeWord_eq]; exact and_toNat_lt _ _ (by decide) } }

theorem linkLoss_keeps {s : State} (h : Inv s) (hon : s.ctl.enabled = true) : Keeps s (linkLoss s) := by
  have hd := linkDownNow_keeps h
  unfold linkLoss
  split
  · exact hd.trans (requestNegotiation_keeps hd.inv (by simpa using hon) (by simp [downedLink]))
  · exact hd

theorem linkService_keeps {s : State} (h : Inv s) (hon : s.ctl.enabled = true) : Keeps s (linkService s) := by
  simp only [linkService]
  split
  case h_1 hst =>
    split
    · exact negComplete_keeps h hst
    · exact .refl h
  case h_2 =>
    split
    · exact .refl h
    · exact linkLoss_keeps h hon
  case h_3 => exact .refl h
  case h_4 => exact .refl h

/-- One more tick of a negotiation, its count not wrapped (44_link_fsm.md R203, 70_reset_and_hazards.md R323). -/
theorem negTicks_succ {s : State} (h : Inv s) (hst : s.link.state = .negotiating) :
    (s.link.negTicks + 1).toNat = s.link.negTicks.toNat + 1 ∧ s.link.negTicks.toNat + 1 ≤ s.par.negTimeout := by
  have hlt := h.ticks_lt hst
  have hle := h.legal.neg_le
  have hfits : s.link.negTicks.toNat + 1 < 2 ^ 16 := by omega
  exact ⟨BitVec.toNat_add_of_lt (y := 1) hfits, hlt⟩

theorem negFallback_keeps {s : State} (h : Inv s) (hon : s.ctl.enabled = true) (hst : s.link.state = .negotiating) :
    Keeps s (negFallback { s with link := { s.link with negTicks := s.link.negTicks + 1 } }) := by
  obtain ⟨hsucc, hle⟩ := negTicks_succ h hst
  have hp := h.parts
  have hl := hp.link
  have hup : s.link.up = false := hl.not_up (by rw [hst]; nofun)
  have hticks : (s.link.negTicks + 1).toNat ≤ s.par.negTimeout := hsucc ▸ hle
  rw [hon] at hl
  simp only [negFallback]
  split
  case h_1 sp dp hf =>
    have he := keeps_emit h .negTimeout
    have hsp : sp ≠ 3 := by
      rintro rfl
      exact h.legal.fallback_ok dp hf
    refine he.trans (enterForced_keeps he.inv ?_)
    rw [show (s.emit .negTimeout).ctl.enabled = true from hon]
    exact { hl.forced hsp dp with ticks_le := hticks, ticks_lt := nofun }
  case h_2 =>
    refine .of_rings_same ?_
    exact { hp with link := { hp.link with up_iff := ⟨fun hu => absurd (hup.symm.trans hu) nofun, nofun⟩,
                                           off_down := fun _ => rfl, ticks_le := hticks, ticks_lt := nofun } }

theorem negTick_keeps {s : State} (h : Inv s) (hon : s.ctl.enabled = true) : Keeps s (negTick s).1 := by
  have hp := h.parts
  have hl := hp.link
  simp only [negTick]
  split
  · next hst =>
    obtain ⟨hsucc, hle⟩ := negTicks_succ h hst
    split
    · next hlt =>
      exact .of_rings_same { hp with link := { hl with ticks_le := Nat.le_of_lt hlt, ticks_lt := fun _ => hlt } }
    · split
      · next hr =>
        have hretry : (s.link.negRetries + 1).toNat ≤ s.par.negRetryMax := by
          have hmax := h.legal.retry_le
          have hfits : s.link.negRetries.toNat + 1 < 2 ^ 8 := by omega
          rw [BitVec.toNat_add_of_lt (y := 1) hfits]
          exact hr
        have hup : s.link.up = false := hl.not_up (by rw [hst]; nofun)
        refine beginNegotiation_keeps h ?_
        rw [hon] at hl ⊢
        have hlink : LinkOk s.par true { s.link with negRetries := s.link.negRetries + 1 } := { hl with retries_le := hretry }
        have hneg := hlink.negotiating h.legal hup
        exact hneg
      · exact negFallback_keeps h hon hst
  · exact .refl h

/-! ## The transmit ring -/

/-- Two places less than a lap from the cursor are different slots. -/
theorem slot_ne {n i j k : Nat} (hj : j < n) (hk : k < n) (hjk : j ≠ k) : (i + j) % n ≠ (i + k) % n := by
  rcases Nat.lt_or_gt_of_ne hjk with hlt | hgt
  · exact slot_ne_of_lt hlt (by omega)
  · exact (slot_ne_of_lt hgt (by omega)).symm

theorem txEop_of_descIs {s : State} {i : Nat} {g : Seg} {c e : Bool} (h : TxDescIs s.par s.mem i g c e) : s.txEop i = e := by
  rw [State.txEop, State.memRead, h.flags, Nat.testBit_zero]
  cases c <;> cases e <;> rfl

/-- What `fillTx` leaves, counted from the oldest slot in flight: a packet of `k` slots behind those in flight, `EOP` on its
last. -/
structure PacketFilled (s : State) (hd : Handle) (k : Nat) (t : State) : Prop where
  frame : t = { s with tx := { s.tx with slot := t.tx.slot }, mem := t.mem }
  len   : t.tx.slot.length = s.par.n
  wf    : Memory.wf t.mem
  bytes : sameOutside s.mem t.mem s.par.txBase (16 * s.par.n)
  slots : ∀ j, j < s.par.n → t.txSlot ((s.tx.cons + j) % s.par.n) =
            if s.inFlight ≤ j ∧ j < s.inFlight + k then some hd else s.txSlot ((s.tx.cons + j) % s.par.n)
  eops  : ∀ j, j < s.inFlight + k → t.txEop ((s.tx.cons + j) % s.par.n) =
            if j < s.inFlight then s.txEop ((s.tx.cons + j) % s.par.n) else decide (j + 1 = s.inFlight + k)

theorem fillTx_filled {s : State} (h : Inv s) (hd : Handle) (csum : Bool) {segs : List Seg} (hk : segs.length ≤ s.tx.free) :
    PacketFilled s hd segs.length (fillTx hd csum segs (wrap s.par s.tx.prod) s) := by
  have hfree := h.tx_free_le
  have hd' : s.inFlight = s.par.n - s.tx.free := rfl
  have hplace : ∀ i, (s.tx.prod + i) % s.par.n = (s.tx.cons + (s.inFlight + i)) % s.par.n := fun i => by
    rw [h.tx_dist, Nat.mod_add_mod, Nat.add_assoc, hd']
  obtain ⟨m, sl, he, hlen, hin, hout, hdesc, hbytes, hwf⟩ :=
    fillTx_spec hd csum segs s.tx.prod s h.tx_prod_lt (by omega) h.tx_len
  simp only [hplace] at hin hout hdesc hbytes
  rw [wrap_of_lt h.tx_prod_lt, he]
  refine ⟨rfl, hlen, hwf h.mem_wf, fun a ha => hbytes a fun i _ => ?_, fun j hj => ?_, fun j hj => ?_⟩
  · have hin := txDesc_inside (p := s.par) (Nat.mod_lt (s.tx.cons + (s.inFlight + i)) s.par.n_pos)
    unfold outside at ha ⊢
    omega
  · simp only [State.txSlot, List.getD_eq_getElem?_getD]
    split
    · next hnew =>
      have := hin (j - s.inFlight) (by omega)
      rw [show s.inFlight + (j - s.inFlight) = j by omega] at this
      rw [this]
      rfl
    · next hold => rw [hout _ fun i hi => slot_ne hj (by omega) (by omega)]
  · split
    · next hold =>
      refine txEop_congr (s := s) (t := { s with tx := { s.tx with slot := sl }, mem := m }) rfl fun a h1 h2 =>
        hbytes a fun i hi => ?_
      have hne : (s.tx.cons + j) % s.par.n ≠ (s.tx.cons + (s.inFlight + i)) % s.par.n := slot_ne (by omega) (by omega) (by omega)
      simp only [txDescAddr, outside] at *
      omega
    · next hnew =>
      have hj' : j - s.inFlight < segs.length := by omega
      have := hdesc (j - s.inFlight) segs[j - s.inFlight] (List.getElem?_eq_getElem hj')
      rw [show s.inFlight + (j - s.inFlight) = j by omega] at this
      exact (txEop_of_descIs this).trans (decide_eq_decide.2 (by omega))

namespace PacketFilled

variable {s t : State} {hd : Handle} {k : Nat}

/-- The state once the packet is counted: the producer on by `k`, `k` slots fewer free. -/
def counted (s t : State) (k : Nat) : State :=
  { t with tx := { t.tx with prod := ringAdd s.par s.tx.prod k, free := s.tx.free - k } }

theorem inFlight_counted (h : Inv s) (hk : k ≤ s.tx.free) : s.par.n - (s.tx.free - k) = s.inFlight + k := by
  have hfree := h.tx_free_le
  unfold State.inFlight
  omega

theorem txOk (f : PacketFilled s hd k t) (h : Inv s) (hk : k ≤ s.tx.free) : TxOk s.par (counted s t k).tx := by
  have hfree := h.tx_free_le
  have hcount := inFlight_counted h hk
  have hcons : t.tx.cons = s.tx.cons := by rw [f.frame]
  refine ⟨f.len, wrap_lt .., hcons ▸ h.tx_cons_lt, (Nat.sub_le ..).trans hfree, ?_, fun j hj => ?_⟩
  · show ringAdd s.par s.tx.prod k = (t.tx.cons + (s.par.n - (s.tx.free - k))) % s.par.n
    rw [ringAdd_eq, h.tx_dist, Nat.mod_add_mod, hcount, Nat.add_assoc, hcons]
    rfl
  · have hold := h.tx_slots j hj
    show (t.txSlot ((t.tx.cons + j) % s.par.n)).isSome = true ↔ j < s.par.n - (s.tx.free - k)
    rw [hcons, f.slots j hj, hcount]
    unfold State.inFlight
    split
    · next hnew => exact ⟨fun _ => hnew.2, fun _ => rfl⟩
    · next hout =>
      rw [hold]
      omega

/-- The last packet before ends with `EOP`, so no packet runs on into the new one. -/
theorem framed (f : PacketFilled s hd k t) (h : Inv s) (hk : k ≤ s.tx.free) (hf : TxFramed s) : TxFramed (counted s t k) := by
  have hcount := inFlight_counted h hk
  have hbound : s.inFlight + k ≤ s.par.n := hcount ▸ Nat.sub_le ..
  have hpar : t.par = s.par := by rw [f.frame]
  have hcons : t.tx.cons = s.tx.cons := by rw [f.frame]
  constructor
  · intro j hj he
    change j + 1 < t.par.n - (s.tx.free - k) at hj
    change t.txEop ((t.tx.cons + j) % t.par.n) = false at he
    show t.txSlot ((t.tx.cons + j + 1) % t.par.n) = t.txSlot ((t.tx.cons + j) % t.par.n)
    rw [hpar, hcount] at hj
    rw [hpar, hcons, f.eops j (by omega)] at he
    rw [hpar, hcons, Nat.add_assoc, f.slots j (by omega), f.slots (j + 1) (by omega)]
    by_cases hold : j < s.inFlight
    · rw [if_pos hold] at he
      have hmid : j + 1 ≠ s.inFlight := fun hlast => by
        rw [hf.ends_packet j hlast] at he
        cases he
      rw [if_neg (by omega), if_neg (by omega)]
      exact hf.same_packet j (by unfold State.inFlight at *; omega) he
    · rw [if_pos (by omega), if_pos (by omega)]
  · intro j hj
    change j + 1 = t.par.n - (s.tx.free - k) at hj
    show t.txEop ((t.tx.cons + j) % t.par.n) = true
    rw [hpar, hcount] at hj
    rw [hpar, hcons, f.eops j (by omega)]
    split
    · exact hf.ends_packet j (by unfold State.inFlight at *; omega)
    · exact decide_eq_true hj

theorem counted_keeps (f : PacketFilled s hd k t) (h : Inv s) (hk : k ≤ s.tx.free) : Keeps s (counted s t k) := by
  have hp := h.parts
  have htx := f.txOk h hk
  have hframed := f.framed h hk
  obtain ⟨hfr, -, hwf, hbytes, -, -⟩ := f
  generalize t.mem = m, t.tx.slot = sl at hfr hwf hbytes
  subst hfr
  have hapart := (Regions.apart h.legal).1
  unfold disjointRanges at hapart
  refine ⟨InvParts.inv { hp with mem := hwf, tx := htx }, hframed,
    RxBacked.of_same rfl rfl (fun _ _ _ _ hb => hb) fun a _ _ => ?_⟩
  exact hbytes a (by unfold outside; omega)

end PacketFilled

theorem txPost_keeps {s : State} (h : Inv s) (hd : Handle) (csum : Bool) (segs : List Seg) :
    Keeps s (txPost s hd csum segs).1 := by
  unfold txPost
  split_ifs with hzero hmany hlen hfree
  · exact .refl h
  · exact .refl h
  · exact .refl h
  · exact .refl h
  · have hk : segs.length ≤ s.tx.free := Nat.le_of_not_lt hfree
    have hpub := (fillTx_filled h hd csum hk).counted_keeps h hk
    exact hpub.trans (ringDoorbell_keeps hpub.inv ..)

namespace SlotsFreed

variable {s : State} {c : Nat} {sl : List (Option Handle)}

/-- A slot counted from the cursor `c` slots on. -/
theorem place (s : State) (c k : Nat) : ((s.tx.cons + c) % s.par.n + k) % s.par.n = (s.tx.cons + (c + k)) % s.par.n := by
  rw [Nat.mod_add_mod, Nat.add_assoc]

theorem kept (f : SlotsFreed s c sl) {j : Nat} (hc : c ≤ j) (hj : j < s.par.n) :
    sl.getD ((s.tx.cons + j) % s.par.n) none = s.txSlot ((s.tx.cons + j) % s.par.n) := by
  rw [State.txSlot, List.getD_eq_getElem?_getD, List.getD_eq_getElem?_getD,
    f.others _ fun i hi => slot_ne hj (by omega) (by omega)]

theorem txOk (f : SlotsFreed s c sl) (h : Inv s) (hc : c ≤ s.inFlight) :
    TxOk s.par { s.tx with cons := (s.tx.cons + c) % s.par.n, free := s.tx.free + c, slot := sl } := by
  have hfree := h.tx_free_le
  unfold State.inFlight at hc
  refine ⟨f.len, h.tx_prod_lt, Nat.mod_lt _ s.par.n_pos, by dsimp only; omega, ?_, fun k hk => ?_⟩ <;> dsimp only
  · rw [place, show c + (s.par.n - (s.tx.free + c)) = s.par.n - s.tx.free by omega]
    exact h.tx_dist
  · rw [place]
    by_cases hlap : c + k < s.par.n
    · rw [f.kept (by omega) hlap, h.tx_slots (c + k) hlap]
      omega
    · have hlap' : (s.tx.cons + (c + k)) % s.par.n = (s.tx.cons + (c + k - s.par.n)) % s.par.n := by
        rw [show s.tx.cons + (c + k) = s.tx.cons + (c + k - s.par.n) + s.par.n by omega, Nat.add_mod_right]
      rw [hlap', List.getD_eq_getElem?_getD, f.freed _ (by omega)]
      exact ⟨nofun, fun hlt => by omega⟩

/-- What is left in flight is the end of what was. -/
theorem framed (f : SlotsFreed s c sl) {t : State} (hpar : t.par = s.par) (hmem : t.mem = s.mem)
    (htx : t.tx = { s.tx with cons := (s.tx.cons + c) % s.par.n, free := s.tx.free + c, slot := sl }) (hf : TxFramed s) :
    TxFramed t := by
  have heop : t.txEop = s.txEop := by funext i; rw [State.txEop, State.memRead, hpar, hmem]; rfl
  have hslot : t.txSlot = fun i => sl.getD i none := by funext i; rw [State.txSlot, htx]
  constructor
  · intro k hk he
    rw [htx, hpar] at hk he ⊢
    rw [heop, place] at he
    dsimp only at hk
    rw [hslot, Nat.add_assoc, place, place]
    dsimp only
    rw [f.kept (by omega) (by omega), f.kept (by omega) (by omega)]
    exact hf.same_packet (c + k) (by omega) he
  · intro k hk
    rw [htx, hpar] at hk ⊢
    dsimp only at hk
    rw [heop, place]
    exact hf.ends_packet (c + k) (by omega)

end SlotsFreed

/-- Freeing the oldest slots in flight, whatever is reported of them. -/
theorem walkTx_keeps {s : State} (h : Inv s) (ev : Handle → Event) {c : Nat} (hc : c ≤ s.inFlight) :
    Keeps s (walkTx ev c s).1 := by
  have hp := h.parts
  obtain ⟨sl, hw, hlen, hfreed, hothers⟩ := walkTx_spec ev c s h.tx_cons_lt h.tx_len (hc.trans (Nat.sub_le ..))
  have f : SlotsFreed s c sl := ⟨hlen, hfreed, hothers⟩
  rw [hw]
  exact ⟨InvParts.inv { hp with tx := f.txOk h hc }, f.framed rfl rfl rfl,
    RxBacked.of_same rfl rfl (fun _ _ _ _ hb => hb) fun _ _ _ => rfl⟩

theorem txFailAll_keeps {s : State} (h : Inv s) : Keeps s (txFailAll s) := walkTx_keeps h _ (Nat.le_refl _)

theorem noteReclaim_keeps {s : State} (h : Inv s) : Keeps s (noteReclaim s) := by
  have hp := h.parts
  rw [noteReclaim_eq]
  exact .of_rings_same { hp with poll := { hp.poll with } }

theorem txReclaim_keeps {s : State} (h : Inv s) (idx : Nat) : Keeps s (txReclaim s idx).1 := by
  simp only [txReclaim]
  split
  · exact keeps_ports h s.port _ rfl
  · next hc =>
    have hw := walkTx_keeps h .txDone (Nat.le_of_not_lt hc)
    split
    · exact hw.trans (noteReclaim_keeps hw.inv)
    · exact hw

/-! ## The allocator's lists -/

theorem bufcap_pos {p : Params} (h : p.Legal) : 1 ≤ p.bufcap := h.maxpkt_pos.trans h.maxpkt_le

/-- A call of the allocator adds at most a buffer to `live`. -/
theorem alloc_keeps {s : State} (h : Inv s) : Keeps s (alloc s).1 := by
  have hp := h.parts
  rcases alloc_cases s with ⟨b, -, ha⟩ | ha
  · rw [ha]
    exact ⟨InvParts.inv { hp with env := { hp.env with live := liveInsert_sorted b _ h.live_sorted } },
      TxFramed.of_same rfl rfl fun _ _ _ => rfl,
      RxBacked.of_same rfl rfl (fun _ _ _ _ hb => (mem_liveInsert ..).2 (.inr hb)) fun _ _ _ => rfl⟩
  · rw [ha]
    exact .of_rings_same { hp with env := { hp.env with } }

theorem afterAllocs_inv {s : State} (h : Inv s) (k : Nat) : Inv (afterAllocs k s) := by
  induction k generalizing s with
  | zero => exact h
  | succ k ih => exact ih (alloc_keeps h).inv

/-- `Inv` says nothing of which buffers are live, only that they are listed in order. -/
theorem dropLive_inv {s : State} (h : Inv s) (b : Addr) : Inv (s.dropLive b) := by
  have hp := h.parts
  exact InvParts.inv { hp with env := { hp.env with live := h.live_sorted.filter _ } }

/-! ## Slots that take fresh buffers -/

/-- What refills leave: the slots of `fresh` hold a buffer that was not live, with its descriptor; every other posted slot is as
it was; of the live buffers at most those in the refilled slots have left. -/
structure Refilled (s t : State) (fresh : Nat → Addr → Prop) : Prop where
  par    : t.par = s.par
  posted : ∀ i b, i < s.par.n → t.rxSlot i = some b → fresh i b ∨ (s.rxSlot i = some b ∧ ∀ b', ¬ fresh i b')
  desc   : ∀ i b, fresh i b → RxDescIs s.par t.mem i b
  bytes  : ∀ i a, i < s.par.n → (∀ b, ¬ fresh i b) → rxDescAddr s.par i ≤ a → a < rxDescAddr s.par i + 10 →
             Memory.byteAt t.mem a = Memory.byteAt s.mem a
  new    : ∀ i b, fresh i b → b ∉ s.env.live
  inj    : ∀ i j b, fresh i b → fresh j b → i = j
  live   : ∀ b, (b ∈ s.env.live ∨ ∃ i, fresh i b) → (∀ i b', i < s.par.n → fresh i b' → s.rxSlot i ≠ some b) →
             b ∈ t.env.live

theorem Refilled.backed {s t : State} {fresh : Nat → Addr → Prop} (r : Refilled s t fresh) (h : RxBacked s) : RxBacked t := by
  have hdesc : ∀ i b, i < s.par.n → t.rxSlot i = some b → RxDescIs s.par t.mem i b := fun i b hi hb => by
    rcases r.posted i b hi hb with hf | ⟨hs, hold⟩
    · exact r.desc i b hf
    · exact (h.descIs hi hs).of_same fun a h1 h2 => r.bytes i a hi hold h1 h2
  constructor
  · intro i b
    rw [r.par]
    exact fun hi hb => (hdesc i b hi hb).addr
  · intro i b
    rw [r.par]
    intro hi hb
    rw [State.rxCap, r.par]
    exact (hdesc i b hi hb).cap
  · intro i b
    rw [r.par]
    intro hi hb
    rcases r.posted i b hi hb with hf | ⟨hs, hold⟩
    · exact r.live b (.inr ⟨i, hf⟩) fun j _ hj _ hsj => r.new i b hf (h.live j b hj hsj)
    · refine r.live b (.inl (h.live i b hi hs)) fun j b' hj hf hsj => hold b' ?_
      rwa [h.distinct i j b hi hj hs hsj]
  · intro i j b
    rw [r.par]
    intro hi hj hib hjb
    rcases r.posted i b hi hib with hfi | ⟨hsi, -⟩ <;> rcases r.posted j b hj hjb with hfj | ⟨hsj, -⟩
    · exact r.inj i j b hfi hfj
    · exact absurd (h.live j b hj hsj) (r.new i b hfi)
    · exact absurd (h.live i b hi hsi) (r.new j b hfj)
    · exact h.distinct i j b hi hj hsi hsj

/-- The transmit ring's descriptors share no byte with the receive ring's. -/
theorem tx_bytes_of_rx {p : Params} (hp : p.Legal) {m m' : List Host.Cell} {i : Nat} (hi : i < p.n)
    (h : sameOutside m m' (rxDescAddr p i) 16) (a : Nat) (h1 : p.txBase ≤ a) (h2 : a < p.txBase + 16 * p.n) :
    Memory.byteAt m' a = Memory.byteAt m a := by
  have hapart := (Regions.apart hp).1
  have hin := rxDesc_inside hi
  unfold disjointRanges at hapart
  exact h a (by unfold outside; omega)

/-! ## Refilling one slot -/

theorem rxRung_devOk {p : Params} {en : Bool} {d : Device} (h : DevOk p en d) {v : Nat} (hv : v < p.n) :
    DevOk p en (rxRung p d v) := by
  unfold rxRung
  split
  · exact { h with rx_seen := hv, avail := Nat.min_le_left .. }
  · exact h

theorem ofNat32_lt {p : Params} (hp : p.Legal) (i : Nat) : (BitVec.ofNat 32 (i % p.n)).toNat < 65536 := by
  have hn := hp.n_le
  have hi := Nat.mod_lt i p.n_pos
  rw [BitVec.toNat_ofNat]
  omega

theorem posted_inv {s : State} (h : Inv s) : Inv s.posted := by
  have hp := h.parts
  have hi := Nat.mod_lt (s.rx.prod + 1) s.par.n_pos
  exact InvParts.inv { hp with
    rx := { hp.rx with prod_lt := hi }
    csr := { hp.csr with mb_rx := ofNat32_lt h.legal _ }
    dev := rxRung_devOk hp.dev hi }

/-- While enabled every slot is full, and setting one to a buffer leaves it so. -/
theorem rxOk_set {p : Params} {r : RxRing} (h : RxOk p true r) (i : Nat) (b : Addr) :
    RxOk p true { r with slot := r.slot.set i (some b) } := by
  refine ⟨by simpa using h.len, h.prod_lt, h.cons_lt, fun _ j hj => ?_, nofun⟩
  have hfull := h.full rfl j hj
  simp only [List.getD_eq_getElem?_getD] at hfull ⊢
  by_cases hij : i = j
  · subst hij
    rw [List.getElem?_set_self (by rw [h.len]; exact hj)]
    rfl
  · rwa [List.getElem?_set_ne hij]

/-- One slot given a fresh buffer, its old one no longer live. -/
theorem refilled_one {s t : State} (h : Inv s) (hon : s.ctl.enabled = true) {i : Nat} (hi : i < s.par.n) {nb : Addr}
    (hfresh : freshBuffer s.par s.env.live nb = true) (hpar : t.par = s.par) (hslot : t.rx.slot = s.rx.slot.set i (some nb))
    (hd : RxDescIs s.par t.mem i nb) (hm : sameOutside s.mem t.mem (rxDescAddr s.par i) 10)
    (hlive : t.env.live = (liveInsert nb s.env.live).filter (· != s.bufferOf i)) :
    Refilled s t fun j b => j = i ∧ b = nb where
  par    := hpar
  posted := by
    intro j b hj hjb
    rw [State.rxSlot, hslot, List.getD_eq_getElem?_getD] at hjb
    by_cases hij : j = i
    · subst hij
      rw [List.getElem?_set_self (by rw [h.rx_len]; exact hj)] at hjb
      exact .inl ⟨rfl, (Option.some.inj hjb).symm⟩
    · rw [List.getElem?_set_ne (Ne.symm hij), ← List.getD_eq_getElem?_getD] at hjb
      exact .inr ⟨hjb, fun b' hf => hij hf.1⟩
  desc   := by
    rintro j b ⟨rfl, rfl⟩
    exact hd
  bytes  := by
    intro j a hj hne h1 h2
    have hji : j ≠ i := fun hji => hne nb ⟨hji, rfl⟩
    refine hm a ?_
    simp only [rxDescAddr, outside] at *
    omega
  new    := by
    rintro j b ⟨-, rfl⟩
    exact freshBuffer_not_live (bufcap_pos h.legal) hfresh
  inj    := by
    rintro j k b ⟨rfl, -⟩ ⟨rfl, -⟩
    rfl
  live   := by
    intro b hb hold
    obtain ⟨old, hs⟩ := Option.isSome_iff_exists.1 (h.rx_on hon i hi)
    have hne : b ≠ s.bufferOf i := by
      rw [State.bufferOf, hs]
      rintro rfl
      exact hold i nb hi ⟨rfl, rfl⟩ hs
    rw [hlive]
    refine List.mem_filter.2 ⟨(mem_liveInsert ..).2 ?_, by simpa using hne⟩
    rcases hb with hb | ⟨j, -, rfl⟩
    · exact .inr hb
    · exact .inl rfl

/-- The direct command's refill: what it leaves once the detached buffer has gone to the issuer (41_ring_manager.md R154). -/
theorem reportRefill_keeps {s : State} (h : Inv s) (hon : s.ctl.enabled = true) {i : Nat} (hi : i < s.par.n) :
    Keeps s (reportRefill (rxRefill s i)).1 := by
  have hp := h.parts
  have halloc := alloc_keeps h
  rcases rxRefill_cases s i h.legal.n_le h.dev_rx_seen (Nat.lt_succ_of_le h.legal.bufcap_le) with
    ⟨nb, m, hfresh, ha, hr, hd, hm, hw⟩ | ⟨ha, hr⟩
  · have henv := halloc.inv.parts.env
    have hrx := hp.rx
    rw [ha] at henv
    rw [hon] at hrx
    rw [hr]
    have hset : Inv { s with
        rx := { s.rx with slot := s.rx.slot.set i (some nb) }, mem := m, env := (s.countCall.addLive nb).env } :=
      InvParts.inv { hp with mem := hw h.mem_wf, rx := hon ▸ rxOk_set hrx i nb, env := henv }
    have hsame := sameOutside_mono (b := rxDescAddr s.par i) (k := 16) hm (Nat.le_refl _) (by omega)
    refine ⟨dropLive_inv (posted_inv hset) _, TxFramed.of_same rfl rfl (tx_bytes_of_rx h.legal hi hsame),
      Refilled.backed (fresh := fun j b => j = i ∧ b = nb) ?_⟩
    exact refilled_one h hon hi hfresh rfl rfl hd hm rfl
  · rw [ha] at halloc
    rw [hr]
    have hcount := keeps_ports halloc.inv s.port { s.ctl with cntRxNobuf := s.ctl.cntRxNobuf + 1 } rfl
    exact (halloc.trans hcount).trans
      ⟨posted_inv hcount.inv, TxFramed.of_same rfl rfl fun _ _ _ => rfl,
        RxBacked.of_same rfl rfl (fun _ _ _ _ hb => hb) fun _ _ _ => rfl⟩

/-! ## A batch of refills -/

theorem batchFresh_not_live {s : State} (hp : s.par.Legal) {j : Nat} {b : Addr} (hf : batchFresh s j = some b) :
    b ∉ (afterAllocs (batchCalls s j) s).env.live := by
  unfold batchFresh at hf
  split at hf
  · rcases alloc_cases (afterAllocs (batchCalls s j) s) with ⟨nb, hfresh, ha⟩ | ha
    · rw [ha, Option.some.injEq] at hf
      rw [afterAllocs_par] at hfresh
      exact hf ▸ freshBuffer_not_live (bufcap_pos hp) hfresh
    · rw [ha] at hf
      cases hf
  · cases hf

/-- A refill's buffer was not live before the batch, and no earlier refill of the batch got it. -/
theorem batchFresh_new {s : State} (hp : s.par.Legal) {j : Nat} {b : Addr} (hf : batchFresh s j = some b) :
    b ∉ s.env.live ∧ ∀ k, k < j → batchFresh s k ≠ some b := by
  have hnot := batchFresh_not_live hp hf
  rw [mem_live_afterAllocs, not_or] at hnot
  exact ⟨hnot.1, fun k hk hfk => hnot.2 ⟨k, hk, hfk⟩⟩

theorem batchFresh_inj {s : State} (hp : s.par.Legal) {j k : Nat} {b : Addr} (hj : batchFresh s j = some b)
    (hk : batchFresh s k = some b) : j = k := by
  rcases Nat.lt_trichotomy j k with hlt | heq | hgt
  · exact absurd hj ((batchFresh_new hp hk).2 j hlt)
  · exact heq
  · exact absurd hk ((batchFresh_new hp hj).2 k hgt)

/-- The slot `i` took the buffer `b` in a batch of `c` entries. -/
def batchTook (s : State) (c i : Nat) (b : Addr) : Prop := ∃ j, j < c ∧ i = batchSlot s j ∧ batchFresh s j = some b

/-- What a batch leaves is what its refills leave. -/
theorem BatchPlaced.refilled {s t : State} {c : Nat} (h : Inv s) (hon : s.ctl.enabled = true) (hg : goodBatch s c)
    (hpar : t.par = s.par) (p : BatchPlaced s c t.rx.slot t.mem t.env.live) : Refilled s t (batchTook s c) where
  par    := hpar
  posted := by
    intro i b hi hb
    rw [State.rxSlot, List.getD_eq_getElem?_getD] at hb
    by_cases hn : ∃ j, j < c ∧ i = batchSlot s j
    · obtain ⟨j, hj, rfl⟩ := hn
      have hslot := p.named j hj
      cases hf : batchFresh s j with
      | some b' =>
        rw [hf] at hslot
        rw [hslot] at hb
        exact .inl ⟨j, hj, rfl, hf.trans hb⟩
      | none =>
        rw [hf] at hslot
        rw [hslot] at hb
        refine .inr ⟨hb, ?_⟩
        rintro b' ⟨k, hk, heq, hfk⟩
        have hjk : j = k := by
          rcases Nat.lt_trichotomy j k with hlt | hsame | hgt
          · exact absurd heq (hg.2 j k hlt hk)
          · exact hsame
          · exact absurd heq.symm (hg.2 k j hgt hj)
        rw [← hjk, hf] at hfk
        cases hfk
    · rw [p.others i fun j hj heq => hn ⟨j, hj, heq⟩, ← List.getD_eq_getElem?_getD] at hb
      refine .inr ⟨hb, ?_⟩
      rintro b' ⟨j, hj, heq, -⟩
      exact hn ⟨j, hj, heq⟩
  desc   := by
    rintro i b ⟨j, hj, rfl, hf⟩
    exact ⟨p.addr j b hj hf, p.cap j hj (by rw [hf]; nofun)⟩
  bytes  := by
    intro i a hi hne h1 h2
    refine p.bytes a fun j hj hf => ?_
    obtain ⟨b, hb⟩ := Option.ne_none_iff_exists'.1 hf
    have hij : i ≠ batchSlot s j := fun heq => hne b ⟨j, hj, heq, hb⟩
    simp only [rxDescAddr, outside] at *
    omega
  new    := by
    rintro i b ⟨j, -, -, hf⟩
    exact (batchFresh_new h.legal hf).1
  inj    := by
    rintro i k b ⟨j, -, rfl, hf⟩ ⟨j', -, rfl, hf'⟩
    rw [batchFresh_inj h.legal hf hf']
  live   := by
    intro b hb hold
    refine (p.live b).2 ⟨?_, fun j hj hf heq => ?_⟩
    · rcases hb with hb | ⟨i, j, hj, -, hf⟩
      · exact .inl hb
      · exact .inr ⟨j, hj, hf⟩
    · obtain ⟨b', hb'⟩ := Option.ne_none_iff_exists'.1 hf
      obtain ⟨old, hs⟩ := Option.isSome_iff_exists.1 (h.rx_on hon _ (hg.1 j hj))
      refine hold _ b' (hg.1 j hj) ⟨j, hj, rfl, hb'⟩ ?_
      rw [heq, batchOld, State.bufferOf, hs]
      rfl

/-- The TX descriptors are not among the bytes a batch writes. -/
theorem BatchPlaced.tx_bytes {s : State} {c : Nat} {sl : List (Option Addr)} {m : List Host.Cell} {lv : List Addr} (h : Inv s)
    (hg : goodBatch s c) (p : BatchPlaced s c sl m lv) (a : Nat) (h1 : s.par.txBase ≤ a) (h2 : a < s.par.txBase + 16 * s.par.n) :
    Memory.byteAt m a = Memory.byteAt s.mem a := by
  have hapart := (Regions.apart h.legal).1
  unfold disjointRanges at hapart
  refine p.bytes a fun j hj _ => ?_
  have hin := rxDesc_inside (hg.1 j hj)
  unfold outside
  omega

theorem BatchPlaced.rxOk {s : State} {c : Nat} {sl : List (Option Addr)} {m : List Host.Cell} {lv : List Addr} (h : Inv s)
    (hon : s.ctl.enabled = true) (p : BatchPlaced s c sl m lv) :
    RxOk s.par true { prod := (s.rx.prod + c) % s.par.n, slot := sl, rrCons := (s.rx.rrCons + c) % s.par.n } := by
  refine ⟨p.len, Nat.mod_lt _ s.par.n_pos, Nat.mod_lt _ s.par.n_pos, fun _ i hi => ?_, nofun⟩
  have hfull := h.rx_on hon i hi
  show (sl.getD i none).isSome = true
  rw [List.getD_eq_getElem?_getD]
  by_cases hn : ∃ j, j < c ∧ i = batchSlot s j
  · obtain ⟨j, hj, rfl⟩ := hn
    rw [p.named j hj]
    cases batchFresh s j with
    | some b => rfl
    | none => exact hfull
  · rw [p.others i fun j hj heq => hn ⟨j, hj, heq⟩, ← List.getD_eq_getElem?_getD]
    exact hfull

theorem batchDevice_ok {s : State} (h : Inv s) (c : Nat) : DevOk s.par s.csr.devCtrlEn (batchDevice s c) := by
  have hd := h.parts.dev
  unfold batchDevice
  split
  · exact { hd with rx_seen := Nat.mod_lt _ s.par.n_pos, rr_seen := Nat.mod_lt _ s.par.n_pos, avail := Nat.min_le_left .. }
  · exact hd

theorem batchCsrs_ok {s : State} (h : Inv s) (c : Nat) : CsrOk (batchCsrs s c) ∧ (batchCsrs s c).devCtrlEn = s.csr.devCtrlEn := by
  have hc := h.parts.csr
  unfold batchCsrs
  split
  · exact ⟨{ hc with mb_rx := ofNat32_lt h.legal _, mb_rr := ofNat32_lt h.legal _ }, rfl⟩
  · exact ⟨hc, rfl⟩

/-- A batch drained and its detached buffers handed out, with the counters and the events it owes. -/
theorem BatchPlaced.keeps {s : State} {c : Nat} {sl : List (Option Addr)} {m : List Host.Cell} (h : Inv s)
    (hon : s.ctl.enabled = true) (hg : goodBatch s c) (hw : Memory.wf m) (k : Control) (hk : k.enabled = true) (q : Ports)
    (p : BatchPlaced s c sl m (batchKeeps s (List.range c) (afterAllocs (batchCalls s c) s).env.live)) :
    Keeps s { s with
      rx := { prod := (s.rx.prod + c) % s.par.n, slot := sl, rrCons := (s.rx.rrCons + c) % s.par.n }
      ctl := k, csr := batchCsrs s c, dev := batchDevice s c, mem := m, port := q
      env := { (afterAllocs (batchCalls s c) s).env with
        live := batchKeeps s (List.range c) (afterAllocs (batchCalls s c) s).env.live } } := by
  have hp := h.parts
  have henv := (afterAllocs_inv h (batchCalls s c)).parts.env
  obtain ⟨hcsr, hen⟩ := batchCsrs_ok h c
  have hl := hp.link
  rw [hon] at hl
  refine ⟨InvParts.inv ?_, TxFramed.of_same rfl rfl (p.tx_bytes h hg),
    Refilled.backed (fresh := batchTook s c) ?_⟩
  · exact { hp with
      mem := hw
      csr := hcsr
      dev := hen ▸ batchDevice_ok h c
      env := ⟨henv.live.filter _, henv.owed⟩
      rx := hk ▸ p.rxOk h hon
      link := hk ▸ hl }
  · exact BatchPlaced.refilled h hon hg rfl p

theorem drainLoop_wf (c : Nat) {s : State} (hr : DrainReady s) (hw : Memory.wf s.mem) : Memory.wf (drainLoop c s).1.mem := by
  induction c generalizing s with
  | zero => exact hw
  | succ c ih =>
    have hone := drainOne_spec s hr.legal.n_le hr.seen (Nat.lt_succ_of_le hr.legal.bufcap_le)
    have hfirst := drainOne_first s hr.legal.n_le hr.seen (Nat.lt_succ_of_le hr.legal.bufcap_le) hr.cons
    rw [drainLoop_succ]
    exact ih (hfirst.1.ready hr) (hone.wf hw)

theorem ringDoorbell_mem (s : State) (c : Csr) (v : Word) : (ringDoorbell s c v).mem = s.mem := by
  have hstore : (storeMailbox s c v).mem = s.mem := by cases c <;> rfl
  unfold ringDoorbell devDoorbell
  split
  · cases c <;> rfl
  · exact hstore

theorem rrDrain_wf {s : State} (h : Inv s) (idx : Nat) : Memory.wf (rrDrain s idx).1.mem := by
  simp only [rrDrain]
  split
  · split
    · rw [ringDoorbell_mem]
      exact drainLoop_wf _ h.drainReady h.mem_wf
    · exact drainLoop_wf _ h.drainReady h.mem_wf
  · exact h.mem_wf

/-- A drain either refuses its batch, with nothing but the fault flag changed, or is a batch of `c` entries placed. -/
theorem rrDrain_cases {s : State} (h : Inv s) (idx : Nat) :
    rrDrain s idx = ({ s with ctl := { s.ctl with faultRrIdx := true } }, none) ∨
    ∃ (c : Nat) (sl : List (Option Addr)) (m : List Host.Cell), goodBatch s c ∧ Memory.wf m ∧
      rrDrain s idx = ({ s with
        rx := { prod := (s.rx.prod + c) % s.par.n, slot := sl, rrCons := (s.rx.rrCons + c) % s.par.n }
        ctl := { s.ctl with cntRxDrop := s.ctl.cntRxDrop + BitVec.ofNat 32 (batchDrops s c),
                            cntRxNobuf := s.ctl.cntRxNobuf + BitVec.ofNat 32 (batchMisses s c) }
        csr := batchCsrs s c
        dev := batchDevice s c
        env := (afterAllocs (batchCalls s c) s).env
        mem := m }, some ((List.range c).map (batchEntry s))) ∧
      BatchPlaced s c sl m (batchKeeps s (List.range c) (afterAllocs (batchCalls s c) s).env.live) := by
  obtain ⟨c, hc⟩ : ∃ c, c = (idx % s.par.n + s.par.n - s.rx.rrCons) % s.par.n := ⟨_, rfl⟩
  by_cases hg : goodBatch s c
  · obtain ⟨sl, m, hd, hp⟩ := rrDrain_batch s idx c h.drainReady hc hg
    have hw := rrDrain_wf h idx
    rw [hd] at hw
    exact .inr ⟨c, sl, m, hg, hw, hd, hp⟩
  · exact .inl (rrDrain_refused s idx c h.rr_cons_lt hc ((refusedBatch_iff s c).2 hg))

theorem reportDrain_keeps {s : State} (h : Inv s) (hon : s.ctl.enabled = true) (idx : Nat) :
    Keeps s (reportDrain (rrDrain s idx)).1 := by
  rcases rrDrain_cases h idx with hr | ⟨c, sl, m, hg, hw, hd, hp⟩
  · rw [hr]
    exact keeps_ports h s.port _ rfl
  · rw [hd]
    simp only [reportDrain, report_batch]
    exact hp.keeps h hon hg hw _ (by exact hon) _

/-! ## The lifecycle procedures -/

@[simp] theorem ringDoorbell_ctl (s : State) (c : Csr) (v : Word) : (ringDoorbell s c v).ctl = s.ctl := by
  have hstore : (storeMailbox s c v).ctl = s.ctl := by cases c <;> rfl
  unfold ringDoorbell devDoorbell
  split
  · cases c <;> rfl
  · exact hstore

@[simp] theorem rxPost_ctl (s : State) (i : Nat) (b : Addr) : (rxPost s i b).ctl = s.ctl := by simp [rxPost, rxRepost]

@[simp] theorem postBuffers_ctl (bufs : List Addr) (i : Nat) (s : State) : (postBuffers bufs i s).ctl = s.ctl := by
  induction bufs generalizing i s with
  | nil => rfl
  | cons b rest ih => simp [postBuffers, ih]

@[simp] theorem writeDevCtrl_ctl (s : State) (v : Word) : (regWrite s .devCtrl v).ctl = s.ctl := by
  simp only [regWrite, writeDevCtrl]
  split <;> rfl

@[simp] theorem writeDevCtrl_link (s : State) (v : Word) : (regWrite s .devCtrl v).link = s.link := by
  simp only [regWrite, writeDevCtrl]
  split <;> rfl

@[simp] theorem writeDevCtrl_env (s : State) (v : Word) : (regWrite s .devCtrl v).env = s.env := by
  simp only [regWrite, writeDevCtrl]
  split <;> rfl

@[simp] theorem freeTxSlot_ctl (ev : Handle → Event) (s : State) : (freeTxSlot ev s).1.ctl = s.ctl := by
  simp only [freeTxSlot, setTxSlot_ctl]
  split
  · split <;> rfl
  · rfl

@[simp] theorem freeTxSlot_link (ev : Handle → Event) (s : State) : (freeTxSlot ev s).1.link = s.link := by
  simp only [freeTxSlot, setTxSlot_link]
  split
  · split <;> rfl
  · rfl

@[simp] theorem walkTx_ctl (ev : Handle → Event) (c : Nat) (s : State) : (walkTx ev c s).1.ctl = s.ctl := by
  induction c generalizing s with
  | zero => rfl
  | succ c ih => simp [walkTx, ih]

@[simp] theorem walkTx_link (ev : Handle → Event) (c : Nat) (s : State) : (walkTx ev c s).1.link = s.link := by
  induction c generalizing s with
  | zero => rfl
  | succ c ih => simp [walkTx, ih]

@[simp] theorem txFailAll_ctl (s : State) : (txFailAll s).ctl = s.ctl := walkTx_ctl ..

@[simp] theorem txFailAll_link (s : State) : (txFailAll s).link = s.link := walkTx_link ..

@[simp] theorem txReclaim_link (s : State) (idx : Nat) : (txReclaim s idx).1.link = s.link := by
  simp only [txReclaim]
  split
  · rfl
  · split
    · rw [noteReclaim_eq]
      exact walkTx_link ..
    · exact walkTx_link ..

@[simp] theorem finalReclaim_link (s : State) : (finalReclaim s).link = s.link := by
  simp only [finalReclaim]
  split
  · exact txReclaim_link ..
  · rfl

theorem finalReclaim_keeps {s : State} (h : Inv s) : Keeps s (finalReclaim s) := by
  simp only [finalReclaim]
  split
  · exact txReclaim_keeps h _
  · exact .refl h

theorem bumpEpoch_keeps {s : State} (h : Inv s) : Keeps s (bumpEpoch s) := by
  have hp := h.parts
  exact .of_rings_same { hp with link := { hp.link with } }

theorem emptyTx_ok (p : Params) : TxOk p (emptyTx p) where
  len     := List.length_replicate ..
  prod_lt := p.n_pos
  cons_lt := p.n_pos
  free_le := Nat.le_refl _
  dist    := by simp [emptyTx]
  slots   := fun k hk => by simp [emptyTx, List.getD_eq_getElem?_getD, Nat.mod_lt _ p.n_pos]

theorem emptyPoll_ok {p : Params} (hp : p.Legal) (irq : Bool) : PollOk p (emptyPoller irq) := ⟨p.n_pos, p.n_pos, hp.wd_pos⟩

/-- `ring_init` and enabling the device, as `START` and the adapter reset do them (45_lifecycle.md R220, R226). -/
def rearm (s : State) : State := regWrite (ringInit s) .devCtrl 0x00000001

theorem rearm_eq (s : State) : ∃ m, (Memory.wf s.mem → Memory.wf m) ∧ rearm s = { s with
    tx := emptyTx s.par, rx := { s.rx with prod := 0, rrCons := 0 }, poll := emptyPoller false
    ctl := { s.ctl with txStalled := false }, csr := { s.csr with devCtrlEn := true }, dev := { s.dev with active := true }
    mem := m } := by
  obtain ⟨m, h, -, -, hw⟩ := ringInit_spec s
  exact ⟨m, hw, by rw [rearm, h]; rfl⟩

theorem rearm_inv {s : State} (h : Inv s) : Inv (rearm s) := by
  have hp := h.parts
  have hn := s.par.n_pos
  obtain ⟨m, hw, he⟩ := rearm_eq s
  rw [he]
  exact InvParts.inv { hp with
    mem := hw h.mem_wf
    tx := emptyTx_ok _
    rx := { hp.rx with prod_lt := hn, cons_lt := hn }
    poll := emptyPoll_ok h.legal _
    csr := { hp.csr with }
    dev := { hp.dev with active := rfl } }

theorem postBuffers_devOk (bufs : List Addr) (i : Nat) {s : State} {en : Bool} (hp : s.par.Legal) (h : DevOk s.par en s.dev) :
    DevOk s.par en (postBuffers bufs i s).dev := by
  induction bufs generalizing i s with
  | nil => exact h
  | cons b rest ih =>
    obtain ⟨m, he, -⟩ := rxPost_spec s i b hp.n_le h.rx_seen (Nat.lt_succ_of_le hp.bufcap_le)
    have hpar := rxPost_par s i b
    have hdev : (rxPost s i b).dev = rxRung s.par s.dev ((s.rx.prod + 1) % s.par.n) := by rw [he]; rfl
    rw [postBuffers, ← hpar]
    exact ih (i + 1) (hpar ▸ hp) (by rw [hpar, hdev]; exact rxRung_devOk h (Nat.mod_lt _ s.par.n_pos))

/-- Posting a buffer to every slot. -/
theorem postBuffers_full {s : State} (h : Inv s) {bufs : List Addr} (hlen : bufs.length = s.par.n) :
    ∃ (r : RxRing) (cs : Csrs) (d : Device) (m : List Host.Cell),
      postBuffers bufs 0 s = { s with rx := r, csr := cs, dev := d, mem := m } ∧
      RxOk s.par true r ∧ CsrOk cs ∧ DevOk s.par cs.devCtrlEn d ∧ Memory.wf m ∧
      (∀ i, i < s.par.n → r.slot.getD i none = bufs[i]?) ∧ ∀ i b, bufs[i]? = some b → RxDescIs s.par m i b := by
  have hp := h.parts
  have hn := s.par.n_pos
  have hne : bufs ≠ [] := fun he => by
    rw [he] at hlen
    exact Nat.ne_of_gt hn hlen.symm
  have hdev := postBuffers_devOk bufs 0 h.legal hp.dev
  obtain ⟨m, sl, mb, d, he, hmb, hsl, hslots, hdesc, -, -, -, -, hw⟩ := postBuffers_spec bufs 0 s h.legal.n_le h.dev_rx_seen
    (Nat.lt_succ_of_le h.legal.bufcap_le) (by rw [Nat.zero_add, hlen, h.rx_len])
  rw [he] at hdev
  rw [if_neg hne] at hmb
  have hget : ∀ i, i < s.par.n → sl.getD i none = bufs[i]? := fun i hi => by
    have hi' : i < bufs.length := hlen ▸ hi
    rw [List.getD_eq_getElem?_getD, hslots i, if_pos (by omega), Nat.sub_zero, List.getElem?_eq_getElem hi']
    rfl
  refine ⟨_, _, d, m, he, ⟨hsl.trans h.rx_len, ?_, h.rr_cons_lt, fun _ i hi => ?_, nofun⟩,
    { hp.csr with mb_rx := by rw [hmb]; exact ofNat32_lt h.legal _ }, hdev, hw h.mem_wf, hget, fun i b hb => ?_⟩
  · show (if bufs = [] then s.rx.prod else (s.rx.prod + bufs.length) % s.par.n) < s.par.n
    rw [if_neg hne]
    exact Nat.mod_lt _ hn
  · show (sl.getD i none).isSome = true
    rw [hget i hi, List.getElem?_eq_getElem (hlen ▸ hi)]
    rfl
  · have hd := (hdesc i b hb).1
    rwa [Nat.zero_add] at hd

/-- The end that `START` and the adapter reset share: rings empty, a buffer in every receive slot, the link started. -/
theorem rearmed_holds {u : State} (h : Inv u) (hup : u.link.up = false) {bufs : List Addr} (hlen : bufs.length = u.par.n)
    {k : Control} (hk : k.enabled = true) :
    Inv (linkStart { postBuffers bufs 0 (rearm u) with ctl := k }) ∧
    TxFramed (linkStart { postBuffers bufs 0 (rearm u) with ctl := k }) ∧
    (bufs.Nodup → (∀ b ∈ bufs, b ∈ u.env.live) → RxBacked (linkStart { postBuffers bufs 0 (rearm u) with ctl := k })) := by
  have hr := rearm_inv h
  have hp := hr.parts
  obtain ⟨m0, -, hu⟩ := rearm_eq u
  have hpar : (rearm u).par = u.par := by rw [hu]
  have hlink : (rearm u).link = u.link := by rw [hu]
  have htx : (rearm u).tx = emptyTx u.par := by rw [hu]
  have henv : (rearm u).env = u.env := by rw [hu]
  generalize rearm u = v at hr hp hpar hlink htx henv
  obtain ⟨r, cs, d, m, he, hrx, hcs, hd, hw, hget, hdesc⟩ := postBuffers_full hr (bufs := bufs) (by rw [hlen, hpar])
  rw [he]
  have hinv : Inv { v with rx := r, csr := cs, dev := d, mem := m, ctl := k } :=
    InvParts.inv { hp with mem := hw, csr := hcs, dev := hd, rx := hk ▸ hrx, link := hk ▸ hp.link.enable }
  have hstart := linkStart_keeps hinv hk (by rw [← hup, ← hlink])
  refine ⟨hstart.inv, hstart.framed (txFramed_of_free ?_), fun hnd hlive => hstart.backed ?_⟩
  · show v.tx.free = v.par.n
    rw [htx, hpar]
    rfl
  · have hbuf : ∀ i b, i < v.par.n → r.slot.getD i none = some b → bufs[i]? = some b := fun i b hi hb => hget i hi ▸ hb
    refine ⟨fun i b hi hb => (hdesc i b (hbuf i b hi hb)).addr, fun i b hi hb => (hdesc i b (hbuf i b hi hb)).cap,
      fun i b hi hb => ?_, fun i j b hi hj hib hjb => ?_⟩
    · show b ∈ v.env.live
      rw [henv]
      exact hlive b (List.mem_of_getElem? (hbuf i b hi hb))
    · have hi' : i < bufs.length := by rw [hlen, ← hpar]; exact hi
      exact (List.getElem?_inj hi' hnd).1 ((hbuf i b hi hib).trans (hbuf j b hj hjb).symm)

/-! ## The adapter reset -/

theorem zeroRings_withPoll (s : State) (q : Poller) : zeroRings { s with poll := q } = { zeroRings s with poll := q } := by
  unfold zeroRings
  exact List.foldl_hom (fun t : State => { t with poll := q }) (g₁ := zeroSlot) (g₂ := zeroSlot)
    fun _ _ => by simp [zeroSlot, State.memWrite]

theorem freeTxSlot_withPoll (ev : Handle → Event) (s : State) (q : Poller) :
    freeTxSlot ev { s with poll := q } = ({ (freeTxSlot ev s).1 with poll := q }, (freeTxSlot ev s).2) := by
  have heop : State.txEop { s with poll := q } s.tx.cons = s.txEop s.tx.cons := rfl
  have hslot : State.txSlot { s with poll := q } s.tx.cons = s.txSlot s.tx.cons := rfl
  simp only [freeTxSlot, heop, hslot]
  split
  · split <;> rfl
  · rfl

theorem walkTx_withPoll (ev : Handle → Event) (c : Nat) (s : State) (q : Poller) :
    walkTx ev c { s with poll := q } = ({ (walkTx ev c s).1 with poll := q }, (walkTx ev c s).2) := by
  induction c generalizing s with
  | zero => rfl
  | succ c ih => simp only [walkTx, freeTxSlot_withPoll, ih]

/-- The adapter reset does not look at the poller: `ring_init` sets all of it. -/
theorem adapterReset_withPoll (s : State) (q : Poller) : adapterReset { s with poll := q } = adapterReset s := by
  have hdown : regWrite (linkDownNow { s with poll := q }) .devCtrl 0x00000002 =
      { regWrite (linkDownNow s) .devCtrl 0x00000002 with poll := q } := by
    rw [linkDownNow_eq, linkDownNow_eq]
    rfl
  have hfail : ∀ t : State, txFailAll { t with poll := q } = { txFailAll t with poll := q } := fun t =>
    congrArg Prod.fst (walkTx_withPoll .txFailed t.inFlight t q)
  have hinit : ∀ t : State, ringInit { t with poll := q } = ringInit t := fun t => by
    simp only [ringInit, zeroRings_withPoll]
  simp only [adapterReset, hdown, hfail, hinit]

theorem bufferOf_of_slot {s : State} {i : Nat} {b : Addr} (h : s.rxSlot i = some b) : s.bufferOf i = b := by
  rw [State.bufferOf, h]
  rfl

/-- The buffers of a backed full ring are live and all different. -/
theorem heldBuffers_backed {s : State} (h : Inv s) (hon : s.ctl.enabled = true) (hb : RxBacked s) :
    (heldBuffers s).Nodup ∧ ∀ b ∈ heldBuffers s, b ∈ s.env.live := by
  have hfull : ∀ i ∈ List.range s.par.n, i < s.par.n ∧ s.rxSlot i = some (s.bufferOf i) := fun i hi => by
    have hi := List.mem_range.1 hi
    obtain ⟨b, hs⟩ := Option.isSome_iff_exists.1 (h.rx_on hon i hi)
    exact ⟨hi, by rw [bufferOf_of_slot hs, hs]⟩
  constructor
  · refine List.Nodup.map_on (fun i hi j hj heq => ?_) List.nodup_range
    obtain ⟨hi, hsi⟩ := hfull i hi
    obtain ⟨hj, hsj⟩ := hfull j hj
    exact hb.distinct i j _ hi hj hsi (heq ▸ hsj)
  · intro b hmem
    obtain ⟨i, hi, rfl⟩ := List.mem_map.1 hmem
    obtain ⟨hi, hsi⟩ := hfull i hi
    exact hb.live i _ hi hsi

theorem heldBuffers_rearm (s : State) : heldBuffers (rearm s) = heldBuffers s := by
  obtain ⟨m, -, he⟩ := rearm_eq s
  rw [he]
  rfl

theorem adapterReset_eq (s : State) :
    adapterReset s = linkStart (postBuffers (heldBuffers (rearm (txFailAll (regWrite (linkDownNow s) .devCtrl 0x00000002)))) 0
      (rearm (txFailAll (regWrite (linkDownNow s) .devCtrl 0x00000002)))) := by
  simp only [adapterReset, rearm]

theorem adapterReset_keeps {s : State} (h : Inv s) (hon : s.ctl.enabled = true) : Keeps s (adapterReset s) := by
  have hdown := linkDownNow_keeps h
  have hoff := hdown.trans (regWrite_keeps hdown.inv .devCtrl 0x00000002)
  have hfail := hoff.trans (txFailAll_keeps hoff.inv)
  have hup : (txFailAll (regWrite (linkDownNow s) .devCtrl 0x00000002)).link.up = false := by simp [downedLink]
  have hen : (txFailAll (regWrite (linkDownNow s) .devCtrl 0x00000002)).ctl.enabled = true := by simpa using hon
  rw [adapterReset_eq]
  generalize txFailAll (regWrite (linkDownNow s) .devCtrl 0x00000002) = u at hfail hup hen
  rw [heldBuffers_rearm]
  have hk : (postBuffers (heldBuffers u) 0 (rearm u)).ctl.enabled = true := by
    obtain ⟨m, -, he⟩ := rearm_eq u
    rw [postBuffers_ctl, he]
    exact hen
  obtain ⟨hinv, hframed, hbacked⟩ := rearmed_holds hfail.inv hup (bufs := heldBuffers u) (by simp [heldBuffers]) hk
  refine ⟨hinv, fun _ => hframed, fun hb => ?_⟩
  obtain ⟨hnd, hlive⟩ := heldBuffers_backed hfail.inv hen (hfail.backed hb)
  exact hbacked hnd hlive

/-! ## `START` and `STOP` -/

/-- What a run of allocator calls leaves: only the environment's lists move, and the buffers had are live, new and all
different. -/
theorem allocMany_spec (k : Nat) {s : State} (h : Inv s) :
    ∃ e : Environment, (allocMany k s).1 = { s with env := e } ∧ EnvOk e ∧ (∀ b ∈ s.env.live, b ∈ e.live) ∧
      (∀ b ∈ (allocMany k s).2.1, b ∈ e.live ∧ b ∉ s.env.live) ∧ (allocMany k s).2.1.Nodup ∧
      ((allocMany k s).2.2 = true → (allocMany k s).2.1.length = k) := by
  induction k generalizing s with
  | zero => exact ⟨s.env, rfl, h.parts.env, fun _ hb => hb, nofun, List.nodup_nil, fun _ => rfl⟩
  | succ k ih =>
    have hinv := (alloc_keeps h).inv
    rcases alloc_cases s with ⟨b, hfresh, ha⟩ | ha
    · rw [ha] at hinv
      obtain ⟨e, he, hok, hlive, hnew, hnd, hlen⟩ := ih hinv
      have hb := freshBuffer_not_live (bufcap_pos h.legal) hfresh
      have hadd : ∀ x, x ∈ (s.countCall.addLive b).env.live ↔ x = b ∨ x ∈ s.env.live := fun x => mem_liveInsert ..
      simp only [allocMany, ha]
      refine ⟨e, he, hok, fun x hx => hlive x ((hadd x).2 (.inr hx)), fun x hx => ?_, List.nodup_cons.2 ⟨fun hmem => ?_, hnd⟩,
        fun hall => by rw [List.length_cons, hlen hall]⟩
      · rcases List.mem_cons.1 hx with rfl | hx
        · exact ⟨hlive x ((hadd x).2 (.inl rfl)), hb⟩
        · exact ⟨(hnew x hx).1, fun hs => (hnew x hx).2 ((hadd x).2 (.inr hs))⟩
      · exact (hnew b hmem).2 ((hadd b).2 (.inl rfl))
    · rw [ha] at hinv
      simp only [allocMany, ha]
      exact ⟨s.countCall.env, rfl, hinv.parts.env, fun _ hb => hb, nofun, List.nodup_nil, nofun⟩

theorem startWith_keeps {s : State} (h : Inv s) (hoff : s.ctl.enabled = false) :
    Keeps s (startWith (allocMany s.par.n s)).1 := by
  have hp := h.parts
  obtain ⟨e, he, hok, -, hnew, hnd, hlen⟩ := allocMany_spec s.par.n h
  have hinv : Inv { s with env := e } := InvParts.inv { hp with env := hok }
  unfold startWith
  split
  · next hall =>
    rw [he]
    have hreset := regWrite_keeps hinv .devCtrl 0x00000002
    have hup : (regWrite { s with env := e } .devCtrl 0x00000002).link.up = false := by
      rw [writeDevCtrl_link]
      exact hp.link.not_up (by rw [h.off_down hoff]; nofun)
    have hpar := regWrite_par { s with env := e } .devCtrl 0x00000002
    obtain ⟨hi, hf, hb⟩ := rearmed_holds hreset.inv hup (bufs := (allocMany s.par.n s).2.1) (by rw [hlen hall, hpar])
      (k := { (postBuffers (allocMany s.par.n s).2.1 0 (rearm (regWrite { s with env := e } .devCtrl 0x00000002))).ctl with
              enabled := true }) rfl
    exact ⟨hi, fun _ => hf, fun _ => hb hnd fun b hmem => by rw [writeDevCtrl_env]; exact (hnew b hmem).1⟩
  · rw [he, freeAll_eq]
    have hfreed := InvParts.inv (s := { s with
      env := { e with live := e.live.filter fun x => decide (x ∉ (allocMany s.par.n s).2.1) }
      port := { s.port with events := s.port.events ++ (allocMany s.par.n s).2.1.map .bufFree } })
      { hp with env := ⟨hok.live.filter _, hok.owed⟩ }
    exact ⟨hfreed, TxFramed.of_same rfl rfl fun _ _ _ => rfl, fun _ => rxBacked_of_off hfreed hoff⟩

theorem shutDown_keeps {s : State} (h : Inv s) : Keeps s (shutDown s) := by
  have hbump := bumpEpoch_keeps h
  have hdown := linkDownNow_keeps hbump.inv
  have hoff := regWrite_keeps hdown.inv .devCtrl 0x00000000
  have hrec := finalReclaim_keeps hoff.inv
  have hfail := (txFailAll_keeps hrec.inv).inv
  have hst : (txFailAll (finalReclaim (regWrite (linkDownNow (bumpEpoch s)) .devCtrl 0x00000000))).link.state = .down := by
    simp [downedLink]
  simp only [shutDown]
  generalize txFailAll (finalReclaim (regWrite (linkDownNow (bumpEpoch s)) .devCtrl 0x00000000)) = u at hfail hst
  have hp := hfail.parts
  have hn := u.par.n_pos
  rw [rxReleaseAll_eq u hfail.rx_len]
  generalize hv : ({ u with
    rx := { u.rx with slot := List.replicate u.par.n none }
    env := { u.env with live := u.env.live.filter fun x => decide (x ∉ slotBuffers u) }
    port := { u.port with events := u.port.events ++ (slotBuffers u).map .bufFree } } : State) = v
  obtain ⟨m, hi, -, -, hw⟩ := ringInit_spec v
  rw [hi]
  subst hv
  have hinv := InvParts.inv (s := { u with
    tx := emptyTx u.par, rx := { prod := 0, slot := List.replicate u.par.n none, rrCons := 0 }, poll := emptyPoller false
    ctl := { u.ctl with txStalled := false, enabled := false }, mem := m
    env := { u.env with live := u.env.live.filter fun x => decide (x ∉ slotBuffers u) }
    port := { u.port with events := u.port.events ++ (slotBuffers u).map .bufFree } })
    { hp with
      mem := hw hfail.mem_wf
      tx := emptyTx_ok _
      rx := ⟨List.length_replicate .., hn, hn, nofun, fun _ i hi => by simp [List.getD_eq_getElem?_getD, hi]⟩
      poll := emptyPoll_ok hfail.legal _
      link := { hp.link with off_down := fun _ => hst }
      env := ⟨hfail.live_sorted.filter _, hfail.owed_sorted⟩ }
  exact ⟨hinv, fun _ => txFramed_of_free rfl, fun _ => rxBacked_of_off hinv rfl⟩

/-! ## The servicing pass and the tick -/

@[simp] theorem linkService_ctl (s : State) : (linkService s).ctl = s.ctl := by
  have hrequest : ∀ t : State, (requestNegotiation t).ctl = t.ctl := fun t => by rw [requestNegotiation, beginNegotiation_eq]
  simp only [linkService]
  split
  case h_1 => split <;> rfl
  case h_2 =>
    split
    · rfl
    · unfold linkLoss
      split
      · rw [hrequest, linkDownNow_ctl]
      · exact linkDownNow_ctl s
  case h_3 => rfl
  case h_4 => rfl

theorem serviceLink_keeps {s : State} (h : Inv s) (hon : s.ctl.enabled = true) :
    Keeps s (serviceLink s) ∧ (serviceLink s).ctl.enabled = true := by
  have hp := h.parts
  have htake : Keeps s { s with poll := { s.poll with irqLink := false } } :=
    .of_rings_same { hp with poll := { hp.poll with } }
  unfold serviceLink
  split
  · exact ⟨htake.trans (linkService_keeps htake.inv hon), by rw [linkService_ctl]; exact hon⟩
  · exact ⟨.refl h, hon⟩

theorem txReclaim_enabled (s : State) (idx : Nat) : (txReclaim s idx).1.ctl.enabled = s.ctl.enabled := by
  simp only [txReclaim]
  split
  · rfl
  · split
    · simp [noteReclaim_eq]
    · rw [walkTx_ctl]

theorem Keeps.storeSnapshot {s u : State} (k : Keeps s u) {t r : Nat} (ht : t < u.par.n) (hr : r < u.par.n) (g : Word) :
    Keeps s (storeSnapshot u t r g) := by
  have hp := k.inv.parts
  exact k.trans (.of_rings_same { hp with poll := { hp.poll with tx_lt := ht, rr_lt := hr } })

theorem dispatchPass_keeps {s : State} (h : Inv s) (hon : s.ctl.enabled = true) {t r : Nat} (ht : t < s.par.n) (hr : r < s.par.n)
    (g : Word) (lc : Bool) : Keeps s (dispatchPass s t r g lc).1 := by
  have htx := txReclaim_keeps h t
  have hon' : (txReclaim s t).1.ctl.enabled = true := by rw [txReclaim_enabled]; exact hon
  rw [← txReclaim_par s t] at ht hr
  rcases rrDrain_cases htx.inv r with hd | ⟨c, sl, m, hg, hw, hd, hp⟩
  · simp only [dispatchPass, hd]
    refine Keeps.storeSnapshot (htx.trans ?_) (by exact ht) (by exact hr) g
    exact keeps_ports htx.inv _ _ rfl
  · simp only [dispatchPass, hd]
    rw [rxDeliver_batch (txReclaim s t).1]
    swap; rfl
    refine Keeps.storeSnapshot (htx.trans ?_) (by exact ht) (by exact hr) g
    exact hp.keeps htx.inv hon' hg hw _ (by exact hon') _

theorem servicePass_keeps {s : State} (h : Inv s) (hon : s.ctl.enabled = true) (lc : Bool) : Keeps s (servicePass s lc).1 := by
  have hp := h.parts
  have htake : Keeps s { s with poll := { s.poll with irqRing := false } } :=
    .of_rings_same { hp with poll := { hp.poll with } }
  simp only [servicePass]
  split
  · exact .of_rings_same { hp with poll := { hp.poll with } }
  · exact htake.trans (dispatchPass_keeps htake.inv hon (wrap_lt ..) (wrap_lt ..) _ lc)

theorem onInterrupt_keeps {s : State} (h : Inv s) : Keeps s (onInterrupt s).1 := by
  simp only [onInterrupt]
  split
  · next hon =>
    obtain ⟨hs, hon'⟩ := serviceLink_keeps h hon
    split
    · exact hs.trans (servicePass_keeps hs.inv hon' _)
    · exact hs
  · exact .refl h

/-- A watchdog that does not fire stays below its limit. -/
theorem wdCheck_keeps {s : State} (h : Inv s) (hlt : (wdCheck s).poll.wdStallTicks.toNat < s.par.wdTimeout) :
    Keeps s (wdCheck s) := by
  have hp := h.parts
  exact .of_rings_same { hp with poll := { hp.poll with stall_lt := hlt } }

theorem tick_keeps {s : State} (h : Inv s) : Keeps s (tick s).1 := by
  simp only [tick]
  split
  · next hon =>
    split
    · have he := keeps_emit h .hwTimeout
      have hemit : (wdCheck s).emit .hwTimeout = { s.emit .hwTimeout with poll := (wdCheck s).poll } := rfl
      dsimp only
      rw [hemit, adapterReset_withPoll]
      exact he.trans (adapterReset_keeps he.inv hon)
    · next hlt =>
      have hw := wdCheck_keeps h (Nat.lt_of_not_le hlt)
      exact hw.trans (negTick_keeps hw.inv hon)
  · exact .refl h

/-! ## The operations -/

/-- Where the outcome of an operation from `s` is a next state, it keeps what `s` had. -/
def KeepsAll (s : State) (o : Host.Outcome State Fault Refusal) : Prop := ∀ t, o = .next t → Keeps s t

theorem keepsAll_answer {s b : State} {done : State × Result} (k : Keeps s done.1) : KeepsAll s (answer b done) := by
  intro t ht
  rw [answer_eq_next ht]
  exact k.trans (keeps_setResult k.inv _)

theorem keepsAll_agentStep {s u : State} {en : Bool} (k : en = true → Keeps s u) : KeepsAll s (agentStep en u) := by
  intro t ht
  obtain ⟨hen, rfl⟩ := agentStep_eq_next ht
  exact k hen

theorem whenEnabled_keeps {s : State} (h : Inv s) {done : State × Result} (k : s.ctl.enabled = true → Keeps s done.1) :
    Keeps s (whenEnabled s done).1 := by
  unfold whenEnabled
  split
  · next hon => exact k hon
  · exact .refl h

/-- While enabled every slot is taken, so a direct post is always refused (41_ring_manager.md R148). -/
theorem rxpost_keeps {s : State} (h : Inv s) (slot : BitVec 16) (buf : Addr) : KeepsAll s (exec (.rxpost slot buf) s) := by
  refine keepsAll_answer (whenEnabled_keeps h fun hon => ?_)
  split_ifs with hslot hbuf hbusy
  · exact .refl h
  · exact .refl h
  · exact .refl h
  · exact absurd (h.rx_on hon _ (Nat.lt_of_not_le hslot)) hbusy

theorem submitPacket_keeps {s : State} (h : Inv s) (hd : Handle) (csum : Bool) (segs : List Seg) :
    Keeps s (submitPacket s (txPost s hd csum segs)).1 := by
  unfold submitPacket
  split
  · exact keeps_ports h s.port _ rfl
  · exact txPost_keeps h hd csum segs

theorem lnkauto_keeps {s : State} (h : Inv s) (adv : BitVec 2) (caps : BitVec 6) : KeepsAll s (exec (.lnkauto adv caps) s) := by
  have hp := h.parts
  have hstore : Keeps s { s with link := { s.link with mode := .auto, advCaps := caps, advLocal := adv } } :=
    .of_rings_same { hp with link := { hp.link with mode_speed := nofun } }
  refine keepsAll_answer ?_
  split
  · exact .refl h
  · dsimp only
    split
    · next hon =>
      have hdown := hstore.trans (linkDownNow_keeps hstore.inv)
      exact hdown.trans (requestNegotiation_keeps hdown.inv (by simpa using hon) (by simp [downedLink]))
    · exact hstore

theorem lnkforce_keeps {s : State} (h : Inv s) (duplex : Bool) (speed : BitVec 2) :
    KeepsAll s (exec (.lnkforce duplex speed) s) := by
  have hp := h.parts
  refine keepsAll_answer ?_
  split
  · exact .refl h
  · next hsp =>
    have hmode : ∀ sp dp, LinkMode.forced speed duplex = .forced sp dp → sp ≠ 3 := by
      rintro sp dp ⟨⟩
      exact hsp
    have hlink : LinkOk s.par s.ctl.enabled { s.link with mode := .forced speed duplex } := { hp.link with mode_speed := hmode }
    dsimp only
    split
    · next hon =>
      rw [hon] at hlink
      exact enterForced_keeps h (by rw [hon]; exact hlink.forced hsp duplex)
    · exact .of_rings_same { hp with link := hlink }

theorem takeCallback_keeps {s : State} (h : Inv s) (e : Word) : Keeps s (takeCallback s e) := by
  have hp := h.parts
  exact .of_rings_same { hp with env := { hp.env with owed := h.owed_sorted.sublist List.erase_sublist } }

theorem resdone_keeps {s : State} (h : Inv s) (e : Word) : KeepsAll s (exec (.resdone e) s) := by
  have hcall := takeCallback_keeps h e
  refine keepsAll_answer ?_
  split_ifs with hepoch hst
  · exact hcall
  · exact hcall
  · exact hcall.trans (resolveDone_keeps hcall.inv (not_not.1 hst))

theorem devtx_keeps {s : State} (h : Inv s) (k : BitVec 8) : KeepsAll s (exec (.devtx k) s) := by
  have hp := h.parts
  refine keepsAll_agentStep fun _ => ?_
  exact .of_rings_same { hp with
    dev := { hp.dev with tx_cons := wrap_lt .., pending := (Nat.sub_le ..).trans h.dev_pending } }

theorem writeRrDesc_sameOutside (s : State) (j slot len flags err : Nat) :
    sameOutside s.mem (s.writeRrDesc j slot len flags err).mem (rrDescAddr s.par j) 8 := by
  intro a ha
  unfold outside at ha
  simp only [State.writeRrDesc, memWrite_mem]
  rw [byteAt_writeLE, if_neg (by omega), byteAt_writeLE, if_neg (by omega), byteAt_writeLE, if_neg (by omega), byteAt_writeLE,
    if_neg (by omega)]

theorem writeRrDesc_wf {s : State} (h : Memory.wf s.mem) (j slot len flags err : Nat) :
    Memory.wf (s.writeRrDesc j slot len flags err).mem :=
  memWrite_wf _ _ _ _ (memWrite_wf _ _ _ _ (memWrite_wf _ _ _ _ (memWrite_wf _ _ _ _ h)))

/-- New bytes outside the two descriptor arrays that the host writes. -/
theorem keeps_mem {s : State} (h : Inv s) {m : List Host.Cell} (hw : Memory.wf m) (hm : DescsSame s.par s.mem m) :
    Keeps s { s with mem := m } := .of_rings_same { h.parts with mem := hw } (hm := hm)

theorem devrx_keeps {s : State} (h : Inv s) (flags err : BitVec 2) (len : BitVec 16) :
    KeepsAll s (exec (.devrx flags err len) s) := by
  refine keepsAll_agentStep fun _ => ?_
  have hmem := keeps_mem h (writeRrDesc_wf h.mem_wf s.dev.rrProd s.dev.rxCons len.toNat flags.toNat err.toNat)
    (descsSame_of_rr h.legal h.dev_rr_prod (writeRrDesc_sameOutside _ _ _ _ _ _))
  have hwrite : s.writeRrDesc s.dev.rrProd s.dev.rxCons len.toNat flags.toNat err.toNat =
      { s with mem := (s.writeRrDesc s.dev.rrProd s.dev.rxCons len.toNat flags.toNat err.toNat).mem } := by
    simp [State.writeRrDesc, State.memWrite]
  rw [hwrite]
  generalize (s.writeRrDesc s.dev.rrProd s.dev.rxCons len.toNat flags.toNat err.toNat).mem = m at hmem
  have hp := hmem.inv.parts
  exact hmem.trans (.of_rings_same { hp with
    dev := { hp.dev with rr_prod := ringInc_lt .., rx_cons := ringInc_lt .., avail := (Nat.sub_le ..).trans h.dev_avail } })

theorem keeps_sbWrite {s : State} (h : Inv s) (v : Nat) : Keeps s (s.memWrite s.par.sbBase 8 v) :=
  keeps_mem h (writeLE_wf _ _ _ _ h.mem_wf) (descsSame_of_sb h.legal (writeLE_sameOutside _ _ _ _))

theorem devsb_keeps {s : State} (h : Inv s) : KeepsAll s (exec .devsb s) := by
  have hp := h.parts
  have htag : Keeps s { s with dev := { s.dev with tag := s.dev.tag + 1 }, poll := { s.poll with irqRing := true } } :=
    .of_rings_same { hp with dev := { hp.dev with }, poll := { hp.poll with } }
  exact keepsAll_agentStep fun _ => htag.trans (keeps_sbWrite htag.inv _)

theorem physet_keeps {s : State} (h : Inv s) (status : BitVec 8) : KeepsAll s (exec (.physet status) s) := by
  refine keepsAll_agentStep fun hen => setPhyStatus_keeps h ⟨?_, ?_⟩
  · have hspeed : ∀ st : BitVec 8, phySpeed (st.setWidth 32) = st.extractLsb' 2 2 := by decide
    rw [hspeed]
    simpa using hen
  · rw [BitVec.toNat_setWidth_of_le (by omega)]
    exact status.isLt

/-- Every operation keeps the invariants: one case for each arm of `exec`. -/
theorem exec_keeps {s : State} (h : Inv s) (i : Instr) : KeepsAll s (exec i s) := by
  cases i with
  | rdreg off => exact keepsAll_answer (by split <;> exact .refl h)
  | wrreg off val =>
    refine keepsAll_answer ?_
    split
    · exact writeAt_keeps h ..
    · exact .refl h
  | rdind addr =>
    refine keepsAll_answer ?_
    split
    · exact regWrite_keeps h .winBase addr
    · exact .refl h
  | wrind addr val =>
    refine keepsAll_answer ?_
    split
    · exact indWrite_keeps h ..
    · exact .refl h
  | doorbell off val =>
    refine keepsAll_answer ?_
    split
    · split
      · exact ringDoorbell_keeps h ..
      · exact .refl h
    · exact .refl h
  | setbit off mask =>
    refine keepsAll_answer ?_
    split
    · exact writeAt_keeps h ..
    · exact .refl h
  | clrbit off mask =>
    refine keepsAll_answer ?_
    split
    · exact writeAt_keeps h ..
    · exact .refl h
  | txpost csum hd segs => exact keepsAll_answer (whenEnabled_keeps h fun _ => txPost_keeps h hd csum segs)
  | txreclaim idx => exact keepsAll_answer (whenEnabled_keeps h fun _ => txReclaim_keeps h _)
  | rxpost slot buf => exact rxpost_keeps h slot buf
  | rrdrain idx => exact keepsAll_answer (whenEnabled_keeps h fun hon => reportDrain_keeps h hon _)
  | rxrefill slot =>
    refine keepsAll_answer (whenEnabled_keeps h fun hon => ?_)
    split
    · exact .refl h
    · next hslot => exact reportRefill_keeps h hon (Nat.lt_of_not_le hslot)
  | onint => exact keepsAll_answer (onInterrupt_keeps h)
  | wdtick => exact keepsAll_answer (tick_keeps h)
  | submit csum hd segs =>
    refine keepsAll_answer ?_
    split_ifs
    · exact submitPacket_keeps h hd csum segs
    · exact .refl h
    · exact .refl h
  | lnkauto adv caps => exact lnkauto_keeps h adv caps
  | lnkforce duplex speed => exact lnkforce_keeps h duplex speed
  | resdone e => exact resdone_keeps h e
  | start =>
    refine keepsAll_answer ?_
    split
    · exact .refl h
    · next hoff => exact startWith_keeps h (Bool.eq_false_iff.2 hoff)
  | stop =>
    refine keepsAll_answer ?_
    split
    · exact shutDown_keeps h
    · exact .refl h
  | adpreset =>
    refine keepsAll_answer ?_
    split
    · next hon =>
      dsimp only
      exact adapterReset_keeps h hon
    · exact .refl h
  | devtx k => exact devtx_keeps h k
  | devrx flags err len => exact devrx_keeps h flags err len
  | devsb => exact devsb_keeps h
  | physet status => exact physet_keeps h status

theorem runUndecodable_keeps {s : State} (h : Inv s) (r : Request) : KeepsAll s (runUndecodable r s) := by
  unfold runUndecodable
  split
  · rintro t ⟨⟩
    exact keeps_setResult h _
  · rintro t ⟨⟩
  · rintro t ⟨⟩

theorem runStimulus_keeps {s : State} (h : Inv s) (x : Stimulus) : KeepsAll s (runStimulus x s) := by
  cases x with
  | command r =>
    simp only [runStimulus, runRequest]
    split
    · exact exec_keeps h _
    · exact runUndecodable_keeps h r
  | rogueSb v =>
    simp only [runStimulus, rogueWriteSb]
    exact keepsAll_agentStep fun _ => keeps_sbWrite h _
  | rogueRr j v =>
    simp only [runStimulus, rogueWriteRr]
    exact keepsAll_agentStep fun hj => keeps_mem h (writeLE_wf _ _ _ _ h.mem_wf)
      (descsSame_of_rr h.legal (of_decide_eq_true hj) (writeLE_sameOutside _ _ _ _))

theorem step_keeps {s t : State} (h : Inv s) (ht : step s = .next t) : Keeps s t := by
  unfold step at ht
  split at ht
  · cases ht
    exact .refl h
  · have hpend := keeps_withPending h ‹List Stimulus›
    exact hpend.trans (runStimulus_keeps hpend.inv _ t ht)

/-- Settles O55: `Inv` is kept owner by owner, by one lemma for each procedure; the framing of packets is kept because only a
walk from the cursor and a packet behind the last one touch the slots in flight. -/
theorem invKept : Obligations.InvKept := fun _ _ h ht => ⟨(step_keeps h ht).inv, (step_keeps h ht).framed⟩

/-- Settles O56: a slot takes only buffers that were not live, and a buffer leaves `live` only once no slot holds it. -/
theorem rxBackedKept : Obligations.RxBackedKept := fun _ _ h hb ht => (step_keeps h ht).backed hb

/-! ## Faults and events: the primitives -/

/-- From `s` to `t` no fault flag is cleared and the events only grow at their end (10_state.md R37, R69). -/
structure Grows (s t : State) : Prop where
  txIdx  : s.ctl.faultTxIdx = true → t.ctl.faultTxIdx = true
  rrIdx  : s.ctl.faultRrIdx = true → t.ctl.faultRrIdx = true
  events : s.port.events <+: t.port.events

theorem Grows.trans {s t u : State} (h : Grows s t) (k : Grows t u) : Grows s u :=
  ⟨fun hf => k.txIdx (h.txIdx hf), fun hf => k.rrIdx (h.rrIdx hf), h.events.trans k.events⟩

/-- `Grows.trans` with the later move first, which names the state between. -/
theorem Grows.comp {s t u : State} (k : Grows t u) (h : Grows s t) : Grows s u := h.trans k

/-- A move that leaves the control part and the ports alone. -/
theorem Grows.of_same {s t : State} (hc : t.ctl = s.ctl) (hp : t.port = s.port) : Grows s t :=
  ⟨fun h => hc ▸ h, fun h => hc ▸ h, hp ▸ List.prefix_rfl⟩

theorem Grows.refl (s : State) : Grows s s := .of_same rfl rfl

theorem Grows.setEnabled {s t : State} (h : Grows s t) (on : Bool) : Grows s { t with ctl := { t.ctl with enabled := on } } :=
  ⟨h.txIdx, h.rrIdx, h.events⟩

theorem grows_emit (s : State) (e : Event) : Grows s (s.emit e) := ⟨id, id, List.prefix_append ..⟩

/-- A walk whose every move grows grows. -/
theorem foldl_grows {α : Type} {f : State → α → State} (hf : ∀ s a, Grows s (f s a)) (l : List α) (s : State) :
    Grows s (l.foldl f s) := by
  induction l generalizing s with
  | nil => exact .refl s
  | cons a l ih => exact (hf s a).trans (ih (f s a))

theorem freeBuffer_grows (s : State) (b : Addr) : Grows s (freeBuffer s b) := ⟨id, id, List.prefix_append ..⟩

theorem passOut_grows (s : State) (b : Addr) (e : Event) : Grows s (passOut s b e) := ⟨id, id, List.prefix_append ..⟩

@[simp] theorem ringDoorbell_port (s : State) (c : Csr) (v : Word) : (ringDoorbell s c v).port = s.port := by
  have hstore : (storeMailbox s c v).port = s.port := by cases c <;> rfl
  unfold ringDoorbell devDoorbell
  split
  · cases c <;> rfl
  · exact hstore

theorem ringDoorbell_grows (s : State) (c : Csr) (v : Word) : Grows s (ringDoorbell s c v) :=
  .of_same (ringDoorbell_ctl ..) (ringDoorbell_port ..)

theorem regWrite_grows (s : State) (c : Csr) (v : Word) : Grows s (regWrite s c v) := by
  cases c with
  | devCtrl => simp only [regWrite, writeDevCtrl]; split <;> exact .of_same rfl rfl
  | phyCtrl => simp only [regWrite, writePhyCtrl]; split <;> exact .of_same rfl rfl
  | winData => simp only [regWrite]; split <;> exact .of_same rfl rfl
  | mbTxProd => exact ringDoorbell_grows ..
  | mbRxProd => exact ringDoorbell_grows ..
  | mbRrCons => exact ringDoorbell_grows ..
  | _ => exact .of_same rfl rfl

theorem writeAt_grows (s : State) (off : BitVec 16) (v : Word) : Grows s (writeAt s off v) := by
  unfold writeAt
  split
  · exact regWrite_grows ..
  · exact .refl s

theorem alloc_grows (s : State) : Grows s (alloc s).1 := by
  rcases alloc_cases s with ⟨b, -, ha⟩ | ha <;> rw [ha] <;> exact .of_same rfl rfl

/-! ## Faults and events: the link -/

theorem linkDownNow_grows (s : State) : Grows s (linkDownNow s) := by
  rw [linkDownNow_eq]
  exact ⟨id, id, List.prefix_append ..⟩

theorem beginNegotiation_grows (s : State) : Grows s (beginNegotiation s) := by
  rw [beginNegotiation_eq]
  exact .of_same rfl rfl

theorem requestNegotiation_grows (s : State) : Grows s (requestNegotiation s) :=
  .comp (beginNegotiation_grows { s with link := { s.link with negRetries := 0 } }) (.of_same rfl rfl)

theorem enterForced_grows (s : State) (sp : BitVec 2) (dp : Bool) : Grows s (enterForced s sp dp) := by
  rw [enterForced_eq]
  refine ⟨id, id, ?_⟩
  dsimp only
  rw [List.append_assoc]
  exact List.prefix_append ..

theorem negComplete_grows (s : State) (st : Word) : Grows s (negComplete s st) := ⟨id, id, List.prefix_append ..⟩

theorem resolveDone_grows (s : State) : Grows s (resolveDone s) := by
  rw [resolveDone_eq s _ _ rfl]
  exact ⟨id, id, List.prefix_append ..⟩

theorem linkLoss_grows (s : State) : Grows s (linkLoss s) := by
  have hdown := linkDownNow_grows s
  unfold linkLoss
  split
  · exact hdown.trans (requestNegotiation_grows _)
  · exact hdown

theorem linkService_grows (s : State) : Grows s (linkService s) := by
  simp only [linkService]
  split
  case h_1 =>
    split
    · exact negComplete_grows ..
    · exact .refl s
  case h_2 =>
    split
    · exact .refl s
    · exact linkLoss_grows s
  case h_3 => exact .refl s
  case h_4 => exact .refl s

theorem linkStart_grows (s : State) : Grows s (linkStart s) := by
  unfold linkStart
  split
  · exact requestNegotiation_grows s
  · exact enterForced_grows ..

theorem negFallback_grows (s : State) : Grows s (negFallback s) := by
  have hemit := grows_emit s .negTimeout
  simp only [negFallback]
  split
  · exact hemit.trans (enterForced_grows ..)
  · exact .comp (grows_emit _ _) ⟨id, id, List.prefix_append ..⟩

theorem negTick_grows (s : State) : Grows s (negTick s).1 := by
  simp only [negTick]
  split
  · split
    · exact .of_same rfl rfl
    · split
      · exact .comp (beginNegotiation_grows _) (.of_same rfl rfl)
      · exact .comp (negFallback_grows _) (.of_same rfl rfl)
  · exact .refl s

/-! ## Faults and events: the rings -/

theorem fillTx_grows (hd : Handle) (csum : Bool) (segs : List Seg) (i : Nat) (s : State) : Grows s (fillTx hd csum segs i s) := by
  induction segs generalizing i s with
  | nil => exact .refl s
  | cons g rest ih => exact .comp (ih _ _) (.of_same (by simp) (by simp))

theorem txPost_grows (s : State) (hd : Handle) (csum : Bool) (segs : List Seg) : Grows s (txPost s hd csum segs).1 := by
  unfold txPost
  split_ifs
  · exact .refl s
  · exact .refl s
  · exact .refl s
  · exact .refl s
  · have hfill := fillTx_grows hd csum segs (wrap s.par s.tx.prod) s
    exact hfill.trans (.of_same (ringDoorbell_ctl ..) (ringDoorbell_port ..))

theorem freeTxSlot_grows (ev : Handle → Event) (s : State) : Grows s (freeTxSlot ev s).1 := by
  simp only [freeTxSlot]
  split
  · split
    · exact ⟨id, id, List.prefix_append ..⟩
    · exact .of_same rfl rfl
  · exact .of_same rfl rfl

theorem walkTx_grows (ev : Handle → Event) (c : Nat) (s : State) : Grows s (walkTx ev c s).1 := by
  induction c generalizing s with
  | zero => exact .refl s
  | succ c ih => exact (freeTxSlot_grows ev s).trans (ih _)

theorem txFailAll_grows (s : State) : Grows s (txFailAll s) := walkTx_grows ..

theorem noteReclaim_grows (s : State) : Grows s (noteReclaim s) := by
  rw [noteReclaim_eq]
  exact ⟨id, id, List.prefix_append ..⟩

theorem txReclaim_grows (s : State) (idx : Nat) : Grows s (txReclaim s idx).1 := by
  simp only [txReclaim]
  split
  · exact ⟨fun _ => rfl, id, List.prefix_rfl⟩
  · have hwalk := walkTx_grows .txDone (ringDist s.par (wrap s.par idx) s.tx.cons) s
    split
    · exact hwalk.trans (noteReclaim_grows _)
    · exact hwalk

theorem rxRepost_grows (s : State) : Grows s (rxRepost s) := .comp (ringDoorbell_grows ..) (.of_same rfl rfl)

theorem rxPost_grows (s : State) (i : Nat) (b : Addr) : Grows s (rxPost s i b) :=
  .comp (rxRepost_grows _) (.of_same (by simp) (by simp))

theorem rxRefill_grows (s : State) (i : Nat) : Grows s (rxRefill s i).1 := by
  have halloc := alloc_grows s
  unfold rxRefill
  split
  case h_1 s1 nb h =>
    rw [h] at halloc
    exact halloc.trans (.comp (rxRepost_grows _) (.of_same (by simp) (by simp)))
  case h_2 s1 h =>
    rw [h] at halloc
    exact halloc.trans (.comp (rxRepost_grows _) ⟨id, id, List.prefix_rfl⟩)

theorem drainOne_grows (s : State) : Grows s (drainOne s).1 := by
  have hrefill := rxRefill_grows s (s.rrSlot s.rx.rrCons)
  simp only [drainOne]
  split
  · have hdrop : Grows s { s with ctl := { s.ctl with cntRxDrop := s.ctl.cntRxDrop + 1 } } := ⟨id, id, List.prefix_rfl⟩
    exact (hdrop.trans (rxRepost_grows _)).trans (.of_same rfl rfl)
  · split
    case h_1 s1 old h =>
      rw [h] at hrefill
      exact hrefill.trans (.of_same rfl rfl)
    case h_2 s1 h =>
      rw [h] at hrefill
      exact hrefill.trans (.of_same rfl rfl)

theorem drainLoop_grows (c : Nat) (s : State) : Grows s (drainLoop c s).1 := by
  induction c generalizing s with
  | zero => exact .refl s
  | succ c ih => exact (drainOne_grows s).trans (ih _)

theorem rrDrain_grows (s : State) (idx : Nat) : Grows s (rrDrain s idx).1 := by
  simp only [rrDrain]
  split
  · have hloop := drainLoop_grows (ringDist s.par (wrap s.par idx) s.rx.rrCons) s
    split
    · exact hloop.trans (ringDoorbell_grows ..)
    · exact hloop
  · exact ⟨id, fun _ => rfl, List.prefix_rfl⟩

theorem reportDrained_grows (s : State) (d : Drained) : Grows s (reportDrained s d) := by
  cases d with
  | filled buf len flags => exact passOut_grows ..
  | dropped slot err => exact grows_emit ..
  | noBuf slot => exact grows_emit ..

theorem deliverOne_grows (s : State) (d : Drained) : Grows s (deliverOne s d).1 := by
  cases d with
  | filled buf len flags =>
    simp only [deliverOne]
    split
    · exact passOut_grows ..
    · exact .comp (freeBuffer_grows { s with ctl := { s.ctl with cntRxDrop := s.ctl.cntRxDrop + 1 } } buf)
        ⟨id, id, List.prefix_rfl⟩
  | dropped slot err => exact .refl s
  | noBuf slot => exact .refl s

theorem rxDeliver_grows (out : List Drained) (s : State) : Grows s (rxDeliver out s).1 := by
  induction out generalizing s with
  | nil => exact .refl s
  | cons e rest ih => exact (deliverOne_grows s e).trans (ih _)

/-! ## Faults and events: the lifecycle -/

theorem ringInit_grows (s : State) : Grows s (ringInit s) := by
  obtain ⟨m, h, -⟩ := ringInit_spec s
  rw [h]
  exact ⟨id, id, List.prefix_rfl⟩

theorem allocMany_grows (k : Nat) (s : State) : Grows s (allocMany k s).1 := by
  induction k generalizing s with
  | zero => exact .refl s
  | succ k ih =>
    have halloc := alloc_grows s
    unfold allocMany
    split
    case h_1 s1 b h =>
      rw [h] at halloc
      exact halloc.trans (ih s1)
    case h_2 s1 h => rwa [h] at halloc

theorem postBuffers_grows (bufs : List Addr) (i : Nat) (s : State) : Grows s (postBuffers bufs i s) := by
  induction bufs generalizing i s with
  | nil => exact .refl s
  | cons b rest ih => exact (rxPost_grows s i b).trans (ih _ _)

theorem releaseSlot_grows (s : State) (i : Nat) : Grows s (releaseSlot s i) := by
  unfold releaseSlot
  split
  · exact ⟨id, id, List.prefix_append ..⟩
  · exact .refl s

theorem rxReleaseAll_grows (s : State) : Grows s (rxReleaseAll s) := foldl_grows releaseSlot_grows _ s

theorem rearm_grows (s : State) : Grows s (rearm s) := (ringInit_grows s).trans (regWrite_grows ..)

theorem adapterReset_grows (s : State) : Grows s (adapterReset s) := by
  have hdown := (linkDownNow_grows s).trans (regWrite_grows (linkDownNow s) .devCtrl 0x00000002)
  have hfail := hdown.trans (txFailAll_grows _)
  rw [adapterReset_eq]
  exact ((hfail.trans (rearm_grows _)).trans (postBuffers_grows ..)).trans (linkStart_grows _)

theorem bringUp_grows (s : State) (bufs : List Addr) : Grows s (bringUp s bufs) := by
  have hrearm := (regWrite_grows s .devCtrl 0x00000002).trans (rearm_grows _)
  have hpost := (hrearm.trans (postBuffers_grows bufs 0 _)).setEnabled true
  exact hpost.trans (linkStart_grows _)

theorem finalReclaim_grows (s : State) : Grows s (finalReclaim s) := by
  simp only [finalReclaim]
  split
  · exact txReclaim_grows ..
  · exact .refl s

theorem shutDown_grows (s : State) : Grows s (shutDown s) := by
  have hdown : Grows s (linkDownNow (bumpEpoch s)) := .comp (linkDownNow_grows (bumpEpoch s)) (.of_same rfl rfl)
  have hrec := (hdown.trans (regWrite_grows _ .devCtrl 0x00000000)).trans (finalReclaim_grows _)
  have hfail := hrec.trans (txFailAll_grows _)
  have hfree := hfail.trans (rxReleaseAll_grows _)
  simp only [shutDown]
  exact (hfree.trans (ringInit_grows _)).setEnabled false

theorem startWith_grows (got : State × List Addr × Bool) : Grows got.1 (startWith got).1 := by
  unfold startWith
  split
  · exact bringUp_grows ..
  · exact foldl_grows freeBuffer_grows ..

/-! ## Faults and events: the pass and the tick -/

theorem serviceLink_grows (s : State) : Grows s (serviceLink s) := by
  unfold serviceLink
  split
  · exact .comp (linkService_grows _) (.of_same rfl rfl)
  · exact .refl s

theorem dispatchPass_grows (s : State) (t r : Nat) (g : Word) (lc : Bool) : Grows s (dispatchPass s t r g lc).1 := by
  have hdrain := (txReclaim_grows s t).trans (rrDrain_grows (txReclaim s t).1 r)
  simp only [dispatchPass, storeSnapshot]
  split
  case h_1 s1 out h =>
    rw [h] at hdrain
    exact (hdrain.trans (rxDeliver_grows out s1)).trans (.of_same rfl rfl)
  case h_2 s1 h =>
    rw [h] at hdrain
    exact hdrain.trans (.of_same rfl rfl)

theorem servicePass_grows (s : State) (lc : Bool) : Grows s (servicePass s lc).1 := by
  simp only [servicePass]
  split
  · exact .of_same rfl rfl
  · exact .comp (dispatchPass_grows ..) (.of_same rfl rfl)

theorem onInterrupt_grows (s : State) : Grows s (onInterrupt s).1 := by
  have hlink := serviceLink_grows s
  simp only [onInterrupt]
  split
  · split
    · exact hlink.trans (servicePass_grows ..)
    · exact hlink
  · exact .refl s

theorem tick_grows (s : State) : Grows s (tick s).1 := by
  have hcheck : Grows s (wdCheck s) := .of_same rfl rfl
  simp only [tick]
  split
  · split
    · dsimp only
      exact (hcheck.trans (grows_emit _ .hwTimeout)).trans (adapterReset_grows _)
    · exact hcheck.trans (negTick_grows _)
  · exact .refl s

/-! ## Faults and events: the operations -/

/-- Where the outcome of an operation from `s` is a next state, faults and events have grown. -/
def GrowsAll (s : State) (o : Host.Outcome State Fault Refusal) : Prop := ∀ t, o = .next t → Grows s t

theorem growsAll_answer {s b : State} {done : State × Result} (h : Grows s done.1) : GrowsAll s (answer b done) := by
  intro t ht
  rw [answer_eq_next ht]
  exact h.trans ⟨id, id, List.prefix_rfl⟩

theorem growsAll_agentStep {s u : State} {en : Bool} (h : Grows s u) : GrowsAll s (agentStep en u) := by
  intro t ht
  rw [(agentStep_eq_next ht).2]
  exact h

theorem whenEnabled_grows {s : State} {done : State × Result} (h : Grows s done.1) : Grows s (whenEnabled s done).1 := by
  unfold whenEnabled
  split
  · exact h
  · exact .refl s

theorem submitPacket_grows (s : State) (hd : Handle) (csum : Bool) (segs : List Seg) :
    Grows s (submitPacket s (txPost s hd csum segs)).1 := by
  unfold submitPacket
  split
  · exact ⟨id, id, List.prefix_rfl⟩
  · exact txPost_grows ..

theorem reportDrain_grows (done : State × Option (List Drained)) : Grows done.1 (reportDrain done).1 := by
  unfold reportDrain
  split
  · exact foldl_grows reportDrained_grows ..
  · exact .refl _

theorem reportRefill_grows (done : State × Option Addr) : Grows done.1 (reportRefill done).1 := by
  unfold reportRefill
  split
  · exact .of_same rfl rfl
  · exact .refl _

/-- One case for each arm of `exec`. -/
theorem exec_grows (i : Instr) (s : State) : GrowsAll s (exec i s) := by
  cases i with
  | rdreg off => exact growsAll_answer (by split <;> exact .refl s)
  | wrreg off val => exact growsAll_answer (by split; exacts [writeAt_grows .., .refl s])
  | rdind addr => exact growsAll_answer (by split; exacts [regWrite_grows s .winBase addr, .refl s])
  | wrind addr val =>
    exact growsAll_answer (by split; exacts [(regWrite_grows s .winBase addr).trans (regWrite_grows _ .winData val), .refl s])
  | doorbell off val =>
    refine growsAll_answer ?_
    split
    · split
      · exact ringDoorbell_grows ..
      · exact .refl s
    · exact .refl s
  | setbit off mask => exact growsAll_answer (by split; exacts [writeAt_grows .., .refl s])
  | clrbit off mask => exact growsAll_answer (by split; exacts [writeAt_grows .., .refl s])
  | txpost csum hd segs => exact growsAll_answer (whenEnabled_grows (txPost_grows ..))
  | txreclaim idx => exact growsAll_answer (whenEnabled_grows (txReclaim_grows ..))
  | rxpost slot buf =>
    refine growsAll_answer (whenEnabled_grows ?_)
    split_ifs
    · exact .refl s
    · exact .refl s
    · exact .refl s
    · exact rxPost_grows ..
  | rrdrain idx => exact growsAll_answer (whenEnabled_grows ((rrDrain_grows s _).trans (reportDrain_grows _)))
  | rxrefill slot =>
    refine growsAll_answer (whenEnabled_grows ?_)
    split
    · exact .refl s
    · exact (rxRefill_grows s _).trans (reportRefill_grows _)
  | onint => exact growsAll_answer (onInterrupt_grows s)
  | wdtick => exact growsAll_answer (tick_grows s)
  | submit csum hd segs =>
    refine growsAll_answer ?_
    split_ifs
    · exact submitPacket_grows ..
    · exact .refl s
    · exact .refl s
  | lnkauto adv caps =>
    refine growsAll_answer ?_
    split
    · exact .refl s
    · dsimp only
      split
      · exact .comp ((linkDownNow_grows _).trans (requestNegotiation_grows _)) (.of_same rfl rfl)
      · exact .of_same rfl rfl
  | lnkforce duplex speed =>
    refine growsAll_answer ?_
    split
    · exact .refl s
    · dsimp only
      split
      · exact .comp (enterForced_grows ..) (.of_same rfl rfl)
      · exact .of_same rfl rfl
  | resdone e =>
    have htake : Grows s (takeCallback s e) := .of_same rfl rfl
    refine growsAll_answer ?_
    split_ifs
    · exact htake
    · exact htake
    · exact htake.trans (resolveDone_grows _)
  | start =>
    refine growsAll_answer ?_
    split
    · exact .refl s
    · exact (allocMany_grows s.par.n s).trans (startWith_grows _)
  | stop => exact growsAll_answer (by split; exacts [shutDown_grows s, .refl s])
  | adpreset =>
    refine growsAll_answer ?_
    split
    · dsimp only
      exact adapterReset_grows s
    · exact .refl s
  | devtx k => exact growsAll_agentStep (.of_same rfl rfl)
  | devrx flags err len => exact growsAll_agentStep (.of_same (by simp) (by simp))
  | devsb => exact growsAll_agentStep (.of_same rfl rfl)
  | physet status => exact growsAll_agentStep (.of_same rfl rfl)

theorem runStimulus_grows (x : Stimulus) (s : State) : GrowsAll s (runStimulus x s) := by
  cases x with
  | command r =>
    simp only [runStimulus, runRequest]
    split
    · exact exec_grows _ s
    · unfold runUndecodable
      split
      · rintro t ⟨⟩
        exact ⟨id, id, List.prefix_rfl⟩
      · rintro t ⟨⟩
      · rintro t ⟨⟩
  | rogueSb v =>
    simp only [runStimulus, rogueWriteSb]
    exact growsAll_agentStep (.of_same (memWrite_ctl ..) (memWrite_port ..))
  | rogueRr j v => exact growsAll_agentStep (.of_same (memWrite_ctl ..) (memWrite_port ..))

theorem step_grows {s t : State} (ht : step s = .next t) : Grows s t := by
  unfold step at ht
  split at ht
  · cases ht
    exact .refl s
  · exact .comp (runStimulus_grows _ _ t ht) ⟨id, id, List.prefix_rfl⟩

/-- Settles O58: no procedure writes a fault flag but to set it, nor the events but to append to them. -/
theorem faultsStickyEventsAppended : Obligations.FaultsStickyEventsAppended := by
  intro s t ht
  obtain ⟨htx, hrr, evs, hevs⟩ := step_grows ht
  exact ⟨htx, hrr, evs, hevs.symm⟩

/-! ## The state after hardware reset -/

/-- Settles O52: every element is read off `State.resetOf`; a slot inside the ring is empty, one outside reads so. -/
theorem resetValues : Obligations.ResetValues := by
  rintro p s rfl
  have hslot : ∀ {α : Type} (i : Nat), (List.replicate p.n (none : Option α)).getD i none = none := fun i => by
    rw [List.getD_eq_getElem?_getD, List.getElem?_replicate]
    split <;> rfl
  refine ⟨⟨rfl, rfl, rfl, rfl, rfl⟩, fun i => ⟨hslot i, hslot i⟩, ?_, ⟨rfl, rfl, rfl, rfl, rfl⟩, ?_, rfl, rfl, rfl, rfl, rfl⟩
  · exact ⟨rfl, rfl, rfl, rfl, rfl, rfl, rfl, rfl, rfl, rfl⟩
  · exact ⟨rfl, rfl, rfl, rfl, rfl, rfl, rfl, rfl, rfl, rfl, rfl, rfl, rfl⟩

theorem resetOf_parts {p : Params} (hp : p.Legal) : InvParts (State.resetOf p) := by
  have hn := p.n_pos
  exact {
    legal := hp
    mem   := rfl
    imem  := rfl
    tx    := emptyTx_ok p
    rx    := ⟨List.length_replicate .., hn, hn, nofun, fun _ i _ => by simp [State.resetOf, List.getD_eq_getElem?_getD]⟩
    poll  := emptyPoll_ok hp false
    link  := ⟨⟨nofun, nofun⟩, fun _ => rfl, fun _ => ⟨rfl, rfl, rfl, rfl⟩, Nat.zero_le _, nofun, Nat.zero_le _, nofun,
               (by decide : 0#2 ≠ 3), (by decide : 0#2 ≠ 3)⟩
    csr   := ⟨(by decide : phySpeed 0 ≠ 3), Nat.zero_lt_succ _, (by decide : 0#32 &&& 0b11101#32 = 0#32), Nat.zero_lt_succ _,
               Nat.zero_lt_succ _, Nat.zero_lt_succ _, Nat.zero_lt_succ _, Nat.zero_lt_succ _⟩
    dev   := ⟨rfl, hn, hn, Nat.zero_le _, hn, hn, Nat.zero_le _, hn, hn⟩
    env   := ⟨List.Pairwise.nil, List.Pairwise.nil⟩ }

/-- Settles O54: each owner's part holds of the reset values; nothing is in flight and nothing is posted. -/
theorem invAtReset : Obligations.InvAtReset := fun _ hp =>
  have hinv := (resetOf_parts hp).inv
  ⟨hinv, txFramed_of_free rfl, rxBacked_of_off hinv rfl⟩

theorem mem_of_cellGet {α : Type} {m : List (Nat × α)} {a : Nat} {v : α} (h : cellGet m a = some v) : (a, v) ∈ m := by
  induction m with
  | nil => cases h
  | cons e rest ih =>
    obtain ⟨k, w⟩ := e
    simp only [cellGet] at h
    split at h
    · next hk =>
      rw [hk, ← Option.some.inj h]
      exact List.mem_cons_self ..
    · exact List.mem_cons_of_mem _ (ih h)

/-- The three registers that do not read 0 after reset, by their offsets (10_state.md R48). -/
theorem csrAt_nonzero (off : BitVec 16) :
    (csrAt off = some .txFree ↔ off.toNat = 0x08) ∧ (csrAt off = some .linkCfg ↔ off.toNat = 0x34) ∧
    (csrAt off = some .winData ↔ off.toNat = 0x64) := by
  have hlisted : ∀ row ∈ csrOffsets, (row.2 = .txFree → row.1 = 0x08) ∧ (row.2 = .linkCfg → row.1 = 0x34) ∧
      (row.2 = .winData → row.1 = 0x64) := by decide
  have hmem : ∀ c, csrAt off = some c → (off.toNat, c) ∈ csrOffsets := fun c hc => mem_of_cellGet hc
  refine ⟨⟨fun h => (hlisted _ (hmem _ h)).1 rfl, fun h => ?_⟩, ⟨fun h => (hlisted _ (hmem _ h)).2.1 rfl, fun h => ?_⟩,
    ⟨fun h => (hlisted _ (hmem _ h)).2.2 rfl, fun h => ?_⟩⟩ <;> rw [csrAt, h] <;> rfl

/-- But for `TX_FREE` and `WIN_DATA`, what a register reads after reset is the same for all parameters. -/
theorem regRead_reset_params (p : Params) {c : Csr} (hfree : c ≠ .txFree) (hwin : c ≠ .winData) :
    regRead (State.resetOf p) c = regRead State.reset c := by
  cases c with
  | txFree => exact absurd rfl hfree
  | winData => exact absurd rfl hwin
  | _ => rfl

theorem linkCfg_reset (p : Params) : regRead (State.resetOf p) .linkCfg = 0xFF0 := by
  rw [regRead_reset_params p (c := .linkCfg) nofun nofun]
  decide

/-- The registers but these three show only elements that reset to 0. -/
theorem regRead_reset_zero (p : Params) {c : Csr} (hfree : c ≠ .txFree) (hcfg : c ≠ .linkCfg) (hwin : c ≠ .winData) :
    regRead (State.resetOf p) c = 0 := by
  rw [regRead_reset_params p hfree hwin]
  cases c with
  | txFree => exact absurd rfl hfree
  | linkCfg => exact absurd rfl hcfg
  | winData => exact absurd rfl hwin
  | _ => decide

theorem txFree_reset {p : Params} (hp : p.Legal) : (regRead (State.resetOf p) .txFree).setWidth 64 = BitVec.ofNat 64 p.n := by
  have hn := hp.n_le
  apply BitVec.eq_of_toNat_eq
  have hview : (txFreeView (State.resetOf p)).toNat = p.n := by
    show (0#16 ++ idx16 p.n).toNat = p.n
    rw [BitVec.toNat_append]
    simp [idx16]
    omega
  rw [regRead, BitVec.toNat_setWidth, hview, BitVec.toNat_ofNat]

theorem winData_reset {p : Params} (hp : p.Legal) : regRead (State.resetOf p) .winData = (State.resetOf p).imemRead 0 := by
  have hopen : (State.resetOf p).window = some 0 := by
    have hpos : 0 < p.imemWords := hp.imem_pos
    simp [State.window, State.resetOf, imemAddrOk, hpos]
  rw [regRead, hopen]

theorem readAt_reset {p : Params} (hp : p.Legal) (off : BitVec 16) :
    (readAt (State.resetOf p) off).setWidth 64 =
      if off.toNat = 0x08 then BitVec.ofNat 64 p.n else if off.toNat = 0x34 then 0xFF0
      else if off.toNat = 0x64 then ((State.resetOf p).imemRead 0).setWidth 64 else 0 := by
  obtain ⟨hfree, hcfg, hwin⟩ := csrAt_nonzero off
  unfold readAt
  split_ifs with h08 h34 h64
  · rw [hfree.2 h08]
    exact txFree_reset hp
  · rw [hcfg.2 h34]
    exact congrArg _ (linkCfg_reset p)
  · rw [hwin.2 h64]
    exact congrArg _ (winData_reset hp)
  · split
    · next c hc =>
      rw [hc] at hfree hcfg hwin
      rw [regRead_reset_zero p (fun h => h08 (hfree.1 (h ▸ rfl))) (fun h => h34 (hcfg.1 (h ▸ rfl)))
        (fun h => h64 (hwin.1 (h ▸ rfl)))]
      rfl
    · rfl

/-- Settles O53: the read answers with the register's reset value. -/
theorem resetCsrs : Obligations.ResetCsrs := by
  intro p off hp hmul hlt
  have hok : csrOffsetOk off = true := by simp [csrOffsetOk, hmul, hlt]
  have hexec : exec (.rdreg off) (State.resetOf p) =
      .next ((State.resetOf p).setResult (Result.okVal ((readAt (State.resetOf p) off).setWidth 64))) := by
    show execRdreg off (State.resetOf p) = _
    rw [execRdreg, if_pos hok]
    exact answer_next _ _ (.inr rfl)
  refine ⟨_, hexec, ?_⟩
  rw [readAt_reset hp]
  rfl

end Sys2Proof.Machine

/-! O59, O60, O6. Which of the four regions of 20_memory.md R82 an operation may write: one lemma for each procedure of the model,
in the order of the definitions, then one for each operation; the two memory statements are read off the table of operations. -/

namespace Sys2Proof.Machine

/-! ## The four regions -/

/-- The descriptor arrays of the three rings and the status block (20_memory.md R82). -/
inductive Region where
  | tx
  | rx
  | rr
  | sb

namespace Region

def base (p : Params) : Region → Nat
  | tx => p.txBase
  | rx => p.rxBase
  | rr => p.rrBase
  | sb => p.sbBase

def size (p : Params) : Region → Nat
  | tx => 16 * p.n
  | rx => 16 * p.n
  | rr => 8 * p.n
  | sb => 8

/-- The address `a` is none of the region's bytes. -/
def avoids (p : Params) (a : Nat) (r : Region) : Prop := outside a (r.base p) (r.size p)

/-- The regions as the parameters list them. -/
def all : List Region := [tx, rx, rr, sb]

theorem regions_eq (p : Params) : p.regions = all.map fun r => (r.base p, r.size p) := rfl

theorem mem_all (r : Region) : r ∈ all := by cases r <;> simp [all]

theorem avoids_of_regions {p : Params} {a : Nat} (h : ∀ r ∈ p.regions, outside a r.1 r.2) (r : Region) : r.avoids p a := by
  rw [regions_eq] at h
  exact h _ (List.mem_map_of_mem (mem_all r))

/-- Two regions share no byte. -/
theorem apart {p : Params} (hp : p.Legal) {r q : Region} (hne : r ≠ q) :
    disjointRanges (r.base p) (r.size p) (q.base p) (q.size p) := by
  have hsymm : Std.Symm fun r q : Region => disjointRanges (r.base p) (r.size p) (q.base p) (q.size p) := ⟨fun _ _ => Or.symm⟩
  have hpairs := hp.regions_apart
  rw [regions_eq, List.pairwise_map] at hpairs
  exact hpairs.forall (mem_all r) (mem_all q) hne

/-- A byte of one region is none of another's. -/
theorem avoids_of_ne {p : Params} (hp : p.Legal) {a : Nat} {r q : Region} (hr : ¬ r.avoids p a) (hne : q ≠ r) :
    q.avoids p a := by
  have hapart := apart hp hne
  unfold avoids outside disjointRanges at *
  omega

end Region

/-! ## Moves that write given regions only -/

/-- From `s` to `t` the parameters stay and no byte outside the regions `rs` is written. -/
structure WritesOnly (rs : List Region) (s t : State) : Prop where
  par   : t.par = s.par
  bytes : ∀ a, (∀ r ∈ rs, r.avoids s.par a) → Memory.byteAt t.mem a = Memory.byteAt s.mem a

namespace WritesOnly

variable {rs rs' : List Region} {s t u : State}

theorem trans (h : WritesOnly rs s t) (k : WritesOnly rs t u) : WritesOnly rs s u :=
  ⟨k.par.trans h.par, fun a ha => (k.bytes a (by rwa [h.par])).trans (h.bytes a ha)⟩

theorem mono (h : WritesOnly rs s t) (hsub : rs ⊆ rs') : WritesOnly rs' s t :=
  ⟨h.par, fun a ha => h.bytes a fun r hr => ha r (hsub hr)⟩

/-- A move that leaves memory alone. -/
theorem of_mem (hm : t.mem = s.mem) (hp : t.par = s.par := by simp) : WritesOnly rs s t := ⟨hp, fun _ _ => by rw [hm]⟩

theorem refl (rs : List Region) (s : State) : WritesOnly rs s s := of_mem rfl rfl

/-- A move, then one that leaves memory alone. -/
theorem andThen (h : WritesOnly rs s t) (hm : u.mem = t.mem) (hp : u.par = t.par := by simp) : WritesOnly rs s u :=
  h.trans (.of_mem hm hp)

/-- A move that leaves memory alone, then a move. -/
theorem after (k : WritesOnly rs t u) (hm : t.mem = s.mem) (hp : t.par = s.par := by simp) : WritesOnly rs s u :=
  trans (.of_mem hm hp) k

/-- A move, then a change of the control part. -/
theorem setCtl (h : WritesOnly rs s t) (k : Control) : WritesOnly rs s { t with ctl := k } := h.andThen rfl rfl

/-- A move that writes inside one region. -/
theorem of_sameOutside {r : Region} {b k : Nat} (hm : sameOutside s.mem t.mem b k) (hb : r.base s.par ≤ b)
    (hk : b + k ≤ r.base s.par + r.size s.par) (hp : t.par = s.par := by simp) : WritesOnly [r] s t := by
  refine ⟨hp, fun a ha => hm a ?_⟩
  have havoid := ha r (List.mem_singleton_self r)
  unfold Region.avoids at havoid
  unfold outside at *
  omega

end WritesOnly

/-- A walk whose every move leaves memory alone leaves it alone. -/
theorem foldl_mem {α : Type} {f : State → α → State} (hf : ∀ s a, (f s a).mem = s.mem) (l : List α) (s : State) :
    (l.foldl f s).mem = s.mem := by
  induction l generalizing s with
  | nil => rfl
  | cons a l ih => rw [List.foldl_cons, ih, hf]

/-! ## Register writes: only the reset bit of `DEV_CTRL` reaches memory -/

theorem devReset_writesOnly (s : State) : WritesOnly [.sb] s (devReset s) := by
  obtain ⟨m, hs, -, hm, -⟩ := devReset_spec s
  rw [hs]
  exact .of_sameOutside hm (Nat.le_refl _) (Nat.le_refl _) rfl

theorem regWrite_mem {s : State} {c : Csr} {v : Word} (h : c = .devCtrl → v.getLsbD 1 = false) :
    (regWrite s c v).mem = s.mem := by
  cases c with
  | devCtrl => simp only [regWrite, writeDevCtrl, h rfl, Bool.false_eq_true, if_false]
  | phyCtrl => simp only [regWrite, writePhyCtrl]; split <;> rfl
  | winData => simp only [regWrite]; split <;> rfl
  | mbTxProd => exact ringDoorbell_mem ..
  | mbRxProd => exact ringDoorbell_mem ..
  | mbRrCons => exact ringDoorbell_mem ..
  | _ => rfl

theorem regWrite_writesOnly (s : State) (c : Csr) (v : Word) : WritesOnly [.sb] s (regWrite s c v) := by
  by_cases hreset : c = .devCtrl → v.getLsbD 1 = false
  · exact .of_mem (regWrite_mem hreset)
  · obtain ⟨rfl, hbit⟩ := Classical.not_imp.1 hreset
    simp only [regWrite, writeDevCtrl, if_pos (Bool.eq_true_of_not_eq_false hbit)]
    exact (devReset_writesOnly _).after rfl rfl

theorem writeAt_writesOnly (s : State) (off : BitVec 16) (v : Word) : WritesOnly [.sb] s (writeAt s off v) := by
  unfold writeAt
  split
  · exact regWrite_writesOnly ..
  · exact .refl ..

/-- `DEV_CTRL` reads with its reset bit 0, so clearing bits of what it reads as never resets the device (10_state.md R59). -/
theorem writeAt_clear_mem (s : State) (off : BitVec 16) (mask : Word) :
    (writeAt s off (readAt s off &&& ~~~mask)).mem = s.mem := by
  unfold writeAt
  split
  · next c hc =>
    refine regWrite_mem ?_
    rintro rfl
    have hbit : (devCtrlView s).getLsbD 1 = false := by
      unfold devCtrlView
      cases s.csr.devCtrlEn <;> decide
    rw [readAt, hc, BitVec.getLsbD_and]
    show ((devCtrlView s).getLsbD 1 && _) = false
    rw [hbit, Bool.false_and]
  · rfl

theorem indWrite_mem (s : State) (addr v : Word) : (indWrite s addr v).mem = s.mem :=
  (regWrite_mem (s := regWrite s .winBase addr) (c := .winData) nofun).trans (regWrite_mem nofun)

/-! ## The link procedures leave memory alone -/

@[simp] theorem linkDownNow_mem (s : State) : (linkDownNow s).mem = s.mem := by rw [linkDownNow_eq]

@[simp] theorem beginNegotiation_mem (s : State) : (beginNegotiation s).mem = s.mem := by rw [beginNegotiation_eq]

@[simp] theorem requestNegotiation_mem (s : State) : (requestNegotiation s).mem = s.mem := beginNegotiation_mem _

@[simp] theorem enterForced_mem (s : State) (sp : BitVec 2) (dp : Bool) : (enterForced s sp dp).mem = s.mem := by
  rw [enterForced_eq]

@[simp] theorem negComplete_mem (s : State) (st : Word) : (negComplete s st).mem = s.mem := rfl

@[simp] theorem resolveDone_mem (s : State) : (resolveDone s).mem = s.mem := by rw [resolveDone_eq s _ _ rfl]

@[simp] theorem linkLoss_mem (s : State) : (linkLoss s).mem = s.mem := by
  unfold linkLoss
  split <;> simp

@[simp] theorem linkService_mem (s : State) : (linkService s).mem = s.mem := by
  simp only [linkService]
  split
  case h_1 => split <;> simp
  case h_2 => split <;> simp
  case h_3 => rfl
  case h_4 => rfl

@[simp] theorem linkStart_mem (s : State) : (linkStart s).mem = s.mem := by
  unfold linkStart
  split <;> simp

@[simp] theorem negFallback_mem (s : State) : (negFallback s).mem = s.mem := by
  unfold negFallback
  split <;> simp

@[simp] theorem negTick_mem (s : State) : (negTick s).1.mem = s.mem := by
  simp only [negTick]
  split
  · split
    · rfl
    · split <;> simp
  · rfl

@[simp] theorem serviceLink_mem (s : State) : (serviceLink s).mem = s.mem := by
  unfold serviceLink
  split <;> simp

/-! ## The transmit ring -/

theorem fillTx_writesOnly (hd : Handle) (csum : Bool) (segs : List Seg) {i : Nat} {s : State} (hi : i < s.par.n) :
    WritesOnly [.tx] s (fillTx hd csum segs i s) := by
  induction segs generalizing i s with
  | nil => exact .refl ..
  | cons g rest ih =>
    obtain ⟨hlo, hhi⟩ := txDesc_inside hi
    have hdesc : WritesOnly [.tx] s (s.writeTxDesc i g csum rest.isEmpty) :=
      .of_sameOutside (writeTxDesc_sameOutside _ _ _ _ _) hlo hhi
    have hslot := hdesc.andThen (setTxSlot_mem _ i (some hd))
    exact hslot.trans (ih (by rw [hslot.par]; exact ringInc_lt ..))

theorem txPost_writesOnly (s : State) (hd : Handle) (csum : Bool) (segs : List Seg) :
    WritesOnly [.tx] s (txPost s hd csum segs).1 := by
  unfold txPost
  split_ifs
  · exact .refl ..
  · exact .refl ..
  · exact .refl ..
  · exact .refl ..
  · exact (fillTx_writesOnly hd csum segs (wrap_lt ..)).andThen (ringDoorbell_mem ..)

theorem submitPacket_writesOnly (s : State) (hd : Handle) (csum : Bool) (segs : List Seg) :
    WritesOnly [.tx] s (submitPacket s (txPost s hd csum segs)).1 := by
  unfold submitPacket
  split
  · exact .of_mem rfl rfl
  · exact txPost_writesOnly ..

@[simp] theorem freeTxSlot_mem (ev : Handle → Event) (s : State) : (freeTxSlot ev s).1.mem = s.mem := by
  simp only [freeTxSlot, setTxSlot_mem]
  split
  · split <;> rfl
  · rfl

@[simp] theorem walkTx_mem (ev : Handle → Event) (c : Nat) (s : State) : (walkTx ev c s).1.mem = s.mem := by
  induction c generalizing s with
  | zero => rfl
  | succ c ih => simp [walkTx, ih]

@[simp] theorem txFailAll_mem (s : State) : (txFailAll s).mem = s.mem := walkTx_mem ..

@[simp] theorem noteReclaim_mem (s : State) : (noteReclaim s).mem = s.mem := by rw [noteReclaim_eq]

@[simp] theorem txReclaim_mem (s : State) (idx : Nat) : (txReclaim s idx).1.mem = s.mem := by
  simp only [txReclaim]
  split
  · rfl
  · split <;> simp

@[simp] theorem finalReclaim_mem (s : State) : (finalReclaim s).mem = s.mem := by
  simp only [finalReclaim]
  split <;> simp

/-! ## The receive rings -/

@[simp] theorem alloc_mem (s : State) : (alloc s).1.mem = s.mem := by
  rcases alloc_cases s with ⟨b, -, ha⟩ | ha <;> rw [ha] <;> rfl

@[simp] theorem rxRepost_mem (s : State) : (rxRepost s).mem = s.mem := ringDoorbell_mem ..

theorem writeRxDesc_writesOnly {s : State} {i : Nat} (hi : i < s.par.n) (b : Addr) : WritesOnly [.rx] s (s.writeRxDesc i b) := by
  obtain ⟨hlo, hhi⟩ := rxDesc_inside hi
  exact .of_sameOutside (writeRxDesc_sameOutside _ _ _) hlo (by simp only [Region.base, Region.size]; omega)

theorem clearRxDescRest_writesOnly {s : State} {i : Nat} (hi : i < s.par.n) : WritesOnly [.rx] s (s.clearRxDescRest i) := by
  obtain ⟨hlo, hhi⟩ := rxDesc_inside hi
  have hfirst : WritesOnly [.rx] s (s.memWrite (rxDescAddr s.par i + 10) 2 0) :=
    .of_sameOutside (writeLE_sameOutside _ _ _ _) (Nat.le_add_right_of_le hlo) (by simp only [Region.base, Region.size]; omega)
  exact hfirst.trans (.of_sameOutside (writeLE_sameOutside _ _ _ _) (Nat.le_add_right_of_le hlo)
    (by simp only [Region.base, Region.size, memWrite_par]; omega))

theorem rxPost_writesOnly {s : State} {i : Nat} (hi : i < s.par.n) (b : Addr) : WritesOnly [.rx] s (rxPost s i b) := by
  have hdesc := (writeRxDesc_writesOnly hi b).trans (clearRxDescRest_writesOnly (by simpa using hi))
  exact (hdesc.andThen (setRxSlot_mem _ i (some b))).andThen (rxRepost_mem _)

theorem postBuffers_writesOnly {bufs : List Addr} {i : Nat} {s : State} (hlen : i + bufs.length ≤ s.par.n) :
    WritesOnly [.rx] s (postBuffers bufs i s) := by
  induction bufs generalizing i s with
  | nil => exact .refl ..
  | cons b rest ih =>
    rw [List.length_cons] at hlen
    exact (rxPost_writesOnly (by omega) b).trans (ih (by rw [rxPost_par]; omega))

theorem rxRefill_writesOnly {s : State} {i : Nat} (hi : i < s.par.n) : WritesOnly [.rx] s (rxRefill s i).1 := by
  have halloc : WritesOnly [.rx] s (alloc s).1 := .of_mem (alloc_mem s)
  unfold rxRefill
  split
  case h_1 s1 nb h =>
    rw [h] at halloc
    have hdesc := halloc.trans (writeRxDesc_writesOnly (by rwa [halloc.par]) nb)
    exact hdesc.andThen (rxRepost_mem _)
  case h_2 s1 h =>
    rw [h] at halloc
    exact halloc.andThen (rxRepost_mem _)

/-- A drain writes the descriptors of the slots its batch names; the prescan has checked that they are slots of the ring. -/
theorem rrDrain_writesOnly {s : State} (h : Inv s) (idx : Nat) : WritesOnly [.rx] s (rrDrain s idx).1 := by
  rcases rrDrain_cases h idx with hr | ⟨c, sl, m, hg, -, hd, hp⟩
  · rw [hr]
    exact .of_mem rfl rfl
  · rw [hd]
    refine ⟨rfl, fun a ha => hp.bytes a fun j hj _ => ?_⟩
    have hrx : outside a s.par.rxBase (16 * s.par.n) := ha .rx (List.mem_singleton_self _)
    have hin := rxDesc_inside (hg.1 j hj)
    unfold outside at hrx ⊢
    omega

theorem reportDrained_mem (s : State) (d : Drained) : (reportDrained s d).mem = s.mem := by cases d <;> rfl

@[simp] theorem reportDrain_mem (done : State × Option (List Drained)) : (reportDrain done).1.mem = done.1.mem := by
  unfold reportDrain
  split
  · exact foldl_mem reportDrained_mem _ _
  · rfl

@[simp] theorem reportRefill_mem (done : State × Option Addr) : (reportRefill done).1.mem = done.1.mem := by
  unfold reportRefill
  split <;> rfl

@[simp] theorem deliverOne_mem (s : State) (d : Drained) : (deliverOne s d).1.mem = s.mem := by
  cases d with
  | filled buf len flags => simp only [deliverOne]; split <;> rfl
  | dropped slot err => rfl
  | noBuf slot => rfl

@[simp] theorem rxDeliver_mem (out : List Drained) (s : State) : (rxDeliver out s).1.mem = s.mem := by
  induction out generalizing s with
  | nil => rfl
  | cons e rest ih => simp [rxDeliver, ih]

/-! ## The lifecycle -/

theorem ringInit_writesOnly (s : State) : WritesOnly [.tx, .rx, .rr] s (ringInit s) := by
  obtain ⟨m, hs, -, hm, -⟩ := ringInit_spec s
  rw [hs]
  exact ⟨rfl, fun a ha => hm a (ha .tx (by simp)) (ha .rx (by simp)) (ha .rr (by simp))⟩

theorem rearm_writesOnly (s : State) : WritesOnly [.tx, .rx, .rr] s (rearm s) :=
  (ringInit_writesOnly s).andThen (regWrite_mem fun _ => by decide) (regWrite_par ..)

@[simp] theorem rearm_par (s : State) : (rearm s).par = s.par := (rearm_writesOnly s).par

/-- The end that `START` and the adapter reset share. -/
theorem rearmed_writesOnly {s : State} {bufs : List Addr} (hlen : bufs.length = s.par.n) :
    WritesOnly [.tx, .rx, .rr] s (postBuffers bufs 0 (rearm s)) := by
  have hrearm := rearm_writesOnly s
  exact hrearm.trans ((postBuffers_writesOnly (by rw [rearm_par]; omega)).mono (by simp))

theorem adapterReset_writesOnly (s : State) : WritesOnly Region.all s (adapterReset s) := by
  have hreset : WritesOnly [.sb] s (txFailAll (regWrite (linkDownNow s) .devCtrl 0x00000002)) :=
    ((regWrite_writesOnly ..).after (linkDownNow_mem s)).andThen (txFailAll_mem _)
  rw [adapterReset_eq]
  generalize txFailAll (regWrite (linkDownNow s) .devCtrl 0x00000002) = u at hreset
  rw [heldBuffers_rearm]
  have hrearmed := rearmed_writesOnly (s := u) (bufs := heldBuffers u) (by simp [heldBuffers])
  exact ((hreset.mono (by simp [Region.all])).trans (hrearmed.mono (by simp [Region.all]))).andThen (linkStart_mem _)

theorem bringUp_writesOnly {s : State} {bufs : List Addr} (hlen : bufs.length = s.par.n) :
    WritesOnly Region.all s (bringUp s bufs) := by
  have hreset := regWrite_writesOnly s .devCtrl 2#32
  have hrearmed := rearmed_writesOnly (s := regWrite s .devCtrl 2#32) (bufs := bufs) (by rw [regWrite_par, hlen])
  have hposted : WritesOnly Region.all s (postBuffers bufs 0 (rearm (regWrite s .devCtrl 2#32))) :=
    (hreset.mono (by simp [Region.all])).trans (hrearmed.mono (by simp [Region.all]))
  simp only [bringUp]
  exact (hposted.setCtl _).andThen (linkStart_mem _)

theorem startWith_writesOnly {s : State} (h : Inv s) : WritesOnly Region.all s (startWith (allocMany s.par.n s)).1 := by
  obtain ⟨e, he, -, -, -, -, hlen⟩ := allocMany_spec s.par.n h
  have hgot : (allocMany s.par.n s).1.mem = s.mem := by rw [he]
  unfold startWith
  split
  · next hall => exact (bringUp_writesOnly (by rw [hlen hall, allocMany_par])).after hgot
  · exact .of_mem (by rw [freeAll_eq]; exact hgot)

theorem releaseSlot_mem (s : State) (i : Nat) : (releaseSlot s i).mem = s.mem := by
  unfold releaseSlot
  split <;> rfl

@[simp] theorem rxReleaseAll_mem (s : State) : (rxReleaseAll s).mem = s.mem := foldl_mem releaseSlot_mem _ s

/-- `STOP` writes `DEV_CTRL` with its reset bit 0: the status block keeps its bytes (45_lifecycle.md R225). -/
theorem shutDown_writesOnly (s : State) : WritesOnly [.tx, .rx, .rr] s (shutDown s) := by
  have hoff : (regWrite (linkDownNow (bumpEpoch s)) .devCtrl 0x00000000).mem = s.mem :=
    (regWrite_mem fun _ => by decide).trans (linkDownNow_mem (bumpEpoch s))
  have hfreed : WritesOnly [.tx, .rx, .rr] s
      (rxReleaseAll (txFailAll (finalReclaim (regWrite (linkDownNow (bumpEpoch s)) .devCtrl 0x00000000)))) :=
    .of_mem (by rw [rxReleaseAll_mem, txFailAll_mem, finalReclaim_mem, hoff]) (by simp [bumpEpoch])
  simp only [shutDown]
  exact (hfreed.trans (ringInit_writesOnly _)).setCtl _

/-! ## The pass and the tick -/

theorem dispatchPass_writesOnly {s : State} (h : Inv s) (t r : Nat) (g : Word) (lc : Bool) :
    WritesOnly [.rx] s (dispatchPass s t r g lc).1 := by
  have hdrain := (rrDrain_writesOnly (txReclaim_keeps h t).inv r).after (txReclaim_mem s t)
  simp only [dispatchPass, storeSnapshot]
  split
  case h_1 s1 out hd =>
    rw [hd] at hdrain
    exact hdrain.andThen (rxDeliver_mem out s1)
  case h_2 s1 hd =>
    rw [hd] at hdrain
    exact hdrain.andThen rfl rfl

theorem servicePass_writesOnly {s : State} (h : Inv s) (lc : Bool) : WritesOnly [.rx] s (servicePass s lc).1 := by
  have hp := h.parts
  have htake : Inv { s with poll := { s.poll with irqRing := false } } := InvParts.inv { hp with poll := { hp.poll with } }
  simp only [servicePass]
  split
  · exact .of_mem rfl rfl
  · exact (dispatchPass_writesOnly htake ..).after rfl rfl

theorem onInterrupt_writesOnly {s : State} (h : Inv s) : WritesOnly [.rx] s (onInterrupt s).1 := by
  simp only [onInterrupt]
  split
  · next hon =>
    obtain ⟨hs, -⟩ := serviceLink_keeps h hon
    split
    · exact (servicePass_writesOnly hs.inv _).after (serviceLink_mem s)
    · exact .of_mem (serviceLink_mem s)
  · exact .refl ..

theorem tick_writesOnly (s : State) : WritesOnly Region.all s (tick s).1 := by
  simp only [tick]
  split
  · split
    · dsimp only
      exact (adapterReset_writesOnly ((wdCheck s).emit .hwTimeout)).after rfl rfl
    · exact .of_mem (negTick_mem _)
  · exact .refl ..

/-! ## The operations -/

/-- The regions an operation may write (20_memory.md R89). -/
def mayWrite : Instr → List Region
  | .rdreg _ => []
  | .wrreg _ _ => [.sb]
  | .rdind _ => []
  | .wrind _ _ => []
  | .doorbell _ _ => []
  | .setbit _ _ => [.sb]
  | .clrbit _ _ => []
  | .txpost _ _ _ => [.tx]
  | .txreclaim _ => []
  | .rxpost _ _ => [.rx]
  | .rrdrain _ => [.rx]
  | .rxrefill _ => [.rx]
  | .onint => [.rx]
  | .wdtick => Region.all
  | .submit _ _ _ => [.tx]
  | .lnkauto _ _ => []
  | .lnkforce _ _ => []
  | .resdone _ => []
  | .start => Region.all
  | .stop => [.tx, .rx, .rr]
  | .adpreset => Region.all
  | .devtx _ => []
  | .devrx _ _ _ => [.rr]
  | .devsb => [.sb]
  | .physet _ => []

/-- Where the outcome of an operation from `s` is a next state, it has written the regions `rs` only. -/
def WritesAll (rs : List Region) (s : State) (o : Host.Outcome State Fault Refusal) : Prop :=
  ∀ t, o = .next t → WritesOnly rs s t

theorem writesAll_answer {rs : List Region} {s b : State} {done : State × Result} (h : WritesOnly rs s done.1) :
    WritesAll rs s (answer b done) := by
  intro t ht
  rw [answer_eq_next ht]
  exact h.andThen rfl

theorem writesAll_agentStep {rs : List Region} {s u : State} {en : Bool} (h : en = true → WritesOnly rs s u) :
    WritesAll rs s (agentStep en u) := by
  intro t ht
  obtain ⟨hen, rfl⟩ := agentStep_eq_next ht
  exact h hen

theorem whenEnabled_writesOnly {rs : List Region} {s : State} {done : State × Result} (h : WritesOnly rs s done.1) :
    WritesOnly rs s (whenEnabled s done).1 := by
  unfold whenEnabled
  split
  · exact h
  · exact .refl ..

theorem sbWrite_writesOnly (s : State) (v : Nat) : WritesOnly [.sb] s (s.memWrite s.par.sbBase 8 v) :=
  .of_sameOutside (writeLE_sameOutside _ _ _ _) (Nat.le_refl _) (Nat.le_refl _)

theorem writeRrDesc_writesOnly {s : State} {j : Nat} (hj : j < s.par.n) (slot len flags err : Nat) :
    WritesOnly [.rr] s (s.writeRrDesc j slot len flags err) := by
  obtain ⟨hlo, hhi⟩ := rrDesc_inside hj
  exact .of_sameOutside (writeRrDesc_sameOutside _ _ _ _ _ _) hlo hhi

/-- Every operation writes the regions of its entry only: one case for each arm of `exec`. -/
theorem exec_writesAll {s : State} (h : Inv s) (i : Instr) : WritesAll (mayWrite i) s (exec i s) := by
  cases i with
  | rdreg off => exact writesAll_answer (by split <;> exact .refl ..)
  | wrreg off val => exact writesAll_answer (by split; exacts [writeAt_writesOnly .., .refl ..])
  | rdind addr => exact writesAll_answer (by split; exacts [.of_mem (regWrite_mem (c := .winBase) nofun), .refl ..])
  | wrind addr val => exact writesAll_answer (by split; exacts [.of_mem (indWrite_mem ..), .refl ..])
  | doorbell off val =>
    refine writesAll_answer ?_
    split
    · split
      · exact .of_mem (ringDoorbell_mem ..)
      · exact .refl ..
    · exact .refl ..
  | setbit off mask => exact writesAll_answer (by split; exacts [writeAt_writesOnly .., .refl ..])
  | clrbit off mask => exact writesAll_answer (by split; exacts [.of_mem (writeAt_clear_mem ..), .refl ..])
  | txpost csum hd segs => exact writesAll_answer (whenEnabled_writesOnly (txPost_writesOnly ..))
  | txreclaim idx => exact writesAll_answer (whenEnabled_writesOnly (.of_mem (txReclaim_mem ..)))
  | rxpost slot buf =>
    refine writesAll_answer (whenEnabled_writesOnly ?_)
    split_ifs with hslot
    · exact .refl ..
    · exact .refl ..
    · exact .refl ..
    · exact rxPost_writesOnly (Nat.lt_of_not_le hslot) buf
  | rrdrain idx => exact writesAll_answer (whenEnabled_writesOnly ((rrDrain_writesOnly h _).andThen (reportDrain_mem _)))
  | rxrefill slot =>
    refine writesAll_answer (whenEnabled_writesOnly ?_)
    split
    · exact .refl ..
    · next hslot => exact (rxRefill_writesOnly (Nat.lt_of_not_le hslot)).andThen (reportRefill_mem _)
  | onint => exact writesAll_answer (onInterrupt_writesOnly h)
  | wdtick => exact writesAll_answer (tick_writesOnly s)
  | submit csum hd segs =>
    refine writesAll_answer ?_
    split_ifs
    · exact submitPacket_writesOnly ..
    · exact .refl ..
    · exact .refl ..
  | lnkauto adv caps => exact writesAll_answer (.of_mem (by split_ifs <;> simp) (by split_ifs <;> simp))
  | lnkforce duplex speed => exact writesAll_answer (.of_mem (by split_ifs <;> simp) (by split_ifs <;> simp))
  | resdone e =>
    have htake : (takeCallback s e).mem = s.mem := rfl
    exact writesAll_answer (.of_mem (by split_ifs <;> simp [htake]) (by split_ifs <;> simp))
  | start => exact writesAll_answer (by split; exacts [.refl .., startWith_writesOnly h])
  | stop => exact writesAll_answer (by split; exacts [shutDown_writesOnly s, .refl ..])
  | adpreset =>
    refine writesAll_answer ?_
    split
    · dsimp only
      exact adapterReset_writesOnly s
    · exact .refl ..
  | devtx k => exact writesAll_agentStep fun _ => .of_mem rfl rfl
  | devrx flags err len =>
    have hdesc := writeRrDesc_writesOnly h.dev_rr_prod s.dev.rxCons len.toNat flags.toNat err.toNat
    exact writesAll_agentStep fun _ => hdesc.andThen rfl rfl
  | devsb => exact writesAll_agentStep fun _ => (sbWrite_writesOnly _ _).after rfl rfl
  | physet status => exact writesAll_agentStep fun _ => .of_mem rfl rfl

theorem runUndecodable_writesAll (rs : List Region) (r : Request) (s : State) : WritesAll rs s (runUndecodable r s) := by
  unfold runUndecodable
  split
  · rintro t ⟨⟩
    exact .of_mem rfl rfl
  · rintro t ⟨⟩
  · rintro t ⟨⟩

theorem runStimulus_writesAll {s : State} (h : Inv s) (x : Stimulus) : WritesAll Region.all s (runStimulus x s) := by
  cases x with
  | command r =>
    simp only [runStimulus, runRequest]
    split
    · exact fun t ht => (exec_writesAll h _ t ht).mono fun q _ => Region.mem_all q
    · exact runUndecodable_writesAll _ _ _
  | rogueSb v =>
    simp only [runStimulus, rogueWriteSb]
    exact writesAll_agentStep fun _ => (sbWrite_writesOnly ..).mono fun q _ => Region.mem_all q
  | rogueRr j v =>
    simp only [runStimulus, rogueWriteRr]
    refine writesAll_agentStep fun hj => ?_
    obtain ⟨hlo, hhi⟩ := rrDesc_inside (of_decide_eq_true hj)
    have hrr : WritesOnly [.rr] s (s.memWrite (rrDescAddr s.par j) 8 v.toNat) :=
      .of_sameOutside (writeLE_sameOutside _ _ _ _) hlo hhi
    exact hrr.mono fun q _ => Region.mem_all q

theorem step_writesOnly {s t : State} (h : Inv s) (ht : step s = .next t) : WritesOnly Region.all s t := by
  unfold step at ht
  split at ht
  · cases ht
    exact .refl ..
  · have hpend := keeps_withPending h ‹List Stimulus›
    exact (runStimulus_writesAll hpend.inv _ t ht).after rfl

/-- Settles O59: no stimulus leads to a write that is not in one of the four regions. -/
theorem memoryConfined : Obligations.MemoryConfined := fun _ _ h ht a ha =>
  (step_writesOnly h ht).bytes a fun r _ => Region.avoids_of_regions ha r

/-! ## Who writes which array -/

/-- A byte of a region that an operation does not write keeps its value. -/
theorem exec_byte_kept {s t : State} {i : Instr} (h : Inv s) (ht : exec i s = .next t) {r : Region} (hr : r ∉ mayWrite i)
    {a : Nat} (ha : ¬ r.avoids s.par a) : Memory.byteAt t.mem a = Memory.byteAt s.mem a :=
  (exec_writesAll h i t ht).bytes a fun _ hq => Region.avoids_of_ne h.legal ha fun heq => hr (heq ▸ hq)

theorem agent_mayWrite {i : Instr} (hi : i.port ≠ .host) : mayWrite i ⊆ [.rr, .sb] := by
  cases i with
  | devtx k => exact List.nil_subset _
  | devrx flags err len => simp [mayWrite]
  | devsb => simp [mayWrite]
  | physet status => exact List.nil_subset _
  | _ => exact absurd rfl hi

theorem host_not_writes_rr {i : Instr} (hi : i.port = .host) (hm : i.mnemonic ∉ ["START", "STOP", "ADPRESET", "WDTICK"]) :
    Region.rr ∉ mayWrite i := by
  cases i with
  | start | stop | adpreset | wdtick => simp [Instr.mnemonic] at hm
  | devtx | devrx | devsb | physet => cases hi
  | _ => simp [mayWrite]

theorem host_not_writes_sb {i : Instr} (hi : i.port = .host)
    (hm : i.mnemonic ∉ ["START", "ADPRESET", "WDTICK", "WRREG", "SETBIT"]) : Region.sb ∉ mayWrite i := by
  cases i with
  | start | adpreset | wdtick | wrreg | setbit => simp [Instr.mnemonic] at hm
  | devtx | devrx | devsb | physet => cases hi
  | _ => simp [mayWrite]

/-- Settles O60: each part is read off the table of what an operation may write. -/
theorem memoryOwnership : Obligations.MemoryOwnership := by
  intro s t i h ht
  refine ⟨fun hi a hrr hsb => ?_, fun hi hm a ha => ?_, fun hi hm a ha => ?_⟩
  · refine ((exec_writesAll h i t ht).mono (agent_mayWrite hi)).bytes a fun r hr => ?_
    rcases List.mem_pair.1 hr with rfl | rfl
    · exact hrr
    · exact hsb
  · exact exec_byte_kept h ht (host_not_writes_rr hi hm) ha
  · exact exec_byte_kept h ht (host_not_writes_sb hi hm) ha

/-! ## The step -/

/-- A request that decodes is run on the machine from whose list it has been taken. -/
theorem step_command {s : State} {r : Request} {rest : List Stimulus} {i : Instr} (hp : s.port.pending = .command r :: rest)
    (hd : decode r = some i) : step s = exec i (s.withPending rest) := by
  simp only [step, hp, runStimulus, runRequest, hd]

/-- Settles O6: taking the presented word off the list gives back the machine it was presented to. -/
theorem stepRunsDecoded : Obligations.StepRunsDecoded := by
  refine ⟨fun s r rest i hp hd => step_command hp hd, fun s nbits w i hd => ?_⟩
  have hpending : (s.withFetchWord nbits w).port.pending = .command (requestOfWord nbits w) :: s.port.pending := rfl
  rw [step_command hpending hd]
  rfl

end Sys2Proof.Machine


/-! O1, O2, O3, O5: the decoder against the opcode map (30_encoding.md R111 to R116). Two facts carry them: the decoder reads only
command words that are the encoding of what it reads (`decodeWords_reads`), and it reads every word that hits a row
(`exists_decodeWords_of_hits`). That an encoding hits the row of its own mnemonic is `EncodeMatchesRow`. -/

namespace Sys2Proof.Laws

/-! ## The fields of a command word -/

theorem cmdA_mkCmd (op a : BitVec 8) (b : BitVec 16) : cmdA (mkCmd op a b) = a :=
  (BitVec.extractLsb'_append_eq_of_le (xhi := op ++ a) (xlo := b) (Nat.le_refl 16)).trans BitVec.extractLsb'_append_eq_right

theorem cmdB_mkCmd (op a : BitVec 8) (b : BitVec 16) : cmdB (mkCmd op a b) = b :=
  BitVec.extractLsb'_append_eq_right (a := op ++ a)

/-- A command word is made of its three fields. -/
theorem mkCmd_fields (cmd : BitVec 32) : mkCmd (cmdOp cmd) (cmdA cmd) (cmdB cmd) = cmd := by
  have hhi : cmdOp cmd ++ cmdA cmd = cmd.extractLsb' 16 16 := BitVec.extractLsb'_append_extractLsb'_eq_extractLsb' rfl
  rw [mkCmd, hhi]
  exact BitVec.extractLsb'_append_extractLsb' (w := 16) (len := 16)

/-- A word that hits a row has the row's value in each field, under the row's mask. -/
theorem fields_of_hits {row : OpRow} {cmd : BitVec 32} (h : row.hits cmd = true) :
    cmdOp cmd &&& cmdOp row.mask = cmdOp row.value ∧ cmdA cmd &&& cmdA row.mask = cmdA row.value ∧
      cmdB cmd &&& cmdB row.mask = cmdB row.value := by
  have hv : cmd &&& row.mask = row.value := eq_of_beq h
  rw [← hv]
  exact ⟨BitVec.extractLsb'_and.symm, BitVec.extractLsb'_and.symm, BitVec.extractLsb'_and.symm⟩

/-- Every row of the map fixes the whole opcode field, and fixes bits of `a` and `b` at zero only (R112). -/
theorem opcodeMap_masks : ∀ row ∈ opcodeMap,
    cmdOp row.mask = BitVec.allOnes 8 ∧ cmdOp row.value = row.opcode ∧ cmdA row.value = 0 ∧ cmdB row.value = 0 := by
  decide

theorem cmdOp_of_hits {row : OpRow} (hrow : row ∈ opcodeMap) {cmd : BitVec 32} (h : row.hits cmd = true) :
    cmdOp cmd = row.opcode := by
  obtain ⟨hmask, hvalue, -, -⟩ := opcodeMap_masks row hrow
  obtain ⟨hop, -, -⟩ := fields_of_hits h
  rwa [hmask, BitVec.and_allOnes, hvalue] at hop

theorem nodup_opcodes : (opcodeMap.map OpRow.opcode).Nodup := by decide

theorem opcodeMap_pairwise_disjoint : opcodeMap.Pairwise (fun p q => ∀ w, ¬ (p.hits w = true ∧ q.hits w = true)) :=
  (List.pairwise_map.1 nodup_opcodes).imp_of_mem fun hp hq hne _ ⟨h1, h2⟩ =>
    hne ((cmdOp_of_hits hp h1).symm.trans (cmdOp_of_hits hq h2))

/-- A word hits one row at most. -/
theorem row_unique {p q : OpRow} (hp : p ∈ opcodeMap) (hq : q ∈ opcodeMap) {cmd : BitVec 32} (h1 : p.hits cmd = true)
    (h2 : q.hits cmd = true) : p = q :=
  List.inj_on_of_nodup_map nodup_opcodes hp hq ((cmdOp_of_hits hp h1).symm.trans (cmdOp_of_hits hq h2))

/-! ## Operands of a format -/

@[simp] theorem mkD_lo (hi lo : Word) : (mkD hi lo).extractLsb' 0 32 = lo := BitVec.extractLsb'_append_eq_right

@[simp] theorem mkD_hi (hi lo : Word) : (mkD hi lo).extractLsb' 32 32 = hi := BitVec.extractLsb'_append_eq_left

@[simp] theorem segOfRecord_recordOfSeg (g : Seg) : segOfRecord (recordOfSeg g) = g :=
  congrArg₂ Seg.mk (BitVec.extractLsb'_append_eq_left (a := g.addr)) (BitVec.extractLsb'_append_eq_right (a := g.addr))

@[simp] theorem length_takeSegs (n : Nat) (seg : List (BitVec 80)) : (takeSegs n seg).length = n := by simp [takeSegs]

/-- The records of a list of segments read back as the list. -/
theorem takeSegs_records (segs : List Seg) : takeSegs segs.length (segs.map recordOfSeg) = segs := by
  refine List.ext_getElem (length_takeSegs ..) fun k _ hk => ?_
  simp [takeSegs, hk]

theorem segCount_toNat {segs : List Seg} (h : segCountOk segs = true) : (BitVec.ofNat 8 segs.length).toNat = segs.length := by
  have hle : segs.length ≤ 255 := of_decide_eq_true h
  exact Nat.mod_eq_of_lt (by omega)

/-! ## Bits a format requires to be zero -/

/-- A field that a mask covers is zero where the masked word is. -/
theorem extractLsb'_eq_zero_of_and {w s n : Nat} {x m : BitVec w} (hm : m.extractLsb' s n = BitVec.allOnes n)
    (h : x &&& m = 0) : x.extractLsb' s n = 0 := by
  have hx := congrArg (BitVec.extractLsb' s n) h
  rw [BitVec.extractLsb'_and, hm, BitVec.and_allOnes] at hx
  exact hx.trans (by ext; simp)

/-- A bit that a mask covers is zero where the masked word is. -/
theorem getLsbD_eq_false_of_and {w k : Nat} {x m : BitVec w} (hm : m.getLsbD k = true) (h : x &&& m = 0) :
    x.getLsbD k = false := by
  have hx := congrArg (BitVec.getLsbD · k) h
  simpa [hm] using hx

theorem eq_zero_of_and {w : Nat} {x m : BitVec w} (hm : m = BitVec.allOnes w) (h : x &&& m = 0) : x = 0 := by
  rwa [hm, BitVec.and_allOnes] at h

/-- A word whose upper field is zero is zero bits before its lower field. -/
theorem zero_append_of_extractLsb' {w n : Nat} {x : BitVec (w + n)} (h : x.extractLsb' n w = 0) :
    (0 : BitVec w) ++ x.extractLsb' 0 n = x := by
  rw [← h, BitVec.extractLsb'_append_extractLsb']

/-- The same with the lower field in two parts. -/
theorem zero_append_append_of_extractLsb' {w m n : Nat} {x : BitVec (w + m + n)} (h : x.extractLsb' (n + m) w = 0) :
    (0 : BitVec w) ++ x.extractLsb' n m ++ x.extractLsb' 0 n = x := by
  rw [← h, BitVec.extractLsb'_append_extractLsb'_eq_extractLsb' rfl, BitVec.extractLsb'_append_extractLsb']

theorem ofBool_getLsbD {w : Nat} (x : BitVec w) (k : Nat) : BitVec.ofBool (x.getLsbD k) = x.extractLsb' k 1 := by
  ext i hi
  obtain rfl : i = 0 := by omega
  simp

/-! ## Decoding an encoding -/

/-- A request whose fields read as an instruction, on that instruction's port, decodes to it. -/
theorem decode_of_fields {r : Request} {i : Instr} (op a : BitVec 8) (b : BitVec 16) (hc : r.cmd = mkCmd op a b)
    (hp : i.port = r.port) (hf : decodeFields op a b r.d r.seg = some i) : decode r = some i := by
  rw [decode, decodeWords, hc, cmdOp_mkCmd, cmdA_mkCmd, cmdB_mkCmd, hf]
  simp [hp]

/-- The field `b` of a packet command: fifteen zero bits and the checksum flag. -/
theorem packetB_fields (csum : Bool) :
    ((0 : BitVec 15) ++ BitVec.ofBool csum : BitVec 16).extractLsb' 1 15 = 0 ∧
      ((0 : BitVec 15) ++ BitVec.ofBool csum : BitVec 16).getLsbD 0 = csum := by
  cases csum <;> decide

/-- The field `b` of `LNKAUTO`. -/
theorem lnkautoB_fields (adv : BitVec 2) (caps : BitVec 6) :
    ((0 : BitVec 8) ++ adv ++ caps : BitVec 16).extractLsb' 8 8 = 0 ∧
      ((0 : BitVec 8) ++ adv ++ caps : BitVec 16).extractLsb' 6 2 = adv ∧
      ((0 : BitVec 8) ++ adv ++ caps : BitVec 16).extractLsb' 0 6 = caps := by
  revert adv caps
  decide

/-- The field `b` of `LNKFORCE`. -/
theorem lnkforceB_fields (duplex : Bool) (speed : BitVec 2) :
    ((0 : BitVec 13) ++ BitVec.ofBool duplex ++ speed : BitVec 16).extractLsb' 3 13 = 0 ∧
      ((0 : BitVec 13) ++ BitVec.ofBool duplex ++ speed : BitVec 16).getLsbD 2 = duplex ∧
      ((0 : BitVec 13) ++ BitVec.ofBool duplex ++ speed : BitVec 16).extractLsb' 0 2 = speed := by
  revert duplex speed
  decide

/-- The field `a` of `DEVRX`. -/
theorem devrxA_fields (flags err : BitVec 2) :
    ((0 : BitVec 4) ++ flags ++ err : BitVec 8).extractLsb' 4 4 = 0 ∧
      ((0 : BitVec 4) ++ flags ++ err : BitVec 8).extractLsb' 2 2 = flags ∧
      ((0 : BitVec 4) ++ flags ++ err : BitVec 8).extractLsb' 0 2 = err := by
  revert flags err
  decide

/-- The field `b` of `PHYSET`. -/
theorem physetB_fields (status : BitVec 8) :
    ((0 : BitVec 8) ++ status : BitVec 16).extractLsb' 8 8 = 0 ∧
      ((0 : BitVec 8) ++ status : BitVec 16).getLsbD 5 = status.getLsbD 5 ∧
      ((0 : BitVec 8) ++ status : BitVec 16).extractLsb' 0 8 = status :=
  ⟨BitVec.extractLsb'_append_eq_left, (BitVec.getLsbD_append (x := (0 : BitVec 8)) (y := status)).trans (if_pos (by decide)),
    BitVec.extractLsb'_append_eq_right⟩

/-- Every well-formed instruction is read back from its encoding: one case for each row of the map. -/
theorem decode_encode (i : Instr) (hw : i.WellFormed) : decode (encode i) = some i := by
  cases i with
  | rdreg off => exact decode_of_fields 0x01 0 off rfl rfl rfl
  | wrreg off val => exact decode_of_fields 0x02 0 off rfl rfl (by simp [decodeFields, encode, loRequest])
  | rdind addr => exact decode_of_fields 0x03 0 0 rfl rfl (by simp [decodeFields, encode, loRequest])
  | wrind addr val => exact decode_of_fields 0x04 0 0 rfl rfl (by simp [decodeFields, encode])
  | doorbell off val => exact decode_of_fields 0x05 0 off rfl rfl (by simp [decodeFields, encode, loRequest])
  | setbit off mask => exact decode_of_fields 0x06 0 off rfl rfl (by simp [decodeFields, encode, loRequest])
  | clrbit off mask => exact decode_of_fields 0x07 0 off rfl rfl (by simp [decodeFields, encode, loRequest])
  | txpost csum h segs | submit csum h segs =>
    obtain ⟨hzero, hcsum⟩ := packetB_fields csum
    refine decode_of_fields _ (BitVec.ofNat 8 segs.length) _ rfl rfl ((if_pos hzero).trans ?_)
    rw [hcsum, segCount_toNat hw]
    simp [encode, packetRequest, takeSegs_records]
  | txreclaim idx => exact decode_of_fields 0x11 0 idx rfl rfl rfl
  | rxpost slot buf => exact decode_of_fields 0x12 0 slot rfl rfl rfl
  | rrdrain idx => exact decode_of_fields 0x13 0 idx rfl rfl rfl
  | rxrefill slot => exact decode_of_fields 0x14 0 slot rfl rfl rfl
  | onint => exact decode_of_fields 0x20 0 0 rfl rfl rfl
  | wdtick => exact decode_of_fields 0x21 0 0 rfl rfl rfl
  | lnkauto adv caps =>
    obtain ⟨hzero, hadv, hcaps⟩ := lnkautoB_fields adv caps
    exact decode_of_fields 0x40 0 _ rfl rfl ((if_pos ⟨rfl, hzero⟩).trans (by rw [hadv, hcaps]))
  | lnkforce duplex speed =>
    obtain ⟨hzero, hduplex, hspeed⟩ := lnkforceB_fields duplex speed
    exact decode_of_fields 0x41 0 _ rfl rfl ((if_pos ⟨rfl, hzero⟩).trans (by rw [hduplex, hspeed]))
  | resdone e => exact decode_of_fields 0x42 0 0 rfl rfl (by simp [decodeFields, encode, loRequest])
  | start => exact decode_of_fields 0x50 0 0 rfl rfl rfl
  | stop => exact decode_of_fields 0x51 0 0 rfl rfl rfl
  | adpreset => exact decode_of_fields 0x52 0 0 rfl rfl rfl
  | devtx k => exact decode_of_fields 0x60 k 0 rfl rfl rfl
  | devrx flags err len =>
    obtain ⟨hzero, hflags, herr⟩ := devrxA_fields flags err
    exact decode_of_fields 0x61 _ len rfl rfl ((if_pos hzero).trans (by rw [hflags, herr]))
  | devsb => exact decode_of_fields 0x62 0 0 rfl rfl rfl
  | physet status =>
    obtain ⟨hzero, hbit, hstatus⟩ := physetB_fields status
    have hclear : status.getLsbD 5 = false := (Bool.not_eq_true' _).mp hw
    exact decode_of_fields 0x63 0 _ rfl rfl ((if_pos ⟨rfl, hzero, hbit.trans hclear⟩).trans (by rw [hstatus]))

/-- Settles O1, by the cases of `decode_encode`. -/
theorem decodeEncode : Obligations.DecodeEncode := decode_encode

/-! ## Whatever decodes is an encoding -/

/-- The fields of a command word are those of the encoding of a well-formed instruction. -/
def Reads (op a : BitVec 8) (b : BitVec 16) (i : Instr) : Prop := i.WellFormed ∧ (encode i).cmd = mkCmd op a b

/-- The fields of an encoding, one by one. -/
theorem Reads.of_fields {op a a' c : BitVec 8} {b b' : BitVec 16} {i : Instr} (hw : i.WellFormed)
    (he : (encode i).cmd = mkCmd c a' b') (hop : op.toNat = c.toNat) (ha : a' = a) (hb : b' = b) : Reads op a b i := by
  rw [Reads, he, BitVec.eq_of_toNat_eq hop, ha, hb]
  exact ⟨hw, rfl⟩

/-- The segment count of a packet that was read fits its field. -/
theorem segCountOk_takeSegs (a : BitVec 8) (seg : List (BitVec 80)) : segCountOk (takeSegs a.toNat seg) = true := by
  have hlt := a.isLt
  simp only [segCountOk, length_takeSegs, decide_eq_true_eq]
  omega

/-- The fields of the packet operations, which differ in the opcode alone. -/
theorem packet_cmd {op a c : BitVec 8} {b : BitVec 16} (hop : op.toNat = c.toNat) (hb : b.extractLsb' 1 15 = 0) (h : Handle)
    (seg : List (BitVec 80)) : (packetRequest c (b.getLsbD 0) h (takeSegs a.toNat seg)).cmd = mkCmd op a b := by
  have hflag : (0 : BitVec 15) ++ BitVec.ofBool (b.getLsbD 0) = b := by
    rw [ofBool_getLsbD]
    exact zero_append_of_extractLsb' (w := 15) (n := 1) hb
  have hcount : BitVec.ofNat 8 (takeSegs a.toNat seg).length = a := by simp
  rw [packetRequest, hflag, hcount, BitVec.eq_of_toNat_eq hop]

/-- Fields that are read as an instruction are those of its encoding: one case for each row of the map. -/
theorem decodeFields_reads {op a : BitVec 8} {b : BitVec 16} {d : BitVec 64} {seg : List (BitVec 80)} {i : Instr}
    (h : decodeFields op a b d seg = some i) : Reads op a b i := by
  unfold decodeFields at h
  split at h
  case h_26 => cases h
  all_goals obtain ⟨hz, ⟨⟩⟩ := Option.ite_none_right_eq_some.1 h
  -- `a` is zero and `b` is an operand
  case h_1 hop | h_2 hop | h_5 hop | h_6 hop | h_7 hop | h_9 hop | h_10 hop | h_11 hop | h_12 hop =>
    exact .of_fields rfl rfl hop hz.symm rfl
  -- `a` and `b` are zero
  case h_3 hop | h_4 hop | h_13 hop | h_14 hop | h_18 hop | h_19 hop | h_20 hop | h_21 hop | h_24 hop =>
    obtain ⟨ha, hb⟩ := hz
    exact .of_fields rfl rfl hop ha.symm hb.symm
  -- `TXPOST` and `SUBMIT`
  case h_8 hop | h_15 hop => exact ⟨segCountOk_takeSegs a seg, packet_cmd hop hz _ seg⟩
  -- `LNKAUTO`
  case h_16 hop =>
    obtain ⟨ha, hb⟩ := hz
    exact .of_fields rfl rfl hop ha.symm (zero_append_append_of_extractLsb' (w := 8) (m := 2) (n := 6) hb)
  -- `LNKFORCE`
  case h_17 hop =>
    obtain ⟨ha, hb⟩ := hz
    refine .of_fields rfl rfl hop ha.symm ?_
    rw [ofBool_getLsbD]
    exact zero_append_append_of_extractLsb' (w := 13) (m := 1) (n := 2) hb
  -- `DEVTX`
  case h_22 hop => exact .of_fields rfl rfl hop rfl hz.symm
  -- `DEVRX`
  case h_23 hop => exact .of_fields rfl rfl hop (zero_append_append_of_extractLsb' (w := 4) (m := 2) (n := 2) hz) rfl
  -- `PHYSET`
  case h_25 hop =>
    obtain ⟨ha, hb, hbit⟩ := hz
    have hclear : (b.extractLsb' 0 8).getLsbD 5 = false := (BitVec.getLsbD_extractLsb' ..).trans hbit
    exact .of_fields ((Bool.not_eq_true' _).mpr hclear) rfl hop ha.symm (zero_append_of_extractLsb' (w := 8) (n := 8) hb)

/-- Whatever a command word is read as has that word as its encoding. -/
theorem decodeWords_reads {cmd : BitVec 32} {d : BitVec 64} {seg : List (BitVec 80)} {i : Instr}
    (h : decodeWords cmd d seg = some i) : i.WellFormed ∧ (encode i).cmd = cmd := by
  obtain ⟨hw, hcmd⟩ := decodeFields_reads h
  exact ⟨hw, hcmd.trans (mkCmd_fields cmd)⟩

/-- A request decodes to what its words say, on the port of the agent it belongs to (R116). -/
theorem decode_eq_some_iff {r : Request} {i : Instr} :
    decode r = some i ↔ decodeWords r.cmd r.d r.seg = some i ∧ i.port = r.port := by
  simp [decode, Option.filter_eq_some_iff]

/-- Settles O2: the words alone fix the encoding, and the port is what `decode` checks beside them. -/
theorem decodeDeterminesWord : Obligations.DecodeDeterminesWord := fun _ _ h => by
  obtain ⟨hwords, hport⟩ := decode_eq_some_iff.1 h
  obtain ⟨hw, hcmd⟩ := decodeWords_reads hwords
  exact ⟨hw, hport, hcmd⟩

/-! ## The opcode map -/

/-- The encoding of a well-formed instruction hits the row of its mnemonic: the family `EncodeMatchesRow` in one statement. -/
theorem encodeMatchesRow (i : Instr) : EncodeMatchesRow.Statement i := by
  cases i with
  | rdreg off => exact EncodeMatchesRow.rdreg off
  | wrreg off val => exact EncodeMatchesRow.wrreg off val
  | rdind addr => exact EncodeMatchesRow.rdind addr
  | wrind addr val => exact EncodeMatchesRow.wrind addr val
  | doorbell off val => exact EncodeMatchesRow.doorbell off val
  | setbit off mask => exact EncodeMatchesRow.setbit off mask
  | clrbit off mask => exact EncodeMatchesRow.clrbit off mask
  | txpost csum h segs => exact EncodeMatchesRow.txpost csum h segs
  | txreclaim idx => exact EncodeMatchesRow.txreclaim idx
  | rxpost slot buf => exact EncodeMatchesRow.rxpost slot buf
  | rrdrain idx => exact EncodeMatchesRow.rrdrain idx
  | rxrefill slot => exact EncodeMatchesRow.rxrefill slot
  | onint => exact EncodeMatchesRow.onint
  | wdtick => exact EncodeMatchesRow.wdtick
  | submit csum h segs => exact EncodeMatchesRow.submit csum h segs
  | lnkauto adv caps => exact EncodeMatchesRow.lnkauto adv caps
  | lnkforce duplex speed => exact EncodeMatchesRow.lnkforce duplex speed
  | resdone e => exact EncodeMatchesRow.resdone e
  | start => exact EncodeMatchesRow.start
  | stop => exact EncodeMatchesRow.stop
  | adpreset => exact EncodeMatchesRow.adpreset
  | devtx k => exact EncodeMatchesRow.devtx k
  | devrx flags err len => exact EncodeMatchesRow.devrx flags err len
  | devsb => exact EncodeMatchesRow.devsb
  | physet status => exact EncodeMatchesRow.physet status

/-- What a word is read as belongs to the port of the word's opcode, and its row of the map is one the word hits. -/
theorem row_of_decodeWords {cmd : BitVec 32} {d : BitVec 64} {seg : List (BitVec 80)} {i : Instr}
    (h : decodeWords cmd d seg = some i) :
    portOfOpcode (cmdOp cmd) = i.port ∧ ∃ row ∈ opcodeMap, row.mnemonic = i.mnemonic ∧ row.hits cmd = true := by
  obtain ⟨hw, rfl⟩ := decodeWords_reads h
  exact encodeMatchesRow i hw

/-- Fields whose bits under a row's mask are zero are legal operands of the row's opcode. -/
theorem exists_decodeFields_of_row (d : BitVec 64) (seg : List (BitVec 80)) : ∀ row ∈ opcodeMap, ∀ a b,
    a &&& cmdA row.mask = 0 → b &&& cmdB row.mask = 0 → ∃ i, decodeFields row.opcode a b d seg = some i := by
  have zeroA {a : BitVec 8} (h : a &&& 0xFF = 0) : a = 0 := eq_zero_of_and rfl h
  have zeroB {b : BitVec 16} (h : b &&& 0xFFFF = 0) : b = 0 := eq_zero_of_and rfl h
  simp only [opcodeMap, List.forall_mem_cons, List.not_mem_nil, false_imp_iff, implies_true, and_true]
  refine ⟨?rdreg, ?wrreg, ?rdind, ?wrind, ?doorbell, ?setbit, ?clrbit, ?txpost, ?txreclaim, ?rxpost, ?rrdrain, ?rxrefill,
    ?onint, ?wdtick, ?submit, ?lnkauto, ?lnkforce, ?resdone, ?start, ?stop, ?adpreset, ?devtx, ?devrx, ?devsb, ?physet⟩
  all_goals intro a b ha hb
  case rdreg | wrreg | doorbell | setbit | clrbit | txreclaim | rxpost | rrdrain | rxrefill => exact ⟨_, if_pos (zeroA ha)⟩
  case rdind | wrind | onint | wdtick | resdone | start | stop | adpreset | devsb =>
    exact ⟨_, if_pos ⟨zeroA ha, zeroB hb⟩⟩
  case txpost | submit => exact ⟨_, if_pos (extractLsb'_eq_zero_of_and rfl hb)⟩
  case lnkauto | lnkforce => exact ⟨_, if_pos ⟨zeroA ha, extractLsb'_eq_zero_of_and rfl hb⟩⟩
  case devtx => exact ⟨_, if_pos (zeroB hb)⟩
  case devrx => exact ⟨_, if_pos (extractLsb'_eq_zero_of_and rfl ha)⟩
  case physet =>
    exact ⟨_, if_pos ⟨zeroA ha, extractLsb'_eq_zero_of_and rfl hb, getLsbD_eq_false_of_and rfl hb⟩⟩

/-- Every word that hits a row of the map is read as something. -/
theorem exists_decodeWords_of_hits {row : OpRow} (hrow : row ∈ opcodeMap) {cmd : BitVec 32} (h : row.hits cmd = true)
    (d : BitVec 64) (seg : List (BitVec 80)) : ∃ i, decodeWords cmd d seg = some i := by
  obtain ⟨-, -, hA, hB⟩ := opcodeMap_masks row hrow
  obtain ⟨-, ha, hb⟩ := fields_of_hits h
  rw [decodeWords, cmdOp_of_hits hrow h]
  exact exists_decodeFields_of_row d seg row hrow _ _ (ha.trans hA) (hb.trans hB)

/-- A word that hits a row is read as the operation of that row. -/
theorem decodeWords_of_hits {row : OpRow} (hrow : row ∈ opcodeMap) {cmd : BitVec 32} (h : row.hits cmd = true)
    (d : BitVec 64) (seg : List (BitVec 80)) : ∃ i, decodeWords cmd d seg = some i ∧ i.mnemonic = row.mnemonic := by
  obtain ⟨i, hi⟩ := exists_decodeWords_of_hits hrow h d seg
  obtain ⟨-, row', hrow', hname, h'⟩ := row_of_decodeWords hi
  exact ⟨i, hi, by rw [row_unique hrow hrow' h h', hname]⟩

/-- A word that hits no row is read as nothing. -/
theorem decodeWords_of_no_hit {cmd : BitVec 32} (h : ∀ row ∈ opcodeMap, row.hits cmd = false) (d : BitVec 64)
    (seg : List (BitVec 80)) : decodeWords cmd d seg = none := by
  refine Option.eq_none_iff_forall_ne_some.2 fun i hi => ?_
  obtain ⟨-, row, hrow, -, hhit⟩ := row_of_decodeWords hi
  exact Bool.false_ne_true ((h row hrow).symm.trans hhit)

/-- Settles O3: a word that hits a row is read, and what is read hits its own row, which is the same one. -/
theorem opcodeMapDecides : Obligations.OpcodeMapDecides :=
  ⟨rfl, opcodeMap_pairwise_disjoint, fun _ d seg =>
    ⟨fun h => decodeWords_of_no_hit h d seg, fun _ hrow h => decodeWords_of_hits hrow h d seg⟩⟩

/-! ## The command port -/

/-- The opcodes 0x60 to 0x63 are the agents' (R116). -/
theorem portOfOpcode_eq_host_iff (op : BitVec 8) : portOfOpcode op = .host ↔ ¬ (0x60 ≤ op.toNat ∧ op.toNat ≤ 0x63) := by
  revert op
  decide

/-- On the command port an agent's opcode decodes to nothing. -/
theorem decode_of_agent_opcode {r : Request} (hport : r.port = .host)
    (hop : 0x60 ≤ (cmdOp r.cmd).toNat ∧ (cmdOp r.cmd).toNat ≤ 0x63) : decode r = none := by
  refine Option.eq_none_iff_forall_ne_some.2 fun i hi => ?_
  obtain ⟨hwords, hi_port⟩ := decode_eq_some_iff.1 hi
  obtain ⟨hop_port, -⟩ := row_of_decodeWords hwords
  exact (portOfOpcode_eq_host_iff _).1 (hop_port.trans (hi_port.trans hport)) hop

theorem decode_of_no_hit {r : Request} (h : ∀ row ∈ opcodeMap, row.hits r.cmd = false) : decode r = none := by
  rw [decode, decodeWords_of_no_hit h]
  rfl

/-- On the command port every other word that hits a row decodes to the operation of that row. -/
theorem decode_of_host_hits {r : Request} (hport : r.port = .host)
    (hop : ¬ (0x60 ≤ (cmdOp r.cmd).toNat ∧ (cmdOp r.cmd).toNat ≤ 0x63)) {row : OpRow} (hrow : row ∈ opcodeMap)
    (h : row.hits r.cmd = true) : ∃ i, decode r = some i ∧ i.mnemonic = row.mnemonic := by
  obtain ⟨i, hi, hname⟩ := decodeWords_of_hits hrow h r.d r.seg
  obtain ⟨hop_port, -⟩ := row_of_decodeWords hi
  have hi_port : i.port = r.port := hop_port.symm.trans (((portOfOpcode_eq_host_iff _).2 hop).trans hport.symm)
  exact ⟨i, decode_eq_some_iff.2 ⟨hi, hi_port⟩, hname⟩

end Sys2Proof.Laws

namespace Sys2Proof.Machine

open Sys2Proof.Laws

/-- A request on the command port that decodes to nothing is answered as illegal. -/
theorem step_illegal {s : State} {r : Request} {rest : List Stimulus} (hp : s.port.pending = .command r :: rest)
    (hport : r.port = .host) (hd : decode r = none) : step s = answerIllegal (s.withPending rest) := by
  simp only [step, hp, runStimulus, runRequest, hd, runUndecodable, hport]

/-- Settles O5: the two kinds of illegal word decode to nothing, and every other word to the operation of its row. -/
theorem illegalCommandAnswered : Obligations.IllegalCommandAnswered := by
  refine ⟨rfl, fun s r rest hp hport => ⟨fun hill => ?_, fun row hrow h hop => ?_⟩⟩
  · have hd : decode r = none := hill.elim decode_of_no_hit (decode_of_agent_opcode hport)
    exact step_illegal hp hport hd
  · obtain ⟨i, hd, hname⟩ := decode_of_host_hits hport hop hrow h
    exact ⟨i, hname, step_command hp hd⟩

end Sys2Proof.Machine

/-! O51. The numbers on the ports: result codes (60_exceptions.md R260) and event records (30_encoding.md R118). -/

namespace Sys2Proof.Machine

/-- Bits placed side by side are a sum. -/
theorem toNat_append_eq_add {m n : Nat} (x : BitVec m) (y : BitVec n) : (x ++ y).toNat = x.toNat * 2 ^ n + y.toNat := by
  rw [BitVec.toNat_append, ← Nat.shiftLeft_add_eq_or_of_lt y.isLt, Nat.shiftLeft_eq]

/-- The layout of an event record: the code in bits 103:96, `p0` in bits 95:32, `p1` in bits 31:0. -/
theorem record_toNat {ev : BitVec 104} {code : BitVec 8} {p0 : BitVec 64} {p1 : BitVec 32} (h : ev = code ++ p0 ++ p1) :
    ev.toNat = code.toNat * 2 ^ 96 + p0.toNat * 2 ^ 32 + p1.toNat := by
  have hrec : (code ++ p0 ++ p1).toNat = (code.toNat * 2 ^ 64 + p0.toNat) * 2 ^ 32 + p1.toNat := by
    rw [toNat_append_eq_add, toNat_append_eq_add]
  rw [h]
  exact hrec.trans (by ring)

/-- Two halves of a parameter `p1`. -/
theorem halves_toNat (hi lo : BitVec 16) : (hi ++ lo : BitVec 32).toNat = lo.toNat + 2 ^ 16 * hi.toNat :=
  (toNat_append_eq_add hi lo).trans (by ring)

/-- A value with zeros before it. -/
theorem zero_append_toNat (m : Nat) {n : Nat} (x : BitVec n) : (0#m ++ x).toNat = x.toNat := by
  rw [toNat_append_eq_add, BitVec.toNat_zero, Nat.zero_mul, Nat.zero_add]

/-- The parameter `p1` of `Deliver`: the length and the two checksum flags. -/
theorem deliver_p1_toNat (len : BitVec 16) (ip l4 : Bool) :
    (0#14 ++ BitVec.ofBool l4 ++ BitVec.ofBool ip ++ len : BitVec 32).toNat =
      len.toNat + 2 ^ 16 * ip.toNat + 2 ^ 17 * l4.toNat := by
  refine (toNat_append_eq_add (0#14 ++ BitVec.ofBool l4 ++ BitVec.ofBool ip) len).trans ?_
  rw [toNat_append_eq_add, zero_append_toNat, BitVec.toNat_ofBool, BitVec.toNat_ofBool]
  ring

/-- The parameter `p1` of `LinkUp`: the speed, the duplex bit and the two pause bits. -/
theorem linkUp_p1_toNat (sp : BitVec 2) (dp rx tx : Bool) :
    (0#27 ++ BitVec.ofBool tx ++ BitVec.ofBool rx ++ BitVec.ofBool dp ++ sp : BitVec 32).toNat =
      sp.toNat + 4 * dp.toNat + 8 * rx.toNat + 16 * tx.toNat := by
  refine (toNat_append_eq_add (0#27 ++ BitVec.ofBool tx ++ BitVec.ofBool rx ++ BitVec.ofBool dp) sp).trans ?_
  rw [toNat_append_eq_add, toNat_append_eq_add, zero_append_toNat, BitVec.toNat_ofBool, BitVec.toNat_ofBool,
    BitVec.toNat_ofBool]
  ring

/-- Settles O51: each record is the layout of R118 with its own code and parameters. -/
theorem portEncodings : Obligations.PortEncodings := by
  refine ⟨by decide, fun h e buf len flags slot err sp ip l4 dp rx tx => ?_⟩
  have he : (0#32 ++ e : BitVec 64).toNat = e.toNat := zero_append_toNat 32 e
  have hslot : (0#16 ++ slot : BitVec 32).toNat = slot.toNat := zero_append_toNat 16 slot
  refine ⟨?txDone, ?txFailed, ?deliver, ?bufFree, ?resume, ?linkUp, ?linkDown, ?hwTimeout, ?negTimeout, ?schedResolve, ?rxFilled,
    ?rxDropped, ?rxNoBuf⟩
  case txDone | txFailed => exact (record_toNat rfl).trans (by simp)
  case resume | hwTimeout | negTimeout => rfl
  case bufFree => exact (record_toNat rfl).trans (by simp)
  case linkDown | schedResolve => exact (record_toNat rfl).trans (by simp [he])
  case deliver => exact (record_toNat rfl).trans (by rw [deliver_p1_toNat]; rfl)
  case linkUp => exact (record_toNat rfl).trans (by rw [linkUp_p1_toNat, he]; rfl)
  case rxFilled => exact (record_toNat rfl).trans (by rw [halves_toNat]; rfl)
  case rxDropped => exact (record_toNat rfl).trans (by rw [halves_toNat]; rfl)
  case rxNoBuf => exact (record_toNat rfl).trans (by rw [hslot]; rfl)

end Sys2Proof.Machine

/-! O4, O9, O10, O13, O15: the Register Access Layer (40_register_access.md R131 to R137). A register operation is its offset check
and then a read or a write of one register; the statements come from these execution rules and from one fact about each register:
what it reads as (`regRead_toNat`) and which ones take a write (`regWrite_readOnly`). -/

namespace Sys2Proof.Laws

/-- Settles O4: each command word splits into the three fields of its operation, and these read as the operation with its
operands. -/
theorem specWordsDecode : Obligations.SpecWordsDecode := by
  refine ⟨?rdreg, ?wrind, ?txpost, ?rxpost, ?onint, ?lnkauto, ?lnkforce, ?stop, ?devrx, ?physet⟩
  case rdreg => exact decode_of_fields 0x01 0 0x0008 (by decide) rfl (by decide)
  case wrind => exact decode_of_fields 0x04 0 0 (by decide) rfl (by decide)
  case txpost => exact decode_of_fields 0x10 1 0 (by decide) rfl (by decide)
  case rxpost => exact decode_of_fields 0x12 0 0x0002 (by decide) rfl (by decide)
  case onint => exact decode_of_fields 0x20 0 0 (by decide) rfl (by decide)
  case lnkauto => exact decode_of_fields 0x40 0 0x00FF (by decide) rfl (by decide)
  case lnkforce => exact decode_of_fields 0x41 0 0x0006 (by decide) rfl (by decide)
  case stop => exact decode_of_fields 0x51 0 0 (by decide) rfl (by decide)
  case devrx => exact decode_of_fields 0x61 0x0C 0x0064 (by decide) rfl (by decide)
  case physet => exact decode_of_fields 0x63 0 0x00DB (by decide) rfl (by decide)

end Sys2Proof.Laws

namespace Sys2Proof.Machine

/-! ## The operand checks -/

theorem csrOffsetOk_iff (off : BitVec 16) : csrOffsetOk off = true ↔ off.toNat % 4 = 0 ∧ off.toNat < 0x100 := by
  simp [csrOffsetOk]

theorem imemAddrOk_iff (p : Params) (addr : Word) :
    imemAddrOk p addr = true ↔ addr.toNat % 4 = 0 ∧ addr.toNat / 4 < p.imemWords := by
  simp [imemAddrOk]

/-! ## Register writes leave the link, and so the epoch, alone -/

@[simp] theorem ringDoorbell_link (s : State) (c : Csr) (v : Word) : (ringDoorbell s c v).link = s.link := by
  have hstore : (storeMailbox s c v).link = s.link := by cases c <;> rfl
  unfold ringDoorbell devDoorbell
  split
  · cases c <;> rfl
  · exact hstore

@[simp] theorem regWrite_link (s : State) (c : Csr) (v : Word) : (regWrite s c v).link = s.link := by
  cases c with
  | devCtrl => exact writeDevCtrl_link s v
  | phyCtrl => simp only [regWrite, writePhyCtrl]; split <;> rfl
  | winData => simp only [regWrite]; split <;> rfl
  | mbTxProd => exact ringDoorbell_link s _ v
  | mbRxProd => exact ringDoorbell_link s _ v
  | mbRrCons => exact ringDoorbell_link s _ v
  | _ => rfl

@[simp] theorem writeAt_link (s : State) (off : BitVec 16) (v : Word) : (writeAt s off v).link = s.link := by
  unfold writeAt
  split
  · exact regWrite_link ..
  · rfl

/-! ## One execution rule per register operation -/

/-- An operation that leaves the link alone answers. -/
theorem answer_of_link {s t : State} (r : Result) (h : t.link = s.link) : answer s (t, r) = .next (t.setResult r) :=
  answer_next s (t, r) (.inr (congrArg Link.epoch h))

section Offset

variable {off : BitVec 16}

theorem exec_rdreg (s : State) (h : off.toNat % 4 = 0 ∧ off.toNat < 0x100) :
    exec (.rdreg off) s = .next (s.setResult (.okVal ((readAt s off).setWidth 64))) := by
  show execRdreg off s = _
  rw [execRdreg, if_pos ((csrOffsetOk_iff off).2 h)]
  exact answer_of_link _ rfl

theorem exec_wrreg (s : State) (v : Word) (h : off.toNat % 4 = 0 ∧ off.toNat < 0x100) :
    exec (.wrreg off v) s = .next ((writeAt s off v).setResult (.okVal 0)) := by
  show execWrreg off v s = _
  rw [execWrreg, if_pos ((csrOffsetOk_iff off).2 h)]
  exact answer_of_link _ (writeAt_link ..)

theorem exec_setbit (s : State) (mask : Word) (h : off.toNat % 4 = 0 ∧ off.toNat < 0x100) :
    exec (.setbit off mask) s =
      .next ((writeAt s off (readAt s off ||| mask)).setResult (.okVal ((readAt s off ||| mask).setWidth 64))) := by
  show execSetbit off mask s = _
  rw [execSetbit, if_pos ((csrOffsetOk_iff off).2 h)]
  exact answer_of_link _ (writeAt_link ..)

theorem exec_clrbit (s : State) (mask : Word) (h : off.toNat % 4 = 0 ∧ off.toNat < 0x100) :
    exec (.clrbit off mask) s =
      .next ((writeAt s off (readAt s off &&& ~~~mask)).setResult (.okVal ((readAt s off &&& ~~~mask).setWidth 64))) := by
  show execClrbit off mask s = _
  rw [execClrbit, if_pos ((csrOffsetOk_iff off).2 h)]
  exact answer_of_link _ (writeAt_link ..)

/-- The four operations with an offset refuse an illegal one. -/
theorem exec_illegal_offset (s : State) (v : Word) (h : ¬ (off.toNat % 4 = 0 ∧ off.toNat < 0x100)) :
    ∀ i ∈ [Instr.rdreg off, .wrreg off v, .setbit off v, .clrbit off v],
      exec i s = .next (s.setResult (.err .badOperand)) := by
  have hbad : ¬ csrOffsetOk off = true := fun hok => h ((csrOffsetOk_iff off).1 hok)
  have hrefused : ∀ done : State × Result, answer s (if csrOffsetOk off then done else (s, .err .badOperand)) =
      .next (s.setResult (.err .badOperand)) := fun done => by
    rw [if_neg hbad]
    exact answer_of_link _ rfl
  intro i hi
  simp only [List.mem_cons, List.not_mem_nil, or_false] at hi
  obtain rfl | rfl | rfl | rfl := hi <;> exact hrefused _

end Offset

/-- Settles O15: both operations write what they compute from the register's value, and the offset check is that of `RDREG`. -/
theorem bitHelpersReadModifyWrite : Obligations.BitHelpersReadModifyWrite := by
  refine fun s off mask => ⟨fun h => ?_, fun h => ?_⟩
  · exact ⟨readAt s off, _, _, exec_rdreg s h, exec_wrreg s _ h, exec_setbit s mask h, exec_wrreg s _ h, exec_clrbit s mask h⟩
  · exact ⟨exec_illegal_offset s mask h _ (by simp), exec_illegal_offset s mask h _ (by simp)⟩

/-! ## The indirect window -/

theorem window_of_ok {s : State} (h : s.csr.winBase.toNat % 4 = 0 ∧ s.csr.winBase.toNat / 4 < s.par.imemWords) :
    s.window = some (s.csr.winBase.toNat / 4) := if_pos ((imemAddrOk_iff ..).2 h)

theorem window_of_not_ok {s : State} (h : ¬ (s.csr.winBase.toNat % 4 = 0 ∧ s.csr.winBase.toNat / 4 < s.par.imemWords)) :
    s.window = none := if_neg fun hok => h ((imemAddrOk_iff ..).1 hok)

theorem exec_rdind (s : State) {addr : Word} (h : addr.toNat % 4 = 0 ∧ addr.toNat / 4 < s.par.imemWords) :
    exec (.rdind addr) s = .next (State.setResult { s with csr := { s.csr with winBase := addr } }
      (.okVal ((s.imemRead (addr.toNat / 4)).setWidth 64))) := by
  have hread : indRead s addr = ({ s with csr := { s.csr with winBase := addr } }, s.imemRead (addr.toNat / 4)) := by
    simp only [indRead, regWrite, regRead, window_of_ok (s := { s with csr := { s.csr with winBase := addr } }) h]
    rfl
  show execRdind addr s = _
  rw [execRdind, if_pos ((imemAddrOk_iff ..).2 h), hread]
  exact answer_of_link _ rfl

theorem exec_wrind (s : State) {addr : Word} (v : Word) (h : addr.toNat % 4 = 0 ∧ addr.toNat / 4 < s.par.imemWords) :
    exec (.wrind addr v) s = .next (State.setResult
      { s with csr := { s.csr with winBase := addr }, imem := cellSet s.imem (addr.toNat / 4) v } (.okVal 0)) := by
  have hwrite : indWrite s addr v =
      { s with csr := { s.csr with winBase := addr }, imem := cellSet s.imem (addr.toNat / 4) v } := by
    simp only [indWrite, regWrite, window_of_ok (s := { s with csr := { s.csr with winBase := addr } }) h]
    rfl
  show execWrind addr v s = _
  rw [execWrind, if_pos ((imemAddrOk_iff ..).2 h), hwrite]
  exact answer_of_link _ rfl

theorem imemRead_of_cellGet {s : State} {j : Nat} {v : Word} (h : cellGet s.imem j = some v) : s.imemRead j = v := by
  rw [State.imemRead, h]
  rfl

/-- Settles O13: the store is `cellSet` at the window's word, so a read there finds it and a read elsewhere does not. -/
theorem indirectRoundTrip : Obligations.IndirectRoundTrip := by
  intro s addr v hmul hlt
  have hstored := cellGet_cellSet_same s.imem (addr.toNat / 4) v
  refine ⟨cellSet s.imem (addr.toNat / 4) v, exec_wrind s v ⟨hmul, hlt⟩, fun j hj => cellGet_cellSet_other _ _ _ _ hj, ?_,
    exec_rdind s ⟨hmul, hlt⟩⟩
  have hread := exec_rdind { s with imem := cellSet s.imem (addr.toNat / 4) v } (addr := addr) ⟨hmul, hlt⟩
  rwa [imemRead_of_cellGet hstored] at hread

/-! ## The registers and their offsets -/

/-- The offset of a register (10_state.md R48). -/
def Csr.offset : Csr → Nat
  | .drmStatus => 0x00
  | .txIndex => 0x04
  | .txFree => 0x08
  | .rxIndex => 0x0C
  | .snapshot => 0x10
  | .snapTag => 0x14
  | .linkEpoch => 0x18
  | .cntRxDrop => 0x1C
  | .cntRxNobuf => 0x20
  | .wdState => 0x24
  | .negState => 0x28
  | .fault => 0x2C
  | .devCtrl => 0x30
  | .linkCfg => 0x34
  | .linkRes => 0x38
  | .phyAdv => 0x40
  | .phyCtrl => 0x44
  | .phyStatus => 0x48
  | .macMode => 0x4C
  | .winBase => 0x60
  | .winData => 0x64
  | .mbTxProd => 0x80
  | .mbRxProd => 0x84
  | .mbRrCons => 0x88

/-- The map lists each register at its own offset. -/
theorem offset_of_csrAt {off : BitVec 16} {c : Csr} (h : csrAt off = some c) : off.toNat = c.offset := by
  have hlisted : ∀ row ∈ csrOffsets, row.1 = row.2.offset := by decide
  exact hlisted _ (mem_of_cellGet h)

/-- A number that is the offset of no register shows the value of an unmapped one. -/
theorem csrValue_unmapped (s : State) {n : Nat} (h : cellGet csrOffsets n = none) : csrValue s n = 0 := by
  fun_cases csrValue s n with
  | case26 => rfl
  | _ => cases h

/-! ## What the registers read as -/

theorem flagBit_toNat (b : Bool) : (flagBit b).toNat = b.toNat := BitVec.toNat_ofBool b

theorem idx16_toNat {i : Nat} (h : i < 65536) : (idx16 i).toNat = i := Nat.mod_eq_of_lt h

theorem linkState_code_toNat (st : LinkState) : st.code.toNat = st.value := by cases st <;> rfl

theorem linkModeBits_toNat (m : LinkMode) : (linkModeBits m).toNat = m.value := by
  cases m with
  | auto => rfl
  | forced sp dp => revert sp dp; decide

theorem drmStatusView_toNat (s : State) : (drmStatusView s).toNat = csrValue s 0x00 := by
  simp only [drmStatusView, toNat_append_eq_add, flagBit_toNat, linkState_code_toNat, BitVec.toNat_zero, csrValue]
  ring

/-- Two ring indices side by side. -/
theorem indexPair_toNat {i j : Nat} (hi : i < 65536) (hj : j < 65536) : (idx16 j ++ idx16 i : Word).toNat = i + 65536 * j := by
  rw [halves_toNat, idx16_toNat hi, idx16_toNat hj]
  rfl

theorem wdStateView_toNat (s : State) : (wdStateView s).toNat = csrValue s 0x24 := by
  simp only [wdStateView, toNat_append_eq_add, flagBit_toNat, BitVec.toNat_zero, csrValue]
  ring

theorem negStateView_toNat (s : State) : (negStateView s).toNat = csrValue s 0x28 := by
  simp only [negStateView, toNat_append_eq_add, BitVec.toNat_zero, csrValue]
  ring

theorem faultView_toNat (s : State) : (faultView s).toNat = csrValue s 0x2C := by
  simp only [faultView, toNat_append_eq_add, flagBit_toNat, BitVec.toNat_zero, csrValue]
  ring

theorem devCtrlView_toNat (s : State) : (devCtrlView s).toNat = csrValue s 0x30 := by
  simp only [devCtrlView, zero_append_toNat, flagBit_toNat, csrValue]

theorem linkCfgView_toNat (s : State) : (linkCfgView s).toNat = csrValue s 0x34 := by
  simp only [linkCfgView, toNat_append_eq_add, linkModeBits_toNat, BitVec.toNat_zero, csrValue]
  ring

theorem linkResView_toNat (s : State) : (linkResView s).toNat = csrValue s 0x38 := by
  simp only [linkResView, toNat_append_eq_add, flagBit_toNat, BitVec.toNat_zero, csrValue]
  ring

/-- The restart bit of `PHY_CTRL` is never stored, so hiding it in a read changes nothing (10_state.md R63). -/
theorem regRead_phyCtrl {s : State} (h : s.csr.phyCtrl &&& 0b11101#32 = s.csr.phyCtrl) :
    regRead s .phyCtrl = s.csr.phyCtrl := by
  rw [regRead, ← h, BitVec.and_assoc, show (0b11101#32 &&& ~~~(2#32)) = 0b11101#32 by decide]

/-- A stored mailbox value has no bits above 15, so a read shows it whole. -/
theorem low16_toNat {v : Word} (h : v.toNat < 65536) : ((v.setWidth 16).setWidth 32 : Word).toNat = v.toNat := by
  rw [BitVec.toNat_setWidth_of_le (by omega), BitVec.toNat_setWidth]
  exact Nat.mod_eq_of_lt h

theorem regRead_winData_toNat (s : State) : (regRead s .winData).toNat = csrValue s 0x64 := by
  by_cases h : s.csr.winBase.toNat % 4 = 0 ∧ s.csr.winBase.toNat / 4 < s.par.imemWords
  · simp only [regRead, window_of_ok h, csrValue, if_pos h]
  · simp only [regRead, window_of_not_ok h, csrValue, if_neg h]
    rfl

/-- Every register reads as the sum of its fields. Indices are below `N`, which is at most 32768, so 16 bits hold them. -/
theorem regRead_toNat {s : State} (h : Inv s) (c : Csr) : (regRead s c).toNat = csrValue s c.offset := by
  have hidx : ∀ {i}, i < s.par.n → i < 65536 := fun hi => by have := h.legal.n_le; omega
  cases c with
  | drmStatus => exact drmStatusView_toNat s
  | txIndex => exact indexPair_toNat (hidx h.tx_prod_lt) (hidx h.tx_cons_lt)
  | txFree =>
    have hfree : s.tx.free < 65536 := by have := h.tx_free_le; have := h.legal.n_le; omega
    exact (zero_append_toNat 16 (idx16 s.tx.free)).trans (idx16_toNat hfree)
  | rxIndex => exact indexPair_toNat (hidx h.rx_prod_lt) (hidx h.rr_cons_lt)
  | snapshot => exact indexPair_toNat (hidx h.snap_tx_lt) (hidx h.snap_rr_lt)
  | wdState => exact wdStateView_toNat s
  | negState => exact negStateView_toNat s
  | fault => exact faultView_toNat s
  | devCtrl => exact devCtrlView_toNat s
  | linkCfg => exact linkCfgView_toNat s
  | linkRes => exact linkResView_toNat s
  | phyCtrl => exact congrArg BitVec.toNat (regRead_phyCtrl h.phy_ctrl)
  | winData => exact regRead_winData_toNat s
  | mbTxProd => exact low16_toNat h.mb_tx
  | mbRxProd => exact low16_toNat h.mb_rx
  | mbRrCons => exact low16_toNat h.mb_rr
  | snapTag | linkEpoch | cntRxDrop | cntRxNobuf | phyAdv | phyStatus | macMode | winBase => rfl

theorem readAt_toNat {s : State} (h : Inv s) (off : BitVec 16) : (readAt s off).toNat = csrValue s off.toNat := by
  unfold readAt
  split
  · next c hc => rw [offset_of_csrAt hc, regRead_toNat h]
  · next hnone => exact (csrValue_unmapped s hnone).symm

/-- Settles O9: the value answered is the register's value, widened. -/
theorem rdregReadsFields : Obligations.RdregReadsFields := by
  refine fun s off hinv => ⟨fun h => ?_, fun h => exec_illegal_offset s 0 h _ (by simp)⟩
  have hval : (readAt s off).setWidth 64 = BitVec.ofNat 64 (csrValue s off.toNat) := by
    rw [← readAt_toNat hinv, BitVec.ofNat_toNat]
  rw [exec_rdreg s h, hval]
  rfl

/-! ## Which registers take a write -/

/-- Keeping the low `k` bits of a word. -/
theorem and_lowMask (v : Word) (k : Nat) : v &&& BitVec.ofNat 32 (2 ^ k - 1) = BitVec.ofNat 32 (v.toNat % 2 ^ k) := by
  apply BitVec.eq_of_toNat_eq
  rw [BitVec.toNat_and, BitVec.toNat_ofNat, BitVec.toNat_ofNat, ← Nat.and_two_pow_sub_one_eq_mod, ← Nat.and_two_pow_sub_one_eq_mod,
    ← Nat.and_two_pow_sub_one_eq_mod, Nat.and_assoc, ← Nat.and_assoc]

/-- A write to a read-only register is ignored. -/
theorem regWrite_readOnly (s : State) (v : Word) {c : Csr}
    (h : c.offset ∉ [0x30, 0x40, 0x44, 0x4C, 0x60, 0x64, 0x80, 0x84, 0x88]) : regWrite s c v = s := by
  cases c with
  | devCtrl | phyAdv | phyCtrl | macMode | winBase | winData | mbTxProd | mbRxProd | mbRrCons => exact absurd (by decide) h
  | _ => rfl

theorem writeAt_ignored (s : State) (v : Word) {off : BitVec 16}
    (h : off.toNat ∉ [0x30, 0x40, 0x44, 0x4C, 0x60, 0x64, 0x80, 0x84, 0x88]) : writeAt s off v = s := by
  unfold writeAt
  split
  · next c hc => exact regWrite_readOnly s v (offset_of_csrAt hc ▸ h)
  · rfl

/-- Settles O10: a legal write is the write of the register at its offset. -/
theorem wrregStoresOrIgnores : Obligations.WrregStoresOrIgnores := by
  intro s v
  refine ⟨?phyAdv, ?macMode, exec_wrreg s v (by decide), ?ignored, fun hw => ?winData, fun hw => ?winDataOut⟩
  case phyAdv =>
    have hlow : v &&& 0xFF#32 = BitVec.ofNat 32 (v.toNat % 256) := and_lowMask v 8
    rw [exec_wrreg s v (by decide), ← hlow]
    rfl
  case macMode =>
    have hlow : v &&& 0x1F#32 = BitVec.ofNat 32 (v.toNat % 32) := and_lowMask v 5
    rw [exec_wrreg s v (by decide), ← hlow]
    rfl
  case ignored =>
    intro off hmul hlt hne
    rw [exec_wrreg s v ⟨hmul, hlt⟩, writeAt_ignored s v hne]
    rfl
  case winData =>
    have hwrite : writeAt s 0x64 v = s.imemWrite (s.csr.winBase.toNat / 4) v := by
      show regWrite s .winData v = _
      simp only [regWrite, window_of_ok hw]
    refine ⟨cellSet s.imem (s.csr.winBase.toNat / 4) v, ?_, cellGet_cellSet_same .., fun j hj => cellGet_cellSet_other _ _ _ _ hj⟩
    rw [exec_wrreg s v (by decide), hwrite]
    rfl
  case winDataOut =>
    have hwrite : writeAt s 0x64 v = s := by
      show regWrite s .winData v = _
      simp only [regWrite, window_of_not_ok hw]
    rw [exec_wrreg s v (by decide), hwrite]
    rfl

end Sys2Proof.Machine

/-! O17 to O25: the ring manager and the gates before it (41_ring_manager.md R140 to R155, 43_packet_io.md R175 to R178). Each
command is its gate, then one operation of the rings; the operations are settled case by case first, whole next state and result. -/

namespace Sys2Proof.Machine

/-! ## The gates -/

/-- A gated operation of an enabled adapter, evaluated: it answers if it leaves the link alone. -/
theorem answer_enabled {s : State} {op done : State × Result} (hon : s.ctl.enabled = true) (hop : op = done)
    (hlink : done.1.link = s.link) : answer s (whenEnabled s op) = .next (done.1.setResult done.2) := by
  rw [whenEnabled, if_pos hon, hop]
  exact answer_of_link _ hlink

theorem answer_disabled {s : State} (done : State × Result) (hoff : s.ctl.enabled = false) :
    answer s (whenEnabled s done) = .next (s.setResult (.err .notEnabled)) := by
  rw [whenEnabled, if_neg (by simp [hoff])]
  exact answer_of_link _ rfl

/-- An operation that is refused for the state of the adapter. -/
theorem answer_refused {s : State} {done : State × Result} {r : Result} (h : done = (s, r)) :
    answer s done = .next (s.setResult r) := by
  rw [h]
  exact answer_of_link _ rfl

/-- Settles O19: every operation of the rings stands behind `whenEnabled`, every other one behind a test of its own. -/
theorem gatesRefuse : Obligations.GatesRefuse := by
  refine fun s => ⟨fun hoff => ⟨?rings, ?pass, ?lifecycle⟩, fun hon => ?start, fun hon hdown csum h segs => ?submit⟩
  case rings =>
    intro csum h segs idx slot buf i hi
    simp only [List.mem_cons, List.not_mem_nil, or_false] at hi
    obtain rfl | rfl | rfl | rfl | rfl | rfl := hi <;> exact answer_disabled _ hoff
  case pass =>
    intro i hi
    simp only [List.mem_cons, List.not_mem_nil, or_false] at hi
    obtain rfl | rfl := hi
    · exact answer_refused (done := onInterrupt s) (if_neg (by simp [hoff]))
    · exact answer_refused (done := tick s) (if_neg (by simp [hoff]))
  case lifecycle =>
    intro i hi
    simp only [List.mem_cons, List.not_mem_nil, or_false] at hi
    obtain rfl | rfl := hi <;> exact answer_refused (if_neg (by simp [hoff]))
  case start => exact answer_refused (if_pos hon)
  case submit => exact answer_refused ((if_pos hon).trans (if_neg (by simp [hdown])))

/-! ## Posting a packet -/

section Packet

variable {s : State} {hd : Handle} {csum : Bool} {segs : List Seg} {done : State × Result}

theorem exec_txpost (hon : s.ctl.enabled = true) (hpost : txPost s hd csum segs = done) (hlink : done.1.link = s.link) :
    exec (.txpost csum hd segs) s = .next (done.1.setResult done.2) :=
  answer_enabled hon hpost hlink

/-- With the gates open `SUBMIT` is a post that may stall the queue (43_packet_io.md R175). -/
theorem exec_submit (hon : s.ctl.enabled = true) (hup : s.link.up = true)
    (hpost : submitPacket s (txPost s hd csum segs) = done) (hlink : done.1.link = s.link) :
    exec (.submit csum hd segs) s = .next (done.1.setResult done.2) :=
  answer_enabled hon ((if_pos hup).trans hpost) hlink

/-- The packet passes the checks of 41_ring_manager.md R141. -/
structure PacketFits (s : State) (segs : List Seg) : Prop where
  some_seg : segs ≠ []
  maxseg   : segs.length ≤ s.par.maxseg
  lens     : ∀ g ∈ segs, g.len ≠ 0
  free     : segs.length ≤ s.tx.free

/-- A packet that passes is filled in, counted and rung. -/
theorem txPost_fits (h : Inv s) (hf : PacketFits s segs) {m : List Host.Cell} {sl : List (Option Handle)}
    (hfill : fillTx hd csum segs s.tx.prod s = { s with tx := { s.tx with slot := sl }, mem := m }) :
    txPost s hd csum segs = ({ s with
      tx := { s.tx with prod := (s.tx.prod + segs.length) % s.par.n, free := s.tx.free - segs.length, slot := sl }
      csr := { s.csr with mbTxProd := BitVec.ofNat 32 ((s.tx.prod + segs.length) % s.par.n) }
      dev := txRung s.par s.dev ((s.tx.prod + segs.length) % s.par.n)
      mem := m }, Result.okVal (BitVec.ofNat 64 s.tx.prod)) := by
  have hlens : ¬ (segs.any fun g => g.len == 0) = true := by simpa using hf.lens
  rw [txPost, if_neg (by simpa using hf.some_seg), if_neg (Nat.not_lt.2 hf.maxseg), if_neg hlens, if_neg (Nat.not_lt.2 hf.free),
    wrap_of_lt h.tx_prod_lt, hfill]
  dsimp only
  rw [ringAdd_eq, ringDoorbell_tx]
  · exact Nat.mod_lt _ s.par.n_pos
  · exact h.legal.n_le
  · exact h.dev_tx_seen

/-- The first check of 41_ring_manager.md R141 that the packet fails, with its code. -/
def FirstFailure (s : State) (segs : List Seg) (code : ResCode) : Prop :=
  segs = [] ∧ code = .zeroLength ∨
  s.par.maxseg < segs.length ∧ segs ≠ [] ∧ code = .tooManySegments ∨
  segs ≠ [] ∧ segs.length ≤ s.par.maxseg ∧ (∃ g ∈ segs, g.len = 0) ∧ code = .zeroLength ∨
  segs ≠ [] ∧ segs.length ≤ s.par.maxseg ∧ (∀ g ∈ segs, g.len ≠ 0) ∧ s.tx.free < segs.length ∧ code = .outOfDescriptors

theorem txPost_fails {code : ResCode} (h : FirstFailure s segs code) : txPost s hd csum segs = (s, Result.err code) := by
  unfold txPost
  rcases h with ⟨rfl, rfl⟩ | ⟨hmany, hne, rfl⟩ | ⟨hne, hmax, hzero, rfl⟩ | ⟨hne, hmax, hlens, hfull, rfl⟩
  · rfl
  · rw [if_neg (by simpa using hne), if_pos hmany]
  · rw [if_neg (by simpa using hne), if_neg (Nat.not_lt.2 hmax), if_pos (by simpa using hzero)]
  · rw [if_neg (by simpa using hne), if_neg (Nat.not_lt.2 hmax), if_neg (by simpa using hlens), if_pos hfull]

/-- Only a full ring stalls the queue (43_packet_io.md R176). -/
theorem submitPacket_err (s : State) (code : ResCode) : submitPacket s (s, Result.err code) =
    ({ s with ctl := { s.ctl with txStalled := s.ctl.txStalled || decide (code = .outOfDescriptors) } }, Result.err code) := by
  by_cases hfull : code = .outOfDescriptors <;> simp [submitPacket, Result.err, hfull]

end Packet

/-- Settles O17: both operations post, and `fillTx_spec` says what the slots and the descriptors of the packet hold. -/
theorem packetAccepted : Obligations.PacketAccepted := by
  intro s csum hd segs h hon hne hmax hlens hfree
  have hfull : segs.length ≤ s.par.n := hfree.trans h.tx_free_le
  obtain ⟨m, sl, hfill, hlen, hin, hout, hdesc, hbytes, -⟩ := fillTx_spec hd csum segs s.tx.prod s h.tx_prod_lt hfull h.tx_len
  have hpost := txPost_fits h ⟨hne, hmax, hlens, hfree⟩ hfill
  refine ⟨_, m, sl, rfl, exec_txpost hon hpost rfl, fun hup => ?submit, hlen, hin, hout, fun j g hj => ?desc, hbytes⟩
  case submit => exact exec_submit hon hup (congrArg (submitPacket s) hpost) rfl
  case desc =>
    obtain ⟨haddr, hseg, hflags, hrest⟩ := hdesc j g hj
    refine ⟨haddr, hseg, hflags.trans ?_, hrest⟩
    by_cases hlast : j + 1 = segs.length <;> simp [hlast]

/-- Settles O18: the post hands back the state with the code, and `SUBMIT` adds the stall. -/
theorem packetRejected : Obligations.PacketRejected := by
  intro s csum hd segs code hon hfail
  have hpost := txPost_fails (hd := hd) (csum := csum) hfail
  have hsubmit := (congrArg (submitPacket s) hpost).trans (submitPacket_err s code)
  exact ⟨exec_txpost hon hpost rfl, fun hup => exec_submit hon hup hsubmit rfl⟩

/-! ## Reclaiming -/

section Reclaim

variable {s : State} {c : Nat}

/-- `res_val` of a reclamation, packets in bits 31:16 and slots in bits 15:0, as a sum (41_ring_manager.md R144). -/
theorem reclaimCounts_eq {k : Nat} (hk : k < 65536) (hc : c < 65536) :
    (0#32 ++ BitVec.ofNat 16 k ++ BitVec.ofNat 16 c : BitVec 64) = BitVec.ofNat 64 (65536 * k + c) := by
  apply BitVec.eq_of_toNat_eq
  rw [toNat_append_eq_add, zero_append_toNat]
  simp only [BitVec.toNat_ofNat]
  omega

/-- An index that claims more completions than there are slots in flight sets `fault[0]`. -/
theorem txReclaim_overclaims (h : Inv s) (idx : Nat) (hc : c = (idx % s.par.n + s.par.n - s.tx.cons) % s.par.n)
    (hover : s.par.n - s.tx.free < c) :
    txReclaim s idx = ({ s with ctl := { s.ctl with faultTxIdx := true } }, Result.err .indexFault) := by
  have hdist : ringDist s.par (wrap s.par idx) s.tx.cons = c := (ringDist_eq _ h.tx_cons_lt).trans hc.symm
  rw [txReclaim, hdist]
  exact if_pos hover

/-- Any other index frees the slots it claims; the value counts the packets reported and the slots. -/
theorem txReclaim_walks (h : Inv s) (idx : Nat) (hc : c = (idx % s.par.n + s.par.n - s.tx.cons) % s.par.n)
    (hle : c ≤ s.par.n - s.tx.free) :
    ∃ sl : List (Option Handle),
      txReclaim s idx = ({ s with
        tx := { s.tx with cons := (s.tx.cons + c) % s.par.n, free := s.tx.free + c, slot := sl }
        poll := { s.poll with wdProgress := s.poll.wdProgress || decide (0 < c) }
        ctl := { s.ctl with txStalled := s.ctl.txStalled && decide (c = 0) }
        port := { s.port with events := s.port.events ++ reclaimEvents s c } },
        Result.okVal (BitVec.ofNat 64 (65536 * (owedEvents s .txDone s.tx.cons c).length + c))) ∧
      SlotsFreed s c sl := by
  have hdist : ringDist s.par (wrap s.par idx) s.tx.cons = c := (ringDist_eq _ h.tx_cons_lt).trans hc.symm
  have hin : ¬ s.inFlight < c := Nat.not_lt.2 hle
  have hn := h.legal.n_le
  have hcount := owedEvents_length_le s .txDone s.tx.cons c
  obtain ⟨sl, hstate, -, hfreed⟩ := txReclaim_spec s idx c c h hc (by rw [reclaimed, if_pos hle])
  refine ⟨sl, Prod.ext ?state ?value, hfreed⟩
  case state => simpa [Nat.not_lt.2 hle] using hstate
  case value =>
    obtain ⟨_, hwalk, -⟩ := walkTx_spec .txDone c s h.tx_cons_lt h.tx_len (by omega)
    simp only [txReclaim, hdist, if_neg hin, hwalk]
    exact congrArg Result.okVal (reclaimCounts_eq (by omega) (by omega))

theorem exec_txreclaim {idx : BitVec 16} {done : State × Result} (hon : s.ctl.enabled = true)
    (hreclaim : txReclaim s idx.toNat = done) : exec (.txreclaim idx) s = .next (done.1.setResult done.2) :=
  answer_enabled hon hreclaim (by rw [← hreclaim, txReclaim_link])

end Reclaim

/-- Settles O20. -/
theorem reclaimWalks : Obligations.ReclaimWalks := by
  intro s idx c h hon hc hle
  obtain ⟨sl, hwalk, hlen, hfreed, hothers⟩ := txReclaim_walks h idx.toNat hc hle
  refine ⟨sl, ?_, hlen, hfreed, hothers⟩
  rw [exec_txreclaim hon hwalk]
  simp [State.setResult, Result.okVal, reclaimEvents]

/-! ## A packet posted on an empty ring and reclaimed -/

section EmptyRing

variable {s : State}

/-- An empty TX ring holds no handle. -/
theorem txSlot_of_empty (h : Inv s) (hfree : s.tx.free = s.par.n) (i : Nat) : s.txSlot i = none := by
  have hn := s.par.n_pos
  have hcons := h.tx_cons_lt
  by_cases hi : i < s.par.n
  · have hplace : (s.tx.cons + (i + s.par.n - s.tx.cons) % s.par.n) % s.par.n = i := by
      rw [Nat.add_mod_mod, show s.tx.cons + (i + s.par.n - s.tx.cons) = i + s.par.n by omega, Nat.add_mod_right,
        Nat.mod_eq_of_lt hi]
    have hslot := h.tx_slots _ (Nat.mod_lt (i + s.par.n - s.tx.cons) hn)
    rw [hplace, hfree, Nat.sub_self] at hslot
    simpa using hslot
  · have hlen := h.tx_len
    simp [State.txSlot, List.getElem?_eq_none (show s.tx.slot.length ≤ i by omega)]

theorem cons_of_empty (h : Inv s) (hfree : s.tx.free = s.par.n) : s.tx.cons = s.tx.prod := by
  rw [h.tx_dist, hfree, Nat.sub_self, Nat.add_zero, Nat.mod_eq_of_lt h.tx_cons_lt]

/-- A packet of `c` slots right behind the cursor owes one event, for its handle. -/
theorem owedEvents_of_packet {ev : Handle → Event} {hd : Handle} {c : Nat} (hc : 0 < c)
    (hslot : ∀ j, j < c → s.txSlot ((s.tx.cons + j) % s.par.n) = some hd)
    (heop : ∀ j, j < c → s.txEop ((s.tx.cons + j) % s.par.n) = decide (j + 1 = c)) :
    owedEvents s ev s.tx.cons c = [ev hd] := by
  obtain ⟨k, rfl⟩ : ∃ k, c = k + 1 := ⟨c - 1, by omega⟩
  have hbefore : owedEvents s ev s.tx.cons k = [] := by
    rw [owedEvents, List.filterMap_eq_nil_iff]
    intro j hj
    have hj := List.mem_range.1 hj
    simp [heop j (by omega), Nat.ne_of_lt hj]
  unfold owedEvents at hbefore ⊢
  rw [List.range_succ, List.filterMap_append, hbefore]
  simp [heop k (by omega), hslot k (by omega)]

/-- An index moved on by less than a lap is that far ahead. -/
theorem advance_dist {n x k : Nat} (hx : x < n) (hk : k < n) : ((x + k) % n + n - x) % n = k := by
  by_cases hlap : x + k < n
  · rw [Nat.mod_eq_of_lt hlap, show x + k + n - x = k + n by omega, Nat.add_mod_right, Nat.mod_eq_of_lt hk]
  · have hwrap : (x + k) % n = x + k - n := by rw [Nat.mod_eq_sub_mod (Nat.le_of_not_lt hlap), Nat.mod_eq_of_lt (by omega)]
    rw [hwrap, show x + k - n + n - x = k by omega, Nat.mod_eq_of_lt hk]

/-- The state after a packet has been posted on an empty ring: what the reclamation walks over. -/
structure AloneInFlight (s : State) (hd : Handle) (k : Nat) (t : State) : Prop where
  inv    : Inv t
  ctl    : t.ctl = s.ctl
  events : t.port.events = s.port.events
  free   : t.tx.free + k = t.par.n
  ahead  : (t.tx.prod + t.par.n - t.tx.cons) % t.par.n = k
  owed   : owedEvents t .txDone t.tx.cons k = [.txDone hd]

theorem txpost_alone {hd : Handle} {csum : Bool} {segs : List Seg} (h : Inv s) (hon : s.ctl.enabled = true)
    (hempty : s.tx.free = s.par.n) (hf : PacketFits s segs) :
    ∃ t, exec (.txpost csum hd segs) s = .next t ∧ AloneInFlight s hd segs.length t := by
  have hfit : segs.length < s.par.n := by
    have hmax := h.legal.maxseg_lt
    have hseg := hf.maxseg
    have hn := s.par.n_pos
    omega
  have hflight : s.inFlight = 0 := by rw [State.inFlight, hempty, Nat.sub_self]
  have hfill := fillTx_filled h hd csum hf.free
  rw [wrap_of_lt h.tx_prod_lt] at hfill
  have hpost := txPost_fits h hf hfill.frame
  have ht := exec_txpost hon hpost rfl
  refine ⟨_, ht, (exec_keeps h _ _ ht).inv, rfl, rfl, ?free, ?ahead, ?owed⟩
  case free =>
    show s.tx.free - segs.length + segs.length = s.par.n
    rw [Nat.sub_add_cancel hf.free, hempty]
  case ahead =>
    show ((s.tx.prod + segs.length) % s.par.n + s.par.n - s.tx.cons) % s.par.n = _
    rw [cons_of_empty h hempty, advance_dist h.tx_prod_lt hfit]
  case owed =>
    refine owedEvents_of_packet (List.length_pos_iff.2 hf.some_seg) (fun j hj => ?_) fun j hj => ?_
    · exact (hfill.slots j (by omega)).trans (if_pos (by omega))
    · have heop := hfill.eops j (by omega)
      refine Eq.trans (txEop_congr (s := fillTx hd csum segs s.tx.prod s) (by simp) fun _ _ _ => rfl) (heop.trans ?_)
      rw [hflight, if_neg (Nat.not_lt_zero j), Nat.zero_add]

end EmptyRing

/-- Settles O21: the packet is all that lies between the cursor and the producer, so the reclamation up to there reports it and
nothing else; that the ring is empty then is read off the invariant. -/
theorem postReclaimRoundTrip : Obligations.PostReclaimRoundTrip := by
  intro s csum hd segs h hon hempty hne hmax hlens
  have hpos : 0 < segs.length := List.length_pos_iff.2 hne
  have hroom : segs.length ≤ s.tx.free := by
    have hmaxseg := h.legal.maxseg_lt
    omega
  obtain ⟨t, ht, hI, hctl, hevents, hfree, hahead, howed⟩ :=
    txpost_alone (csum := csum) (hd := hd) h hon hempty ⟨hne, hmax, hlens, hroom⟩
  have hidx : (BitVec.ofNat 16 t.tx.prod).toNat % t.par.n = t.tx.prod := by
    have hprod := hI.tx_prod_lt
    have hn := hI.legal.n_le
    rw [BitVec.toNat_ofNat, Nat.mod_eq_of_lt (show t.tx.prod < 2 ^ 16 by omega), Nat.mod_eq_of_lt hprod]
  obtain ⟨sl, hwalk, -⟩ := txReclaim_walks hI (BitVec.ofNat 16 t.tx.prod).toNat (c := segs.length)
    (by rw [hidx, hahead]) (by omega)
  have hu := exec_txreclaim (hctl ▸ hon) hwalk
  have hIu := (exec_keeps hI _ _ hu).inv
  refine ⟨t, _, ht, hu, ?events, ?result, hfree, cons_of_empty hIu hfree, txSlot_of_empty hIu hfree, ?stalled⟩
  case events =>
    show t.port.events ++ reclaimEvents t segs.length = _
    rw [reclaimEvents, howed, hevents, hctl]
    simp [hpos]
  case result =>
    rw [howed]
    rfl
  case stalled =>
    show (t.ctl.txStalled && decide (segs.length = 0)) = false
    simp [Nat.ne_of_gt hpos]

/-! ## Posting and refilling one receive slot -/

/-- `RXPOST` of a legal buffer on a slot of the ring is decided by the slot alone. -/
theorem exec_rxpost {s : State} {slot : BitVec 16} {buf : Addr} {done : State × Result} (hon : s.ctl.enabled = true)
    (hslot : slot.toNat < s.par.n) (hbuf : buf ≠ 0) (halign : buf.toNat % 8 = 0)
    (hpost : (if (s.rxSlot slot.toNat).isSome then (s, Result.err .slotBusy) else (rxPost s slot.toNat buf, Result.okVal 0)) = done)
    (hlink : done.1.link = s.link) : exec (.rxpost slot buf) s = .next (done.1.setResult done.2) := by
  have hok : ¬ (!bufferOperandOk buf) = true := by simpa [bufferOperandOk, halign] using hbuf
  exact answer_enabled hon ((if_neg (Nat.not_le.2 hslot)).trans ((if_neg hok).trans hpost)) hlink

/-- Settles O22. -/
theorem rxpostPostsOrIsBusy : Obligations.RxpostPostsOrIsBusy := by
  intro s slot buf hon hslot hbuf halign hcap hseen hn
  refine ⟨fun hfree => ?free, fun hbusy => exec_rxpost hon hslot hbuf halign (if_pos hbusy) rfl⟩
  case free =>
    obtain ⟨m, hpost, ⟨haddr, hcap⟩, hrest, hsame, -⟩ := rxPost_spec s slot.toNat buf hn hseen hcap
    have hanswer := congrArg (·, Result.okVal 0) hpost
    exact ⟨m, exec_rxpost hon hslot hbuf halign ((if_neg (by simp [hfree])).trans hanswer) rfl, haddr, hcap, hrest, hsame⟩

theorem exec_rxrefill {s : State} {slot : BitVec 16} {refill : State × Option Addr} (hon : s.ctl.enabled = true)
    (hslot : slot.toNat < s.par.n) (hrefill : rxRefill s slot.toNat = refill) (hlink : (reportRefill refill).1.link = s.link) :
    exec (.rxrefill slot) s = .next ((reportRefill refill).1.setResult (reportRefill refill).2) :=
  answer_enabled hon ((if_neg (Nat.not_le.2 hslot)).trans (congrArg reportRefill hrefill)) hlink

/-- Settles O23: the listed answer decides which of the two ends a refill can have. -/
theorem refillSwapsOrCounts : Obligations.RefillSwapsOrCounts := by
  intro s slot old h hon hslot hold
  have hcases := rxRefill_cases s slot.toNat h.legal.n_le h.dev_rx_seen (Nat.lt_succ_of_le h.legal.bufcap_le)
  rw [bufferOf_of_slot hold] at hcases
  refine ⟨fun nb rest hin hfresh => ?swap, fun rest hin => ?count⟩
  case swap =>
    have hanswer : (alloc s).2 = some nb := by rw [alloc_some s nb rest hin hfresh]
    rcases hcases with ⟨nb', m, -, ha, hrefill, ⟨haddr, hcap⟩, hsame, -⟩ | ⟨ha, -⟩
    · obtain rfl : nb' = nb := by simpa [ha] using hanswer
      refine ⟨m, (liveInsert nb' s.env.live).filter (· != old), ?_, fun b => ?_, haddr, hcap, hsame⟩
      · rw [exec_rxrefill hon hslot hrefill rfl]
        simp [reportRefill, State.dropLive, State.posted, State.setResult, Result.okVal, hin]
      · simp [mem_liveInsert]
    · simp [ha] at hanswer
  case count =>
    have hanswer : (alloc s).2 = none := by rw [alloc_none s rest hin]
    rcases hcases with ⟨nb, m, -, ha, -⟩ | ⟨-, hrefill⟩
    · simp [ha] at hanswer
    · rw [exec_rxrefill hon hslot hrefill rfl]
      simp [reportRefill, State.posted, State.setResult, Result.err, hin]

/-! ## Draining -/

theorem exec_rrdrain {s : State} {idx : BitVec 16} {drain : State × Option (List Drained)} (hon : s.ctl.enabled = true)
    (hdrain : rrDrain s idx.toNat = drain) (hlink : (reportDrain drain).1.link = s.link) :
    exec (.rrdrain idx) s = .next ((reportDrain drain).1.setResult (reportDrain drain).2) :=
  answer_enabled hon (congrArg reportDrain hdrain) hlink

/-- Settles O24: the walk over the batch in closed form, then its entries reported. -/
theorem drainHandlesBatch : Obligations.DrainHandlesBatch := by
  intro s idx c h hon hc hgood
  obtain ⟨sl, m, hdrain, hplaced⟩ := rrDrain_batch s idx.toNat c h.drainReady hc hgood
  refine ⟨sl, m, _, ?_, hplaced⟩
  rw [exec_rrdrain hon hdrain (by simp only [reportDrain, report_batch]), reportDrain, report_batch, afterAllocs_env]
  simp [State.setResult, Result.okVal]

/-- Settles O25. -/
theorem indexFaultsRefused : Obligations.IndexFaultsRefused := by
  refine fun s idx h hon => ⟨fun hover => ?txreclaim, fun c hc hbad => ?rrdrain⟩
  case txreclaim => exact exec_txreclaim hon (txReclaim_overclaims h idx.toNat rfl hover)
  case rrdrain => exact exec_rrdrain hon (rrDrain_refused s idx.toNat c h.rr_cons_lt hc hbad) rfl

end Sys2Proof.Machine

/-! O26 to O31, O33: the servicing pass and the tick (42_status_block_poller.md R161 to R169). A pass is the link's part, then the
one read of the status block, then the two walks; each part is settled first, as a whole next state. -/

namespace Sys2Proof.Machine

/-! ## The pass -/

theorem servicePass_code (s : State) (lc : Bool) : (servicePass s lc).2.code = .ok := by
  simp only [servicePass]
  split <;> rfl

theorem onInterrupt_code (s : State) : (onInterrupt s).2.code = .ok := by
  simp only [onInterrupt]
  split
  · split
    · exact servicePass_code ..
    · rfl
  · rfl

/-- Settles O26: only the last epoch keeps a pass from answering, and every branch answers `OK`. -/
theorem passAlwaysOk : Obligations.PassAlwaysOk := fun s hepoch =>
  ⟨_, (onInterrupt s).2.val, answer_next s (onInterrupt s) (.inl hepoch),
    congrArg (fun c => some (Result.mk c (onInterrupt s).2.val)) (onInterrupt_code s)⟩

theorem workSummary_nothing : workSummary 0 false false = 0 := workSummary_eq 0 false (Nat.succ_pos _)

/-- A pass that has no link interrupt to take is the read of the status block, behind the link gate. -/
theorem onInterrupt_no_link {s : State} (hon : s.ctl.enabled = true) (hirq : s.poll.irqLink = false) :
    onInterrupt s = if s.link.up then servicePass s false else (s, Result.okVal 0) := by
  have hservice : serviceLink s = s := if_neg (by simp [hirq])
  simp only [onInterrupt, if_pos hon, hservice, bne_self_eq_false, workSummary_nothing]

/-- The machine with its link interrupt taken (44_link_fsm.md R191). -/
def linkTaken (s : State) : State := { s with poll := { s.poll with irqLink := false } }

/-- A pass that keeps the gate open goes on to the read of the status block. -/
theorem onInterrupt_open {s : State} (hon : s.ctl.enabled = true) (hup : s.link.up = true) (hgate : GateStaysOpen s) :
    onInterrupt s = servicePass (linkTaken s) false := by
  simp only [onInterrupt, if_pos hon, serviceLink_open s hgate, bne_self_eq_false, hup, if_true]
  rfl

/-! ## The read of the status block -/

/-- With no index changed and the link as it was, only `irq_ring` and the tag move (42_status_block_poller.md R163). -/
theorem servicePass_unchanged {s : State} (htx : s.memRead s.par.sbBase 2 % s.par.n = s.poll.snapTxCons)
    (hrr : s.memRead (s.par.sbBase + 2) 2 % s.par.n = s.poll.snapRrProd) :
    servicePass s false = ({ s with poll := { s.poll with irqRing := false,
                                                          snapTag := BitVec.ofNat 32 (s.memRead (s.par.sbBase + 4) 4) } },
      Result.okVal 0) := by
  obtain ⟨h1, h2, h3⟩ := statusBlock_fields s
  simp only [servicePass, h1, h2, h3, htx, hrr, and_self, if_true, workSummary_nothing]

/-- With an index changed the two walks are run, on a machine whose `irq_ring` is taken. -/
theorem servicePass_changed {s : State} (lc : Bool) {g r : Nat} (hg : g = s.memRead s.par.sbBase 2 % s.par.n)
    (hr : r = s.memRead (s.par.sbBase + 2) 2 % s.par.n) (hne : g ≠ s.poll.snapTxCons ∨ r ≠ s.poll.snapRrProd) :
    servicePass s lc = dispatchPass { s with poll := { s.poll with irqRing := false } } g r
      (BitVec.ofNat 32 (s.memRead (s.par.sbBase + 4) 4)) lc := by
  obtain ⟨h1, h2, h3⟩ := statusBlock_fields s
  simp only [servicePass, h1, h2, h3, ← hg, ← hr]
  exact if_neg fun hsame => hne.elim (· hsame.1) (· hsame.2)

/-- Settles O27: the gate decides whether the status block is read. -/
theorem passWithoutWork : Obligations.PassWithoutWork := by
  refine fun s hon => ⟨fun hup hgate htx hrr => ?unchanged, fun hdown hirq => ?down⟩
  case unchanged =>
    have hpass := (onInterrupt_open hon hup hgate).trans (servicePass_unchanged (s := linkTaken s) htx hrr)
    exact (congrArg (answer s) hpass).trans (answer_of_link _ rfl)
  case down => exact answer_refused ((onInterrupt_no_link hon hirq).trans (if_neg (by simp [hdown])))

/-! ## The two walks -/

/-- The receive side of a pass: the drain, then the entries it answers handed over (43_packet_io.md R183). -/
def deliverDrain (done : State × Option (List Drained)) : State × Nat :=
  match done with
  | (s1, some out) => rxDeliver out s1
  | (s1, none) => (s1, 0)

/-- A pass with work, from what its two walks leave. -/
theorem dispatchPass_of_walks {s u v : State} {t r nd : Nat} {g : Word} {lc txr : Bool} (htx : (txReclaim s t).1 = u)
    (hbit : ((txReclaim s t).2.code == .ok && (txReclaim s t).2.val.extractLsb' 0 16 != 0) = txr)
    (hrx : deliverDrain (rrDrain u r) = (v, nd)) :
    dispatchPass s t r g lc = (storeSnapshot v t r g, Result.okVal (workSummary nd lc txr)) := by
  have hshape : dispatchPass s t r g lc =
      (storeSnapshot (deliverDrain (rrDrain (txReclaim s t).1 r)).1 t r g,
        Result.okVal (workSummary (deliverDrain (rrDrain (txReclaim s t).1 r)).2 lc
          ((txReclaim s t).2.code == .ok && (txReclaim s t).2.val.extractLsb' 0 16 != 0))) := rfl
  rw [hshape, htx, hbit, hrx]

/-- An index that a distance of 0 leads to is the cursor. -/
theorem eq_of_dist_zero {n x y : Nat} (hx : x < n) (hy : y < n) (h : (x + n - y) % n = 0) : x = y := by
  by_cases hle : y ≤ x
  · rw [show x + n - y = x - y + n by omega, Nat.add_mod_right, Nat.mod_eq_of_lt (by omega)] at h
    omega
  · rw [Nat.mod_eq_of_lt (by omega)] at h
    omega

/-- An empty batch leaves everything, a refused one sets `fault[1]` (41_ring_manager.md R152); neither delivers. -/
theorem deliverDrain_no_batch {s : State} (hr : s.rx.rrCons < s.par.n) {r d : Nat} (hlt : r < s.par.n)
    (hd : d = (r + s.par.n - s.rx.rrCons) % s.par.n) (h : d = 0 ∨ refusedBatch s d) :
    deliverDrain (rrDrain s r) =
      ({ s with ctl := { s.ctl with faultRrIdx := s.ctl.faultRrIdx || decide (0 < d) } }, 0) := by
  rcases Nat.eq_zero_or_pos d with h0 | hpos
  · have hsame : r = s.rx.rrCons := eq_of_dist_zero hlt hr (hd.symm.trans h0)
    rw [rrDrain_nothing s r hr ((wrap_of_lt hlt).trans hsame)]
    simp [h0, deliverDrain, rxDeliver]
  · have hrefused := h.resolve_left (Nat.ne_of_gt hpos)
    rw [rrDrain_refused s r d hr (by rw [Nat.mod_eq_of_lt hlt, hd]) hrefused]
    simp [hpos, deliverDrain]

/-- No more frames are delivered than a batch has entries. -/
theorem batchDelivered_le (s : State) (d : Nat) : batchDelivered s d ≤ d := by
  simpa [batchDelivered] using List.countP_le_length (l := List.range d) (p := fun j => (batchFresh s j).isSome && batchFits s j)

/-- What a batch is read from and what it changes, alike in two states: the transmit walk of a pass touches none of it. -/
structure SameBatch (s u : State) : Prop where
  par : u.par = s.par := by rfl
  rx  : u.rx = s.rx := by rfl
  mem : u.mem = s.mem := by rfl
  env : u.env = s.env := by rfl
  csr : u.csr = s.csr := by rfl
  dev : u.dev = s.dev := by rfl

namespace SameBatch

variable {s u : State}

theorem ready (h : SameBatch s u) (hr : DrainReady s) : DrainReady u := by
  obtain ⟨h1, h2, h3, h4, h5, h6⟩ := hr
  constructor <;> simpa only [h.par, h.rx, h.dev]

theorem good (h : SameBatch s u) {d : Nat} (hg : goodBatch s d) : goodBatch u d := by
  obtain ⟨hslot, -⟩ := batch_congr h.par h.rx h.mem h.env
  rwa [goodBatch, hslot, h.par]

theorem refused (h : SameBatch s u) {d : Nat} (hr : refusedBatch s d) : refusedBatch u d := by
  obtain ⟨hslot, -⟩ := batch_congr h.par h.rx h.mem h.env
  rwa [refusedBatch, hslot, h.par]

theorem rings (h : SameBatch s u) : batchCsrs u = batchCsrs s ∧ batchDevice u = batchDevice s := by
  constructor
  · funext d; simp only [batchCsrs, h.par, h.rx, h.csr]
  · funext d; simp only [batchDevice, h.par, h.rx, h.dev]

theorem handover (h : SameBatch s u) :
    batchHandover u = batchHandover s ∧ batchDelivered u = batchDelivered s ∧ batchMisfits u = batchMisfits s := by
  obtain ⟨-, hlen, hflags, -, hold, -, hfresh, -⟩ := batch_congr h.par h.rx h.mem h.env
  have hfits : batchFits u = batchFits s := by funext j; simp only [batchFits, hlen, h.par]
  refine ⟨?_, ?_, ?_⟩
  · funext j; simp only [batchHandover, hfresh, hfits, hold, hlen, hflags]
  · funext d; simp only [batchDelivered, hfresh, hfits]
  · funext d; simp only [batchMisfits, hfresh, hfits]

/-- A good batch is drained as by the direct command and its refilled entries are handed over, all in the terms of `s`
(42_status_block_poller.md R161, 43_packet_io.md R180 to R183). -/
theorem deliverDrain (h : SameBatch s u) (hr : DrainReady s) {r d : Nat} (hlt : r < s.par.n)
    (hd : d = (r + s.par.n - s.rx.rrCons) % s.par.n) (hgood : goodBatch s d) :
    ∃ (sl : List (Option Addr)) (m : List Host.Cell) (lv : List Addr),
      Machine.deliverDrain (rrDrain u r) = ({ u with
        rx := { prod := (s.rx.prod + d) % s.par.n, slot := sl, rrCons := (s.rx.rrCons + d) % s.par.n }
        ctl := { u.ctl with cntRxDrop := u.ctl.cntRxDrop + BitVec.ofNat 32 (batchDrops s d + batchMisfits s d),
                            cntRxNobuf := u.ctl.cntRxNobuf + BitVec.ofNat 32 (batchMisses s d) }
        csr := batchCsrs s d
        dev := batchDevice s d
        env := { s.env with live := lv, allocIn := s.env.allocIn.drop (batchCalls s d),
                            allocCalls := s.env.allocCalls + batchCalls s d }
        mem := m
        port := { u.port with events := u.port.events ++ (List.range d).filterMap (batchHandover s) } },
        batchDelivered s d) ∧
      BatchPlaced s d sl m lv := by
  obtain ⟨sl, m, hdrain, hplaced⟩ := rrDrain_batch u r d (h.ready hr)
    (by rw [h.par, h.rx, Nat.mod_eq_of_lt hlt, hd]) (h.good hgood)
  obtain ⟨-, -, -, -, -, hcalls, -, hdrops, hmisses⟩ := batch_congr h.par h.rx h.mem h.env
  obtain ⟨hcsrs, hdevice⟩ := h.rings
  obtain ⟨hhandover, hdelivered, hmisfits⟩ := h.handover
  refine ⟨sl, m, _, ?_, hplaced.of_same h.par h.rx h.mem h.env⟩
  rw [hdrain, Machine.deliverDrain, rxDeliver_batch]
  swap; rfl
  rw [← hhandover, ← hdelivered, ← hmisfits, ← hdrops, ← hmisses, ← hcalls, ← hcsrs, ← hdevice, ← h.rx, ← h.par, ← h.env,
    BitVec.ofNat_add, ← BitVec.add_assoc]
  dsimp only
  rw [afterAllocs_env]
  rfl

end SameBatch

/-! ## A pass with work -/

/-- A pass that keeps the gate open and finds the indices `g` and `r`, one of them changed. -/
structure PassWork (s : State) (g r : Nat) : Prop where
  on      : s.ctl.enabled = true
  up      : s.link.up = true
  gate    : GateStaysOpen s
  tx      : g = s.memRead s.par.sbBase 2 % s.par.n
  rr      : r = s.memRead (s.par.sbBase + 2) 2 % s.par.n
  changed : g ≠ s.poll.snapTxCons ∨ r ≠ s.poll.snapRrProd

/-- The machine after the transmit walk of a pass: both interrupts taken, the claim of `c` completions settled, `w` slots freed
(41_ring_manager.md R144). -/
def passReclaimed (s : State) (c w : Nat) (sl : List (Option Handle)) : State :=
  { s with
    tx := { s.tx with cons := (s.tx.cons + w) % s.par.n, free := s.tx.free + w, slot := sl }
    poll := { s.poll with irqRing := false, irqLink := false, wdProgress := s.poll.wdProgress || decide (0 < w) }
    ctl := { s.ctl with txStalled := s.ctl.txStalled && decide (w = 0),
                        faultTxIdx := s.ctl.faultTxIdx || decide (s.par.n - s.tx.free < c) }
    port := { s.port with events := s.port.events ++ reclaimEvents s w } }

theorem sameBatch_passReclaimed (s : State) (c w : Nat) (sl : List (Option Handle)) : SameBatch s (passReclaimed s c w sl) := {}

namespace PassWork

variable {s : State} {g r : Nat}

theorem rr_lt (p : PassWork s g r) : r < s.par.n := by
  rw [p.rr]
  exact Nat.mod_lt _ s.par.n_pos

/-- The pass from what its walks leave: the snapshot is stored, and the result counts the frames and says whether a slot was
freed (42_status_block_poller.md R165). -/
theorem exec_onint (p : PassWork s g r) (h : Inv s) {c w : Nat} (hc : c = (g + s.par.n - s.tx.cons) % s.par.n)
    (hw : w = reclaimed s c) :
    ∃ sl : List (Option Handle), SlotsFreed s w sl ∧
      ∀ (v : State) (nd : Nat), deliverDrain (rrDrain (passReclaimed s c w sl) r) = (v, nd) → v.link = s.link → nd < 65536 →
        exec .onint s = .next ((storeSnapshot v g r (BitVec.ofNat 32 (s.memRead (s.par.sbBase + 4) 4))).setResult
          (Result.okVal (BitVec.ofNat 64 (65536 * nd + if w = 0 then 0 else 1)))) := by
  have hp := h.parts
  have hinv : Inv { s with poll := { s.poll with irqRing := false, irqLink := false } } :=
    InvParts.inv { hp with poll := { hp.poll with } }
  have hgn : g % s.par.n = g := by rw [p.tx, Nat.mod_mod]
  obtain ⟨sl, htx, hbit, hlen, hfreed, hothers⟩ := txReclaim_spec _ g c w hinv (by rw [hgn]; exact hc) hw
  refine ⟨sl, ⟨hlen, hfreed, hothers⟩, fun v nd hrx hlink hnd => ?_⟩
  have hpass := (onInterrupt_open p.on p.up p.gate).trans
    ((servicePass_changed (s := linkTaken s) false p.tx p.rr p.changed).trans (dispatchPass_of_walks htx hbit hrx))
  have hsummary : workSummary nd false (decide (0 < w)) = BitVec.ofNat 64 (65536 * nd + if w = 0 then 0 else 1) := by
    rw [workSummary_eq nd _ hnd]
    by_cases h0 : w = 0 <;> simp [h0, Nat.pos_iff_ne_zero]
  rw [hsummary] at hpass
  exact (congrArg (answer s) hpass).trans (answer_of_link _ hlink)

end PassWork

/-- Settles O29: after the transmit walk the drain has nothing to do or is refused. -/
theorem passReclaims : Obligations.PassReclaims := by
  intro s g r c d w h hon hup hgate hg hr hne hc hw hd hbatch
  have hwork : PassWork s g r := ⟨hon, hup, hgate, hg, hr, hne⟩
  obtain ⟨sl, hfreed, hpass⟩ := hwork.exec_onint h hc hw
  have hsame := sameBatch_passReclaimed s c w sl
  have hrx := deliverDrain_no_batch (s := passReclaimed s c w sl) h.rr_cons_lt hwork.rr_lt hd (hbatch.imp id hsame.refused)
  refine ⟨sl, (hpass _ 0 hrx rfl (by omega)).trans ?_, hfreed⟩
  split <;> rfl

/-- Settles O30: the transmit walk touches nothing of what the batch is read from. -/
theorem passDeliversFrame : Obligations.PassDeliversFrame := by
  intro s g r c d w h hon hup hgate hg hr hne hc hw hd hgood
  have hwork : PassWork s g r := ⟨hon, hup, hgate, hg, hr, hne⟩
  obtain ⟨tsl, hfreed, hpass⟩ := hwork.exec_onint h hc hw
  obtain ⟨sl, m, lv, hrx, hplaced⟩ :=
    (sameBatch_passReclaimed s c w tsl).deliverDrain h.drainReady hwork.rr_lt hd hgood
  have hcount : batchDelivered s d < 65536 := by
    have hle := batchDelivered_le s d
    have hdn : d < s.par.n := by rw [hd]; exact Nat.mod_lt _ s.par.n_pos
    have hn := h.legal.n_le
    omega
  exact ⟨tsl, sl, m, lv, hpass _ _ hrx rfl hcount, hfreed, hplaced⟩

/-! ## A pass repeated -/

theorem txReclaim_poll {s : State} (h : Inv s) (t : Nat) :
    (txReclaim s t).1.poll = { s.poll with wdProgress := (txReclaim s t).1.poll.wdProgress } := by
  obtain ⟨sl, htx, -⟩ := txReclaim_spec s t _ _ h rfl rfl
  rw [htx]

theorem deliverDrain_poll {s : State} (h : Inv s) {r : Nat} (hlt : r < s.par.n) :
    (deliverDrain (rrDrain s r)).1.poll = s.poll := by
  by_cases hgood : goodBatch s ((r + s.par.n - s.rx.rrCons) % s.par.n)
  · obtain ⟨sl, m, lv, hdrain, -⟩ := SameBatch.deliverDrain (s := s) (u := s) {} h.drainReady hlt rfl hgood
    rw [hdrain]
  · rw [deliverDrain_no_batch h.rr_cons_lt hlt rfl (.inr ((refusedBatch_iff s _).2 hgood))]

/-- A pass with work stores its snapshot and leaves both interrupts as they are. -/
theorem dispatchPass_poll {s : State} (h : Inv s) {t r : Nat} (hr : r < s.par.n) (g : Word) (lc : Bool) :
    ∃ progress, (dispatchPass s t r g lc).1.poll =
      { s.poll with snapTxCons := t, snapRrProd := r, snapTag := g, wdProgress := progress } := by
  have htx := txReclaim_keeps h t
  have hpoll := deliverDrain_poll htx.inv (r := r) (by rwa [txReclaim_par])
  obtain ⟨v, nd, hrx⟩ : ∃ v nd, deliverDrain (rrDrain (txReclaim s t).1 r) = (v, nd) := ⟨_, _, rfl⟩
  rw [hrx] at hpoll
  rw [dispatchPass_of_walks rfl rfl hrx, storeSnapshot, hpoll, txReclaim_poll h]
  exact ⟨_, rfl⟩

theorem sb_byte {p : Params} {a : Nat} (hlo : p.sbBase ≤ a) (hhi : a < p.sbBase + 8) : ¬ Region.sb.avoids p a := by
  simp only [Region.avoids, outside, Region.base, Region.size]
  omega

/-- A pass writes no byte of the status block (20_memory.md R89). -/
theorem statusBlock_of_writesOnly {s t : State} (hp : s.par.Legal) (h : WritesOnly [.rx] s t) : statusBlock t = statusBlock s := by
  have hsb : Memory.readLE t.mem s.par.sbBase 8 = Memory.readLE s.mem s.par.sbBase 8 := readLE_congr _ _ fun a hlo hhi =>
    h.bytes a fun r hr => by
      obtain rfl := List.mem_singleton.1 hr
      exact Region.avoids_of_ne hp (sb_byte hlo hhi) nofun
  rw [statusBlock, State.memRead, h.par, hsb]
  rfl

/-- The poller has taken what stands in the status block. -/
structure SnapshotTaken (s : State) : Prop where
  ring : s.poll.irqRing = false
  tx   : s.poll.snapTxCons = sbTxCons s.par (statusBlock s)
  rr   : s.poll.snapRrProd = sbRrProd s.par (statusBlock s)
  tag  : s.poll.snapTag = sbTag (statusBlock s)

theorem servicePass_takes {s : State} (h : Inv s) (lc : Bool) : SnapshotTaken (servicePass s lc).1 := by
  have hp := h.parts
  have htake : Inv { s with poll := { s.poll with irqRing := false } } := InvParts.inv { hp with poll := { hp.poll with } }
  have hsb := statusBlock_of_writesOnly h.legal (servicePass_writesOnly h lc)
  have hpar := servicePass_par s lc
  suffices hpoll : ∃ progress, (servicePass s lc).1.poll =
      { s.poll with irqRing := false, snapTxCons := sbTxCons s.par (statusBlock s),
                    snapRrProd := sbRrProd s.par (statusBlock s), snapTag := sbTag (statusBlock s),
                    wdProgress := progress } by
    obtain ⟨progress, hpoll⟩ := hpoll
    constructor <;> simp only [hpoll, hsb, hpar]
  simp only [servicePass]
  split
  · next hsame => exact ⟨s.poll.wdProgress, by rw [hsame.1, hsame.2]⟩
  · exact dispatchPass_poll htake (wrap_lt ..) _ lc

theorem SnapshotTaken.setResult {s : State} (h : SnapshotTaken s) (r : Result) : SnapshotTaken (s.setResult r) :=
  ⟨h.ring, h.tx, h.rr, h.tag⟩

/-- With its snapshot taken a pass reads the status block and does nothing (42_status_block_poller.md R163, R166). -/
theorem SnapshotTaken.servicePass {s : State} (h : SnapshotTaken s) : servicePass s false = (s, Result.okVal 0) := by
  obtain ⟨hring, htx, hrr, htag⟩ := h
  have hkept : { s.poll with irqRing := false, snapTag := sbTag (statusBlock s) } = s.poll := by rw [← hring, ← htag]
  rw [Machine.servicePass, ← htx, ← hrr, if_pos ⟨rfl, rfl⟩, workSummary_nothing]
  exact congrArg (fun q => ({ s with poll := q }, Result.okVal 0)) hkept

/-- After a pass of an enabled adapter either the link is down or the snapshot is taken. -/
theorem onInterrupt_takes {s : State} (h : Inv s) (hon : s.ctl.enabled = true) (hup : (onInterrupt s).1.link.up = true) :
    SnapshotTaken (onInterrupt s).1 := by
  have hinv := (serviceLink_keeps h hon).1.inv
  simp only [onInterrupt, if_pos hon] at hup ⊢
  split at hup
  · next hopen => simpa only [if_pos hopen] using servicePass_takes hinv _
  · next hclosed => exact absurd hup hclosed

/-- Settles O28: the second pass finds no link interrupt and, behind an open gate, the snapshot of the first. -/
theorem passIsIdempotent : Obligations.PassIsIdempotent := by
  intro s t h ht hirq
  have hpass := answer_eq_next ht
  suffices hrest : onInterrupt t = (t, Result.okVal 0) from answer_refused hrest
  by_cases hont : t.ctl.enabled = true
  · have hon : s.ctl.enabled = true := by
      by_contra hoff
      have hnothing : onInterrupt s = (s, Result.okVal 0) := if_neg hoff
      rw [hpass, hnothing] at hont
      exact hoff hont
    rw [onInterrupt_no_link hont hirq]
    split
    · next hup =>
      rw [hpass] at hup ⊢
      exact ((onInterrupt_takes h hon hup).setResult _).servicePass
    · rfl
  · exact if_neg hont

/-! ## The tick -/

/-- Work is pending with the link up and nothing was reclaimed since the last tick (42_status_block_poller.md R168). -/
abbrev Stalls (s : State) : Prop := s.link.up = true ∧ s.tx.free < s.par.n ∧ s.poll.wdProgress = false

/-- `wd_check()`: the count grows in a stall and is 0 otherwise; the progress flag is cleared. -/
theorem wdCheck_eq (s : State) : wdCheck s =
    { s with poll := { s.poll with wdStallTicks := if Stalls s then s.poll.wdStallTicks + 1 else 0, wdProgress := false } } := by
  by_cases hpending : s.link.up = true ∧ s.tx.free < s.par.n
  · by_cases hprogress : s.poll.wdProgress = true <;> simp [wdCheck, Stalls, hpending, hprogress]
  · have hno : ¬ Stalls s := fun h => hpending ⟨h.1, h.2.1⟩
    have hidle : ¬ (s.link.up && decide (s.tx.free < s.par.n)) = true := by simpa using hpending
    rw [wdCheck, if_neg hno, if_neg hidle]

/-- The watchdog fires on the tick that completes the timeout, and on no other. -/
theorem wdCheck_fires_iff {s : State} (h : Inv s) : s.par.wdTimeout ≤ (wdCheck s).poll.wdStallTicks.toNat ↔
    s.link.up = true ∧ s.tx.free < s.par.n ∧ s.poll.wdProgress = false ∧ s.par.wdTimeout = s.poll.wdStallTicks.toNat + 1 := by
  have hlt := h.stall_lt
  have hpos := h.legal.wd_pos
  have hle := h.legal.wd_le
  rw [wdCheck_eq]
  by_cases hstall : Stalls s
  · obtain ⟨hup, hfree, hprogress⟩ := hstall
    have hsucc : (s.poll.wdStallTicks + 1).toNat = s.poll.wdStallTicks.toNat + 1 :=
      BitVec.toNat_add_of_lt (y := 1) (show _ + 1 < 2 ^ 16 by omega)
    simp only [Stalls, hup, hfree, hprogress, and_self, if_true, hsucc, true_and]
    omega
  · have hno : ¬ (s.link.up = true ∧ s.tx.free < s.par.n ∧ s.poll.wdProgress = false ∧
        s.par.wdTimeout = s.poll.wdStallTicks.toNat + 1) := fun ⟨hup, hfree, hprogress, _⟩ => hstall ⟨hup, hfree, hprogress⟩
    have hzero : (0 : BitVec 16).toNat = 0 := rfl
    simp only [if_neg hstall, iff_false_right hno, hzero]
    omega

theorem tick_quiet {s : State} (hon : s.ctl.enabled = true) (h : ¬ s.par.wdTimeout ≤ (wdCheck s).poll.wdStallTicks.toNat) :
    tick s = negTick (wdCheck s) :=
  (if_pos hon).trans (if_neg h)

/-- A firing watchdog resets the adapter, which looks at nothing the tick has changed (42_status_block_poller.md R169). -/
theorem tick_fires {s : State} (hon : s.ctl.enabled = true) (h : s.par.wdTimeout ≤ (wdCheck s).poll.wdStallTicks.toNat) :
    tick s = (adapterReset (s.emit .hwTimeout), Result.err .hardwareTimeout) := by
  have hreset : adapterReset ((wdCheck s).emit .hwTimeout) = adapterReset (s.emit .hwTimeout) :=
    adapterReset_withPoll (s.emit .hwTimeout) (wdCheck s).poll
  rw [← hreset]
  exact (if_pos hon).trans (if_pos h)

/-- Settles O31: a tick that does not fire is the watchdog's count, and outside `Negotiating` nothing more. -/
theorem tickCountsStall : Obligations.TickCountsStall := by
  intro s h hon hstate hquiet
  have htick := tick_quiet hon (mt (wdCheck_fires_iff h).1 hquiet)
  have hneg : negTick (wdCheck s) = (wdCheck s, Result.okVal 0) := if_neg hstate
  exact ((congrArg (answer s) (htick.trans hneg)).trans (answer_of_link _ rfl)).trans (by rw [wdCheck_eq]; rfl)

/-! ## The adapter reset (45_lifecycle.md R226) -/

/-- A device that is reset and not active. -/
def idleDevice : Device :=
  { active := false, txCons := 0, txSeen := 0, txPending := 0, rxCons := 0, rxSeen := 0, rxAvail := 0, rrProd := 0, rrSeen := 0,
    tag := 0 }

/-- `DEV_CTRL` written with the reset bit alone: the device idle, the mailboxes and the status block 0. -/
theorem resetDevice_spec (s : State) : ∃ m,
    regWrite s .devCtrl 0x00000002 = { s with
      csr := { s.csr with devCtrlEn := false, mbTxProd := 0, mbRxProd := 0, mbRrCons := 0 }, dev := idleDevice, mem := m } ∧
    (∀ b, s.par.sbBase ≤ b → b < s.par.sbBase + 8 → Memory.byteAt m b = 0) ∧ sameOutside s.mem m s.par.sbBase 8 := by
  obtain ⟨m, hreset, hzero, hsame, -⟩ :=
    devReset_spec { s with csr := { s.csr with devCtrlEn := false }, dev := { s.dev with active := false } }
  exact ⟨m, hreset, hzero, hsame⟩

/-- `ring_init` and enabling the device, with the memory they leave. -/
theorem rearm_spec (s : State) : ∃ m,
    rearm s = { s with
      tx := emptyTx s.par, rx := { s.rx with prod := 0, rrCons := 0 }, poll := emptyPoller false
      ctl := { s.ctl with txStalled := false }, csr := { s.csr with devCtrlEn := true }, dev := { s.dev with active := true }
      mem := m } ∧
    (∀ i b, i < s.par.n → inSlot s.par i b → Memory.byteAt m b = 0) ∧
    ∀ b, Region.tx.avoids s.par b → Region.rx.avoids s.par b → Region.rr.avoids s.par b →
      Memory.byteAt m b = Memory.byteAt s.mem b := by
  obtain ⟨m, hinit, hzero, hsame, -⟩ := ringInit_spec s
  exact ⟨m, by rw [rearm, hinit]; rfl, hzero, hsame⟩

/-- The bytes of the descriptors of slot `i` are bytes of their rings. -/
theorem inSlot_of_tx {p : Params} {i a : Nat} (hi : i < p.n) (hlo : txDescAddr p i ≤ a) (hhi : a < txDescAddr p i + 16) :
    inSlot p i a ∧ ¬ Region.tx.avoids p a := by
  obtain ⟨hbase, hend⟩ := txDesc_inside hi
  simp only [inSlot, Region.avoids, outside, Region.base, Region.size]
  omega

theorem inSlot_of_rr {p : Params} {i a : Nat} (hi : i < p.n) (hlo : rrDescAddr p i ≤ a) (hhi : a < rrDescAddr p i + 8) :
    inSlot p i a ∧ ¬ Region.rr.avoids p a := by
  obtain ⟨hbase, hend⟩ := rrDesc_inside hi
  simp only [inSlot, Region.avoids, outside, Region.base, Region.size]
  omega

/-- Rings zeroed, with a descriptor written to every receive slot and nothing written outside the receive ring. -/
theorem ringsPosted_of_zeroed {p : Params} (hp : p.Legal) {m0 m : List Host.Cell} {bufs : List Addr} (hbufs : bufs.length = p.n)
    (hzero : ∀ i a, i < p.n → inSlot p i a → Memory.byteAt m0 a = 0)
    (hsb : ∀ a, p.sbBase ≤ a → a < p.sbBase + 8 → Memory.byteAt m0 a = 0)
    (hkept : ∀ a, Region.rx.avoids p a → Memory.byteAt m a = Memory.byteAt m0 a)
    (hdesc : ∀ i b, bufs[i]? = some b → RxDescIs p m i b ∧ Memory.readLE m (rxDescAddr p i + 10) 6 = 0) :
    RingsPosted p bufs m := by
  have hother : ∀ {a : Nat} {r : Region}, ¬ r.avoids p a → Region.rx ≠ r → Memory.byteAt m a = Memory.byteAt m0 a :=
    fun hr hne => hkept _ (Region.avoids_of_ne hp hr hne)
  have hget : ∀ i, i < p.n → ∃ b, bufs[i]? = some b := fun i hi => ⟨_, List.getElem?_eq_getElem (hbufs ▸ hi)⟩
  constructor
  case tx_zero =>
    refine fun i hi => readLE_eq_zero _ _ _ fun a hlo hhi => ?_
    obtain ⟨hin, hregion⟩ := inSlot_of_tx hi hlo hhi
    exact (hother hregion nofun).trans (hzero i a hi hin)
  case rr_zero =>
    refine fun i hi => readLE_eq_zero _ _ _ fun a hlo hhi => ?_
    obtain ⟨hin, hregion⟩ := inSlot_of_rr hi hlo hhi
    exact (hother hregion nofun).trans (hzero i a hi hin)
  case rx_addr => exact fun i b hb => (hdesc i b hb).1.addr
  case rx_cap =>
    intro i hi
    obtain ⟨b, hb⟩ := hget i hi
    exact (hdesc i b hb).1.cap
  case rx_rest =>
    intro i hi
    obtain ⟨b, hb⟩ := hget i hi
    exact (hdesc i b hb).2
  case sb_zero => exact readLE_eq_zero _ _ _ fun a hlo hhi => (hother (sb_byte hlo hhi) nofun).trans (hsb a hlo hhi)

/-- The rings initialised and a buffer posted to every slot, on a machine whose device is reset: the end that `START` and the
adapter reset share (45_lifecycle.md R220, R221, R226). -/
theorem rearmed_spec {s : State} (hp : s.par.Legal) (hdev : s.dev = idleDevice) (hlen : s.rx.slot.length = s.par.n)
    (hsb : ∀ a, s.par.sbBase ≤ a → a < s.par.sbBase + 8 → Memory.byteAt s.mem a = 0) {bufs : List Addr}
    (hbufs : bufs.length = s.par.n) :
    ∃ m, postBuffers bufs 0 (rearm s) = { s with
        tx := emptyTx s.par
        rx := { prod := 0, slot := bufs.map some, rrCons := 0 }
        poll := emptyPoller false
        ctl := { s.ctl with txStalled := false }
        csr := { s.csr with devCtrlEn := true, mbRxProd := 0 }
        dev := armedDevice s.par
        mem := m } ∧
      RingsPosted s.par bufs m := by
  have hn := s.par.n_pos
  have hne : bufs ≠ [] := List.ne_nil_of_length_pos (hbufs ▸ hn)
  have hround : (0 + bufs.length) % s.par.n = 0 := by rw [Nat.zero_add, hbufs, Nat.mod_self]
  obtain ⟨m0, hrearm, hzero, hkept⟩ := rearm_spec s
  obtain ⟨m, sl, mb, d, hpost, hmb, -, hslots, hdesc, -, hd, -, hcredit, -⟩ := postBuffers_spec bufs 0 (rearm s)
    (by rw [hrearm]; exact hp.n_le) (by rw [hrearm, hdev]; exact hn)
    (by rw [hrearm]; exact Nat.lt_succ_of_le hp.bufcap_le) (by rw [hrearm, Nat.zero_add, hbufs, hlen])
  have hwrites : WritesOnly [.rx] (rearm s) (postBuffers bufs 0 (rearm s)) :=
    postBuffers_writesOnly (by rw [rearm_par, Nat.zero_add, hbufs])
  rw [hpost, hrearm] at hwrites
  rw [hrearm] at hmb hslots hdesc hd hcredit
  simp only [Nat.zero_add] at hdesc
  have hmailbox : mb = 0 := hmb.trans ((if_neg hne).trans (congrArg (BitVec.ofNat 32) hround))
  have hslot : sl = bufs.map some := List.ext_getElem? fun j => by
    rw [hslots j, List.getElem?_map]
    by_cases hj : j < bufs.length
    · rw [if_pos ⟨Nat.zero_le j, by omega⟩, Nat.sub_zero]
    · rw [if_neg (by omega), List.getElem?_eq_none (by dsimp only; omega), List.getElem?_eq_none (by omega)]
      rfl
  have hdevice : d = armedDevice s.par := by
    obtain ⟨havail, hseen⟩ := hcredit rfl (by rw [hdev]; rfl) (by rw [hdev, hbufs]; exact Nat.le_of_eq (Nat.zero_add _))
      hp.two_le_n
    rw [hd, havail, hseen, if_neg hne, hround, hdev, hbufs]
    simp [idleDevice, armedDevice]
  refine ⟨m, by rw [hpost, hrearm, hmailbox, hslot, hdevice, if_neg hne, hround], ?_⟩
  refine ringsPosted_of_zeroed hp hbufs hzero (fun a hlo hhi => ?_) (fun a ha => hwrites.bytes a (by simpa using ha)) hdesc
  have havoids : ∀ r, r ≠ Region.sb → r.avoids s.par a := fun r hr => Region.avoids_of_ne hp (sb_byte hlo hhi) hr
  exact (hkept a (havoids _ nofun) (havoids _ nofun) (havoids _ nofun)).trans (hsb a hlo hhi)

/-- The receive slots of an enabled adapter hold the buffers that its reset posts again. -/
theorem rxSlots_full {s : State} (h : Inv s) (hon : s.ctl.enabled = true) : s.rx.slot = (heldBuffers s).map some := by
  refine List.ext_getElem? fun i => ?_
  by_cases hi : i < s.par.n
  · obtain ⟨b, hb⟩ := Option.isSome_iff_exists.1 (h.rx_on hon i hi)
    have hlen : i < s.rx.slot.length := by rw [h.rx_len]; exact hi
    have hget : s.rx.slot[i] = some b := by rw [← hb, State.rxSlot, List.getD_eq_getElem _ _ hlen]
    simp [heldBuffers, hi, hlen, hget, bufferOf_of_slot hb]
  · simp [heldBuffers, hi, h.rx_len]

theorem slotBuffers_eq_held {s : State} (h : Inv s) (hon : s.ctl.enabled = true) : slotBuffers s = heldBuffers s := by
  rw [slotBuffers, rxSlots_full h hon]
  simp

/-- The events a walk owes are read from the transmit ring and its descriptors. -/
theorem owedEvents_of_descsSame {s t : State} (ev : Handle → Event) (i c : Nat) (hp : t.par = s.par) (htx : t.tx = s.tx)
    (hm : DescsSame s.par s.mem t.mem) : owedEvents t ev i c = owedEvents s ev i c := by
  refine owedEvents_congr ev i c hp fun j _ => ⟨txEop_congr hp fun a hlo hhi => ?_, by rw [State.txSlot, htx]; rfl⟩
  obtain ⟨hbase, hend⟩ := txDesc_inside (p := s.par) (Nat.mod_lt (i + j) s.par.n_pos)
  exact hm.tx a (by omega) (by omega)

/-- The machine half way through the adapter reset: the link down, the device reset, every packet in flight failed. -/
def adapterFailed (s : State) (m : List Host.Cell) (sl : List (Option Handle)) : State :=
  { s with
    tx := { s.tx with cons := (s.tx.cons + (s.par.n - s.tx.free)) % s.par.n, free := s.par.n, slot := sl }
    link := downedLink s.link
    csr := { s.csr with macMode := 0, devCtrlEn := false, mbTxProd := 0, mbRxProd := 0, mbRrCons := 0 }
    dev := idleDevice
    mem := m
    port := { s.port with
      events := s.port.events ++ downEvents s.link s.link.epoch ++ owedEvents s .txFailed s.tx.cons (s.par.n - s.tx.free) } }

theorem txFailAll_reset {s : State} (h : Inv s) : ∃ (m : List Host.Cell) (sl : List (Option Handle)),
    txFailAll (regWrite (linkDownNow s) .devCtrl 0x00000002) = adapterFailed s m sl ∧
    ∀ a, s.par.sbBase ≤ a → a < s.par.sbBase + 8 → Memory.byteAt m a = 0 := by
  have hdown := linkDownNow_eq s
  obtain ⟨m, hreset, hzero, hsame⟩ := resetDevice_spec (linkDownNow s)
  rw [hdown] at hreset hzero hsame
  obtain ⟨sl, hfail, -⟩ := txFailAll_spec (regWrite (linkDownNow s) .devCtrl 0x00000002)
    (by rw [hdown, hreset]; exact h.tx_cons_lt) (by rw [hdown, hreset]; exact h.tx_len) (by rw [hdown, hreset]; exact h.tx_free_le)
  have howed := owedEvents_of_descsSame (s := s) (t := regWrite (linkDownNow s) .devCtrl 0x00000002) .txFailed s.tx.cons
    (s.par.n - s.tx.free) (by simp) (by rw [hdown, hreset]) (by rw [hdown, hreset]; exact descsSame_of_sb h.legal hsame)
  rw [hdown, hreset] at hfail howed
  rw [howed] at hfail
  exact ⟨m, sl, by rw [hdown, hreset, hfail, adapterFailed], hzero⟩

/-- Starting the link writes PHY and MAC registers only, whatever the device's registers hold. -/
theorem startedCsrs_armed (l : Link) (c : Csrs) :
    startedCsrs (downedLink l) { c with macMode := 0, devCtrlEn := true, mbTxProd := 0, mbRxProd := 0, mbRrCons := 0 } =
      { startedCsrs l { c with macMode := 0 } with devCtrlEn := true, mbTxProd := 0, mbRxProd := 0, mbRrCons := 0 } := by
  have hmode : (downedLink l).mode = l.mode := rfl
  unfold startedCsrs
  rw [hmode]
  cases l.mode <;> rfl

/-- The machine after the adapter reset, with the memory given: the link downed and restarted, every packet in flight failed, the
rings empty with the same buffers posted, the device armed (45_lifecycle.md R226). -/
def adapterRestarted (s : State) (m : List Host.Cell) : State :=
  { s with
    tx := emptyTx s.par
    rx := { s.rx with prod := 0, rrCons := 0 }
    poll := emptyPoller (startRaisesLink s.link s.csr)
    ctl := { s.ctl with txStalled := false }
    link := startedLink (downedLink s.link)
    csr := { startedCsrs s.link { s.csr with macMode := 0 } with devCtrlEn := true, mbTxProd := 0, mbRxProd := 0, mbRrCons := 0 }
    dev := armedDevice s.par
    mem := m
    port := { s.port with
      events := s.port.events ++ downEvents s.link s.link.epoch ++
        owedEvents s .txFailed s.tx.cons (s.par.n - s.tx.free) ++ startEvents s.link } }

theorem adapterReset_spec {s : State} (h : Inv s) (hon : s.ctl.enabled = true) : ∃ m : List Host.Cell,
    adapterReset s = adapterRestarted s m ∧
    RingsPosted s.par (slotBuffers s) m ∧
    ∀ a, (∀ r ∈ s.par.regions, outside a r.1 r.2) → Memory.byteAt m a = Memory.byteAt s.mem a := by
  obtain ⟨m0, tsl, hfail, hsb⟩ := txFailAll_reset h
  obtain ⟨m, hposted, hrings⟩ := rearmed_spec (s := adapterFailed s m0 tsl) h.legal rfl h.rx_len hsb
    (bufs := heldBuffers s) (by simp [heldBuffers, adapterFailed])
  have hheld : heldBuffers (rearm (adapterFailed s m0 tsl)) = heldBuffers s := heldBuffers_rearm _
  have hreset : adapterReset s = adapterRestarted s m := by
    rw [adapterReset_eq, hfail, hheld, hposted, linkStart_eq _ rfl ⟨rfl, rfl, rfl, rfl⟩, ← rxSlots_full h hon,
      adapterRestarted, ← startedCsrs_armed]
    rfl
  have hframe := (adapterReset_writesOnly s).bytes
  rw [hreset] at hframe
  exact ⟨m, hreset, slotBuffers_eq_held h hon ▸ hrings, fun a ha => hframe a fun r _ => Region.avoids_of_regions ha r⟩

/-- Settles O33: the firing tick is `HwTimeout`, then the adapter reset. -/
theorem watchdogResetsAdapter : Obligations.WatchdogResetsAdapter := by
  intro s h hon hup hfree hprogress htimeout hepoch
  have htick := tick_fires hon ((wdCheck_fires_iff h).2 ⟨hup, hfree, hprogress, htimeout⟩)
  obtain ⟨m, hreset, hrings, hframe⟩ := adapterReset_spec (keeps_emit h .hwTimeout).inv hon
  refine ⟨m, ?_, hrings, hframe⟩
  rw [hreset] at htick
  have hdown : downEvents s.link s.link.epoch = [.linkDown s.link.epoch] := if_pos hup
  refine ((congrArg (answer s) htick).trans (answer_next s _ (.inl hepoch))).trans ?_
  simp only [adapterRestarted, emit_port, emit_link, hdown, List.append_assoc, List.singleton_append]
  rfl

end Sys2Proof.Machine

/-! O32, O34 to O42: the link negotiation state machine (44_link_fsm.md). Three facts carry them: the link registers are written by
the link procedures alone, every start of the link takes a new epoch (`Restarted`), and an operation that would take the epoch past
its last value is stuck. -/

namespace Sys2Proof.Machine

/-! ## What leaves the link alone: the rings -/

@[simp] theorem fillTx_link (hd : Handle) (csum : Bool) (segs : List Seg) (i : Nat) (s : State) :
    (fillTx hd csum segs i s).link = s.link := by
  induction segs generalizing i s with
  | nil => rfl
  | cons g rest ih => simp [fillTx, ih]

@[simp] theorem txPost_link (s : State) (hd : Handle) (csum : Bool) (segs : List Seg) :
    (txPost s hd csum segs).1.link = s.link := by
  unfold txPost
  split_ifs <;> simp

@[simp] theorem submitPacket_link (s : State) (hd : Handle) (csum : Bool) (segs : List Seg) :
    (submitPacket s (txPost s hd csum segs)).1.link = s.link := by
  unfold submitPacket
  split
  · rfl
  · exact txPost_link ..

@[simp] theorem alloc_link (s : State) : (alloc s).1.link = s.link := by
  obtain ⟨b, -, h⟩ | h := alloc_cases s <;> rw [h] <;> rfl

@[simp] theorem rxRepost_link (s : State) : (rxRepost s).link = s.link := ringDoorbell_link ..

@[simp] theorem rxPost_link (s : State) (i : Nat) (b : Addr) : (rxPost s i b).link = s.link := by simp [rxPost]

@[simp] theorem rxRefill_link (s : State) (i : Nat) : (rxRefill s i).1.link = s.link := by
  unfold rxRefill
  obtain ⟨b, -, h⟩ | h := alloc_cases s <;> rw [h]
  · simp
  · simp

@[simp] theorem reportRefill_link (done : State × Option Addr) : (reportRefill done).1.link = done.1.link := by
  unfold reportRefill
  split <;> rfl

@[simp] theorem drainOne_link (s : State) : (drainOne s).1.link = s.link := by
  have hrefill := rxRefill_link s (s.rrSlot s.rx.rrCons)
  simp only [drainOne]
  split
  · simp
  · split
    case h_1 s1 old h => rwa [h] at hrefill
    case h_2 s1 h => rwa [h] at hrefill

@[simp] theorem drainLoop_link (c : Nat) (s : State) : (drainLoop c s).1.link = s.link := by
  induction c generalizing s with
  | zero => rfl
  | succ c ih => simp [drainLoop, ih]

@[simp] theorem rrDrain_link (s : State) (idx : Nat) : (rrDrain s idx).1.link = s.link := by
  simp only [rrDrain]
  split
  · split <;> simp
  · rfl

theorem reportDrained_link (s : State) (d : Drained) : (reportDrained s d).link = s.link := by cases d <;> rfl

@[simp] theorem reportDrain_link (done : State × Option (List Drained)) : (reportDrain done).1.link = done.1.link := by
  unfold reportDrain
  split
  case h_1 s1 out =>
    exact List.foldlRecOn (motive := fun t => t.link = s1.link) _ _ rfl fun t h d _ => (reportDrained_link t d).trans h
  case h_2 => rfl

theorem deliverOne_link (s : State) (d : Drained) : (deliverOne s d).1.link = s.link := by
  cases d with
  | filled buf len flags => simp only [deliverOne]; split <;> rfl
  | dropped slot err => rfl
  | noBuf slot => rfl

@[simp] theorem rxDeliver_link (out : List Drained) (s : State) : (rxDeliver out s).1.link = s.link := by
  induction out generalizing s with
  | nil => rfl
  | cons d rest ih => exact (ih _).trans (deliverOne_link s d)

@[simp] theorem dispatchPass_link (s : State) (t r : Nat) (g : Word) (lc : Bool) :
    (dispatchPass s t r g lc).1.link = s.link := by
  have hdrain : (rrDrain (txReclaim s t).1 r).1.link = s.link := by simp
  simp only [dispatchPass, storeSnapshot]
  split
  case h_1 s1 out h =>
    rw [h] at hdrain
    exact (rxDeliver_link out s1).trans hdrain
  case h_2 s1 h => rwa [h] at hdrain

@[simp] theorem servicePass_link (s : State) (lc : Bool) : (servicePass s lc).1.link = s.link := by
  simp only [servicePass]
  split
  · rfl
  · exact dispatchPass_link ..

theorem whenEnabled_link {s : State} {done : State × Result} (h : done.1.link = s.link) : (whenEnabled s done).1.link = s.link := by
  unfold whenEnabled
  split
  · exact h
  · rfl

/-! ## What leaves the link alone: the lifecycle -/

@[simp] theorem ringInit_link (s : State) : (ringInit s).link = s.link := by
  obtain ⟨m, h, -⟩ := ringInit_spec s
  rw [h]

@[simp] theorem allocMany_link (k : Nat) (s : State) : (allocMany k s).1.link = s.link := by
  induction k generalizing s with
  | zero => rfl
  | succ k ih =>
    unfold allocMany
    obtain ⟨b, -, h⟩ | h := alloc_cases s <;> rw [h]
    · exact ih _
    · rfl

@[simp] theorem postBuffers_link (bufs : List Addr) (i : Nat) (s : State) : (postBuffers bufs i s).link = s.link := by
  induction bufs generalizing i s with
  | nil => rfl
  | cons b rest ih => simp [postBuffers, ih]

theorem releaseSlot_link (s : State) (i : Nat) : (releaseSlot s i).link = s.link := by
  unfold releaseSlot
  split <;> rfl

@[simp] theorem rxReleaseAll_link (s : State) : (rxReleaseAll s).link = s.link :=
  List.foldlRecOn (motive := fun t => t.link = s.link) _ _ rfl fun t h i _ => (releaseSlot_link t i).trans h

/-! ## The flow-control table -/

/-- Settles O34, by evaluation of the 16 rows. -/
theorem flowControlTable : Obligations.FlowControlTable := by
  unfold Obligations.FlowControlTable
  decide

/-! ## The end of an operation that takes a new epoch -/

section NewEpoch

variable {s : State} {done : State × Result}

/-- At the last epoch the increment is the stop of log 6. -/
theorem answer_stuck (hlast : s.link.epoch = 0xFFFFFFFF) (hnew : done.1.link.epoch = s.link.epoch + 1) :
    answer s done = .fault .epochOverflow := by
  have hover : epochOverflowed s done.1 = true := by rw [epochOverflowed, hnew, hlast]; rfl
  rw [answer, hover, cond_true]

/-- An operation that answers has not moved the epoch away from its last value. -/
theorem lastEpoch_of_answer {t : State} (h : answer s done = .next t) (hlast : s.link.epoch = 0xFFFFFFFF) :
    t.link.epoch = 0xFFFFFFFF := by
  rw [answer_eq_next h, setResult_link]
  by_contra hmoved
  have hover : epochOverflowed s done.1 = true := Bool.and_eq_true_iff.2 ⟨beq_iff_eq.2 hlast, bne_iff_ne.2 hmoved⟩
  rw [answer, hover] at h
  cases h

end NewEpoch

/-! ## The link started -/

/-- What a start of the link makes of its epoch and its state (45_lifecycle.md R222). -/
structure Restarted (l l' : Link) : Prop where
  epoch : l'.epoch = l.epoch + 1
  state : l'.state = if l.mode = .auto then .negotiating else .up

theorem linkStart_restarts {s : State} {l : Link} (h : s.link = l) : Restarted l (linkStart s).link := by
  rw [← h]
  unfold linkStart
  split
  · next hmode => constructor <;> simp [requestNegotiation, beginNegotiation_eq, hmode]
  · next hmode => constructor <;> simp [enterForced_eq, hmode]

theorem linkStart_auto {s : State} (hmode : s.link.mode = .auto) : linkStart s = requestNegotiation s := by
  simp only [linkStart, hmode]

theorem renegotiation_restarts {s : State} (hmode : s.link.mode = .auto) :
    Restarted s.link (requestNegotiation (linkDownNow s)).link := by
  have hdowned := linkStart_restarts (linkDownNow_link s)
  rw [linkStart_auto (by rw [linkDownNow_link]; exact hmode)] at hdowned
  exact ⟨hdowned.epoch, hdowned.state⟩

/-- A link taken down and negotiated again, from any state (44_link_fsm.md R195, R204). -/
theorem requestNegotiation_downed {s : State} (hmode : s.link.mode = .auto) : requestNegotiation (linkDownNow s) = { s with
    link := startedLink (downedLink s.link)
    csr := startedCsrs s.link { s.csr with macMode := 0 }
    poll := { s.poll with irqLink := s.poll.irqLink || s.csr.phyStatus.getLsbD 1 }
    port := { s.port with events := s.port.events ++ downEvents s.link s.link.epoch } } := by
  have hdown : (downedLink s.link).mode = .auto := hmode
  rw [requestNegotiation, beginNegotiation_eq, linkDownNow_eq]
  simp only [startedLink, startedCsrs, hdown, hmode]
  rfl

/-! ## The requests to the link -/

/-- The machine with a request to negotiate stored (44_link_fsm.md R206). -/
def autoRequested (s : State) (adv : BitVec 2) (caps : BitVec 6) : State :=
  { s with link := { s.link with mode := .auto, advCaps := caps, advLocal := adv } }

/-- The machine with a forced request stored (44_link_fsm.md R207). -/
def forcedRequested (s : State) (duplex : Bool) (speed : BitVec 2) : State :=
  { s with link := { s.link with mode := .forced speed duplex } }

section Requests

variable {s : State} {adv : BitVec 2} {caps : BitVec 6} {duplex : Bool} {speed : BitVec 2}

theorem exec_lnkauto (hcaps : caps ≠ 0) : exec (.lnkauto adv caps) s =
    answer s (if s.ctl.enabled then requestNegotiation (linkDownNow (autoRequested s adv caps)) else autoRequested s adv caps,
      Result.okVal 0) :=
  congrArg (answer s) (if_neg hcaps)

theorem exec_lnkforce (hspeed : speed ≠ 3) : exec (.lnkforce duplex speed) s =
    answer s (if s.ctl.enabled then enterForced (forcedRequested s duplex speed) speed duplex else forcedRequested s duplex speed,
      Result.okVal 0) :=
  congrArg (answer s) (if_neg hspeed)

theorem exec_lnkauto_on (hcaps : caps ≠ 0) (hon : s.ctl.enabled = true) :
    exec (.lnkauto adv caps) s = answer s (requestNegotiation (linkDownNow (autoRequested s adv caps)), Result.okVal 0) := by
  rw [exec_lnkauto hcaps, if_pos hon]

theorem exec_lnkforce_on (hspeed : speed ≠ 3) (hon : s.ctl.enabled = true) :
    exec (.lnkforce duplex speed) s = answer s (enterForced (forcedRequested s duplex speed) speed duplex, Result.okVal 0) := by
  rw [exec_lnkforce hspeed, if_pos hon]

theorem lnkforce_restarts (s : State) (duplex : Bool) (speed : BitVec 2) :
    Restarted (forcedRequested s duplex speed).link (enterForced (forcedRequested s duplex speed) speed duplex).link :=
  linkStart_restarts (s := forcedRequested s duplex speed) rfl

end Requests

/-- Settles O36: an enabled adapter takes the link down and negotiates under the stored request. -/
theorem lnkautoNegotiates : Obligations.LnkautoNegotiates := by
  rintro s adv caps l hcaps rfl
  refine ⟨fun hoff => ?_, fun hon hepoch => ?_⟩
  · rw [exec_lnkauto hcaps, if_neg (by simp [hoff]), answer_next s _ (.inr rfl)]
    rfl
  · have hnext := requestNegotiation_downed (s := autoRequested s adv caps) rfl
    rw [exec_lnkauto_on hcaps hon, answer_next s _ (.inl hepoch), hnext]
    rfl

/-- Settles O37: an enabled adapter forces the link up under the stored request. -/
theorem lnkforceForcesUp : Obligations.LnkforceForcesUp := by
  rintro s duplex speed l hspeed rfl
  refine ⟨fun hoff => ?_, fun hon hepoch => ?_⟩
  · rw [exec_lnkforce hspeed, if_neg (by simp [hoff]), answer_next s _ (.inr rfl)]
    rfl
  · rw [exec_lnkforce_on hspeed hon, answer_next s _ (.inl hepoch), enterForced_eq]
    rfl

/-! ## The callback -/

section Callback

variable {s : State} {e : Word}

theorem exec_resdone_stale (he : e ≠ s.link.epoch) :
    exec (.resdone e) s = .next ((takeCallback s e).setResult (.err .staleEpoch)) := by
  show execResdone e s = _
  rw [execResdone, if_pos he]
  exact answer_of_link _ rfl

theorem exec_resdone_refused (he : e = s.link.epoch) (hstate : s.link.state ≠ .resolving) :
    exec (.resdone e) s = .next ((takeCallback s e).setResult (.err .badState)) := by
  show execResdone e s = _
  rw [execResdone, if_neg (not_not_intro he), if_pos hstate]
  exact answer_of_link _ rfl

theorem exec_resdone_resolves (he : e = s.link.epoch) (hstate : s.link.state = .resolving) :
    exec (.resdone e) s = .next ((resolveDone (takeCallback s e)).setResult (.okVal 0)) := by
  show execResdone e s = _
  rw [execResdone, if_neg (not_not_intro he), if_neg (not_not_intro hstate)]
  exact answer_next s _ (.inr (by rw [resolveDone_eq _ _ _ rfl]; rfl))

end Callback

/-- Settles O35: the epoch is checked first, then the state; `resolve_done` is then a whole next state. -/
theorem resdoneResolves : Obligations.ResdoneResolves := by
  rintro s e rx tx env' rfl hfc
  refine ⟨exec_resdone_stale, exec_resdone_refused, fun he hstate => ?_⟩
  have hdone := resolveDone_eq (takeCallback s e) rx tx hfc.symm
  rw [exec_resdone_resolves he hstate, hdone, he]
  rfl

/-! ## What a link command leaves alone -/

/-- `t` differs from `s` at most in what the link commands may write (44_link_fsm.md R193). -/
def LeavesRings (s t : State) : Prop :=
  t = { s with
    link := t.link
    port := t.port
    poll := { s.poll with irqLink := t.poll.irqLink }
    csr := { s.csr with phyAdv := t.csr.phyAdv, phyCtrl := t.csr.phyCtrl, phyStatus := t.csr.phyStatus,
                        macMode := t.csr.macMode }
    env := { s.env with resolvePending := t.env.resolvePending } }

theorem lnkauto_leavesRings (s : State) (adv : BitVec 2) (caps : BitVec 6) :
    LeavesRings s (requestNegotiation (linkDownNow (autoRequested s adv caps))) := by
  rw [requestNegotiation_downed rfl]
  rfl

theorem lnkforce_leavesRings (s : State) (duplex : Bool) (speed : BitVec 2) :
    LeavesRings s (enterForced (forcedRequested s duplex speed) speed duplex) := by
  rw [enterForced_eq]
  rfl

theorem resolveDone_leavesRings (s : State) (e : Word) : LeavesRings s (resolveDone (takeCallback s e)) := by
  rw [resolveDone_eq _ _ _ rfl]
  rfl

theorem LeavesRings.setResult {s t : State} (h : LeavesRings s t) (r : Result) : LeavesRings s (t.setResult r) := by
  rw [LeavesRings, h]
  rfl

/-- Settles O41: refused, stored or carried out, a link command writes the link's own registers only. -/
theorem linkCommandsLeaveRings : Obligations.LinkCommandsLeaveRings := by
  rintro s t i (⟨adv, caps, rfl⟩ | ⟨duplex, speed, rfl⟩ | ⟨e, rfl⟩) ht
  all_goals
    rw [answer_eq_next ht]
    refine LeavesRings.setResult ?_ _
    split_ifs
  · rfl
  · exact lnkauto_leavesRings s adv caps
  · rfl
  · rfl
  · exact lnkforce_leavesRings s duplex speed
  · rfl
  · rfl
  · rfl
  · exact resolveDone_leavesRings s e

/-! ## The tick of a negotiation -/

/-- The machine whose watchdog has found no stall (42_status_block_poller.md R168). -/
def watchdogIdle (s : State) : State := { s with poll := { s.poll with wdStallTicks := 0, wdProgress := false } }

/-- The machine with one more tick of its negotiation counted (44_link_fsm.md R203). -/
def negCounted (s : State) : State := { s with link := { s.link with negTicks := s.link.negTicks + 1 } }

/-- The machine with the next attempt of its negotiation counted (44_link_fsm.md R203). -/
def retryCounted (s : State) : State :=
  { negCounted s with link := { (negCounted s).link with negRetries := s.link.negRetries + 1 } }

/-- A link that negotiates is not up, so the watchdog does not fire. -/
theorem tick_negotiating {s : State} (h : Inv s) (hon : s.ctl.enabled = true) (hneg : s.link.state = .negotiating) :
    tick s = negTick (watchdogIdle s) := by
  have hup : s.link.up = false := h.parts.link.not_up (by rw [hneg]; nofun)
  have hno : ¬ Stalls s := fun hstall => absurd (hup.symm.trans hstall.1) nofun
  have hquiet : ¬ s.par.wdTimeout ≤ (wdCheck s).poll.wdStallTicks.toNat := fun hfires =>
    absurd (hup.symm.trans ((wdCheck_fires_iff h).1 hfires).1) nofun
  rw [tick_quiet hon hquiet, wdCheck_eq, if_neg hno]
  rfl

section NegTick

variable {s : State}

theorem negTick_counts (hneg : s.link.state = .negotiating) (hlt : (s.link.negTicks + 1).toNat < s.par.negTimeout) :
    negTick s = (negCounted s, Result.okVal 0) :=
  (if_pos hneg).trans (if_pos hlt)

theorem negTick_retries (hneg : s.link.state = .negotiating) (htimeout : ¬ (s.link.negTicks + 1).toNat < s.par.negTimeout)
    (hleft : s.link.negRetries.toNat < s.par.negRetryMax) : negTick s = (beginNegotiation (retryCounted s), Result.okVal 1) :=
  (if_pos hneg).trans ((if_neg htimeout).trans (if_pos hleft))

theorem negTick_exhausted (hneg : s.link.state = .negotiating) (htimeout : ¬ (s.link.negTicks + 1).toNat < s.par.negTimeout)
    (hnone : ¬ s.link.negRetries.toNat < s.par.negRetryMax) :
    negTick s = (negFallback (negCounted s), Result.err .negotiationTimeout) :=
  (if_pos hneg).trans ((if_neg htimeout).trans (if_neg hnone))

theorem negFallback_forced {sp : BitVec 2} {dp : Bool} (hf : s.par.negFallback = .fbForced sp dp) :
    negFallback s = enterForced (s.emit .negTimeout) sp dp := by
  simp only [negFallback, hf]

theorem negFallback_down (hf : s.par.negFallback = .fbLinkDown) : negFallback s = { s with
    link := { s.link with state := .down }
    port := { s.port with events := s.port.events ++ [.negTimeout, .linkDown s.link.epoch] } } := by
  simp only [negFallback, hf, State.emit, List.append_assoc, List.singleton_append]

end NegTick

/-- Settles O32: the watchdog is quiet, and each of the branches of `neg_tick` is a whole next state. -/
theorem tickTimesNegotiation : Obligations.TickTimesNegotiation := by
  rintro s p' h hon hneg rfl
  obtain ⟨hsucc, -⟩ := negTicks_succ h hneg
  have htick := tick_negotiating h hon hneg
  have hup : s.link.up = false := h.parts.link.not_up (by rw [hneg]; nofun)
  have hnext : ∀ {done : State × Result}, negTick (watchdogIdle s) = done →
      s.link.epoch ≠ 0xFFFFFFFF ∨ done.1.link.epoch = s.link.epoch → exec .wdtick s = .next (done.1.setResult done.2) :=
    fun hdone hepoch => (congrArg (answer s) (htick.trans hdone)).trans (answer_next s _ hepoch)
  have hlast : s.link.negTicks.toNat + 1 = s.par.negTimeout → ¬ (s.link.negTicks + 1).toNat < s.par.negTimeout := by
    omega
  have hgiveUp (hend : s.link.negTicks.toNat + 1 = s.par.negTimeout) (hnone : s.link.negRetries.toNat = s.par.negRetryMax) :=
    negTick_exhausted (s := watchdogIdle s) hneg (hlast hend) (Nat.not_lt.2 (Nat.le_of_eq hnone.symm))
  refine ⟨fun hlt => ?_, fun hend hleft hepoch => ?_, fun hend hnone hf => ?_, fun sp dp hend hnone hf hepoch => ?_⟩
  · exact hnext (negTick_counts (s := watchdogIdle s) hneg (hsucc ▸ hlt)) (.inr rfl)
  · rw [hnext (negTick_retries (s := watchdogIdle s) hneg (hlast hend) hleft) (.inl hepoch), beginNegotiation_eq, ← hneg]
    rfl
  · have hdown := negFallback_down (s := negCounted (watchdogIdle s)) hf
    rw [hnext ((hgiveUp hend hnone).trans (by rw [hdown])) (.inr rfl)]
    rfl
  · have hquiet : downEvents s.link s.link.epoch = [] := if_neg (by simp [hup])
    have hevents : ∀ e : Event, s.port.events ++ [.negTimeout] ++ downEvents s.link s.link.epoch ++ [e] =
        s.port.events ++ [.negTimeout, e] := fun e => by simp [hquiet]
    have hforced := negFallback_forced (s := negCounted (watchdogIdle s)) hf
    rw [hnext (hgiveUp hend hnone) (.inl hepoch), hforced, enterForced_eq, ← hevents]
    rfl

/-! ## The link service of a pass -/

section LinkService

variable {s t : State}

theorem linkService_completes (hneg : s.link.state = .negotiating) (hok : s.csr.phyStatus.getLsbD 0 = true)
    (han : s.csr.phyStatus.getLsbD 1 = true) : linkService s = negComplete s s.csr.phyStatus := by
  simp only [linkService, hneg, regRead, phyAnComplete, phyLinkOk, hok, han, Bool.and_self, if_true]

theorem linkService_loses (hst : s.link.state = .up) (hlost : s.csr.phyStatus.getLsbD 0 = false) : linkService s = linkLoss s := by
  simp only [linkService, hst, regRead, phyLinkOk, hlost, Bool.false_eq_true, if_false]

/-- A status that calls for nothing (44_link_fsm.md R191). -/
theorem linkService_nothing (h : s.link.state = .down ∨ s.link.state = .resolving ∨
    s.link.state = .negotiating ∧ (s.csr.phyStatus.getLsbD 0 = false ∨ s.csr.phyStatus.getLsbD 1 = false)) :
    linkService s = s := by
  unfold linkService
  obtain hst | hst | ⟨hst, hlost | hopen⟩ := h
  · rw [hst]
  · rw [hst]
  · simp only [hst, regRead, phyLinkOk, hlost, Bool.and_false, Bool.false_eq_true, if_false]
  · simp only [hst, regRead, phyAnComplete, hopen, Bool.false_and, Bool.false_eq_true, if_false]

theorem linkLoss_stays_down (h : ¬ (s.link.mode = .auto ∧ s.par.renegOnLoss = true)) : linkLoss s = linkDownNow s := if_neg h

theorem linkLoss_renegotiates (hmode : s.link.mode = .auto) (hreneg : s.par.renegOnLoss = true) :
    linkLoss s = requestNegotiation (linkDownNow s) :=
  if_pos ⟨hmode, hreneg⟩

/-- A pass whose link service leaves the link gate closed ends there (42_status_block_poller.md R161). -/
theorem exec_onint_closed {changed : Bool} (hon : s.ctl.enabled = true) (hirq : s.poll.irqLink = true)
    (hservice : linkService (linkTaken s) = t) (hclosed : t.link.up = false) (hchanged : (t.link.state != s.link.state) = changed)
    (hepoch : s.link.epoch ≠ 0xFFFFFFFF ∨ t.link.epoch = s.link.epoch) :
    exec .onint s = .next (t.setResult (.okVal (workSummary 0 changed false))) := by
  have htaken : serviceLink s = t := (if_pos hirq).trans hservice
  have hpass : onInterrupt s = (t, Result.okVal (workSummary 0 changed false)) := by
    simp only [onInterrupt, if_pos hon, htaken, hclosed, hchanged, Bool.false_eq_true, if_false]
  exact (congrArg (answer s) hpass).trans (answer_next s _ hepoch)

/-- A link that is up and ok leaves the pass as one without a link interrupt (44_link_fsm.md R205 (d)). -/
theorem exec_onint_open (hon : s.ctl.enabled = true) (hup : s.link.up = true) (hgate : GateStaysOpen s) :
    exec .onint s = exec .onint (linkTaken s) := by
  have htaken : onInterrupt (linkTaken s) = servicePass (linkTaken s) false :=
    (onInterrupt_no_link (s := linkTaken s) hon rfl).trans (if_pos hup)
  exact congrArg (answer s) ((onInterrupt_open hon hup hgate).trans htaken.symm)

end LinkService

/-- Settles O38: the service by the state of the link and the status of the PHY, then the gate. -/
theorem passServicesLink : Obligations.PassServicesLink := by
  rintro s st h hon hirq rfl
  have hnotUp : s.link.state ≠ .up → s.link.up = false := h.parts.link.not_up
  have hreported (hst : s.link.state = .up) : downEvents s.link s.link.epoch = [.linkDown s.link.epoch] := if_pos (h.up_iff.2 hst)
  refine ⟨fun hneg hok han => ?_, fun hst hlost hno => ?_, fun hst hlost hmode hreneg hepoch => ?_, fun hcalls => ?_,
    fun hst hok => ?_⟩
  · have hclosed := hnotUp (by rw [hneg]; nofun)
    have hservice := (linkService_completes (s := linkTaken s) hneg hok han).trans (negComplete_eq _ _)
    refine ⟨_, epochInsert_perm s.link.epoch s.env.resolvePending, ?_⟩
    exact exec_onint_closed hon hirq hservice hclosed (changed := true) (by rw [hneg]; rfl) (.inr rfl)
  · have hservice := (linkService_loses (s := linkTaken s) hst hlost).trans
      ((linkLoss_stays_down (s := linkTaken s) hno).trans (linkDownNow_eq _))
    rw [← hreported hst]
    exact exec_onint_closed hon hirq hservice rfl (changed := true) (by rw [hst]; rfl) (.inr rfl)
  · have hservice := (linkService_loses (s := linkTaken s) hst hlost).trans
      ((linkLoss_renegotiates (s := linkTaken s) hmode hreneg).trans (requestNegotiation_downed hmode))
    have hdowned : (downedLink s.link).mode = .auto := hmode
    have hnegotiates : (startedLink (downedLink s.link)).up = false ∧ (startedLink (downedLink s.link)).state = .negotiating := by
      simp [startedLink, hdowned]
    rw [← hreported hst]
    exact exec_onint_closed hon hirq hservice hnegotiates.1 (changed := true)
      (by rw [hst]; exact congrArg (· != LinkState.up) hnegotiates.2) (.inl hepoch)
  · have hclosed := hnotUp fun hst => by simp [hst] at hcalls
    exact exec_onint_closed hon hirq (linkService_nothing (s := linkTaken s) hcalls) hclosed (changed := false)
      (bne_self_eq_false _) (.inr rfl)
  · exact exec_onint_open hon (h.up_iff.2 hst) fun _ => ⟨hst, hok⟩

/-! ## What the lifecycle does to the link -/

/-- The adapter reset takes the link down and starts it (45_lifecycle.md R226). -/
theorem adapterReset_restarts (s : State) : Restarted s.link (adapterReset s).link := by
  have hdowned : Restarted (downedLink s.link) (adapterReset s).link := by
    unfold adapterReset
    exact linkStart_restarts (by simp)
  exact ⟨hdowned.epoch, hdowned.state⟩

/-- The last step of `START` starts the link (45_lifecycle.md R220). -/
theorem bringUp_restarts (s : State) (bufs : List Addr) : Restarted s.link (bringUp s bufs).link := by
  unfold bringUp
  exact linkStart_restarts (by simp)

/-- `STOP` takes the link down under a new epoch (45_lifecycle.md R225). -/
theorem shutDown_renews (s : State) :
    (shutDown s).link.epoch = s.link.epoch + 1 ∧ (shutDown s).link.state = .down := by
  simp [shutDown, bumpEpoch, downedLink]

/-! ## A callback that comes too late -/

/-- What takes a new epoch answers, and leaves a callback of the old one stale (44_link_fsm.md R192, R208). -/
theorem stale_after {s v : State} {i : Instr} {st : LinkState} {r : Result} (hepoch : s.link.epoch ≠ 0xFFFFFFFF)
    (hexec : exec i s = answer s (v, r)) (hnew : v.link.epoch = s.link.epoch + 1) (hst : v.link.state = st) :
    ∃ t u : State, exec i s = .next t ∧ exec (.resdone s.link.epoch) t = .next u ∧ t.link.state = st ∧
      t.link.epoch = s.link.epoch + 1 ∧
      u = { t with env := { t.env with resolvePending := t.env.resolvePending.erase s.link.epoch },
                   port := { t.port with result := some ⟨.staleEpoch, 0⟩ } } := by
  have hstale : s.link.epoch ≠ (v.setResult r).link.epoch := by
    rw [setResult_link, hnew]
    bv_omega
  exact ⟨_, _, hexec.trans (answer_next s (v, r) (.inl hepoch)), exec_resdone_stale hstale, hst, hnew, rfl⟩

section Enabled

variable {s : State}

theorem exec_adpreset_on (hon : s.ctl.enabled = true) : exec .adpreset s = answer s (adapterReset s, Result.okVal 0) :=
  congrArg (answer s) (if_pos hon)

theorem exec_stop_on (hon : s.ctl.enabled = true) : exec .stop s = answer s (shutDown s, Result.okVal 0) :=
  congrArg (answer s) (if_pos hon)

end Enabled

/-- Settles O39: each of the four takes a new epoch. -/
theorem staleCallbackDiscarded : Obligations.StaleCallbackDiscarded := by
  intro s duplex speed adv caps hon _ hspeed hcaps hepoch i hi
  simp only [List.mem_cons, List.not_mem_nil, or_false] at hi
  obtain rfl | rfl | rfl | rfl := hi
  · have hlink := lnkforce_restarts s duplex speed
    exact stale_after hepoch (exec_lnkforce_on hspeed hon) hlink.epoch hlink.state
  · have hlink := renegotiation_restarts (s := autoRequested s adv caps) rfl
    exact stale_after hepoch (exec_lnkauto_on hcaps hon) hlink.epoch hlink.state
  · have hlink := adapterReset_restarts s
    exact stale_after hepoch (exec_adpreset_on hon) hlink.epoch hlink.state
  · obtain ⟨hnew, hstate⟩ := shutDown_renews s
    exact stale_after hepoch (exec_stop_on hon) hnew hstate

/-! ## The last epoch -/

theorem exec_start_listed {s : State} {bufs : List Addr} {rest : List (Option Addr)} (hoff : s.ctl.enabled = false)
    (hlen : bufs.length = s.par.n) (hlisted : s.env.allocIn = bufs.map some ++ rest) (hfresh : allFresh s.par s.env.live bufs) :
    exec .start s = answer s (bringUp (allocMany s.par.n s).1 bufs, Result.okVal 0) := by
  obtain ⟨lv, hgot, -⟩ := allocMany_listed bufs s rest hlisted hfresh
  have hall : (allocMany s.par.n s).2 = (bufs, true) := by rw [← hlen, hgot]
  show answer s (if s.ctl.enabled then _ else startWith (allocMany s.par.n s)) = _
  rw [if_neg (by simp [hoff]), startWith, hall, if_pos rfl]

/-- A tick that retries, or that gives up for a forced link, takes a new epoch (44_link_fsm.md R195, R202). -/
theorem negTick_renews {s : State} (hneg : s.link.state = .negotiating)
    (htimeout : ¬ (s.link.negTicks + 1).toNat < s.par.negTimeout)
    (hmore : s.link.negRetries.toNat < s.par.negRetryMax ∨ ∃ sp dp, s.par.negFallback = .fbForced sp dp) :
    (negTick s).1.link.epoch = s.link.epoch + 1 := by
  by_cases hleft : s.link.negRetries.toNat < s.par.negRetryMax
  · rw [negTick_retries hneg htimeout hleft, beginNegotiation_eq]
    rfl
  · obtain ⟨sp, dp, hf⟩ := hmore.resolve_left hleft
    have hforced := negFallback_forced (s := negCounted s) hf
    rw [negTick_exhausted hneg htimeout hleft, hforced, enterForced_eq]
    rfl

/-- Past the link's part a pass leaves the link alone (42_status_block_poller.md R161). -/
theorem onInterrupt_link {s : State} (hon : s.ctl.enabled = true) : (onInterrupt s).1.link = (serviceLink s).link := by
  simp only [onInterrupt, if_pos hon]
  split
  · exact servicePass_link ..
  · rfl

/-- A lost link that is to negotiate anew takes a new epoch (44_link_fsm.md R200). -/
theorem onInterrupt_renews {s : State} (hon : s.ctl.enabled = true) (hirq : s.poll.irqLink = true) (hst : s.link.state = .up)
    (hlost : s.csr.phyStatus.getLsbD 0 = false) (hmode : s.link.mode = .auto) (hreneg : s.par.renegOnLoss = true) :
    (onInterrupt s).1.link.epoch = s.link.epoch + 1 := by
  have hservice := (linkService_loses (s := linkTaken s) hst hlost).trans (linkLoss_renegotiates (s := linkTaken s) hmode hreneg)
  have htaken : serviceLink s = requestNegotiation (linkDownNow (linkTaken s)) := (if_pos hirq).trans hservice
  rw [onInterrupt_link hon, htaken]
  exact (renegotiation_restarts (s := linkTaken s) hmode).epoch

/-- Settles O42: each operation ends in a state with one more epoch. -/
theorem lastEpochIsStuck : Obligations.LastEpochIsStuck := by
  intro s hlast
  have hstuck {i : Instr} {v : State} {r : Result} (hexec : exec i s = answer s (v, r))
      (hnew : v.link.epoch = s.link.epoch + 1) : exec i s = .fault .epochOverflow :=
    hexec.trans (answer_stuck hlast hnew)
  refine ⟨fun hon => ⟨fun adv caps hcaps => ?_, fun dp sp hsp => ?_, ?_, ?_⟩, fun bufs rest hoff hlen hlisted hfresh => ?_,
    fun h hon hneg hend hmore => ?_, fun h hon hup hfree hprogress htimeout => ?_, fun hon hirq hst hlost hmode hreneg => ?_⟩
  · exact hstuck (exec_lnkauto_on hcaps hon) (renegotiation_restarts (s := autoRequested s adv caps) rfl).epoch
  · exact hstuck (exec_lnkforce_on hsp hon) (lnkforce_restarts s dp sp).epoch
  · exact hstuck (exec_adpreset_on hon) (adapterReset_restarts s).epoch
  · exact hstuck (exec_stop_on hon) (shutDown_renews s).1
  · have hlink := (bringUp_restarts (allocMany s.par.n s).1 bufs).epoch
    rw [allocMany_link] at hlink
    exact hstuck (exec_start_listed hoff hlen hlisted hfresh) hlink
  · have hdone : ¬ (s.link.negTicks + 1).toNat < s.par.negTimeout := by
      rw [(negTicks_succ h hneg).1, hend]
      exact Nat.lt_irrefl _
    exact hstuck (congrArg (answer s) (tick_negotiating h hon hneg)) (negTick_renews (s := watchdogIdle s) hneg hdone hmore)
  · have htick := tick_fires hon ((wdCheck_fires_iff h).2 ⟨hup, hfree, hprogress, htimeout⟩)
    exact hstuck (congrArg (answer s) htick) (adapterReset_restarts (s.emit .hwTimeout)).epoch
  · exact hstuck rfl (onInterrupt_renews hon hirq hst hlost hmode hreneg)

/-! ## The transitions of the link machine -/

/-- The transitions that keep the epoch: T3, T4, T5 and T7 of 44_link_fsm.md R190. -/
def keptTransitions : List (LinkState × LinkState) :=
  [(.negotiating, .resolving), (.resolving, .up), (.up, .down), (.negotiating, .down)]

/-- What an operation may do to the epoch and the state of the link (44_link_fsm.md R190, R192). -/
inductive LinkMoves (l l' : Link) : Prop where
  | stays (epoch : l'.epoch = l.epoch) (state : l'.state = l.state)
  | transits (epoch : l'.epoch = l.epoch) (states : (l.state, l'.state) ∈ keptTransitions)
  | renews (epoch : l'.epoch = l.epoch + 1) (state : l'.state ≠ .resolving)

theorem LinkMoves.of_same {l l' : Link} (h : l' = l) : LinkMoves l l' := .stays (congrArg _ h) (congrArg _ h)

/-- Only the epoch and the state the link moves from count. -/
theorem LinkMoves.of_start {l k l' : Link} (h : LinkMoves k l') (he : k.epoch = l.epoch := by rfl)
    (hs : k.state = l.state := by rfl) : LinkMoves l l' := by
  cases h with
  | stays epoch state => exact .stays (epoch.trans he) (state.trans hs)
  | transits epoch states => exact .transits (epoch.trans he) (hs ▸ states)
  | renews epoch state => exact .renews (he ▸ epoch) state

theorem Restarted.moves {l l' : Link} (h : Restarted l l') : LinkMoves l l' := by
  refine .renews h.epoch ?_
  rw [h.state]
  split <;> nofun

theorem resolveDone_moves {s : State} (hst : s.link.state = .resolving) : LinkMoves s.link (resolveDone s).link := by
  rw [resolveDone_eq s _ _ rfl]
  exact .transits rfl (by simp [hst, keptTransitions])

theorem linkLoss_moves {s : State} (hst : s.link.state = .up) : LinkMoves s.link (linkLoss s).link := by
  unfold linkLoss
  split
  · next hagain => exact (renegotiation_restarts hagain.1).moves
  · rw [linkDownNow_link]
    exact .transits rfl (by simp [hst, downedLink, keptTransitions])

theorem linkService_moves (s : State) : LinkMoves s.link (linkService s).link := by
  simp only [linkService]
  split
  case h_1 hst =>
    split
    · exact .transits rfl (by rw [hst, negComplete_eq]; simp [keptTransitions])
    · exact .of_same rfl
  case h_2 hst =>
    split
    · exact .of_same rfl
    · exact linkLoss_moves hst
  case h_3 => exact .of_same rfl
  case h_4 => exact .of_same rfl

theorem negFallback_moves {s : State} (hneg : s.link.state = .negotiating) : LinkMoves s.link (negFallback s).link := by
  cases hf : s.par.negFallback with
  | fbLinkDown =>
    rw [negFallback_down hf]
    exact .transits rfl (by simp [hneg, keptTransitions])
  | fbForced sp dp =>
    rw [negFallback_forced hf, enterForced_eq]
    exact .renews rfl nofun

theorem negTick_moves (s : State) : LinkMoves s.link (negTick s).1.link := by
  by_cases hneg : s.link.state = .negotiating
  · by_cases hlt : (s.link.negTicks + 1).toNat < s.par.negTimeout
    · rw [negTick_counts hneg hlt]
      exact .stays rfl rfl
    · by_cases hleft : s.link.negRetries.toNat < s.par.negRetryMax
      · rw [negTick_retries hneg hlt hleft, beginNegotiation_eq]
        exact .renews rfl nofun
      · rw [negTick_exhausted hneg hlt hleft]
        exact (negFallback_moves (s := negCounted s) hneg).of_start
  · have hnothing : negTick s = (s, Result.okVal 0) := if_neg hneg
    rw [hnothing]
    exact .of_same rfl

theorem tick_moves (s : State) : LinkMoves s.link (tick s).1.link := by
  by_cases hon : s.ctl.enabled = true
  · by_cases hfires : s.par.wdTimeout ≤ (wdCheck s).poll.wdStallTicks.toNat
    · rw [tick_fires hon hfires]
      exact (adapterReset_restarts (s.emit .hwTimeout)).moves
    · rw [tick_quiet hon hfires]
      exact negTick_moves (wdCheck s)
  · have hnothing : tick s = (s, Result.okVal 0) := if_neg hon
    rw [hnothing]
    exact .of_same rfl

theorem onInterrupt_moves (s : State) : LinkMoves s.link (onInterrupt s).1.link := by
  by_cases hon : s.ctl.enabled = true
  · rw [onInterrupt_link hon]
    unfold serviceLink
    split
    · exact linkService_moves (linkTaken s)
    · exact .of_same rfl
  · have hnothing : onInterrupt s = (s, Result.okVal 0) := if_neg hon
    rw [hnothing]
    exact .of_same rfl

theorem startWith_moves (s : State) : LinkMoves s.link (startWith (allocMany s.par.n s)).1.link := by
  have hlink := allocMany_link s.par.n s
  unfold startWith
  split
  · rw [← hlink]
    exact (bringUp_restarts ..).moves
  · rw [freeAll_eq]
    exact .of_same hlink

/-! ## Every operation takes only the transitions -/

/-- Where the outcome of an operation from `s` is a next state, the link has moved, and not past the last epoch (log 6). -/
def MovesTo (s : State) (o : Host.Outcome State Fault Refusal) : Prop :=
  ∀ t, o = .next t → LinkMoves s.link t.link ∧ (s.link.epoch = 0xFFFFFFFF → t.link.epoch = 0xFFFFFFFF)

section MovesTo

variable {s t : State} {done : State × Result}

theorem movesTo_answer (h : LinkMoves s.link done.1.link) : MovesTo s (answer s done) := by
  intro t ht
  refine ⟨?_, lastEpoch_of_answer ht⟩
  rw [answer_eq_next ht, setResult_link]
  exact h

theorem movesTo_answer_same (h : done.1.link = s.link) : MovesTo s (answer s done) := movesTo_answer (.of_same h)

theorem movesTo_next (h : t.link = s.link) : MovesTo s (.next t) := by
  rintro _ ⟨⟩
  exact ⟨.of_same h, fun hlast => h ▸ hlast⟩

theorem movesTo_fault (s : State) (f : Fault) : MovesTo s (.fault f) := by
  rintro t ⟨⟩

theorem movesTo_agentStep {en : Bool} (h : t.link = s.link) : MovesTo s (agentStep en t) := by
  cases en with
  | true => exact movesTo_next h
  | false => exact movesTo_fault s _

end MovesTo

/-- The register and ring operations and the agents' steps leave the link alone; the link and lifecycle operations, the pass and
the tick move it. -/
theorem exec_movesTo (i : Instr) (s : State) : MovesTo s (exec i s) := by
  cases i with
  | rdreg off => exact movesTo_answer_same (by split <;> rfl)
  | wrreg off val => exact movesTo_answer_same (by split <;> simp)
  | rdind addr => exact movesTo_answer_same (by split <;> simp [indRead])
  | wrind addr val => exact movesTo_answer_same (by split <;> simp [indWrite])
  | doorbell off val =>
    refine movesTo_answer_same ?_
    split
    · split <;> simp
    · rfl
  | setbit off mask => exact movesTo_answer_same (by split <;> simp)
  | clrbit off mask => exact movesTo_answer_same (by split <;> simp)
  | txpost csum hd segs => exact movesTo_answer_same (whenEnabled_link (txPost_link ..))
  | txreclaim idx => exact movesTo_answer_same (whenEnabled_link (txReclaim_link ..))
  | rxpost slot buf => exact movesTo_answer_same (whenEnabled_link (by split_ifs <;> simp))
  | rrdrain idx => exact movesTo_answer_same (whenEnabled_link (by simp))
  | rxrefill slot => exact movesTo_answer_same (whenEnabled_link (by split <;> simp))
  | onint => exact movesTo_answer (onInterrupt_moves s)
  | wdtick => exact movesTo_answer (tick_moves s)
  | submit csum hd segs => exact movesTo_answer_same (by split_ifs <;> simp)
  | lnkauto adv caps =>
    refine movesTo_answer ?_
    split_ifs
    · exact .of_same rfl
    · exact (renegotiation_restarts (s := autoRequested s adv caps) rfl).moves.of_start
    · exact .stays rfl rfl
  | lnkforce duplex speed =>
    refine movesTo_answer ?_
    split_ifs
    · exact .of_same rfl
    · exact (lnkforce_restarts s duplex speed).moves.of_start
    · exact .stays rfl rfl
  | resdone e =>
    refine movesTo_answer ?_
    split_ifs with hstale hstate
    · exact .of_same rfl
    · exact .of_same rfl
    · exact resolveDone_moves (s := takeCallback s e) (not_not.1 hstate)
  | start =>
    refine movesTo_answer ?_
    split
    · exact .of_same rfl
    · exact startWith_moves s
  | stop =>
    obtain ⟨hnew, hstate⟩ := shutDown_renews s
    refine movesTo_answer ?_
    split
    · exact .renews hnew (by rw [hstate]; nofun)
    · exact .of_same rfl
  | adpreset =>
    refine movesTo_answer ?_
    split
    · exact (adapterReset_restarts s).moves
    · exact .of_same rfl
  | devtx k => exact movesTo_agentStep rfl
  | devrx flags err len => exact movesTo_agentStep (by simp)
  | devsb => exact movesTo_agentStep rfl
  | physet status => exact movesTo_agentStep rfl

theorem runStimulus_movesTo (x : Stimulus) (s : State) : MovesTo s (runStimulus x s) := by
  cases x with
  | command r =>
    simp only [runStimulus, runRequest]
    split
    · exact exec_movesTo _ s
    · unfold runUndecodable
      split
      · exact movesTo_next rfl
      · exact movesTo_fault s _
      · exact movesTo_fault s _
  | rogueSb v =>
    simp only [runStimulus, rogueWriteSb]
    exact movesTo_agentStep (memWrite_link s ..)
  | rogueRr j v => exact movesTo_agentStep (memWrite_link s ..)

theorem step_movesTo (s : State) : MovesTo s (step s) := by
  unfold step
  split
  · exact movesTo_next rfl
  · exact runStimulus_movesTo _ _

/-- Settles O40: a step moves the link as its operation does, and a new epoch has not wrapped. -/
theorem linkTransitions : Obligations.LinkTransitions := by
  intro s t ht
  obtain ⟨hmoves, hlast⟩ := step_movesTo s t ht
  cases hmoves with
  | stays epoch state => exact .inl ⟨epoch, .inl state⟩
  | transits epoch states => exact .inl ⟨epoch, .inr states⟩
  | renews epoch state =>
    refine .inr ⟨?_, state⟩
    have hbelow : s.link.epoch ≠ 0xFFFFFFFF := fun h => by
      have hstays := hlast h
      rw [epoch, h] at hstays
      exact absurd hstays (by decide)
    rw [epoch]
    bv_omega

end Sys2Proof.Machine

/-! O43 to O46: the lifecycle operations (45_lifecycle.md R220 to R226). `START` and `ADPRESET` end alike, with the rings armed and
the link started; `START` without all its buffers undoes the calls to the allocator; `STOP` is a chain of procedures with one lemma
for each state on the way. -/

namespace Sys2Proof.Machine

/-! ## `ADPRESET` -/

/-- Settles O46: the operation is the adapter reset, which takes a new epoch. -/
theorem adapterResetRestarts : Obligations.AdapterResetRestarts := by
  intro s h hon hepoch
  obtain ⟨m, hreset, hrings, hframe⟩ := adapterReset_spec h hon
  refine ⟨m, ?_, hrings, hframe⟩
  rw [exec_adpreset_on hon, answer_next s _ (.inl hepoch), hreset]
  rfl

/-! ## `START` with its buffers -/

/-- The machine that `START` leaves when it has its buffers, with the memory given (45_lifecycle.md R220). -/
def broughtUp (s : State) (bufs : List Addr) (m : List Host.Cell) : State :=
  { s with
    tx := emptyTx s.par
    rx := { prod := 0, slot := bufs.map some, rrCons := 0 }
    poll := emptyPoller (startRaisesLink s.link s.csr)
    ctl := { s.ctl with txStalled := false, enabled := true }
    link := startedLink s.link
    csr := { startedCsrs s.link s.csr with devCtrlEn := true, mbTxProd := 0, mbRxProd := 0, mbRrCons := 0 }
    dev := armedDevice s.par
    mem := m
    port := { s.port with events := s.port.events ++ startEvents s.link } }

/-- Starting the link commutes with arming the device: it writes PHY and MAC registers only. -/
theorem startedCsrs_withDevice (l : Link) (c : Csrs) :
    startedCsrs l { c with devCtrlEn := true, mbTxProd := 0, mbRxProd := 0, mbRrCons := 0 } =
      { startedCsrs l c with devCtrlEn := true, mbTxProd := 0, mbRxProd := 0, mbRrCons := 0 } := by
  unfold startedCsrs
  cases l.mode <;> rfl

theorem bringUp_spec {s : State} (h : Inv s) (hoff : s.ctl.enabled = false) {bufs : List Addr} (hbufs : bufs.length = s.par.n)
    (e : Environment) :
    ∃ m : List Host.Cell,
      bringUp { s with env := e } bufs = broughtUp { s with env := e } bufs m ∧
      RingsPosted s.par bufs m ∧
      ∀ a, (∀ r ∈ s.par.regions, outside a r.1 r.2) → Memory.byteAt m a = Memory.byteAt s.mem a := by
  have hup : s.link.up = false := h.parts.link.not_up (by rw [h.off_down hoff]; nofun)
  obtain ⟨m0, hreset, hsb, -⟩ := resetDevice_spec { s with env := e }
  obtain ⟨m, hposted, hrings⟩ := rearmed_spec (s := regWrite { s with env := e } .devCtrl 0x00000002) (bufs := bufs)
    (by rw [hreset]; exact h.legal) (by rw [hreset]) (by rw [hreset]; exact h.rx_len) (by rw [hreset]; exact hsb)
    (by rw [hreset]; exact hbufs)
  rw [hreset] at hposted hrings
  have hbring : bringUp { s with env := e } bufs = broughtUp { s with env := e } bufs m := by
    simp only [bringUp, hreset]
    rw [← rearm, hposted, linkStart_eq, broughtUp, ← startedCsrs_withDevice]
    · rfl
    · exact hup
    · exact h.down_clear hup
  have hframe := (bringUp_writesOnly (s := { s with env := e }) hbufs).bytes
  rw [hbring] at hframe
  exact ⟨m, hbring, hrings, fun a ha => hframe a fun r _ => Region.avoids_of_regions ha r⟩

/-- Settles O43: the allocator hands out the listed buffers, and the adapter is brought up with them. -/
theorem startBringsUp : Obligations.StartBringsUp := by
  intro s bufs rest h hoff hepoch hbufs hlisted hfresh
  obtain ⟨lv, hgot, hlive, -⟩ := allocMany_listed bufs s rest hlisted hfresh
  obtain ⟨m, hbring, hrings, hframe⟩ := bringUp_spec h hoff hbufs
    { s.env with live := lv, allocIn := rest, allocCalls := s.env.allocCalls + bufs.length }
  refine ⟨m, lv, ?_, hlive, hrings, hframe⟩
  rw [exec_start_listed hoff hbufs hlisted hfresh, ← hbufs, hgot, answer_next s _ (.inl hepoch), hbring, hbufs]
  rfl

/-! ## `START` without its buffers -/

/-- Calls to the allocator, split after a number of them that all succeed. -/
theorem allocMany_add (j k : Nat) {s t : State} {got : List Addr} (hj : allocMany j s = (t, got, true)) :
    allocMany (j + k) s = ((allocMany k t).1, got ++ (allocMany k t).2.1, (allocMany k t).2.2) := by
  induction j generalizing s got with
  | zero =>
    cases hj
    rw [Nat.zero_add]
    rfl
  | succ j ih =>
    rw [Nat.add_right_comm]
    rcases alloc_cases s with ⟨b, -, ha⟩ | ha
    · simp only [allocMany, ha, Prod.mk.injEq] at hj ⊢
      obtain ⟨ht, rfl, hall⟩ := hj
      rw [ih (Prod.ext ht (Prod.ext rfl hall))]
      exact ⟨rfl, rfl, rfl⟩
    · simp [allocMany, ha] at hj

/-- Buffers handed out one after the other were not live before. -/
theorem allFresh_not_live {p : Params} (hcap : 1 ≤ p.bufcap) {bufs live : List Addr} (hf : allFresh p live bufs) :
    ∀ b ∈ bufs, b ∉ live := by
  induction bufs generalizing live with
  | nil => nofun
  | cons b rest ih =>
    obtain ⟨hfresh, hrest⟩ := hf
    intro x hx
    rcases List.mem_cons.1 hx with rfl | hx
    · exact freshBuffer_not_live hcap hfresh
    · exact fun hlive => ih hrest x hx (List.mem_cons_of_mem _ hlive)

/-- An allocator that fails after `bufs`: these are had, and it has been called once more. -/
theorem allocMany_short {s : State} {bufs : List Addr} {rest : List (Option Addr)} (hcap : 1 ≤ s.par.bufcap)
    (hshort : bufs.length < s.par.n) (hlisted : s.env.allocIn = bufs.map some ++ none :: rest)
    (hfresh : allFresh s.par s.env.live bufs) :
    ∃ lv : List Addr,
      allocMany s.par.n s =
        ({ s with env := { s.env with live := lv, allocIn := rest, allocCalls := s.env.allocCalls + bufs.length + 1 } }, bufs,
          false) ∧
      lv.filter (fun x => decide (x ∉ bufs)) = s.env.live := by
  obtain ⟨k, hk⟩ := Nat.exists_eq_add_of_lt hshort
  obtain ⟨lv, hgot, -, hfilter⟩ := allocMany_listed bufs s (none :: rest) hlisted hfresh
  have hnew := allFresh_not_live hcap hfresh
  refine ⟨lv, ?_, ?_⟩
  · rw [hk, Nat.add_assoc, allocMany_add bufs.length (k + 1) hgot, allocMany, alloc_none _ rest rfl]
    simp [State.countCall]
  · rw [hfilter _ fun b hb => by simpa using hb]
    exact List.filter_eq_self.2 fun b hb => decide_eq_true fun hmem => hnew b hmem hb

/-- Settles O44: what was taken is given back, and `live` is as it was. -/
theorem startFailsClean : Obligations.StartFailsClean := by
  intro s bufs rest hoff hshort hcap hlisted hfresh
  obtain ⟨lv, hgot, hlive⟩ := allocMany_short hcap hshort hlisted hfresh
  have hback : startWith (allocMany s.par.n s) = ({ s with
      env := { s.env with allocIn := rest, allocCalls := s.env.allocCalls + bufs.length + 1 }
      port := { s.port with events := s.port.events ++ bufs.map .bufFree } }, Result.err .outOfBuffers) := by
    rw [hgot, startWith, if_neg Bool.false_ne_true, freeAll_eq, hlive]
  have hstart : exec .start s = answer s (startWith (allocMany s.par.n s)) :=
    congrArg (answer s) (if_neg (by rw [hoff]; exact Bool.false_ne_true))
  rw [hstart, hback]
  exact answer_of_link _ rfl

/-! ## `STOP` -/

/-- The machine after the first steps of `STOP`: a new epoch, the link down, the device inactive (45_lifecycle.md R225). -/
def deviceStopped (s : State) : State :=
  { s with
    link := { downedLink s.link with epoch := s.link.epoch + 1 }
    csr := { s.csr with devCtrlEn := false, macMode := 0 }
    dev := { s.dev with active := false }
    port := { s.port with events := s.port.events ++ downEvents s.link (s.link.epoch + 1) } }

theorem deviceStopped_eq (s : State) : regWrite (linkDownNow (bumpEpoch s)) .devCtrl 0x00000000 = deviceStopped s := by
  rw [linkDownNow_eq]
  rfl

theorem deviceStopped_inv {s : State} (h : Inv s) : Inv (deviceStopped s) := by
  have hbump := bumpEpoch_keeps h
  have hdown := linkDownNow_keeps hbump.inv
  rw [← deviceStopped_eq]
  exact (regWrite_keeps hdown.inv .devCtrl 0x00000000).inv

/-- How many slots the status block reports done, as `STOP` takes it: an over-claim counts for none (45_lifecycle.md R225). -/
def reportedDone (s : State) : Nat :=
  reclaimed s ((s.memRead s.par.sbBase 2 % s.par.n + s.par.n - s.tx.cons) % s.par.n)

theorem reportedDone_le (s : State) : reportedDone s ≤ s.par.n - s.tx.free := by
  unfold reportedDone reclaimed
  split
  · assumption
  · exact Nat.zero_le _

/-- The machine with the oldest `c` slots in flight completed, and no fault (41_ring_manager.md R144). -/
def completed (s : State) (c : Nat) (sl : List (Option Handle)) : State :=
  { s with
    tx := { s.tx with cons := (s.tx.cons + c) % s.par.n, free := s.tx.free + c, slot := sl }
    poll := { s.poll with wdProgress := s.poll.wdProgress || decide (0 < c) }
    ctl := { s.ctl with txStalled := s.ctl.txStalled && decide (c = 0) }
    port := { s.port with events := s.port.events ++ reclaimEvents s c } }

theorem completed_zero {s : State} (h : Inv s) : completed s 0 s.tx.slot = s := by
  simp [completed, reclaimEvents, owedEvents, Nat.mod_eq_of_lt h.tx_cons_lt]

theorem finalReclaim_spec {s : State} (h : Inv s) :
    ∃ sl : List (Option Handle), finalReclaim s = completed s (reportedDone s) sl ∧ SlotsFreed s (reportedDone s) sl := by
  have hfield := (statusBlock_fields s).1
  have hdist := ringDist_eq (p := s.par) (s.memRead s.par.sbBase 2 % s.par.n) h.tx_cons_lt
  simp only [finalReclaim, hfield, hdist]
  split
  · next hle =>
    obtain ⟨sl, hreclaim, -, hfreed⟩ := txReclaim_spec s (s.memRead s.par.sbBase 2 % s.par.n) _ (reportedDone s) h rfl
      (by rw [Nat.mod_mod]; rfl)
    refine ⟨sl, ?_, hfreed⟩
    have hno : ¬ s.par.n - s.tx.free < (s.memRead s.par.sbBase 2 % s.par.n + s.par.n - s.tx.cons) % s.par.n := Nat.not_lt.2 hle
    rw [hreclaim, Nat.mod_mod, decide_eq_false hno, Bool.or_false]
    rfl
  · next hmore =>
    have hzero : reportedDone s = 0 := if_neg hmore
    rw [hzero]
    exact ⟨s.tx.slot, (completed_zero h).symm, h.tx_len, nofun, fun _ _ => rfl⟩

/-- What the slots still in flight owe does not depend on those freed before them. -/
theorem SlotsFreed.owed {s : State} {c k : Nat} {sl : List (Option Handle)} (f : SlotsFreed s c sl) (ev : Handle → Event)
    (hk : c + k ≤ s.par.n) :
    owedEvents (completed s c sl) ev ((s.tx.cons + c) % s.par.n) k = owedEvents s ev (s.tx.cons + c) k := by
  rw [← owedEvents_mod s ev (s.tx.cons + c)]
  refine owedEvents_congr ev _ k rfl fun j hj => ⟨rfl, ?_⟩
  rw [SlotsFreed.place]
  exact f.kept (by omega) (by omega)

/-- The transmit ring emptied: what is reported done completed, then the rest failed. -/
theorem txEmptied_spec {s : State} (h : Inv s) : ∃ (r : TxRing) (q : Poller) (b : Bool),
    txFailAll (finalReclaim s) = { s with
      tx := r
      poll := q
      ctl := { s.ctl with txStalled := b }
      port := { s.port with
        events := s.port.events ++ reclaimEvents s (reportedDone s) ++
          owedEvents s .txFailed (s.tx.cons + reportedDone s) (s.par.n - s.tx.free - reportedDone s) } } := by
  obtain ⟨sl, hdone, hfreed⟩ := finalReclaim_spec h
  have hle := reportedDone_le s
  have hfree := h.tx_free_le
  obtain ⟨sl', hfail, -⟩ := txFailAll_spec (completed s (reportedDone s) sl) (Nat.mod_lt _ s.par.n_pos) hfreed.len
    (by simp only [completed]; omega)
  have howed := hfreed.owed (k := s.par.n - (s.tx.free + reportedDone s)) .txFailed (by omega)
  rw [hdone, hfail, Nat.sub_sub, ← howed]
  exact ⟨_, _, _, rfl⟩

/-- The machine that `STOP` leaves, with the memory given (45_lifecycle.md R225). -/
def stopped (s : State) (m : List Host.Cell) : State :=
  { s with
    tx := emptyTx s.par
    rx := { prod := 0, slot := List.replicate s.par.n none, rrCons := 0 }
    poll := emptyPoller false
    ctl := { s.ctl with txStalled := false, enabled := false }
    link := { downedLink s.link with epoch := s.link.epoch + 1 }
    csr := { s.csr with devCtrlEn := false, macMode := 0 }
    dev := { s.dev with active := false }
    env := { s.env with live := s.env.live.filter fun x => decide (x ∉ slotBuffers s) }
    mem := m
    port := { s.port with
      events := s.port.events ++ downEvents s.link (s.link.epoch + 1) ++ reclaimEvents s (reportedDone s) ++
        owedEvents s .txFailed (s.tx.cons + reportedDone s) (s.par.n - s.tx.free - reportedDone s) ++
        (slotBuffers s).map .bufFree } }

theorem shutDown_spec {s : State} (h : Inv s) : ∃ m : List Host.Cell,
    shutDown s = stopped s m ∧
    (∀ i a, i < s.par.n → inSlot s.par i a → Memory.byteAt m a = 0) ∧
    ∀ a, outside a s.par.txBase (16 * s.par.n) → outside a s.par.rxBase (16 * s.par.n) → outside a s.par.rrBase (8 * s.par.n) →
      Memory.byteAt m a = Memory.byteAt s.mem a := by
  obtain ⟨r, q, b, hemptied⟩ := txEmptied_spec (deviceStopped_inv h)
  have hreleased := rxReleaseAll_eq (txFailAll (finalReclaim (deviceStopped s))) (by rw [hemptied]; exact h.rx_len)
  obtain ⟨m, hinit, hzero, hframe, -⟩ := ringInit_spec (rxReleaseAll (txFailAll (finalReclaim (deviceStopped s))))
  rw [hreleased, hemptied] at hinit hzero hframe
  refine ⟨m, ?_, hzero, hframe⟩
  simp only [shutDown, deviceStopped_eq]
  rw [hreleased, hemptied, hinit]
  rfl

/-- Settles O45: the operation is the shutdown; a slot's descriptors are among the bytes zeroed. -/
theorem stopQuiesces : Obligations.StopQuiesces := by
  rintro s c h hon hepoch hc
  obtain rfl : c = reportedDone s := hc
  obtain ⟨m, hdown, hzero, hframe⟩ := shutDown_spec h
  refine ⟨m, (stopped s m).env.live, ?_, fun b => ?_, fun i hi => ⟨?_, ?_, ?_⟩, hframe⟩
  · rw [exec_stop_on hon, answer_next s _ (.inl hepoch), hdown]
    simp only [stopped, reclaimEvents, ← List.append_assoc]
    rfl
  · rw [stopped, List.mem_filter, decide_eq_true_iff]
  · exact readLE_eq_zero _ _ _ fun a hlo hhi => hzero i a hi (inSlot_of_tx hi hlo hhi).1
  · exact readLE_eq_zero _ _ _ fun a hlo hhi => hzero i a hi (.inr (.inl (by unfold outside; omega)))
  · exact readLE_eq_zero _ _ _ fun a hlo hhi => hzero i a hi (inSlot_of_rr hi hlo hhi).1

end Sys2Proof.Machine

/-! O8, O11, O12, O14, O47 to O50: the environment's agents (46_environment_agents.md). A step of an agent is its enabling condition
and then one update of the state (`agentStep_iff`); a reaction to a register write is the write of that register, and that is the
whole of what the operation does. What is stored in memory is read back field by field. -/

namespace Sys2Proof.Machine

/-! ## The device's reset (R236) -/

theorem writeDevCtrl_noReset (s : State) {v : Word} (h : v.getLsbD 1 = false) :
    writeDevCtrl s v = { s with csr := { s.csr with devCtrlEn := v.getLsbD 0 }, dev := { s.dev with active := v.getLsbD 0 } } :=
  if_neg (Bool.eq_false_iff.1 h)

theorem writeDevCtrl_reset (s : State) {v : Word} (h : v.getLsbD 1 = true) :
    writeDevCtrl s v =
      devReset { s with csr := { s.csr with devCtrlEn := v.getLsbD 0 }, dev := { s.dev with active := v.getLsbD 0 } } :=
  if_pos h

/-- Settles O11: the enable bit is stored first, and the reset, where it is asked for, leaves it as stored. -/
theorem wrregDevCtrlResets : Obligations.WrregDevCtrlResets := by
  intro s v
  have hexec : exec (.wrreg 0x30 v) s = .next ((writeDevCtrl s v).setResult (.okVal 0)) := exec_wrreg s v (by decide)
  refine ⟨fun hbit => ?_, fun hbit => ?_⟩
  · rw [hexec, writeDevCtrl_noReset s hbit]
    rfl
  · obtain ⟨m, hreset, hzero, hsame, -⟩ :=
      devReset_spec { s with csr := { s.csr with devCtrlEn := v.getLsbD 0 }, dev := { s.dev with active := v.getLsbD 0 } }
    refine ⟨m, ?_, readLE_eq_zero _ _ _ hzero, hsame⟩
    rw [hexec, writeDevCtrl_reset s hbit, hreset]
    rfl

/-! ## Doorbells (R237) -/

/-- What a mailbox stores of a word. -/
theorem low16_eq (v : Word) : (v.setWidth 16).setWidth 32 = BitVec.ofNat 32 (v.toNat % 65536) :=
  BitVec.eq_of_toNat_eq (by simp)

theorem devDoorbell_tx (s : State) (v : Nat) (h : s.dev.txSeen < s.par.n) :
    devDoorbell s .mbTxProd v = { s with dev := txRung s.par s.dev v } := by
  simp only [devDoorbell, txRung, ringDist_eq _ h]
  split <;> rfl

theorem devDoorbell_rx (s : State) (v : Nat) (h : s.dev.rxSeen < s.par.n) :
    devDoorbell s .mbRxProd v = { s with dev := rxRung s.par s.dev v } := by
  simp only [devDoorbell, rxRung, ringDist_eq _ h]
  split <;> rfl

theorem devDoorbell_rr (s : State) (v : Nat) : devDoorbell s .mbRrCons v = { s with dev := rrRung s.dev v } := by
  simp only [devDoorbell, rrRung]
  split <;> rfl

/-- A doorbell stores the low half of the word and passes it on reduced to an index. -/
theorem ringDoorbell_eq (s : State) (c : Csr) (v : Word) :
    ringDoorbell s c v = devDoorbell (storeMailbox s c v) c (v.toNat % 65536 % s.par.n) := rfl

/-- The two operations that ring a mailbox do the same (40_register_access.md R132, R135). -/
theorem exec_mailbox (s : State) (v : Word) {off : BitVec 16} {c : Csr} (hc : csrAt off = some c) (hm : c.isMailbox = true) :
    ∀ i ∈ [Instr.doorbell off v, .wrreg off v], exec i s = .next ((ringDoorbell s c v).setResult (.okVal 0)) := by
  have hlegal : off.toNat % 4 = 0 ∧ off.toNat < 0x100 := by
    rw [offset_of_csrAt hc]
    cases c <;> decide
  have hwrite : writeAt s off v = ringDoorbell s c v := by
    rw [writeAt, hc]
    cases c with
    | mbTxProd | mbRxProd | mbRrCons => rfl
    | _ => cases hm
  have hring : exec (.doorbell off v) s = answer s (ringDoorbell s c v, .okVal 0) := by
    show execDoorbell off v s = _
    simp only [execDoorbell, hc, hm, if_true]
  intro i hi
  simp only [List.mem_cons, List.not_mem_nil, or_false] at hi
  obtain rfl | rfl := hi
  · rw [hring]
    exact answer_of_link _ (ringDoorbell_link ..)
  · rw [exec_wrreg s v hlegal, hwrite]

/-- Away from the mailboxes there is no doorbell. -/
theorem exec_doorbell_refused (s : State) (v : Word) {off : BitVec 16} (h : off.toNat ∉ [0x80, 0x84, 0x88]) :
    exec (.doorbell off v) s = .next (s.setResult (.err .badOperand)) := by
  have hno : ∀ c, csrAt off = some c → c.isMailbox = false := by
    intro c hc
    rw [offset_of_csrAt hc] at h
    cases c with
    | mbTxProd | mbRxProd | mbRrCons => exact absurd (by decide) h
    | _ => rfl
  have hrefused : exec (.doorbell off v) s = answer s (s, .err .badOperand) := by
    show execDoorbell off v s = _
    unfold execDoorbell
    split
    · next c hc => rw [hno c hc, if_neg Bool.false_ne_true]
    · rfl
  rw [hrefused]
  exact answer_of_link _ rfl

/-- Settles O14: each mailbox stores its half word, and the device's reaction is that of the mailbox. -/
theorem doorbellNotifiesDevice : Obligations.DoorbellNotifiesDevice := by
  refine fun s v h => ⟨fun i hi => ?tx, fun i hi => ?rx, fun i hi => ?rr, fun off hoff => exec_doorbell_refused s v hoff⟩
  case tx =>
    rw [exec_mailbox s v (c := .mbTxProd) rfl rfl i hi, ringDoorbell_eq, devDoorbell_tx _ _ (by exact h.dev_tx_seen), ← low16_eq]
    rfl
  case rx =>
    rw [exec_mailbox s v (c := .mbRxProd) rfl rfl i hi, ringDoorbell_eq, devDoorbell_rx _ _ (by exact h.dev_rx_seen), ← low16_eq]
    rfl
  case rr =>
    rw [exec_mailbox s v (c := .mbRrCons) rfl rfl i hi, ringDoorbell_eq, devDoorbell_rr, ← low16_eq]
    rfl

/-! ## The PHY (R244, R245) -/

/-- A restart is asked for by bit 1, which is not stored; it clears `AN_COMPLETE`, which is a change exactly if it was set. -/
theorem writePhyCtrl_eq (s : State) (v : Word) :
    writePhyCtrl s v = { s with
      csr := { s.csr with
        phyCtrl := v &&& 0x1D#32
        phyStatus := if v.getLsbD 1 then s.csr.phyStatus &&& 0xFFFFFFFD#32 else s.csr.phyStatus }
      poll := { s.poll with irqLink := s.poll.irqLink || (v.getLsbD 1 && s.csr.phyStatus.getLsbD 1) } } := by
  unfold writePhyCtrl
  cases v.getLsbD 1 with
  | false => simp
  | true =>
    simp only [if_true, phyRestart, setPhyStatus, clear_an_ne, Bool.true_and]
    rfl

/-- Settles O12: the write of the register is the whole of the operation. -/
theorem wrregPhyCtrlRestarts : Obligations.WrregPhyCtrlRestarts := by
  intro s v
  have hexec : exec (.wrreg 0x44 v) s = .next ((writePhyCtrl s v).setResult (.okVal 0)) := exec_wrreg s v (by decide)
  rw [hexec, writePhyCtrl_eq]
  rfl

/-! ## Steps that exist under a condition (R235) -/

/-- A step of an agent exists exactly where its enabling condition holds. -/
theorem agentStep_iff {en : Bool} {P : Prop} (t : State) (h : en = true ↔ P) :
    (P → agentStep en t = .next t) ∧ (¬ P → agentStep en t = .fault .noSuchStep) := by
  cases en with
  | true => exact ⟨fun _ => rfl, fun hno => absurd (h.1 rfl) hno⟩
  | false => exact ⟨fun hyes => absurd (h.2 hyes) Bool.false_ne_true, fun _ => rfl⟩

/-- Settles O50: the status is set under the one condition, and it is a change exactly if it differs. -/
theorem physetReports : Obligations.PhysetReports := by
  intro s status
  have hen : (status.extractLsb' 2 2 != 3) = true ↔ status.extractLsb' 2 2 ≠ 3 := bne_iff_ne
  have hchange : (status.setWidth 32 != s.csr.phyStatus) = decide (s.csr.phyStatus ≠ status.setWidth 32) := by
    rw [bne_comm, Bool.eq_iff_iff, bne_iff_ne, decide_eq_true_iff]
  obtain ⟨hyes, hno⟩ := agentStep_iff (setPhyStatus s (status.setWidth 32)) hen
  refine ⟨fun hspeed => ?_, fun hspeed => hno (not_not.2 hspeed)⟩
  rw [← hchange]
  exact hyes hspeed

theorem devtxEnabled_iff (s : State) (k : Nat) :
    devtxEnabled s k = true ↔ s.dev.active = true ∧ 1 ≤ k ∧ k ≤ s.dev.txPending := by
  simp [devtxEnabled, and_assoc]

/-- Settles O47: the enabling condition is the one stated, and the step is one update of the device. -/
theorem devtxConsumes : Obligations.DevtxConsumes := fun s k => agentStep_iff _ (devtxEnabled_iff s k.toNat)

/-! ## Return descriptors (R241) -/

/-- On a ring of at least two slots, room for a return is at most `N - 2` of them undrained. -/
theorem devrxEnabled_iff {s : State} (h : Inv s) (len : Nat) :
    devrxEnabled s len = true ↔
      s.dev.active = true ∧ 1 ≤ s.dev.rxAvail ∧ (s.dev.rrProd + s.par.n - s.dev.rrSeen) % s.par.n ≤ s.par.n - 2 ∧
        len ≤ s.memRead (rxDescAddr s.par s.dev.rxCons + 8) 2 := by
  have hn := h.legal.two_le_n
  have hroom : ringDist s.par s.dev.rrProd s.dev.rrSeen + 2 ≤ s.par.n ↔
      (s.dev.rrProd + s.par.n - s.dev.rrSeen) % s.par.n ≤ s.par.n - 2 := by
    rw [ringDist_eq _ h.dev_rr_seen]
    omega
  simp only [devrxEnabled, Bool.and_eq_true, decide_eq_true_eq, hroom, and_assoc]
  rfl

/-- A return descriptor in memory (20_memory.md R87). -/
structure RrDescIs (p : Params) (m : List Host.Cell) (j slot len flags err : Nat) : Prop where
  slot  : Memory.readLE m (rrDescAddr p j) 2 = slot
  len   : Memory.readLE m (rrDescAddr p j + 2) 2 = len
  flags : Memory.readLE m (rrDescAddr p j + 4) 2 = flags
  err   : Memory.readLE m (rrDescAddr p j + 6) 2 = err

/-- Two bytes hold a value of 16 bits. -/
theorem readLE_writeLE_two (m : List Host.Cell) (a : Nat) {v : Nat} (h : v < 65536) :
    Memory.readLE (Memory.writeLE m a 2 v) a 2 = v := by
  rw [readLE_writeLE_same]
  exact Nat.mod_eq_of_lt h

/-- A descriptor written is read back: the four stores do not overlap. -/
theorem writeRrDesc_reads (s : State) (j : Nat) {slot len flags err : Nat} (hslot : slot < 65536) (hlen : len < 65536)
    (hflags : flags < 65536) (herr : err < 65536) :
    RrDescIs s.par (s.writeRrDesc j slot len flags err).mem j slot len flags err := by
  constructor <;> simp only [State.writeRrDesc, memWrite_mem]
  case slot =>
    rw [readLE_writeLE_apart _ _ _ _ _ _ (by omega), readLE_writeLE_apart _ _ _ _ _ _ (by omega),
      readLE_writeLE_apart _ _ _ _ _ _ (by omega), readLE_writeLE_two _ _ hslot]
  case len =>
    rw [readLE_writeLE_apart _ _ _ _ _ _ (by omega), readLE_writeLE_apart _ _ _ _ _ _ (by omega), readLE_writeLE_two _ _ hlen]
  case flags => rw [readLE_writeLE_apart _ _ _ _ _ _ (by omega), readLE_writeLE_two _ _ hflags]
  case err => rw [readLE_writeLE_two _ _ herr]

/-- The step is the descriptor in memory and the device's cursors moved on, and nothing else. -/
theorem exec_devrx (flags err : BitVec 2) (len : BitVec 16) (s : State) :
    exec (.devrx flags err len) s = agentStep (devrxEnabled s len.toNat) { s with
      dev := { s.dev with rrProd := (s.dev.rrProd + 1) % s.par.n, rxCons := (s.dev.rxCons + 1) % s.par.n,
                          rxAvail := s.dev.rxAvail - 1 }
      mem := (s.writeRrDesc s.dev.rrProd s.dev.rxCons len.toNat flags.toNat err.toNat).mem } := by
  show execDevrx flags err len s = _
  simp [execDevrx, State.writeRrDesc, State.memWrite, ringInc_eq]

/-- Settles O48: under its condition the step writes one descriptor, which is read back. -/
theorem devrxReturnsFrame : Obligations.DevrxReturnsFrame := by
  intro s flags err len h
  obtain ⟨hyes, hno⟩ := agentStep_iff _ (devrxEnabled_iff h len.toNat)
  rw [exec_devrx]
  have hslot : s.dev.rxCons < 65536 := by have := h.dev_rx_cons; have := h.legal.n_le; omega
  have hdesc := writeRrDesc_reads s s.dev.rrProd hslot len.isLt (Nat.lt_of_lt_of_le flags.isLt (by decide))
    (Nat.lt_of_lt_of_le err.isLt (by decide))
  exact ⟨fun hen => ⟨_, hyes hen, hdesc.slot, hdesc.len, hdesc.flags, hdesc.err, writeRrDesc_sameOutside _ _ _ _ _ _⟩, hno⟩

/-! ## The status block (R243) and the writes of R242 -/

/-- Eight bytes hold a value of 64 bits. -/
theorem readLE_writeLE_eight (m : List Host.Cell) (a : Nat) (v : BitVec 64) :
    Memory.readLE (Memory.writeLE m a 8 v.toNat) a 8 = v.toNat := by
  rw [readLE_writeLE_same]
  exact Nat.mod_eq_of_lt v.isLt

/-- The three fields of eight bytes whose value is their sum (20_memory.md R88). -/
theorem readLE_fields {m : List Host.Cell} {a x y z : Nat} (h : Memory.readLE m a 8 = x + 65536 * (y + 65536 * z))
    (hx : x < 65536) (hy : y < 65536) :
    Memory.readLE m a 2 = x ∧ Memory.readLE m (a + 2) 2 = y ∧ Memory.readLE m (a + 4) 4 = z := by
  have hlow := readLE_lt m a 2
  have hmid := readLE_lt m (a + 2) 2
  have hsplit := readLE_add m a 2 6
  have hrest := readLE_add m (a + 2) 2 4
  simp only [Nat.reduceAdd, Nat.add_assoc] at hsplit hrest
  omega

theorem publishedBlock_toNat {d : Device} (htx : d.txCons < 65536) (hrr : d.rrProd < 65536) :
    (publishedBlock d).toNat = d.txCons + 65536 * (d.rrProd + 65536 * d.tag.toNat) := by
  have hsum : (publishedBlock d).toNat = (d.tag ++ idx16 d.rrProd).toNat * 2 ^ 16 + (idx16 d.txCons).toNat :=
    toNat_append_eq_add _ _
  rw [hsum, toNat_append_eq_add, idx16_toNat htx, idx16_toNat hrr]
  ring

/-- The device with the tag of the block it publishes next. -/
def Device.retagged (d : Device) : Device := { d with tag := d.tag + 1 }

/-- The step is one store of eight bytes, the new tag and the interrupt. -/
theorem exec_devsb (s : State) :
    exec .devsb s = agentStep s.dev.active { s with
      dev := s.dev.retagged
      poll := { s.poll with irqRing := true }
      mem := Memory.writeLE s.mem s.par.sbBase 8 (publishedBlock s.dev.retagged).toNat } := rfl

/-- Settles O49: the block published is the new tag and the two indices, and these are read back. -/
theorem devsbPublishes : Obligations.DevsbPublishes := by
  intro s h
  have hidx : ∀ {i}, i < s.par.n → i < 65536 := fun hi => by have := h.legal.n_le; omega
  have hread := readLE_writeLE_eight s.mem s.par.sbBase (publishedBlock s.dev.retagged)
  have hblock := publishedBlock_toNat (d := s.dev.retagged) (hidx h.dev_tx_cons) (hidx h.dev_rr_prod)
  obtain ⟨htx, hrr, htag⟩ := readLE_fields (hread.trans hblock) (hidx h.dev_tx_cons) (hidx h.dev_rr_prod)
  rw [exec_devsb]
  refine ⟨fun hon => ⟨_, ?_, htx, hrr, htag, writeLE_sameOutside _ _ _ _⟩, fun hoff => ?_⟩
  · rw [hon]
    rfl
  · rw [hoff]
    rfl

theorem step_stimulus {s : State} {x : Stimulus} {rest : List Stimulus} (hp : s.port.pending = x :: rest) :
    step s = runStimulus x (s.withPending rest) := by
  simp only [step, hp]

/-- Settles O8: either write is one store of eight bytes, at a place that exists. -/
theorem rogueWritesEightBytes : Obligations.RogueWritesEightBytes := by
  refine ⟨fun s v rest hp => ?sb, fun s j v rest hp hj => ?rr⟩
  case sb =>
    refine ⟨Memory.writeLE s.mem s.par.sbBase 8 v.toNat, ?_, readLE_writeLE_eight .., writeLE_sameOutside _ _ _ _⟩
    rw [step_stimulus hp]
    rfl
  case rr =>
    refine ⟨Memory.writeLE s.mem (rrDescAddr s.par j) 8 v.toNat, ?_, readLE_writeLE_eight .., writeLE_sameOutside _ _ _ _⟩
    rw [step_stimulus hp]
    exact (agentStep_iff ((s.withPending rest).memWrite (rrDescAddr s.par j) 8 v.toNat) decide_eq_true_iff).1 hj

end Sys2Proof.Machine

/-! O7, O16: the words and the operands the machine refuses (60_exceptions.md R260, R262, R276; 46_environment_agents.md R235). A
refused word ends before any operation is looked at; a refused operand ends its operation with the state it began with, which is
`answer_refused`, and behind the enable gate `answer_enabled`. -/

namespace Sys2Proof.Machine

/-! ## No stimulus, and no step -/

theorem step_idle {s : State} (hp : s.port.pending = []) : step s = .next s := by
  simp only [step, hp, idle]

theorem runUndecodable_agent {r : Request} (hport : r.port ≠ .host) (s : State) : runUndecodable r s = .fault .noSuchStep := by
  unfold runUndecodable
  split
  · next hhost => exact absurd hhost hport
  · rfl
  · rfl

/-- An agent's request that decodes to nothing is no step. -/
theorem step_noSuchStep {s : State} {r : Request} {rest : List Stimulus} (hp : s.port.pending = .command r :: rest)
    (hport : r.port ≠ .host) (hd : decode r = none) : step s = .fault .noSuchStep := by
  rw [step_stimulus hp]
  simp only [runStimulus, runRequest, hd]
  exact runUndecodable_agent hport _

/-- Settles O7: an empty list of stimuli is the idle step, and only the command port answers a word that says nothing. -/
theorem stepIdlesOrHasNoStep : Obligations.StepIdlesOrHasNoStep :=
  ⟨fun _ hp => step_idle hp, fun _ _ _ hp hport hd => step_noSuchStep hp hport hd⟩

/-! ## Operands outside their legal sets -/

theorem bufferOperandOk_iff (b : Addr) : bufferOperandOk b = true ↔ b ≠ 0 ∧ b.toNat % 8 = 0 := by
  simp [bufferOperandOk]

/-- Both operations of the indirect window refuse an address outside `imem`. -/
theorem exec_illegal_imemAddr (s : State) {addr : Word} (v : Word)
    (h : ¬ (addr.toNat % 4 = 0 ∧ addr.toNat / 4 < s.par.imemWords)) :
    exec (.rdind addr) s = .next (s.setResult (.err .badOperand)) ∧
      exec (.wrind addr v) s = .next (s.setResult (.err .badOperand)) := by
  have hbad : ¬ imemAddrOk s.par addr = true := fun hok => h ((imemAddrOk_iff ..).1 hok)
  exact ⟨answer_refused (if_neg hbad), answer_refused (if_neg hbad)⟩

section Slot

variable {s : State} {slot : BitVec 16}

theorem exec_rxpost_slot_outside (buf : Addr) (hon : s.ctl.enabled = true) (hslot : s.par.n ≤ slot.toNat) :
    exec (.rxpost slot buf) s = .next (s.setResult (.err .badOperand)) :=
  answer_enabled hon (if_pos hslot) rfl

theorem exec_rxrefill_slot_outside (hon : s.ctl.enabled = true) (hslot : s.par.n ≤ slot.toNat) :
    exec (.rxrefill slot) s = .next (s.setResult (.err .badOperand)) :=
  answer_enabled hon (if_pos hslot) rfl

/-- The buffer is checked after the slot, but both checks refuse alike, so the slot does not matter. -/
theorem exec_rxpost_illegal_buffer {buf : Addr} (hon : s.ctl.enabled = true) (hbuf : buf = 0 ∨ buf.toNat % 8 ≠ 0) :
    exec (.rxpost slot buf) s = .next (s.setResult (.err .badOperand)) := by
  rcases Nat.lt_or_ge slot.toNat s.par.n with hslot | hslot
  case inr => exact exec_rxpost_slot_outside buf hon hslot
  case inl =>
    have hbad : bufferOperandOk buf = false := by
      rw [Bool.eq_false_iff, ne_eq, bufferOperandOk_iff]
      tauto
    exact answer_enabled hon ((if_neg (Nat.not_le.2 hslot)).trans (if_pos (by rw [hbad]; rfl))) rfl

end Slot

theorem exec_lnkauto_no_caps (s : State) (adv : BitVec 2) :
    exec (.lnkauto adv 0) s = .next (s.setResult (.err .badOperand)) :=
  answer_refused (if_pos rfl)

/-- Speed code 3 is reserved (10_state.md R45). -/
theorem exec_lnkforce_reserved_speed (s : State) (duplex : Bool) :
    exec (.lnkforce duplex 3) s = .next (s.setResult (.err .badOperand)) :=
  answer_refused (if_pos rfl)

/-- Settles O16: each operation tests its operand before it does anything, and hands back the state it was given. -/
theorem badOperandsRefused : Obligations.BadOperandsRefused := by
  rintro s t rfl
  refine ⟨fun off v h => ?offset, fun addr v h => ?imem, fun slot buf hon hslot => ?slot, fun slot buf hon hbuf => ?buffer,
    fun adv => ?caps, fun duplex => ?speed⟩
  case offset => exact exec_illegal_offset s v h _ (by simp)
  case imem => exact exec_illegal_imemAddr s v h
  case slot => exact ⟨exec_rxpost_slot_outside buf hon hslot, exec_rxrefill_slot_outside hon hslot⟩
  case buffer => exact exec_rxpost_illegal_buffer hon hbuf
  case caps => exact exec_lnkauto_no_caps s adv
  case speed => exact exec_lnkforce_reserved_speed s duplex

end Sys2Proof.Machine
